-- ==== Sys2Proof/Word.lean ====
section
/-! DEFINITION. The word types of the dispatcher block and the five access widths (spec 00_scope R9, R10; 30_encoding R162). -/

namespace Sys2Proof

/-- One byte of a region, a data block or a frame's local data. -/
abbrev Byte := BitVec 8

/-- One 64-bit word of a command: a header, a descriptor word, a parameter word or a data word (R151). -/
abbrev Word := BitVec 64

/-- The 48-bit data-in and data-out values of the command port (R151). -/
abbrev Data := BitVec 48

/-- A 16-bit block number; 0 stands for the null block (R31, R38). -/
abbrev BlockNum := BitVec 16

/-- A 19-bit bit address `8 * byte + bit` as a descriptor or a pointer carries it (R10, R107). -/
abbrev BitAddr := BitVec 19

/-- The five access widths (R162). -/
inductive Width where
  | w1 | w8 | w16 | w32 | w48
  deriving DecidableEq, Repr

/-- How many bits a width moves. -/
def Width.bits : Width → Nat
  | .w1 => 1
  | .w8 => 8
  | .w16 => 16
  | .w32 => 32
  | .w48 => 48

/-- How many bytes a multi-bit width moves (`n = w/8` of R102); 0 for the one-bit width. -/
def Width.bytes (w : Width) : Nat := w.bits / 8

/-- How many bytes of its buffer an access touches: one for a bit (R103), else its own bytes (R102). -/
def Width.span (w : Width) : Nat := if w = .w1 then 1 else w.bytes

end Sys2Proof
end

