-- ==== Sys2Proof/Config.lean ====
section
/-! DEFINITION. What an implementation fixes: the configuration record `Cfg` of 00_scope R7, the named constants of the same
table, and the model's open parameters (R8) as constants with no body, so that no proof can use a particular choice of them. -/

namespace Sys2Proof

/-- `ACCU_COUNT`: 2 or 4 accumulators (R7, R35). -/
inductive AccuCount where
  | two | four
  deriving DecidableEq, Repr

/-- The configuration record (R7). `CONFIG_SET` changes the first ten fields; the last three never change. Sizes and counts
run from 0 to 65536, which the `Fin` type says. -/
structure Cfg where
  accuCount : AccuCount
  inputSize : Fin 65537
  outputSize : Fin 65537
  flagSize : Fin 65537
  timerCount : Fin 65537
  counterCount : Fin 65537
  /-- `CYCLE_LIMIT_NS` (R7, R510) -/
  cycleLimit : Nat
  /-- `RUN_LIMIT_NS`; 0 means no limit (R7, R512) -/
  runLimit : Nat
  /-- `CLOCK_OFFSET`: none, or a byte offset of the flag region (R7) -/
  clockOffset : Option (BitVec 16)
  /-- `EXT_INSNS`: stored, read by no rule of the block (R502) -/
  extInsns : Bool
  /-- `MS_CLOCK_BITS` (R52) -/
  msClockBits : Nat
  /-- `MS_WRAP_LEAD`, milliseconds (R471) -/
  msWrapLead : Nat
  /-- `MI_VALIDATE` (R377) -/
  miValidate : Bool
  deriving DecidableEq, Repr

/-- One micro-command an instruction body issues: its words and its data-in value `DIN` (R150, R151). -/
structure BodyCmd where
  words : List Word
  din : Data
  deriving DecidableEq, Repr

/-- The state of a timer or counter cell. `TCM.Cell` is a type the model's argument `TCM` brings (R330); any cell with
countably many states has a code in `Nat`. DESIGN CHOICE, see notes/assumptions/9.md. -/
abbrev Cell := Nat

/-- The two cell arrays (R330: `kind` is T or C). -/
inductive CellKind where
  | timer | counter
  deriving DecidableEq, Repr

namespace Config

/-- `PAREN_MAX` (R7). -/
def parenMax : Nat := 7
/-- `MCR_MAX` (R7). -/
def mcrMax : Nat := 8
/-- `BATCH`: a refresh after every 64 instructions (R7, R426). -/
def batch : Nat := 64
/-- `CLOCK_TICK_NS` (R7). -/
def clockTickNs : Nat := 100000000
/-- The toggle periods of bits 0 to 7 of the clock byte, in ticks of 0.1 s (R7 `CLOCK_PERIODS`, R521 `P`). -/
def clockPeriods : List Nat := [1, 2, 4, 5, 8, 10, 16, 20]
/-- `STATS_WINDOW_NS` (R7). -/
def statsWindowNs : Nat := 1000000000
/-- `MAIN_OB` (R7). -/
def mainOb : BlockNum := 1
/-- `WARM_OB` (R7, R472). -/
def warmOb : BlockNum := 100
/-- `COLD_OB` (R7, R472). -/
def coldOb : BlockNum := 102

/-- The configuration `State.reset` starts with. `Cfg0` is an argument of the model (R7, D76); the values are those of the base
state `V0` of 95_test_vectors section 0, and for `MS_CLOCK_BITS` and `MS_WRAP_LEAD` those of its row RG13.
DESIGN CHOICE, unsafe: notes/assumptions/3.md. -/
def cfg0 : Cfg where
  accuCount := .two
  inputSize := 2
  outputSize := 2
  flagSize := 16
  timerCount := 4
  counterCount := 4
  cycleLimit := 1000000000000
  runLimit := 0
  clockOffset := none
  extInsns := false
  msClockBits := 31
  msWrapLead := 1000
  miValidate := false

/-- The instruction-body parameter `Body` (R150, D70): the next micro-command of the instruction with this code after these
replies, or none for DONE. Uninterpreted. -/
opaque body : Nat → List Data → Option BodyCmd

/-- `TCM.reset` (R330, D71). Uninterpreted. -/
opaque tcmReset : Cell

/-- `TCM.state`: the one-bit read of a cell (R330). Uninterpreted. -/
opaque tcmState : Cell → BitVec 1

/-- `TCM.value`: the 16-bit binary read of a cell (R330). Uninterpreted. -/
opaque tcmValue : Cell → BitVec 16

/-- `TCM.bcd`: the 16-bit "BCD-like display value" of a cell (R330). Uninterpreted. -/
opaque tcmBcd : Cell → BitVec 16

/-- `TCM.step(kind, op, c, now, arg)`: the new cell and the 16-bit result (R330). Uninterpreted. -/
opaque tcmStep : CellKind → BitVec 8 → Cell → Nat → BitVec 16 → Cell × BitVec 16

/-- A byte of the local data of a newly built frame: a draw (R46, D15, D80), one for each frame built (the first argument counts
them) and each byte. Free value, see notes/assumptions/7.md. -/
opaque localByte : Nat → Nat → Byte

/-- A clock reading that no entry of the model's input list supplies (R112, D77): a draw, one for each reading. Free value, see
notes/assumptions/5.md. -/
opaque clockDraw : Nat → Nat

end Config

end Sys2Proof
end

