-- ==== Sys2Proof/Syntax.lean ====
section
/-! DEFINITION. The commands of the block, one constructor of `Instr` for each row of spec/opcode_table.json, and the record form
of the operand descriptors (30_encoding R153, R154, R160 to R164). -/

namespace Sys2Proof

/-- The kinds of code block (R31, R45). -/
inductive BlockKind where
  | ob | fc | fb | sfc | sfb
  deriving DecidableEq, Repr

/-- The kinds a block-reference operand can name (R163, row BLK). -/
inductive RefKind where
  | code (k : BlockKind)
  | db
  deriving DecidableEq, Repr

/-- The views of the status register (R163, row STW). -/
inductive StwView where
  | raw | eq0 | ne0 | gt0 | lt0 | ge0 | le0 | uo
  deriving DecidableEq, Repr

/-- The two address registers (R36). -/
inductive ArSel where
  | ar1 | ar2
  deriving DecidableEq, Repr

/-- The operands of the fourteen tags that name a value or a location by themselves: IMM to BLK, TAG 0 to 13 (R161, R163). -/
inductive Prim where
  | imm (w : Width) (value : Data)
  | input (w : Width) (ba : BitAddr)
  | output (w : Width) (ba : BitAddr)
  | flag (w : Width) (ba : BitAddr)
  | loc (w : Width) (ba : BitAddr)
  | parentLoc (w : Width) (ba : BitAddr)
  /-- `q` is the embedded block number of a qualified operand (`SUB = 1`). -/
  | db (w : Width) (q : Option BlockNum) (ba : BitAddr)
  | di (w : Width) (q : Option BlockNum) (ba : BitAddr)
  | timer (w : Width) (bcd : Bool) (idx : BitVec 16)
  | counter (w : Width) (bcd : Bool) (idx : BitVec 16)
  /-- `out` is true for the peripheral output side (`SUB = 1`). -/
  | periph (w : Width) (out : Bool) (ba : BitAddr)
  | stw (w : Width) (view : StwView) (bit : Fin 9)
  | ar (w : Width) (n : ArSel)
  | blk (w : Width) (kind : RefKind) (num : BlockNum)
  deriving DecidableEq, Repr

/-- A one-word operand: a `Prim`, or a named interface field (TAG 14) with its sub-offset. -/
inductive Operand where
  | prim (p : Prim)
  | field (w : Width) (idx : BitVec 16) (sub : BitAddr)
  deriving DecidableEq, Repr

/-- The target of an indirect operand: `TGT` with its `TSUB` (R164). -/
inductive IndTarget where
  | input | output | flag | loc | parentLoc | db | di
  | timer (bcd : Bool)
  | counter (bcd : Bool)
  | periph (out : Bool)
  | blk (kind : RefKind)
  /-- `TGT = 15`: the pointer's area code selects the target. -/
  | crossing
  deriving DecidableEq, Repr

/-- A decoded operand descriptor: one word, or the two words of an indirect operand (R164). -/
inductive Desc where
  | direct (o : Operand)
  | ind (w : Width) (tgt : IndTarget) (disp : BitAddr) (inner : Operand)
  deriving DecidableEq, Repr

/-- The words of an operand descriptor as a command carries them: one word, or two when the tag field is IND (R152). They are
decoded where the command's own rule says `decode`, because a descriptor that is not well-formed is a fault of that point of
the command (R165, R203) and the error record keeps the words (R546). -/
structure Descriptor where
  w0 : Word
  w1 : Option Word
  deriving DecidableEq, Repr

/-- One parameter pair of a CALL: the parameter word and the actual's descriptor (R156, R352). -/
structure Param where
  word : Word
  d : Descriptor
  deriving DecidableEq, Repr

/-- The commands: one constructor per row of spec/opcode_table.json, in the table's order. A `mioff` that the shape does not use, a
non-zero `nparam` of a raw shape, a `reg` or `param` code that is reserved and `sel` of IMAGE_WRITE are kept, because the
command's own rule says what they raise (R353, R315, R500, R531). -/
inductive Instr where
  | fetch (amask : BitVec 5) (d : Descriptor)
  | store (amask : BitVec 5) (d : Descriptor)
  | regRead (reg : BitVec 4)
  | regWrite (reg : BitVec 4)
  | openDb (sel : Bool) (num : BlockNum)
  | stwWrite (mask val : BitVec 9)
  | ccSet (a1 a0 ovf : Bool)
  | tcOp (sel : Bool) (idx : BitVec 16) (op : BitVec 8) (arg : BitVec 16)
  | jumpRel (imm : BitVec 32)
  | jumpLabel (label : BitVec 32)
  | blockEnd
  | parenPush (entry : BitVec 16)
  | parenPop
  | mcrPush (bit : Bool)
  | mcrPop
  | mcrState
  | callFc (mioff : BitVec 16) (t : Descriptor) (pl : List Param)
  | callFcSys (mioff : BitVec 16) (t : Descriptor) (pl : List Param)
  | callFb (mioff : BitVec 16) (t x : Descriptor) (pl : List Param)
  | callFbSys (mioff : BitVec 16) (t x : Descriptor) (pl : List Param)
  | callMi (mioff : BitVec 16) (t : Descriptor) (pl : List Param)
  | callMiSys (mioff : BitVec 16) (t : Descriptor) (pl : List Param)
  | rawFc (mioff nparam : BitVec 16) (t : Descriptor)
  | rawFcSys (mioff nparam : BitVec 16) (t : Descriptor)
  | rawFb (mioff nparam : BitVec 16) (t : Descriptor)
  | rawFbSys (mioff nparam : BitVec 16) (t : Descriptor)
  | rawMi (mioff nparam : BitVec 16) (t : Descriptor)
  | rawMiSys (mioff nparam : BitVec 16) (t : Descriptor)
  | startup
  | runCycle
  | reset
  | configSet (param : BitVec 4) (value : Data)
  | imageRead (sel : Bool) (off len : BitVec 16)
  | imageWrite (sel : Bool) (off : BitVec 16) (data : List Byte)
  deriving DecidableEq, Repr

end Sys2Proof
end

