-- ==== Sys2Proof/Decode.lean ====
section
/-! DEFINITION. The decoder of commands and operand descriptors, total on any words and refusing by name, and after it the encoder,
both written from 30_encoding R151 to R167 and 44_scheduler R531. -/

namespace Sys2Proof

/-! ## Decoding descriptors -/

/-- The `n` bits of a word from bit `lo` up: `w[lo+n-1:lo]` of R9. -/
def bits (w : Word) (lo n : Nat) : BitVec n := w.extractLsb' lo n

/-- A descriptor word whose tag field is IND (R161, R164). -/
def isInd (w : Word) : Bool := bits w 59 5 == 15

/-- The width a width code selects (R162); 5, 6 and 7 are reserved. -/
def decodeWidth (wc : BitVec 3) : Option Width :=
  if wc = 0 then some .w1
  else if wc = 1 then some .w8
  else if wc = 2 then some .w16
  else if wc = 3 then some .w32
  else if wc = 4 then some .w48
  else none

/-- The view an STW operand's `SUB` selects (R163); 8 to 15 are reserved. -/
def decodeView (sub : Nat) : Option StwView :=
  if sub = 0 then some .raw
  else if sub = 1 then some .eq0
  else if sub = 2 then some .ne0
  else if sub = 3 then some .gt0
  else if sub = 4 then some .lt0
  else if sub = 5 then some .ge0
  else if sub = 6 then some .le0
  else if sub = 7 then some .uo
  else none

/-- The kind a block reference's code selects (R163); 6 and above are reserved. -/
def decodeRefKind (k : Nat) : Option RefKind :=
  if k = 0 then some (.code .ob)
  else if k = 1 then some (.code .fc)
  else if k = 2 then some (.code .fb)
  else if k = 3 then some .db
  else if k = 4 then some (.code .sfc)
  else if k = 5 then some (.code .sfb)
  else none

/-- `some x` when the condition holds: how a field requirement of R163 or R164 is written below. -/
def onlyIf {α : Type} (c : Bool) (x : α) : Option α := if c then some x else none

/-- The embedded block number of a DB or DI operand: none when unqualified, which requires `NUM = 0` (R163). -/
def decodeQual (sub : Nat) (num : BlockNum) : Option (Option BlockNum) :=
  if sub = 0 then onlyIf (num == 0) none
  else if sub = 1 then some (some num)
  else none

/-- The fields of R163 for a tag whose `PAY` holds a bit address and nothing else: `tag` 1 to 14. -/
def decodeTagged (wd : Width) (tag sub : Nat) (num : BitVec 16) (ba : BitAddr) : Option Operand :=
  if tag = 1 then onlyIf (sub == 0 && num == 0) (.prim (.input wd ba))
  else if tag = 2 then onlyIf (sub == 0 && num == 0) (.prim (.output wd ba))
  else if tag = 3 then onlyIf (sub == 0 && num == 0) (.prim (.flag wd ba))
  else if tag = 4 then onlyIf (sub == 0 && num == 0) (.prim (.loc wd ba))
  else if tag = 5 then onlyIf (sub == 0 && num == 0) (.prim (.parentLoc wd ba))
  else if tag = 6 then (decodeQual sub num).map fun q => .prim (.db wd q ba)
  else if tag = 7 then (decodeQual sub num).map fun q => .prim (.di wd q ba)
  else if tag = 8 then onlyIf (decide (sub ≤ 1) && ba == 0) (.prim (.timer wd (sub == 1) num))
  else if tag = 9 then onlyIf (decide (sub ≤ 1) && ba == 0) (.prim (.counter wd (sub == 1) num))
  else if tag = 10 then onlyIf (decide (sub ≤ 1) && num == 0) (.prim (.periph wd (sub == 1) ba))
  else if tag = 11 then
    match decodeView sub with
    | none => none
    | some v =>
      onlyIf (num == 0 && decide (ba.toNat ≤ if v = .raw ∧ wd = .w1 then 8 else 0))
        (.prim (.stw wd v (Fin.ofNat 9 ba.toNat)))
  else if tag = 12 then
    onlyIf ((sub == 1 || sub == 2) && num == 0 && ba == 0) (.prim (.ar wd (if sub = 1 then .ar1 else .ar2)))
  else if tag = 13 then
    match decodeRefKind sub with
    | none => none
    | some k => onlyIf (ba == 0) (.prim (.blk wd k num))
  else if tag = 14 then onlyIf (sub == 0) (.field wd num ba)
  else none

/-- A one-word operand from its descriptor word (R160 to R163, R165); none when the word is not well-formed or its tag is IND. -/
def decodeOperand (w : Word) : Option Operand :=
  match decodeWidth (bits w 56 3) with
  | none => none
  | some wd =>
    let tag := (bits w 59 5).toNat
    if tag = 0 then
      onlyIf (bits w 48 8 == 0 && decide ((bits w 0 48).toNat < 2 ^ wd.bits)) (.prim (.imm wd (bits w 0 48)))
    else if bits w 32 4 = 0 ∧ bits w 19 13 = 0 then
      decodeTagged wd tag (bits w 52 4).toNat (bits w 36 16) (bits w 0 19)
    else none

/-- The target of an indirect operand from `TGT`, `TSUB` and `DISP` (R164). Bits of `TSUB` that R164 does not name must be 0:
DEDUCED, notes/assumptions/12.md. -/
def decodeTarget (tgt tsub : Nat) (disp : BitAddr) : Option IndTarget :=
  if tgt = 1 then onlyIf (tsub == 0) .input
  else if tgt = 2 then onlyIf (tsub == 0) .output
  else if tgt = 3 then onlyIf (tsub == 0) .flag
  else if tgt = 4 then onlyIf (tsub == 0) .loc
  else if tgt = 5 then onlyIf (tsub == 0) .parentLoc
  else if tgt = 6 then onlyIf (tsub == 0) .db
  else if tgt = 7 then onlyIf (tsub == 0) .di
  else if tgt = 8 then onlyIf (decide (tsub ≤ 1) && disp == 0) (.timer (tsub == 1))
  else if tgt = 9 then onlyIf (decide (tsub ≤ 1) && disp == 0) (.counter (tsub == 1))
  else if tgt = 10 then onlyIf (decide (tsub ≤ 1)) (.periph (tsub == 1))
  else if tgt = 13 then
    match decodeRefKind tsub with
    | none => none
    | some k => onlyIf (disp == 0) (.blk k)
  else if tgt = 15 then onlyIf (tsub == 0) .crossing
  else none

/-- Word 0 of an indirect operand: the width of the final access, the target and the displacement (R164). -/
def decodeIndWord (w : Word) : Option (Width × IndTarget × BitAddr) :=
  match decodeWidth (bits w 56 3) with
  | none => none
  | some wd =>
    if bits w 32 4 = 0 ∧ bits w 19 13 = 0 then
      (decodeTarget (bits w 52 4).toNat (bits w 36 16).toNat (bits w 0 19)).map fun t => (wd, t, bits w 0 19)
    else none

/-- Why a descriptor is refused (R165). -/
inductive DescErr where
  | unknownTag
  | badIndirect
  deriving DecidableEq, Repr

/-- Decoding of an operand descriptor (R165): not well-formed is UNKNOWN_TAG, an IND word 1 under IND is BAD_INDIRECT. Both words of
an indirect operand are checked here, at check (1) of R203: DEDUCED, notes/assumptions/11.md. Word 0 is checked first, so that a malformed
word 0 is UNKNOWN_TAG even where word 1 is itself IND; R165 does not say which of the two wins: DESIGN CHOICE, notes/assumptions/28.md. -/
def decodeDesc (d : Descriptor) : Except DescErr Desc :=
  if isInd d.w0 then
    match decodeIndWord d.w0, d.w1 with
    | some (wd, t, disp), some w1 =>
      if isInd w1 then .error .badIndirect
      else
        match decodeOperand w1 with
        | some o => .ok (.ind wd t disp o)
        | none => .error .unknownTag
    | _, _ => .error .unknownTag
  else
    match decodeOperand d.w0 with
    | some o => .ok (.direct o)
    | none => .error .unknownTag

/-! ## Decoding commands -/

/-- Why a sequence of words is no command (R153, R154, R167): every name is an illegal command. -/
inductive DecodeErr where
  /-- an `OPC` not in the table of R153 -/
  | reservedOpcode
  /-- a reserved header bit is set -/
  | reservedBits
  /-- `SHAPE` 6 or 7 -/
  | reservedShape
  /-- fewer words than the header asks for -/
  | truncated
  /-- an unused byte of the last data word of IMAGE_WRITE is not 0 -/
  | dirtyPadding
  deriving DecidableEq, Repr

/-- The listed bit ranges (lowest bit, length) of a header are all 0: the reserved bits of its format (R154). -/
def zeros (h : Word) (ranges : List (Nat × Nat)) : Bool := ranges.all fun r => h.toNat / 2 ^ r.1 % 2 ^ r.2 == 0

/-- The next descriptor of a command: one word, or two when its tag field is IND (R152). -/
def takeDesc : List Word → Option (Descriptor × List Word)
  | [] => none
  | w :: r =>
    if isInd w then
      match r with
      | [] => none
      | w1 :: r' => some (⟨w, some w1⟩, r')
    else some (⟨w, none⟩, r)

/-- The next `n` parameter pairs of a CALL (R352). -/
def takeParams : Nat → List Word → Option (List Param × List Word)
  | 0, ws => some ([], ws)
  | _ + 1, [] => none
  | n + 1, w :: r =>
    match takeDesc r with
    | none => none
    | some (d, r') =>
      match takeParams n r' with
      | none => none
      | some (pl, r'') => some (⟨w, d⟩ :: pl, r'')

/-- The eight bytes of a data word, the first in bits `[63:56]` (R531). -/
def wordBytes (w : Word) : List Byte :=
  [bits w 56 8, bits w 48 8, bits w 40 8, bits w 32 8, bits w 24 8, bits w 16 8, bits w 8 8, bits w 0 8]

/-- The next `len` data bytes of IMAGE_WRITE, from `ceil(len/8)` words whose unused bytes are 0 (R531). -/
def takeData : Nat → List Word → Except DecodeErr (List Byte × List Word)
  | 0, ws => .ok ([], ws)
  | _ + 1, [] => .error .truncated
  | n + 1, w :: r =>
    if 8 ≤ n + 1 then
      match takeData (n + 1 - 8) r with
      | .error e => .error e
      | .ok (bs, r') => .ok (wordBytes w ++ bs, r')
    else if (wordBytes w).drop (n + 1) = List.replicate (7 - n) 0 then .ok ((wordBytes w).take (n + 1), r)
    else .error .dirtyPadding

/-- A command that is its header alone: `i`, when the reserved bits of its format are 0. -/
def headerOnly (h : Word) (reserved : List (Nat × Nat)) (i : Instr) (r : List Word) :
    Except DecodeErr (Instr × List Word) :=
  if zeros h reserved then .ok (i, r) else .error .reservedBits

/-- FETCH and STORE: a header of format F-ACC and one descriptor (R152, R154). -/
def decodeAccess (mk : BitVec 5 → Descriptor → Instr) (h : Word) (r : List Word) :
    Except DecodeErr (Instr × List Word) :=
  if zeros h [(45, 11), (0, 40)] then
    match takeDesc r with
    | some (d, r') => .ok (mk (bits h 40 5) d, r')
    | none => .error .truncated
  else .error .reservedBits

/-- A direct call without an instance operand: target, then the parameter pairs (R352). -/
def decodeCall (mk : BitVec 16 → Descriptor → List Param → Instr) (h : Word) (r : List Word) :
    Except DecodeErr (Instr × List Word) :=
  match takeDesc r with
  | none => .error .truncated
  | some (t, r1) =>
    match takeParams (bits h 0 16).toNat r1 with
    | none => .error .truncated
    | some (pl, r2) => .ok (mk (bits h 32 16) t pl, r2)

/-- CALL_FB: target, instance, then the parameter pairs (R352). -/
def decodeCallFb (mk : BitVec 16 → Descriptor → Descriptor → List Param → Instr) (h : Word) (r : List Word) :
    Except DecodeErr (Instr × List Word) :=
  match takeDesc r with
  | none => .error .truncated
  | some (t, r1) =>
    match takeDesc r1 with
    | none => .error .truncated
    | some (x, r2) =>
      match takeParams (bits h 0 16).toNat r2 with
      | none => .error .truncated
      | some (pl, r3) => .ok (mk (bits h 32 16) t x pl, r3)

/-- A raw call: its target. The pairs of a non-zero `NPARAM` are not read, because the command faults before it would read them
(R353). DESIGN CHOICE, notes/assumptions/14.md. -/
def decodeRaw (mk : BitVec 16 → BitVec 16 → Descriptor → Instr) (h : Word) (r : List Word) :
    Except DecodeErr (Instr × List Word) :=
  match takeDesc r with
  | none => .error .truncated
  | some (t, r1) => .ok (mk (bits h 32 16) (bits h 0 16) t, r1)

/-- The twelve rows of CALL, by `{SHAPE, SYS}` of the header (R156, R351). The reserved bits are checked first, so that a raw header with
both a non-zero `NPARAM` (BAD_PARAM) and a set reserved bit (ILLEGAL_COMMAND) is no command; R167 and R353 do not say which of the two
wins. DESIGN CHOICE, notes/assumptions/27.md. -/
def decodeCallRow (h : Word) (r : List Word) : Except DecodeErr (Instr × List Word) :=
  if zeros h [(48, 4), (16, 16)] then
    let row := (bits h 52 4).toNat
    if row = 0 then decodeCall .callFc h r
    else if row = 1 then decodeCall .callFcSys h r
    else if row = 2 then decodeCallFb .callFb h r
    else if row = 3 then decodeCallFb .callFbSys h r
    else if row = 4 then decodeCall .callMi h r
    else if row = 5 then decodeCall .callMiSys h r
    else if row = 6 then decodeRaw .rawFc h r
    else if row = 7 then decodeRaw .rawFcSys h r
    else if row = 8 then decodeRaw .rawFb h r
    else if row = 9 then decodeRaw .rawFbSys h r
    else if row = 10 then decodeRaw .rawMi h r
    else if row = 11 then decodeRaw .rawMiSys h r
    else .error .reservedShape
  else .error .reservedBits

/-- IMAGE_WRITE: header and data words (R531). -/
def decodeImageWrite (h : Word) (r : List Word) : Except DecodeErr (Instr × List Word) :=
  if zeros h [(49, 7), (16, 16)] then
    match takeData (bits h 0 16).toNat r with
    | .error e => .error e
    | .ok (bs, r') => .ok (.imageWrite ((bits h 48 1) == 1) (bits h 32 16) bs, r')
  else .error .reservedBits

/-- The opcode `OPC` of a header (R151). -/
def opcode (h : Word) : Nat := (bits h 56 8).toNat

/-- The decoder of a command whose header is `h` and whose following words are `r` (R153, R154): the command and the words after it,
or why there is none. -/
def decodeHeader (h : Word) (r : List Word) : Except DecodeErr (Instr × List Word) :=
  let opc := opcode h
  if opc = 0x01 then decodeAccess .fetch h r
  else if opc = 0x02 then decodeAccess .store h r
  else if opc = 0x10 then headerOnly h [(52, 4), (0, 48)] (.regRead (bits h 48 4)) r
  else if opc = 0x11 then headerOnly h [(52, 4), (0, 48)] (.regWrite (bits h 48 4)) r
  else if opc = 0x12 then headerOnly h [(49, 7), (0, 32)] (.openDb (bits h 48 1 == 1) (bits h 32 16)) r
  else if opc = 0x13 then headerOnly h [(41, 15), (9, 23)] (.stwWrite (bits h 32 9) (bits h 0 9)) r
  else if opc = 0x14 then headerOnly h [(3, 53)] (.ccSet (bits h 2 1 == 1) (bits h 1 1 == 1) (bits h 0 1 == 1)) r
  else if opc = 0x15 then
    headerOnly h [(49, 7), (16, 8)] (.tcOp (bits h 48 1 == 1) (bits h 32 16) (bits h 24 8) (bits h 0 16)) r
  else if opc = 0x20 then headerOnly h [(32, 24)] (.jumpRel (bits h 0 32)) r
  else if opc = 0x21 then headerOnly h [(32, 24)] (.jumpLabel (bits h 0 32)) r
  else if opc = 0x22 then headerOnly h [(0, 56)] .blockEnd r
  else if opc = 0x23 then headerOnly h [(16, 40)] (.parenPush (bits h 0 16)) r
  else if opc = 0x24 then headerOnly h [(0, 56)] .parenPop r
  else if opc = 0x25 then headerOnly h [(1, 55)] (.mcrPush (bits h 0 1 == 1)) r
  else if opc = 0x26 then headerOnly h [(0, 56)] .mcrPop r
  else if opc = 0x27 then headerOnly h [(0, 56)] .mcrState r
  else if opc = 0x30 then decodeCallRow h r
  else if opc = 0x80 then headerOnly h [(0, 56)] .startup r
  else if opc = 0x81 then headerOnly h [(0, 56)] .runCycle r
  else if opc = 0x82 then headerOnly h [(0, 56)] .reset r
  else if opc = 0x83 then headerOnly h [(52, 4)] (.configSet (bits h 48 4) (bits h 0 48)) r
  else if opc = 0x84 then headerOnly h [(49, 7), (16, 16)] (.imageRead (bits h 48 1 == 1) (bits h 32 16) (bits h 0 16)) r
  else if opc = 0x85 then decodeImageWrite h r
  else .error .reservedOpcode

/-- The decoder of commands. Words after the command are handed back and mean nothing (notes/assumptions/13.md). -/
def decode : List Word → Except DecodeErr (Instr × List Word)
  | [] => .error .truncated
  | h :: r => decodeHeader h r

/-- The words of an instruction whose bits are `w`, numbered as spec/opcode_table.json numbers them, with zero words after them: at
least as many as the longest command with this header has. -/
def tableWords (nbits w : Nat) : List Word :=
  let v := w % 2 ^ nbits
  let h : Word := BitVec.ofNat 64 v
  let more := (List.range ((nbits - 1) / 64)).map fun k => BitVec.ofNat 64 (v / 2 ^ (64 * (k + 1)))
  let pad := if opcode h = 0x30 ∨ opcode h = 0x85 then 5 + 3 * (bits h 0 16).toNat else 2
  h :: more ++ List.replicate pad 0

/-- The instruction the decoder reads from an instruction whose bits are `w` (spec/opcode_table.json's numbering). -/
def decodeTableWord (nbits w : Nat) : Option Instr :=
  match decode (tableWords nbits w) with
  | .ok (i, _) => some i
  | .error _ => none

/-! ## The encoder -/

/-- The width code of R162. -/
def encodeWidth : Width → Nat
  | .w1 => 0
  | .w8 => 1
  | .w16 => 2
  | .w32 => 3
  | .w48 => 4

/-- The `SUB` code of an STW view (R163). -/
def encodeView : StwView → Nat
  | .raw => 0
  | .eq0 => 1
  | .ne0 => 2
  | .gt0 => 3
  | .lt0 => 4
  | .ge0 => 5
  | .le0 => 6
  | .uo => 7

/-- The kind code of a block reference (R163). -/
def encodeRefKind : RefKind → Nat
  | .code .ob => 0
  | .code .fc => 1
  | .code .fb => 2
  | .db => 3
  | .code .sfc => 4
  | .code .sfb => 5

/-- A descriptor word from `TAG`, `WC`, `SUB`, `NUM` and `PAY` (R160). -/
def descWord (tag : Nat) (wd : Width) (sub num pay : Nat) : Word :=
  BitVec.ofNat 64 (tag * 2 ^ 59 + encodeWidth wd * 2 ^ 56 + sub * 2 ^ 52 + num * 2 ^ 36 + pay)

/-- A DB or DI descriptor word, unqualified or qualified (R163). -/
def dbWord (tag : Nat) (wd : Width) (q : Option BlockNum) (ba : BitAddr) : Word :=
  match q with
  | none => descWord tag wd 0 0 ba.toNat
  | some n => descWord tag wd 1 n.toNat ba.toNat

/-- The descriptor word of a `Prim` (R163). -/
def encodePrim : Prim → Word
  | .imm wd v => BitVec.ofNat 64 (encodeWidth wd * 2 ^ 56 + v.toNat)
  | .input wd ba => descWord 1 wd 0 0 ba.toNat
  | .output wd ba => descWord 2 wd 0 0 ba.toNat
  | .flag wd ba => descWord 3 wd 0 0 ba.toNat
  | .loc wd ba => descWord 4 wd 0 0 ba.toNat
  | .parentLoc wd ba => descWord 5 wd 0 0 ba.toNat
  | .db wd q ba => dbWord 6 wd q ba
  | .di wd q ba => dbWord 7 wd q ba
  | .timer wd bcd i => descWord 8 wd bcd.toNat i.toNat 0
  | .counter wd bcd i => descWord 9 wd bcd.toNat i.toNat 0
  | .periph wd out ba => descWord 10 wd out.toNat 0 ba.toNat
  | .stw wd v b => descWord 11 wd (encodeView v) 0 b.val
  | .ar wd .ar1 => descWord 12 wd 1 0 0
  | .ar wd .ar2 => descWord 12 wd 2 0 0
  | .blk wd k n => descWord 13 wd (encodeRefKind k) n.toNat 0

/-- The descriptor word of a one-word operand (R163). -/
def encodeOperand : Operand → Word
  | .prim p => encodePrim p
  | .field wd k s => descWord 14 wd 0 k.toNat s.toNat

/-- `TGT` and `TSUB` of an indirect target (R164). -/
def encodeTarget : IndTarget → Nat × Nat
  | .input => (1, 0)
  | .output => (2, 0)
  | .flag => (3, 0)
  | .loc => (4, 0)
  | .parentLoc => (5, 0)
  | .db => (6, 0)
  | .di => (7, 0)
  | .timer bcd => (8, bcd.toNat)
  | .counter bcd => (9, bcd.toNat)
  | .periph out => (10, out.toNat)
  | .blk k => (13, encodeRefKind k)
  | .crossing => (15, 0)

/-- The words of an operand descriptor (R160, R164). -/
def encodeDesc : Desc → Descriptor
  | .direct o => ⟨encodeOperand o, none⟩
  | .ind wd t disp o => ⟨descWord 15 wd (encodeTarget t).1 (encodeTarget t).2 disp.toNat, some (encodeOperand o)⟩

/-- A header from its opcode and the rest of its fields (R154). -/
def header (opc fields : Nat) : Word := BitVec.ofNat 64 (opc * 2 ^ 56 + fields)

/-- The words of a descriptor in a command. -/
def descWords (d : Descriptor) : List Word := d.w0 :: d.w1.toList

/-- The words of the parameter pairs of a CALL (R352). -/
def paramWords (pl : List Param) : List Word := pl.flatMap fun p => p.word :: descWords p.d

/-- The header of a CALL row: `row` is `{SHAPE, SYS}` (R154, R351). -/
def callHeader (row mioff nparam : Nat) : Word := header 0x30 (row * 2 ^ 52 + mioff * 2 ^ 32 + nparam)

/-- A data word from up to eight bytes, the first in bits `[63:56]`, the missing ones 0 (R531). -/
def packWord (bs : List Byte) : Word :=
  BitVec.ofNat 64 ((bs ++ List.replicate (8 - bs.length) 0).foldl (fun (acc : Nat) (b : Byte) => acc * 256 + b.toNat) 0)

/-- The data words of IMAGE_WRITE (R531). -/
def dataWords (bs : List Byte) : List Word :=
  (List.range ((bs.length + 7) / 8)).map fun k => packWord ((bs.drop (8 * k)).take 8)

/-- The words of a command (R152 to R154, R352, R531). -/
def encode : Instr → List Word
  | .fetch m d => header 0x01 (m.toNat * 2 ^ 40) :: descWords d
  | .store m d => header 0x02 (m.toNat * 2 ^ 40) :: descWords d
  | .regRead r => [header 0x10 (r.toNat * 2 ^ 48)]
  | .regWrite r => [header 0x11 (r.toNat * 2 ^ 48)]
  | .openDb sel n => [header 0x12 (sel.toNat * 2 ^ 48 + n.toNat * 2 ^ 32)]
  | .stwWrite m v => [header 0x13 (m.toNat * 2 ^ 32 + v.toNat)]
  | .ccSet a1 a0 ovf => [header 0x14 (a1.toNat * 4 + a0.toNat * 2 + ovf.toNat)]
  | .tcOp sel i op arg => [header 0x15 (sel.toNat * 2 ^ 48 + i.toNat * 2 ^ 32 + op.toNat * 2 ^ 24 + arg.toNat)]
  | .jumpRel imm => [header 0x20 imm.toNat]
  | .jumpLabel l => [header 0x21 l.toNat]
  | .blockEnd => [header 0x22 0]
  | .parenPush e => [header 0x23 e.toNat]
  | .parenPop => [header 0x24 0]
  | .mcrPush b => [header 0x25 b.toNat]
  | .mcrPop => [header 0x26 0]
  | .mcrState => [header 0x27 0]
  | .callFc mi t pl => callHeader 0 mi.toNat pl.length :: descWords t ++ paramWords pl
  | .callFcSys mi t pl => callHeader 1 mi.toNat pl.length :: descWords t ++ paramWords pl
  | .callFb mi t x pl => callHeader 2 mi.toNat pl.length :: descWords t ++ descWords x ++ paramWords pl
  | .callFbSys mi t x pl => callHeader 3 mi.toNat pl.length :: descWords t ++ descWords x ++ paramWords pl
  | .callMi mi t pl => callHeader 4 mi.toNat pl.length :: descWords t ++ paramWords pl
  | .callMiSys mi t pl => callHeader 5 mi.toNat pl.length :: descWords t ++ paramWords pl
  | .rawFc mi np t => callHeader 6 mi.toNat np.toNat :: descWords t
  | .rawFcSys mi np t => callHeader 7 mi.toNat np.toNat :: descWords t
  | .rawFb mi np t => callHeader 8 mi.toNat np.toNat :: descWords t
  | .rawFbSys mi np t => callHeader 9 mi.toNat np.toNat :: descWords t
  | .rawMi mi np t => callHeader 10 mi.toNat np.toNat :: descWords t
  | .rawMiSys mi np t => callHeader 11 mi.toNat np.toNat :: descWords t
  | .startup => [header 0x80 0]
  | .runCycle => [header 0x81 0]
  | .reset => [header 0x82 0]
  | .configSet p v => [header 0x83 (p.toNat * 2 ^ 48 + v.toNat)]
  | .imageRead sel off len => [header 0x84 (sel.toNat * 2 ^ 48 + off.toNat * 2 ^ 32 + len.toNat)]
  | .imageWrite sel off bs =>
    header 0x85 (sel.toNat * 2 ^ 48 + off.toNat * 2 ^ 32 + bs.length) :: dataWords bs

end Sys2Proof
end

