-- ==== Sys2Proof/Machine/Program.lean ====
section
/-! DEFINITION. The resolved program `Prog` (10_state R31 to R33): code blocks, data blocks, interface fields, and the look-ups in
its tables. -/

namespace Sys2Proof.Machine

open Sys2Proof

/-- An instruction of a code block: opaque to the block, given meaning by `Body` (R32, R150). -/
inductive Insn where
  /-- a fixed list of commands, the replies ignored: the script bodies of 95_test_vectors section 0, NOP being the empty one -/
  | script (cmds : List BodyCmd)
  /-- any other instruction, by a code that the parameter `Config.body` gives meaning to -/
  | coded (code : Nat)
  deriving DecidableEq, Repr

/-- The direction of an interface field (R33). -/
inductive Dir where
  | input | output | inout | stat | temp
  deriving DecidableEq, Repr

/-- A field record of an interface (R33). -/
structure Field where
  dir : Dir
  width : Width
  off : BitAddr
  agg : Bool
  deriving DecidableEq, Repr

/-- A code block record (R32). -/
structure CodeBlock where
  insns : List Insn
  labels : List (BitVec 32 × Nat)
  iface : List (BitVec 16 × Field)
  tempSize : Fin 65537
  deriving DecidableEq, Repr

/-- A data block record: its size in bytes and its initial contents (R32). -/
structure DataBlock where
  size : Fin 65537
  init : List Byte
  deriving DecidableEq, Repr

/-- The resolved program: seven partial maps from a block number to a record (R31). The block never reads `udt`. -/
structure Prog where
  ob : List (BlockNum × CodeBlock)
  fc : List (BlockNum × CodeBlock)
  fb : List (BlockNum × CodeBlock)
  sfc : List (BlockNum × CodeBlock)
  sfb : List (BlockNum × CodeBlock)
  db : List (BlockNum × DataBlock)
  udt : List (BlockNum × List (BitVec 16 × Field))
  deriving DecidableEq, Repr

/-- A program with no block. -/
def Prog.empty : Prog := ⟨[], [], [], [], [], [], []⟩

/-- The table of a code-block kind. -/
def Prog.table (p : Prog) : BlockKind → List (BlockNum × CodeBlock)
  | .ob => p.ob
  | .fc => p.fc
  | .fb => p.fb
  | .sfc => p.sfc
  | .sfb => p.sfb

/-- The code block of a kind and number; number 0 is never present (R31, R360). -/
def Prog.code (p : Prog) (k : BlockKind) (n : BlockNum) : Option CodeBlock :=
  if n = 0 then none else (p.table k).lookup n

/-- The data block of a number; number 0 is never present (R31). -/
def Prog.dataBlock (p : Prog) (n : BlockNum) : Option DataBlock := if n = 0 then none else p.db.lookup n

/-- `n` is in `Prog.DB` and is not 0. -/
def Prog.hasDb (p : Prog) (n : BlockNum) : Bool := (p.dataBlock n).isSome

/-- The field record of an index of a block's interface. -/
def CodeBlock.field (b : CodeBlock) (k : BitVec 16) : Option Field := b.iface.lookup k

/-- `len`: how many instructions a block has (R32). -/
def CodeBlock.len (b : CodeBlock) : Nat := b.insns.length

/-- `Body(insn, replies)`: the next micro-command of an instruction after these replies, or none for DONE (R150, R422). -/
def Insn.next (i : Insn) (replies : List Data) : Option BodyCmd :=
  match i with
  | .script cmds => cmds[replies.length]?
  | .coded c => Config.body c replies

end Sys2Proof.Machine
end

