-- ==== Sys2Proof/Machine/State.lean ====
section
/-! DEFINITION. The state of the block (10_state R30 to R58) as plain data, its power-on value (70_reset_and_hazards R580), and the
model's own fields: the host's side of the ports. -/

namespace Sys2Proof.Machine

open Sys2Proof

/-! ## Frames -/

/-- FCLIKE for OB, FC and SFC; FBLIKE for FB and SFB (R45). -/
inductive FrameClass where
  | fclike | fblike
  deriving DecidableEq, Repr

/-- What an FC-like frame records for one actual parameter (R365). -/
inductive Binding where
  | const (w : Width) (v : Data)
  | loc (p : Prim)
  | dbLoc (n : BlockNum) (ba : Nat)
  | frameLocal (j : Nat) (ba : Nat)
  deriving DecidableEq, Repr

/-- A call-stack frame (R45). `locals` is the spec's `local`. -/
structure Frame where
  kind : BlockKind
  num : BlockNum
  ip : Nat
  locals : List Byte
  paren : List (BitVec 16)
  bind : List (BitVec 16 × Binding)
  params : List (BitVec 16 × Descriptor)
  raw : Bool
  cls : FrameClass
  instDB : BlockNum
  instBase : Nat
  saved : Option (BlockNum × BlockNum)
  deriving DecidableEq, Repr

/-! ## Registers -/

/-- Accumulators, address registers, data-block registers and the status register (R35, R36, R38, R39). -/
structure Regs where
  accu1 : BitVec 32
  accu2 : BitVec 32
  accu3 : BitVec 32
  accu4 : BitVec 32
  ar1 : BitVec 32
  ar2 : BitVec 32
  dbReg : BlockNum
  diReg : BlockNum
  stw : BitVec 9
  deriving DecidableEq, Repr

/-- The place of an instruction: block kind, block number, index (R49, R56, R421 `LOC`). -/
structure Loc where
  kind : BlockKind
  num : BlockNum
  ip : Nat
  deriving DecidableEq, Repr

/-- The per-step registers `RJ`, `E`, `CALLED` (R48) and `LOC` (R421). -/
structure StepRegs where
  rj : Int
  e : Nat
  called : Bool
  loc : Loc
  deriving DecidableEq, Repr

/-- The time registers, in nanoseconds (R51). -/
structure TimeRegs where
  now : Nat
  cycleStart : Nat
  runStart : Nat
  msBase : Int
  deriving DecidableEq, Repr

/-- The clock memory (R53): `CLK`, `CLK_COUNT`, `CLK_NEXT`, `CLK_ON`. -/
structure ClockMem where
  clk : BitVec 8
  count : Fin 80
  next : Nat
  on : Bool
  deriving DecidableEq, Repr

/-- The counts and the statistics registers (R50, R54). -/
structure Stats where
  insnCount : BitVec 64
  cycleCount : BitVec 64
  cycMin : Option Nat
  cycMax : Option Nat
  cycAvg : Option Nat
  ipsAvg : Option Nat
  ipcAvg : Option Nat
  winStart : Nat
  winCycles : Nat
  winInsns : Nat
  winTime : Nat
  cycInsn0 : BitVec 64
  deriving DecidableEq, Repr

/-- The scheduler mode (R55). -/
inductive Mode where
  | uninit | started | cycling | faulted | timefault | maint
  deriving DecidableEq, Repr

/-- The scheduler phase (R55). -/
inductive Phase where
  | idle | startupOb | cycle
  deriving DecidableEq, Repr

/-! ## Errors and events -/

/-- The addressing reasons (R542). -/
inductive AddrReason where
  | unknownTag | widthMismatch | outOfRange | missingParent | missingDb | missingTc | peripheralFail | readOnly
  | noBinding | badPointer | badIndirect | noRegister | misaligned | writeOnly | noField
  deriving DecidableEq, Repr

/-- The call reasons (R543). -/
inductive CallReason where
  | noBlock | wrongKind | notDb | parenOvf | parenUnf | mcrOvf | mcrUnf | badParam | noInstance | miRange
  deriving DecidableEq, Repr

/-- The build reasons (R544). `other` is reserved for the external stage and never raised (R550). -/
inductive BuildReason where
  | noMain | other
  deriving DecidableEq, Repr

/-- The exec reasons (R544). -/
inductive ExecReason where
  | negativeIp | unknownLabel | reentry | commandAfterCall | illegalCommand
  deriving DecidableEq, Repr

/-- The host reasons: refusals, never recorded in `ERR` (R541, R544). -/
inductive HostReason where
  | notStarted | needsReset | badConfig | imageRange | illegalCommand
  deriving DecidableEq, Repr

/-- What a `raise` inside a startup block or a cycle reports: the error kinds 1, 2, 3, 4 and 7 of R541 with their reasons (R545). A
build error, kind 5, is raised by STARTUP alone and is taken apart from these (R550). -/
inductive Cause where
  | addr (r : AddrReason)
  | call (r : CallReason)
  | cycleTime
  | maintenance
  | exec (r : ExecReason)
  deriving DecidableEq, Repr

/-- The error record `ERR` (R56). `kind` 0 is no error. -/
structure ErrRec where
  kind : BitVec 3
  reason : Option (BitVec 8)
  loc : Option Loc
  opnd : Option Descriptor
  deriving DecidableEq, Repr

/-- The error record after reset: no error (R56). -/
def ErrRec.none : ErrRec := ⟨0, Option.none, Option.none, Option.none⟩

/-- The events of the observation trace (R566). -/
inductive Event where
  | postInsn (kind : BlockKind) (num : BlockNum) (ip : Nat)
  | blockExit (kind : BlockKind) (num : BlockNum)
  | cycleExit (count : BitVec 64)
  deriving DecidableEq, Repr

/-- The reply a host command completes with (R535): OK with the bytes of IMAGE_READ, a refusal, or the error record. -/
inductive HostReply where
  | ok (data : List Byte)
  | refused (r : HostReason)
  | failed (e : ErrRec)
  deriving DecidableEq, Repr

/-! ## The model's own fields -/

/-- The instruction whose body is running: what was fetched, and the replies its micro-commands have had (R422 `replies`).
The model's own field: one step of the model runs one command (notes/assumptions/2.md). -/
structure BodyRun where
  insn : Insn
  replies : List Data
  deriving DecidableEq, Repr

/-- One call of a peripheral callback (R240): `write` tells the two callbacks apart, `bytes` is empty for a read. -/
structure PeriphCall where
  write : Bool
  area : BitVec 1
  width : Nat
  offset : Nat
  bytes : List Byte
  deriving DecidableEq, Repr

/-- The host's side of the ports (R30, R600), the model's own: what the host will send and answer, as lists the step reads, and
what it has been handed. -/
structure Env where
  /-- the host commands still to come, each as its words -/
  commands : List (List Word)
  /-- the clock readings still to come (R112) -/
  clock : List Nat
  /-- the last clock reading the host gave: readings never decrease (R112) -/
  lastReading : Nat
  /-- how many readings were drawn -/
  readings : Nat
  /-- the answers of the peripheral-read callback still to come; none is failure (R240) -/
  periphReads : List (Option (List Byte))
  /-- the answers of the peripheral-write callback still to come (R240) -/
  periphWrites : List Bool
  /-- the callback calls made -/
  periphCalls : List PeriphCall
  /-- how many frames were built: which draw a new frame's local data is (R46) -/
  framesBuilt : Nat
  deriving DecidableEq, Repr

/-- The region and data-block memory: the bytes that differ from their reset contents, as (address, byte) pairs with rising
addresses. The addresses are the model's own map, notes/assumptions/10.md. -/
abbrev Memory := List Host.Cell

/-! ## The state -/

/-- The whole state. -/
structure State where
  /-- `Cfg` (R7) -/
  cfg : Cfg
  /-- `Prog` (R31): a parameter, held here so that a program is data; no step writes it (R117) -/
  prog : Prog
  regs : Regs
  /-- I, Q, M and `DBMEM` (R41, R42) -/
  mem : Memory
  /-- `T` (R43) -/
  timers : List Cell
  /-- `C` (R43) -/
  counters : List Cell
  /-- `CS`, bottom first (R44) -/
  cs : List Frame
  /-- `MCR`, bottom first (R47) -/
  mcr : List Bool
  step : StepRegs
  time : TimeRegs
  clock : ClockMem
  stats : Stats
  /-- `MODE` (R55) -/
  mode : Mode
  /-- `PHASE` (R55) -/
  phase : Phase
  /-- `BUILT` (R55) -/
  built : Bool
  /-- `ERR` (R56) -/
  err : ErrRec
  /-- `TRACE` (R57) -/
  trace : List Event
  /-- the instruction in progress: none between instructions -/
  body : Option BodyRun
  /-- `DIN` of the command in progress (R151) -/
  din : Data
  /-- the reply of the last completed host command (R535), none before the first and while one runs -/
  reply : Option HostReply
  env : Env
  deriving DecidableEq, Repr

/-- Why the model stops. Neither can be reached from `State.reset` by steps: R420 says the call stack is not empty while the core
runs, and every frame is built for a block of `Prog`. -/
inductive Fault where
  /-- Raised by a micro-command, by the end of an instruction and by the start of one when the phase is not IDLE and the call stack has no
  such frame. Safe: the spec gives such a state no step (R420). -/
  | noFrame
  /-- Raised at the same places when `Prog` has no block of the frame's kind and number. Safe: the spec gives such a state no step. -/
  | noBlock
  deriving DecidableEq, Repr

/-- Why the model has no meaning for an instruction. -/
inductive Refusal where
  /-- Raised by an arm of `exec` for an instruction that has no meaning yet; no arm does so now. Safe. -/
  | notModelled (mnemonic : String)
  deriving DecidableEq, Repr

/-- The outcome of a step of this machine. -/
abbrev Out := Host.Outcome State Fault Refusal

/-! ## Power-on -/

/-- The registers after power-on and after every register reset (R35, R36, R38, R39, R481). -/
def Regs.zero : Regs := ⟨0, 0, 0, 0, 0, 0, 0, 0, 0⟩

/-- The counts and statistics after power-on (R50, R54). -/
def Stats.zero : Stats := ⟨0, 0, none, none, none, none, none, 0, 0, 0, 0, 0⟩

/-- The time registers after power-on (R51). -/
def TimeRegs.zero : TimeRegs := ⟨0, 0, 0, 0⟩

/-- The clock memory after power-on (R53). -/
def ClockMem.zero : ClockMem := ⟨0, 0, 0, false⟩

/-- The per-step registers after power-on (R48). `LOC` has no reset value in the spec: DESIGN CHOICE, notes/assumptions/19.md. -/
def StepRegs.zero : StepRegs := ⟨1, 0, false, ⟨.ob, 0, 0⟩⟩

/-- The host's side with nothing sent, nothing answered and nothing handed over. -/
def Env.quiet : Env := ⟨[], [], 0, 0, [], [], [], 0⟩

/-- The power-on state of R580 for a configuration `Cfg0` and a program `Prog`: what the model takes as arguments (R7, R8). -/
def State.powerOn (cfg : Cfg) (prog : Prog) : State where
  cfg := cfg
  prog := prog
  regs := Regs.zero
  mem := []
  timers := List.replicate cfg.timerCount Config.tcmReset
  counters := List.replicate cfg.counterCount Config.tcmReset
  cs := []
  mcr := []
  step := StepRegs.zero
  time := TimeRegs.zero
  clock := ClockMem.zero
  stats := Stats.zero
  mode := .uninit
  phase := .idle
  built := false
  err := ErrRec.none
  trace := []
  body := none
  din := 0
  reply := none
  env := Env.quiet

/-- The machine right after reset: the power-on state of R580, with the configuration `Config.cfg0` and no program loaded
(notes/assumptions/1.md and 3.md). -/
def State.reset : State := State.powerOn Config.cfg0 Prog.empty

end Sys2Proof.Machine
end

