-- ==== Sys2Proof/Machine/Ops.lean ====
section
/-! DEFINITION. The named operations over memory, registers, the call stack and the host's side of the ports; results that carry the
state; and taking a fault as one operation (00_scope R11, 20_memory R100 to R106, 60_exceptions R541 to R550). -/

namespace Sys2Proof.Machine

open Sys2Proof

/-! ## Raises and results -/

/-- A raise: its cause, and the operand descriptor the error record will name (R546). -/
structure Raise where
  cause : Cause
  opnd : Option Descriptor
  deriving DecidableEq, Repr

/-- The result of a piece of a command: a value and the state, or a raise and the state it was raised in. A raise keeps every state
change already made (R11, R545). -/
inductive Res (α : Type) where
  | ok (a : α) (s : State)
  | err (x : Raise) (s : State)
  deriving Repr

/-- Go on with the value and the state, or pass the raise on. -/
def Res.bind {α β : Type} (r : Res α) (k : α → State → Res β) : Res β :=
  match r with
  | .ok a s => k a s
  | .err x s => .err x s

/-- A raise inside names this descriptor as the operand that raised (R546). -/
def Res.withOpnd {α : Type} (d : Descriptor) (r : Res α) : Res α :=
  match r with
  | .ok a s => .ok a s
  | .err x s => .err ⟨x.cause, some d⟩ s

/-- `raise` with no operand. -/
def raise {α : Type} (c : Cause) (s : State) : Res α := .err ⟨c, none⟩ s

/-- `raise AddrErr(r)`. -/
def addrErr {α : Type} (r : AddrReason) (s : State) : Res α := raise (.addr r) s

/-- `raise CallErr(r)`. -/
def callErr {α : Type} (r : CallReason) (s : State) : Res α := raise (.call r) s

/-- `raise ExecErr(r)`. -/
def execErr {α : Type} (r : ExecReason) (s : State) : Res α := raise (.exec r) s

/-! ## Error codes -/

/-- The addressing reason codes of R542. -/
def AddrReason.code : AddrReason → BitVec 8
  | .unknownTag => 0x01
  | .widthMismatch => 0x02
  | .outOfRange => 0x03
  | .missingParent => 0x04
  | .missingDb => 0x05
  | .missingTc => 0x06
  | .peripheralFail => 0x07
  | .readOnly => 0x08
  | .noBinding => 0x09
  | .badPointer => 0x0A
  | .badIndirect => 0x0B
  | .noRegister => 0x0C
  | .misaligned => 0x0D
  | .writeOnly => 0x0E
  | .noField => 0x0F

/-- The call reason codes of R543. -/
def CallReason.code : CallReason → BitVec 8
  | .noBlock => 0x01
  | .wrongKind => 0x02
  | .notDb => 0x03
  | .parenOvf => 0x04
  | .parenUnf => 0x05
  | .mcrOvf => 0x06
  | .mcrUnf => 0x07
  | .badParam => 0x08
  | .noInstance => 0x09
  | .miRange => 0x0A

/-- The build reason codes of R544. -/
def BuildReason.code : BuildReason → BitVec 8
  | .noMain => 0x01
  | .other => 0x02

/-- The exec reason codes of R544. -/
def ExecReason.code : ExecReason → BitVec 8
  | .negativeIp => 0x01
  | .unknownLabel => 0x02
  | .reentry => 0x03
  | .commandAfterCall => 0x04
  | .illegalCommand => 0x05

/-- The host reason codes of R544 (kind 6). -/
def HostReason.code : HostReason → BitVec 8
  | .notStarted => 0x01
  | .needsReset => 0x02
  | .badConfig => 0x03
  | .imageRange => 0x04
  | .illegalCommand => 0x05

/-- The error kind of a cause (R541). -/
def Cause.kind : Cause → BitVec 3
  | .addr _ => 1
  | .call _ => 2
  | .cycleTime => 3
  | .maintenance => 4
  | .exec _ => 7

/-- The reason code of a cause (R542 to R544). -/
def Cause.code : Cause → BitVec 8
  | .addr r => r.code
  | .call r => r.code
  | .cycleTime => 0x01
  | .maintenance => 0x01
  | .exec r => r.code

/-- The mode a fault leaves: FAULTED for kinds 1, 2 and 7, TIMEFAULT for 3, MAINT for 4 (R545). -/
def Cause.modeAfter : Cause → Mode
  | .addr _ => .faulted
  | .call _ => .faulted
  | .cycleTime => .timefault
  | .maintenance => .maint
  | .exec _ => .faulted

/-! ## Taking a fault -/

/-- `fault(kind, reason)` of R545: the record, the mode, the phase and the reply of the STARTUP or RUN_CYCLE that was running; nothing
else changes. The instruction in progress, the model's own field, ends. There is no return from a fault (R549). -/
def State.takeFault (s : State) (x : Raise) (loc : Option Loc) : State :=
  let e : ErrRec := ⟨x.cause.kind, some x.cause.code, loc, x.opnd⟩
  { s with err := e, mode := x.cause.modeAfter, phase := .idle, body := none, reply := some (.failed e) }

/-- `raise BuildErr(r)` in STARTUP (R550): the record and the reply; mode, phase and `BUILT` are unchanged. -/
def State.takeBuildError (s : State) (r : BuildReason) : State :=
  let e : ErrRec := ⟨5, some r.code, none, none⟩
  { s with err := e, reply := some (.failed e) }

/-- `refuse HostErr(r)` (R547): the reply, and no change of state at all. -/
def State.refuse (s : State) (r : HostReason) : State := { s with reply := some (.refused r) }

/-- `complete OK(data)` (R535). -/
def State.complete (s : State) (data : List Byte) : State := { s with reply := some (.ok data) }

/-- `emit Hook(args)` (R566). -/
def State.emit (s : State) (e : Event) : State := { s with trace := s.trace ++ [e] }

/-- The end of a micro-command: its data-out value joins the replies the body has had (R151, R422). -/
def State.answer (s : State) (dout : Data) : State :=
  { s with body := s.body.map fun b => { b with replies := b.replies ++ [dout] } }

/-! ## Byte order and widths -/

/-- The number a byte sequence stands for, most significant byte first (R102). -/
def beNat (bs : List Byte) : Nat := bs.foldl (fun acc b => acc * 256 + b.toNat) 0

/-- The `n` bytes of a value, most significant first (R102). -/
def beBytes (n : Nat) (v : Data) : List Byte := (List.range n).map fun i => v.extractLsb' (8 * (n - 1 - i)) 8

/-- `trunc_w` of a 48-bit value (R9). -/
def truncTo (w : Width) (v : Data) : Data := BitVec.ofNat 48 (v.toNat % 2 ^ w.bits)

/-! ## Areas and memory -/

/-- The byte buffers of R106: the three regions, the data blocks, and the local data of the frame at a call-stack index. -/
inductive Area where
  | inputs | outputs | flags
  | db (n : BlockNum)
  | loc (j : Nat)
  deriving DecidableEq, Repr

/-- The memory address of byte `b` of a region or data block: the model's own map, each buffer in a window of 65536 (R107, R111;
notes/assumptions/10.md). Local data is held in the frames. -/
def Area.addr (a : Area) (b : Nat) : Nat :=
  match a with
  | .inputs => b
  | .outputs => 65536 + b
  | .flags => 131072 + b
  | .db n => 65536 * (3 + n.toNat) + b
  | .loc _ => b

/-- The first memory address of the data blocks. -/
def dbBase : Nat := 196608

/-- What an unlisted address reads as: 0 in the regions (R41), the initial contents of `Prog` in the data blocks (R42). -/
def resetByte (p : Prog) (a : Nat) : Byte :=
  if a < dbBase then 0
  else
    match p.dataBlock (BitVec.ofNat 16 (a / 65536 - 3)) with
    | some d => d.init.getD (a % 65536) 0
    | none => 0

/-- One byte of memory over the reset contents `d`. -/
def Memory.read (d : Nat → Byte) (m : Memory) (a : Nat) : Byte :=
  match m with
  | [] => d a
  | (k, v) :: r => if k = a then v else Memory.read d r a

/-- Write one byte, keeping the canonical form: writing the reset byte removes the entry. -/
def Memory.write (d : Nat → Byte) (m : Memory) (a : Nat) (v : Byte) : Memory :=
  match m with
  | [] => if v = d a then [] else [(a, v)]
  | (k, x) :: r =>
    if a < k then (if v = d a then (k, x) :: r else (a, v) :: (k, x) :: r)
    else if a = k then (if v = d a then r else (a, v) :: r)
    else (k, x) :: Memory.write d r a v

/-- The canonical form: addresses strictly rising, no entry equal to the reset byte. -/
def Memory.wf (d : Nat → Byte) (m : Memory) : Bool :=
  match m with
  | [] => true
  | (k, v) :: r => decide (v ≠ d k) && r.all (fun e => decide (k < e.1)) && Memory.wf d r

/-- The regions cleared: only the data blocks' bytes stay (R504). -/
def Memory.clearRegions (m : Memory) : Memory := m.filter fun e => decide (dbBase ≤ e.1)

/-- The data blocks back at their initial contents: only the regions' bytes stay (R474, R490). -/
def Memory.resetDbs (m : Memory) : Memory := m.filter fun e => decide (e.1 < dbBase)

/-- The depth of the call stack (R12). -/
def State.depth (s : State) : Nat := s.cs.length

/-- The size in bytes of a buffer (R41, R42, R45); 0 for one that is not there. -/
def State.areaSize (s : State) (a : Area) : Nat :=
  match a with
  | .inputs => s.cfg.inputSize
  | .outputs => s.cfg.outputSize
  | .flags => s.cfg.flagSize
  | .db n =>
    match s.prog.dataBlock n with
    | some d => d.size
    | none => 0
  | .loc j =>
    match s.cs[j]? with
    | some f => f.locals.length
    | none => 0

/-- One byte of a buffer. -/
def State.byteAt (s : State) (a : Area) (b : Nat) : Byte :=
  match a with
  | .loc j =>
    match s.cs[j]? with
    | some f => f.locals.getD b 0
    | none => 0
  | .inputs => s.mem.read (resetByte s.prog) (Area.inputs.addr b)
  | .outputs => s.mem.read (resetByte s.prog) (Area.outputs.addr b)
  | .flags => s.mem.read (resetByte s.prog) (Area.flags.addr b)
  | .db n => s.mem.read (resetByte s.prog) ((Area.db n).addr b)

/-- Write one byte of memory. -/
def State.setMem (s : State) (a : Nat) (v : Byte) : State := { s with mem := s.mem.write (resetByte s.prog) a v }

/-- Write one byte of a buffer. -/
def State.setByte (s : State) (a : Area) (b : Nat) (v : Byte) : State :=
  match a with
  | .loc j => { s with cs := s.cs.modify j fun f => { f with locals := f.locals.set b v } }
  | .inputs => s.setMem (Area.inputs.addr b) v
  | .outputs => s.setMem (Area.outputs.addr b) v
  | .flags => s.setMem (Area.flags.addr b) v
  | .db n => s.setMem ((Area.db n).addr b) v

/-- The bytes of a buffer from `b` on. -/
def State.readBytes (s : State) (a : Area) (b n : Nat) : List Byte := (List.range n).map fun i => s.byteAt a (b + i)

/-- Write bytes of a buffer from `b` on, in rising order. -/
def State.writeBytes (s : State) (a : Area) (b : Nat) (bs : List Byte) : State :=
  match bs with
  | [] => s
  | v :: r => State.writeBytes (s.setByte a b v) a (b + 1) r

/-- The range check of R101: none when the access is in range. -/
def rangeCheck (size ba : Nat) (w : Width) : Option AddrReason :=
  if w = .w1 then (if ba ≥ 8 * size then some .outOfRange else none)
  else if ba % 8 ≠ 0 then some .misaligned
  else if ba / 8 + w.bytes > size then some .outOfRange
  else none

/-- The value an access in range reads (R102, R103). -/
def State.readVal (s : State) (a : Area) (ba : Nat) (w : Width) : Data :=
  if w = .w1 then BitVec.ofNat 48 ((s.byteAt a (ba / 8)).getLsbD (ba % 8)).toNat
  else BitVec.ofNat 48 (beNat (s.readBytes a (ba / 8) w.bytes))

/-- A byte with bit `i` set to `b` and the other seven bits kept (R103). -/
def setBit (v : Byte) (i : Nat) (b : Bool) : Byte :=
  (v &&& ~~~ BitVec.ofNat 8 (2 ^ i)) ||| (if b then BitVec.ofNat 8 (2 ^ i) else 0)

/-- What an access in range writes (R102, R103). -/
def State.writeVal (s : State) (a : Area) (ba : Nat) (w : Width) (v : Data) : State :=
  if w = .w1 then s.setByte a (ba / 8) (setBit (s.byteAt a (ba / 8)) (ba % 8) (v.getLsbD 0))
  else s.writeBytes a (ba / 8) (beBytes w.bytes v)

/-- `MemRead(area, ba, w)` (R100 to R103). -/
def memRead (a : Area) (ba : Nat) (w : Width) (s : State) : Res Data :=
  match rangeCheck (s.areaSize a) ba w with
  | some r => addrErr r s
  | none => .ok (s.readVal a ba w) s

/-- `MemWrite(area, ba, w, v)` (R100 to R103). -/
def memWrite (a : Area) (ba : Nat) (w : Width) (v : Data) (s : State) : Res Unit :=
  match rangeCheck (s.areaSize a) ba w with
  | some r => addrErr r s
  | none => .ok () (s.writeVal a ba w v)

/-! ## Registers -/

/-- The DB register (`di` false) or the DI register (R38). -/
def State.blockReg (s : State) (di : Bool) : BlockNum := if di then s.regs.diReg else s.regs.dbReg

/-- Write the DB or the DI register. -/
def State.setBlockReg (s : State) (di : Bool) (n : BlockNum) : State :=
  if di then { s with regs := { s.regs with diReg := n } } else { s with regs := { s.regs with dbReg := n } }

/-- Write both data-block registers. -/
def State.setDbDi (s : State) (db di : BlockNum) : State := { s with regs := { s.regs with dbReg := db, diReg := di } }

/-- Write the status register. -/
def State.setStw (s : State) (v : BitVec 9) : State := { s with regs := { s.regs with stw := v } }

/-- An address register (R36). -/
def State.ar (s : State) : ArSel → BitVec 32
  | .ar1 => s.regs.ar1
  | .ar2 => s.regs.ar2

/-- Write an address register. -/
def State.setAr (s : State) (n : ArSel) (v : BitVec 32) : State :=
  match n with
  | .ar1 => { s with regs := { s.regs with ar1 := v } }
  | .ar2 => { s with regs := { s.regs with ar2 := v } }

/-- `resetRegisters()` (R481). -/
def State.resetRegisters (s : State) : State := { s with regs := Regs.zero }

/-- The millisecond clock view (R52). `NOW - MS_BASE` is not negative in a run; notes/assumptions/22.md. -/
def State.msClock (s : State) : Nat :=
  ((s.time.now : Int) - s.time.msBase).toNat / 1000000 % 2 ^ s.cfg.msClockBits

/-- `RJ <- d` (R430 to R432). -/
def State.setRj (s : State) (d : Int) : State := { s with step := { s.step with rj := d } }

/-! ## The call stack -/

/-- The class of a frame by its block's kind (R45). -/
def frameClass : BlockKind → FrameClass
  | .ob => .fclike
  | .fc => .fclike
  | .sfc => .fclike
  | .fb => .fblike
  | .sfb => .fblike

/-- The frame at the top of the call stack (R12). -/
def State.top (s : State) : Option Frame := s.cs[s.cs.length - 1]?

/-- The code block a frame runs. -/
def State.codeOf (s : State) (f : Frame) : Option CodeBlock := s.prog.code f.kind f.num

/-- The executing frame `CS[E]` with its code block, or the model's stop when there is none (R48, R420). -/
def State.execFrame (s : State) : Except Fault (Frame × CodeBlock) :=
  match s.cs[s.step.e]? with
  | none => .error .noFrame
  | some f =>
    match s.codeOf f with
    | none => .error .noBlock
    | some b => .ok (f, b)

/-- A new frame for a block (R381): its local data is the draw numbered by the frames built so far (R46). -/
def State.newFrame (s : State) (k : BlockKind) (n : BlockNum) (tempSize : Nat) : Frame where
  kind := k
  num := n
  ip := 0
  locals := (List.range tempSize).map (Config.localByte s.env.framesBuilt)
  paren := []
  bind := []
  params := []
  raw := false
  cls := frameClass k
  instDB := 0
  instBase := 0
  saved := none

/-- `push(F)` (R380). -/
def State.push (s : State) (f : Frame) : State :=
  { s with cs := s.cs ++ [f], env := { s.env with framesBuilt := s.env.framesBuilt + 1 } }

/-- Change the executing frame `CS[E]`. -/
def State.modifyExec (s : State) (g : Frame → Frame) : State := { s with cs := s.cs.modify s.step.e g }

/-! ## The host's oracles -/

/-- `now <- Now(); NOW <- now`: the next reading the host gives, or a draw when the list is empty; never below the last one (R112,
R510, R570; notes/assumptions/5.md). -/
def State.readClock (s : State) : State :=
  let t := max s.env.lastReading (s.env.clock.headD (Config.clockDraw s.env.readings))
  { s with
    time := { s.time with now := t }
    env := { s.env with clock := s.env.clock.tail, lastReading := t, readings := s.env.readings + 1 } }

/-- `PeriphRead(area, bit_width, byte_offset)` (R240): the host's next answer; with none waiting, the default callback, which returns
failure. The state records the call. -/
def State.periphRead (s : State) (w b : Nat) : Option (List Byte) × State :=
  (s.env.periphReads.headD none,
   { s with env := { s.env with
       periphReads := s.env.periphReads.tail
       periphCalls := s.env.periphCalls ++ [⟨false, 0, w, b, []⟩] } })

/-- `PeriphWrite(area, bit_width, byte_offset, bytes)` (R240): the host's next answer; with none waiting, the default callback, which
returns false. The state records the call. -/
def State.periphWrite (s : State) (w b : Nat) (bs : List Byte) : Bool × State :=
  (s.env.periphWrites.headD false,
   { s with env := { s.env with
       periphWrites := s.env.periphWrites.tail
       periphCalls := s.env.periphCalls ++ [⟨true, 1, w, b, bs⟩] } })

/-! ## The two classes of command -/

/-- Run a micro-command (R422): refused when the host issued it (the phase is IDLE; notes/assumptions/8.md), COMMAND_AFTER_CALL after
the body's CALL; else its effect, whose value is the reply and whose raise is a fault at `LOC` (R546). -/
def microCmd (s : State) (k : Frame → CodeBlock → State → Res Data) : Out :=
  if s.phase = .idle then .next (s.refuse .illegalCommand)
  else if s.step.called then .next (s.takeFault ⟨.exec .commandAfterCall, none⟩ (some s.step.loc))
  else
    match s.execFrame with
    | .error f => .fault f
    | .ok (f, b) =>
      match k f b s with
      | .ok v t => .next (t.answer v)
      | .err x t => .next (t.takeFault x (some t.step.loc))

/-- Run a host command: accepted only while the phase is IDLE (R427); issued by a body it raises REENTRY, or COMMAND_AFTER_CALL after
the body's CALL (R422). -/
def hostCmd (s : State) (k : State → State) : Out :=
  if s.phase = .idle then .next (k s)
  else if s.step.called then .next (s.takeFault ⟨.exec .commandAfterCall, none⟩ (some s.step.loc))
  else .next (s.takeFault ⟨.exec .reentry, none⟩ (some s.step.loc))

end Sys2Proof.Machine
end

