-- ==== Sys2Proof/Machine/Flags.lean ====
section
/-! DEFINITION. The status register: the places of its bits, the condition-code views and the two flag writers (10_state R39, R40;
41_status_cc R300 to R303, R310, R311). -/

namespace Sys2Proof.Machine

open Sys2Proof

/-- The bit numbers of STW (R39). -/
def stwFC : Nat := 0
/-- RLO (R39). -/
def stwRLO : Nat := 1
/-- STA (R39). -/
def stwSTA : Nat := 2
/-- OR (R39). -/
def stwOR : Nat := 3
/-- OS (R39). -/
def stwOS : Nat := 4
/-- OV (R39). -/
def stwOV : Nat := 5
/-- A0 (R39). -/
def stwA0 : Nat := 6
/-- A1 (R39). -/
def stwA1 : Nat := 7
/-- BR (R39). -/
def stwBR : Nat := 8

/-- STW with bit `i` set to `b` and the other bits kept. -/
def stwSetBit (v : BitVec 9) (i : Nat) (b : Bool) : BitVec 9 :=
  (v &&& ~~~ BitVec.ofNat 9 (2 ^ i)) ||| (if b then BitVec.ofNat 9 (2 ^ i) else 0)

/-- `CCVIEW(k)` of R301, from A1 and A0 of the current STW; the raw view is no view and reads 0 here. -/
def ccView (stw : BitVec 9) (k : StwView) : Bool :=
  let a0 := stw.getLsbD stwA0
  let a1 := stw.getLsbD stwA1
  match k with
  | .raw => false
  | .eq0 => (a0 ^^ true) && (a1 ^^ true)
  | .ne0 => a0 || a1
  | .gt0 => a1 && (a0 ^^ true)
  | .lt0 => a0 && (a1 ^^ true)
  | .ge0 => a0 ^^ true
  | .le0 => a1 ^^ true
  | .uo => a0 && a1

/-- The masked write of STW_WRITE (R310). -/
def stwMasked (stw mask val : BitVec 9) : BitVec 9 := (stw &&& ~~~ mask) ||| (val &&& mask)

/-- The condition-code update of CC_SET (R311): A1, A0 and OV written, OS sticky. -/
def stwCcSet (stw : BitVec 9) (a1 a0 ovf : Bool) : BitVec 9 :=
  stwSetBit (stwSetBit (stwSetBit (stwSetBit stw stwA1 a1) stwA0 a0) stwOV ovf) stwOS (stw.getLsbD stwOS || ovf)

end Sys2Proof.Machine
end

