-- ==== Sys2Proof/Machine/Operands.lean ====
section
/-! DEFINITION. The operand dispatcher: one handler per tag in each direction, indirection, named interface fields and bindings
(40_dispatcher R200 to R270). -/

namespace Sys2Proof.Machine

open Sys2Proof

/-- The direction of an access (R205, R206, R250 `dir`). -/
inductive AccessDir where
  | fetch | store
  deriving DecidableEq, Repr

/-! ## Widths and well-formedness -/

/-- `width(d)` of a `Prim` (R162). -/
def Prim.width : Prim → Width
  | .imm w _ | .input w _ | .output w _ | .flag w _ | .loc w _ | .parentLoc w _ => w
  | .db w _ _ | .di w _ _ | .timer w _ _ | .counter w _ _ | .periph w _ _ | .stw w _ _ | .ar w _ | .blk w _ _ => w

/-- `width(d)` of a one-word operand. -/
def Operand.width : Operand → Width
  | .prim p => Prim.width p
  | .field w _ _ => w

/-- `width(d)`: for an indirect operand word 0's (R200). -/
def Desc.width : Desc → Width
  | .direct o => Operand.width o
  | .ind w _ _ _ => w

/-- The same descriptor with another `WC` (R260). -/
def Prim.withWidth (w : Width) : Prim → Prim
  | .imm _ v => .imm w v
  | .input _ a => .input w a
  | .output _ a => .output w a
  | .flag _ a => .flag w a
  | .loc _ a => .loc w a
  | .parentLoc _ a => .parentLoc w a
  | .db _ q a => .db w q a
  | .di _ q a => .di w q a
  | .timer _ b i => .timer w b i
  | .counter _ b i => .counter w b i
  | .periph _ o a => .periph w o a
  | .stw _ v b => .stw w v b
  | .ar _ n => .ar w n
  | .blk _ k n => .blk w k n

/-- The width code's bit in an allowed-width set (R155). -/
def amaskBit (w : Width) : Nat := encodeWidth w

/-- The allowed-width check of FETCH and STORE: the empty set admits every width (R155, R200). -/
def widthAllowed (amask : BitVec 5) (w : Width) : Bool := amask == 0 || amask.getLsbD (amaskBit w)

/-- The addressing reason of a descriptor that is not well-formed (R165). -/
def descReason : DescErr → AddrReason
  | .unknownTag => .unknownTag
  | .badIndirect => .badIndirect

/-- `decode(d)` of the pseudocode: the decoded descriptor, or the raise of R165. -/
def decodeArg (d : Descriptor) (s : State) : Res Desc :=
  match decodeDesc d with
  | .ok D => .ok D s
  | .error e => addrErr (descReason e) s

/-! ## Locations -/

/-- `open(reg, n)` of R230. -/
def openBlock (di : Bool) (n : BlockNum) (s : State) : Res Unit :=
  if s.prog.hasDb n then .ok () (s.setBlockReg di n) else addrErr .missingDb s

/-- The data block a DB or DI operand names, opening it first when the operand is qualified (R230 to R232). -/
def liveBlock (di : Bool) (q : Option BlockNum) (s : State) : Res BlockNum :=
  (match q with
   | some n => openBlock di n s
   | none => .ok () s).bind fun _ s =>
    if s.prog.hasDb (s.blockReg di) then .ok (s.blockReg di) s else addrErr .missingDb s

/-- The parent frame's local data, or MISSING_PARENT (R215). -/
def parentArea (s : State) : Res Area := if s.depth < 2 then addrErr .missingParent s else .ok (.loc (s.depth - 2)) s

/-! ## Timers and counters -/

/-- `TIMER_COUNT` or `COUNTER_COUNT`. -/
def State.cellCount (s : State) : CellKind → Nat
  | .timer => s.cfg.timerCount
  | .counter => s.cfg.counterCount

/-- The cell at an index of the timer or the counter array (R43). -/
def State.cell (s : State) (k : CellKind) (i : Nat) : Cell :=
  match k with
  | .timer => s.timers.getD i Config.tcmReset
  | .counter => s.counters.getD i Config.tcmReset

/-- Write the cell at an index. -/
def State.setCell (s : State) (k : CellKind) (i : Nat) (c : Cell) : State :=
  match k with
  | .timer => { s with timers := s.timers.set i c }
  | .counter => { s with counters := s.counters.set i c }

/-- The widths a timer or counter operand has: 1 with the binary select, 16 with either (R202, R235). -/
def cellWidthOk (w : Width) (bcd : Bool) : Bool := (w == .w1 && !bcd) || w == .w16

/-- The T and C handlers, fetch direction (R235, R236). -/
def fetchCell (k : CellKind) (w : Width) (bcd : Bool) (i : BitVec 16) (s : State) : Res Data :=
  if cellWidthOk w bcd then
    if i.toNat ≥ s.cellCount k then addrErr .missingTc s
    else
      let c := s.cell k i.toNat
      if w = .w1 then .ok ((Config.tcmState c).setWidth 48) s
      else if bcd then .ok ((Config.tcmBcd c).setWidth 48) s
      else .ok ((Config.tcmValue c).setWidth 48) s
  else addrErr .widthMismatch s

/-- The T and C handlers, store direction: read-only (R204, R235). -/
def storeCell (w : Width) (bcd : Bool) (s : State) : Res Unit :=
  if cellWidthOk w bcd then addrErr .readOnly s else addrErr .widthMismatch s

/-! ## Peripherals -/

/-- The widths of a peripheral operand (R202). -/
def periphWidthOk (w : Width) : Bool := w == .w8 || w == .w16 || w == .w32

/-- The P handler, fetch direction (R241). -/
def fetchPeriph (w : Width) (out : Bool) (ba : BitAddr) (s : State) : Res Data :=
  if !periphWidthOk w then addrErr .widthMismatch s
  else if out then addrErr .writeOnly s
  else if ba.toNat % 8 ≠ 0 then addrErr .misaligned s
  else
    let b := ba.toNat / 8
    let (r, t) := s.periphRead w.bits b
    match r with
    | none => addrErr .peripheralFail t
    | some bs =>
      if bs.length ≠ w.bytes then addrErr .peripheralFail t
      else
        .ok (BitVec.ofNat 48 (beNat bs))
          (if b + w.bytes ≤ t.cfg.inputSize then t.writeBytes .inputs b bs else t)

/-- The P handler, store direction (R242): the output mirror stays when the callback fails. -/
def storePeriph (w : Width) (out : Bool) (ba : BitAddr) (v : Data) (s : State) : Res Unit :=
  if !periphWidthOk w then addrErr .widthMismatch s
  else if !out then addrErr .readOnly s
  else if ba.toNat % 8 ≠ 0 then addrErr .misaligned s
  else
    let b := ba.toNat / 8
    let bs := beBytes w.bytes v
    let t := if b + w.bytes ≤ s.cfg.outputSize then s.writeBytes .outputs b bs else s
    let (ok, u) := t.periphWrite w.bits b bs
    if ok then .ok () u else addrErr .peripheralFail u

/-! ## Status register -/

/-- The STW handler, fetch direction (R245). -/
def fetchStw (w : Width) (v : StwView) (bit : Fin 9) (s : State) : Res Data :=
  if v = .raw then
    if w = .w1 then .ok (BitVec.ofNat 48 (s.regs.stw.getLsbD bit.val).toNat) s
    else if w = .w16 then .ok (s.regs.stw.setWidth 48) s
    else addrErr .widthMismatch s
  else if w = .w1 then .ok (BitVec.ofNat 48 (ccView s.regs.stw v).toNat) s
  else addrErr .widthMismatch s

/-- The STW handler, store direction (R245). -/
def storeStw (w : Width) (v : StwView) (bit : Fin 9) (x : Data) (s : State) : Res Unit :=
  if v = .raw then
    if w = .w1 then .ok () (s.setStw (stwSetBit s.regs.stw bit.val (x.getLsbD 0)))
    else if w = .w16 then .ok () (s.setStw (x.setWidth 9))
    else addrErr .widthMismatch s
  else if w = .w1 then addrErr .readOnly s
  else addrErr .widthMismatch s

/-! ## The handlers -/

/-- The handler of a `Prim` in its fetch direction (R205, R210 to R247). -/
def fetchPrim (p : Prim) (s : State) : Res Data :=
  match p with
  | .imm w v => .ok (truncTo w v) s
  | .input w ba => memRead .inputs ba.toNat w s
  | .output w ba => memRead .outputs ba.toNat w s
  | .flag w ba => memRead .flags ba.toNat w s
  | .loc w ba => memRead (.loc (s.depth - 1)) ba.toNat w s
  | .parentLoc w ba => (parentArea s).bind fun a s => memRead a ba.toNat w s
  | .db w q ba => (liveBlock false q s).bind fun n s => memRead (.db n) ba.toNat w s
  | .di w q ba => (liveBlock true q s).bind fun n s => memRead (.db n) ba.toNat w s
  | .timer w bcd i => fetchCell .timer w bcd i s
  | .counter w bcd i => fetchCell .counter w bcd i s
  | .periph w out ba => fetchPeriph w out ba s
  | .stw w v b => fetchStw w v b s
  | .ar w n => if w = .w32 then .ok ((s.ar n).setWidth 48) s else addrErr .widthMismatch s
  | .blk w _ n => if w = .w16 then .ok (n.setWidth 48) s else addrErr .widthMismatch s

/-- The handler of a `Prim` in its store direction (R206, R210 to R247); the value is truncated to the width first (R201). -/
def storePrim (p : Prim) (v : Data) (s : State) : Res Unit :=
  let x := truncTo (Prim.width p) v
  match p with
  | .imm _ _ => addrErr .readOnly s
  | .input w ba => memWrite .inputs ba.toNat w x s
  | .output w ba => memWrite .outputs ba.toNat w x s
  | .flag w ba => memWrite .flags ba.toNat w x s
  | .loc w ba => memWrite (.loc (s.depth - 1)) ba.toNat w x s
  | .parentLoc w ba => (parentArea s).bind fun a s => memWrite a ba.toNat w x s
  | .db w q ba => (liveBlock false q s).bind fun n s => memWrite (.db n) ba.toNat w x s
  | .di w q ba => (liveBlock true q s).bind fun n s => memWrite (.db n) ba.toNat w x s
  | .timer w bcd _ => storeCell w bcd s
  | .counter w bcd _ => storeCell w bcd s
  | .periph w out ba => storePeriph w out ba x s
  | .stw w v b => storeStw w v b x s
  | .ar w n => if w = .w32 then .ok () (s.setAr n (x.setWidth 32)) else addrErr .widthMismatch s
  | .blk w _ _ => if w = .w16 then addrErr .readOnly s else addrErr .widthMismatch s

/-! ## Named interface fields -/

/-- What a FIELD operand resolves to: a place in a data block or in a frame's local data, another descriptor, or a constant
(R260, R270). -/
inductive Place where
  | dbAt (n : BlockNum) (ba : Nat)
  | localAt (j : Nat) (ba : Nat)
  | opnd (p : Prim)
  | const (w : Width) (v : Data)
  deriving DecidableEq, Repr

/-- A bit address moved by a sub-offset, or BAD_POINTER at `2^19` (R251, R270). -/
def shiftAddr (ba : BitAddr) (off : Nat) (s : State) : Res BitAddr :=
  if ba.toNat + off < 2 ^ 19 then .ok (BitVec.ofNat 19 (ba.toNat + off)) s else addrErr .badPointer s

/-- `bindingLoc(b, s)` for a live descriptor (R270): the sub-offset moves I, Q, M and P, and must be 0 for the other tags. -/
def bindingPrim (p : Prim) (off : Nat) (s : State) : Res Place :=
  match p with
  | .input w ba => (shiftAddr ba off s).bind fun a s => .ok (.opnd (.input w a)) s
  | .output w ba => (shiftAddr ba off s).bind fun a s => .ok (.opnd (.output w a)) s
  | .flag w ba => (shiftAddr ba off s).bind fun a s => .ok (.opnd (.flag w a)) s
  | .periph w o ba => (shiftAddr ba off s).bind fun a s => .ok (.opnd (.periph w o a)) s
  | .imm _ _ | .loc _ _ | .parentLoc _ _ | .db _ _ _ | .di _ _ _ | .timer _ _ _ | .counter _ _ _ | .stw _ _ _ | .ar _ _
  | .blk _ _ _ => if off ≠ 0 then addrErr .badPointer s else .ok (.opnd p) s

/-- `bindingLoc(b, s)` (R270). -/
def bindingLoc (b : Binding) (off : Nat) (s : State) : Res Place :=
  match b with
  | .const w v => if off ≠ 0 then addrErr .badPointer s else .ok (.const w v) s
  | .loc p => bindingPrim p off s
  | .dbLoc n ba => if s.prog.hasDb n then .ok (.dbAt n (ba + off)) s else addrErr .missingDb s
  | .frameLocal j ba => if j ≥ s.depth then addrErr .missingParent s else .ok (.localAt j (ba + off)) s

/-- `fcField` (R262). -/
def fcField (f : Frame) (k : BitVec 16) (fd : Field) (off : Nat) (s : State) : Res Place :=
  if fd.dir = .stat then addrErr .noField s
  else if f.raw then addrErr .noBinding s
  else
    match f.bind.lookup k with
    | none => addrErr .noBinding s
    | some b => bindingLoc b off s

/-- `fbAggregate` (R264): the stored 48-bit block pointer retargets the access. -/
def fbAggregate (f : Frame) (fd : Field) (off : Nat) (n : BlockNum) (s : State) : Res Place :=
  (memRead (.db n) (f.instBase + fd.off.toNat) .w48 s).bind fun ptr s =>
    let m : BlockNum := ptr.extractLsb' 32 16
    if s.prog.hasDb m then
      let ba := (ptr.extractLsb' 0 19).toNat + off
      if ba ≥ 2 ^ 19 then addrErr .badPointer s else .ok (.dbAt m ba) s
    else addrErr .missingDb s

/-- `fbField` (R263): the live DI register names the instance data block. -/
def fbField (f : Frame) (fd : Field) (off : Nat) (s : State) : Res Place :=
  let n := s.regs.diReg
  if s.prog.hasDb n then
    if fd.agg ∧ fd.dir ≠ .stat then fbAggregate f fd off n s
    else .ok (.dbAt n (f.instBase + fd.off.toNat + off)) s
  else addrErr .missingDb s

/-- The FIELD handler's resolution in the current frame (R260, R261, R266). -/
def resolveField (k : BitVec 16) (sub : BitAddr) (s : State) : Res Place :=
  match s.top with
  | none => addrErr .noField s
  | some f =>
    match (s.codeOf f).bind fun b => b.field k with
    | none => addrErr .noField s
    | some fd =>
      if fd.dir = .temp then .ok (.localAt (s.depth - 1) (fd.off.toNat + sub.toNat)) s
      else if f.kind = .ob then addrErr .noField s
      else
        match f.cls with
        | .fclike => fcField f k fd sub.toNat s
        | .fblike => fbField f fd sub.toNat s

/-- Fetch from a resolved place with the FIELD descriptor's width (R260, R270). -/
def fetchPlace (w : Width) (pl : Place) (s : State) : Res Data :=
  match pl with
  | .dbAt n ba => memRead (.db n) ba w s
  | .localAt j ba => memRead (.loc j) ba w s
  | .opnd p => fetchPrim (Prim.withWidth w p) s
  | .const _ v => .ok (truncTo w v) s

/-- Store to a resolved place with the FIELD descriptor's width; a constant is read-only (R204, R260, R270). -/
def storePlace (w : Width) (pl : Place) (v : Data) (s : State) : Res Unit :=
  match pl with
  | .dbAt n ba => memWrite (.db n) ba w (truncTo w v) s
  | .localAt j ba => memWrite (.loc j) ba w (truncTo w v) s
  | .opnd p => storePrim (Prim.withWidth w p) v s
  | .const _ _ => addrErr .readOnly s

/-- `fetchOp` of a one-word operand (R205). -/
def fetchOperand (o : Operand) (s : State) : Res Data :=
  match o with
  | .prim p => fetchPrim p s
  | .field w k sub => (resolveField k sub s).bind fun pl s => fetchPlace w pl s

/-- `storeOp` of a one-word operand (R206). -/
def storeOperand (o : Operand) (v : Data) (s : State) : Res Unit :=
  match o with
  | .prim p => storePrim p v s
  | .field w k sub => (resolveField k sub s).bind fun pl s => storePlace w pl v s

/-! ## Indirection -/

/-- An area-crossing pointer's form: `p[31] = 1`, `p[30:27] = 0`, `p[23:19] = 0` (R36, R252). -/
def crossingOk (p : BitVec 32) : Bool :=
  p.extractLsb' 31 1 == 1 && p.extractLsb' 27 4 == 0 && p.extractLsb' 19 5 == 0

/-- The operand an area code selects (R37); the peripheral side follows the direction (R252). -/
def crossingPrim (dir : AccessDir) (p : BitVec 32) (w : Width) (ba : BitAddr) : Prim :=
  let area := (p.extractLsb' 24 3).toNat
  if area = 0 then .periph w (dir == .store) ba
  else if area = 1 then .input w ba
  else if area = 2 then .output w ba
  else if area = 3 then .flag w ba
  else if area = 4 then .db w none ba
  else if area = 5 then .di w none ba
  else if area = 6 then .loc w ba
  else .parentLoc w ba

/-- A final access through a pointer: the pointer is fetched in full, the displacement added (R250, R251), and `mk` names the target. -/
def resolvePointer (inner : Operand) (disp : BitAddr) (form : BitVec 32 → Bool) (mk : BitVec 32 → BitAddr → Prim) (s : State) :
    Res Prim :=
  if Operand.width inner ≠ .w32 then addrErr .badIndirect s
  else
    (fetchOperand inner s).bind fun v s =>
      let p : BitVec 32 := v.setWidth 32
      if form p then
        (shiftAddr (p.extractLsb' 0 19) disp.toNat s).bind fun ba s => .ok (mk p ba) s
      else addrErr .badPointer s

/-- A final access through a number: a timer, counter or block reference (R250). -/
def resolveNumber (inner : Operand) (mk : BitVec 16 → Prim) (s : State) : Res Prim :=
  if Operand.width inner ≠ .w16 then addrErr .badIndirect s
  else (fetchOperand inner s).bind fun v s => .ok (mk (v.setWidth 16)) s

/-- `resolveInd(W0, W1, dir)` (R250 to R252). -/
def resolveInd (dir : AccessDir) (w : Width) (tgt : IndTarget) (disp : BitAddr) (inner : Operand) (s : State) : Res Prim :=
  match tgt with
  | .timer bcd => resolveNumber inner (fun n => .timer w bcd n) s
  | .counter bcd => resolveNumber inner (fun n => .counter w bcd n) s
  | .blk k => resolveNumber inner (fun n => .blk w k n) s
  | .input => resolvePointer inner disp (fun _ => true) (fun _ ba => .input w ba) s
  | .output => resolvePointer inner disp (fun _ => true) (fun _ ba => .output w ba) s
  | .flag => resolvePointer inner disp (fun _ => true) (fun _ ba => .flag w ba) s
  | .loc => resolvePointer inner disp (fun _ => true) (fun _ ba => .loc w ba) s
  | .parentLoc => resolvePointer inner disp (fun _ => true) (fun _ ba => .parentLoc w ba) s
  | .db => resolvePointer inner disp (fun _ => true) (fun _ ba => .db w none ba) s
  | .di => resolvePointer inner disp (fun _ => true) (fun _ ba => .di w none ba) s
  | .periph out => resolvePointer inner disp (fun _ => true) (fun _ ba => .periph w out ba) s
  | .crossing => resolvePointer inner disp crossingOk (fun p ba => crossingPrim dir p w ba) s

/-- An indirect descriptor resolved, any other left as it is (R361, R364, R366). -/
def resolveDesc (dir : AccessDir) (D : Desc) (s : State) : Res Operand :=
  match D with
  | .direct o => .ok o s
  | .ind w tgt disp inner => (resolveInd dir w tgt disp inner s).bind fun p s => .ok (.prim p) s

/-- `fetchOp(D)` (R205). -/
def fetchOp (D : Desc) (s : State) : Res Data := (resolveDesc .fetch D s).bind fetchOperand

/-- `storeOp(D, v)` (R206). -/
def storeOp (D : Desc) (v : Data) (s : State) : Res Unit :=
  (resolveDesc .store D s).bind fun o s => storeOperand o v s

end Sys2Proof.Machine
end

