-- ==== Sys2Proof/Machine/Access.lean ====
section
/-! DEFINITION. FETCH and STORE (40_dispatcher R200 to R203). -/

namespace Sys2Proof.Machine

open Sys2Proof

/-- The checks before a handler runs: decode, then the allowed-width set (R203 (1), (2)). -/
def checkedDesc (amask : BitVec 5) (d : Descriptor) (s : State) : Res Desc :=
  (decodeArg d s).bind fun D s => if widthAllowed amask (Desc.width D) then .ok D s else addrErr .widthMismatch s

/-- FETCH (R200). -/
def execFetch (amask : BitVec 5) (d : Descriptor) (s : State) : Out :=
  microCmd s fun _ _ s => ((checkedDesc amask d s).bind fetchOp).withOpnd d

/-- STORE (R201): the value is `DIN`. -/
def execStore (amask : BitVec 5) (d : Descriptor) (s : State) : Out :=
  microCmd s fun _ _ s =>
    (((checkedDesc amask d s).bind fun D s => storeOp D s.din s).withOpnd d).bind fun _ s => .ok 0 s

end Sys2Proof.Machine
end

