-- ==== Sys2Proof/Machine/CallOps.lean ====
section
/-! DEFINITION. The phases of a call that the twelve CALL rows share, and one operation per shape (42_calls R353 to R381). -/

namespace Sys2Proof.Machine

open Sys2Proof

/-- The field index of a parameter word (R156). -/
def Param.index (p : Param) : BitVec 16 := bits p.word 0 16

/-- The three shape families: ordinary function, function block, multi-instance function block (R351). -/
inductive ShapeKind where
  | fc | fb | mi
  deriving DecidableEq, Repr

/-- The kind of the target block (R351). -/
def targetKind (sh : ShapeKind) (sys : Bool) : BlockKind :=
  match sh with
  | .fc => if sys then .sfc else .fc
  | .fb | .mi => if sys then .sfb else .fb

/-- The common checks of R353 that come before any operand is looked at: parameters on a raw shape, then `MIOFF` outside the
multi-instance shapes. -/
def callHeaderCheck (sh : ShapeKind) (mioff nparam : BitVec 16) (raw : Bool) (s : State) : Res Unit :=
  if raw ∧ nparam ≠ 0 then callErr .badParam s
  else if mioff ≠ 0 ∧ sh ≠ .mi then execErr .illegalCommand s
  else .ok () s

/-- The target of a direct shape (R354): a block reference of the right kind, not fetched. -/
def directTarget (k : BlockKind) (t : Descriptor) (s : State) : Res BlockNum :=
  (decodeArg t s).bind fun D s =>
    match D with
    | .direct (.prim (.blk _ kind n)) => if kind = .code k then .ok n s else callErr .wrongKind s
    | _ => callErr .wrongKind s

/-- A block reference that names another kind than the shape's (R355). -/
def namesOtherKind (k : BlockKind) (D : Desc) : Bool :=
  match D with
  | .direct (.prim (.blk _ kind _)) => kind != .code k
  | _ => false

/-- The target of a raw shape (R355): a 16-bit number fetched in the caller's context. -/
def rawTarget (k : BlockKind) (t : Descriptor) (s : State) : Res BlockNum :=
  (decodeArg t s).bind fun D s =>
    if namesOtherKind k D then callErr .wrongKind s
    else if Desc.width D ≠ .w16 then addrErr .widthMismatch s
    else (fetchOp D s).bind fun v s => .ok (v.setWidth 16) s

/-- `lookup(K, n)` (R360). -/
def lookupBlock (k : BlockKind) (n : BlockNum) (s : State) : Res CodeBlock :=
  match s.prog.code k n with
  | none => callErr .noBlock s
  | some b => .ok b s

/-- The target operand resolved and looked up; a raise here names the target operand (R350, R546; notes/assumptions/16.md). -/
def callTarget (k : BlockKind) (raw : Bool) (t : Descriptor) (s : State) : Res (BlockNum × CodeBlock) :=
  ((if raw then rawTarget k t s else directTarget k t s).bind fun n s =>
    (lookupBlock k n s).bind fun b s => .ok (n, b) s).withOpnd t

/-- The parameter-list checks (R356), for each pair in order; `seen` holds the indexes of the earlier pairs. -/
def checkParams (b : CodeBlock) (pl : List Param) (seen : List (BitVec 16)) (s : State) : Res Unit :=
  match pl with
  | [] => .ok () s
  | p :: r =>
    ((match b.field (Param.index p) with
      | none => callErr .badParam s
      | some f =>
        if f.dir = Dir.stat ∨ f.dir = Dir.temp then callErr .badParam s
        else if Param.index p ∈ seen then callErr .badParam s
        else if bits p.word 16 48 ≠ 0 then execErr .illegalCommand s
        else .ok () s).withOpnd p.d).bind fun _ s => checkParams b r (Param.index p :: seen) s

/-- The instance data block of CALL_FB (R361); a raise names the instance operand. -/
def callInstance (x : Descriptor) (s : State) : Res BlockNum :=
  ((decodeArg x s).bind fun X s =>
    (resolveDesc .fetch X s).bind fun o s =>
      match o with
      | .prim (.blk _ .db m) => if s.prog.hasDb m then .ok m s else callErr .noBlock s
      | _ => callErr .notDb s).withOpnd x

/-! ## Parameters of an FC-like call -/

/-- The binding of a `Prim` (R366). -/
def bindPrim (p : Prim) (s : State) : Res Binding :=
  match p with
  | .imm w v => .ok (.const w v) s
  | .db _ q ba => (liveBlock false q s).bind fun n s => .ok (.dbLoc n ba.toNat) s
  | .di _ q ba => (liveBlock true q s).bind fun n s => .ok (.dbLoc n ba.toNat) s
  | .loc _ ba => .ok (.frameLocal (s.depth - 1) ba.toNat) s
  | .parentLoc _ ba =>
    if s.depth < 2 then addrErr .missingParent s else .ok (.frameLocal (s.depth - 2) ba.toNat) s
  | .input _ _ | .output _ _ | .flag _ _ | .periph _ _ _ | .timer _ _ _ | .counter _ _ _ | .stw _ _ _ | .ar _ _
  | .blk _ _ _ => .ok (.loc p) s

/-- The binding a resolved FIELD actual passes through (R366). -/
def bindPlace (pl : Place) (s : State) : Res Binding :=
  match pl with
  | .dbAt n ba => .ok (.dbLoc n ba) s
  | .localAt j ba => .ok (.frameLocal j ba) s
  | .opnd p => bindPrim p s
  | .const w v => .ok (.const w v) s

/-- `bind(d, f)` (R366). -/
def bindActual (d : Descriptor) (f : Field) (s : State) : Res Binding :=
  (decodeArg d s).bind fun D s =>
    (resolveDesc (if f.dir = .input then .fetch else .store) D s).bind fun o s =>
      match o with
      | .prim p => bindPrim p s
      | .field _ k sub => (resolveField k sub s).bind bindPlace

/-- The bindings of a parameter list, in order (R370). A raise names the actual's descriptor. -/
def bindParams (b : CodeBlock) (pl : List Param) (s : State) : Res (List (BitVec 16 × Binding)) :=
  match pl with
  | [] => .ok [] s
  | p :: r =>
    ((match b.field (Param.index p) with
      | none => callErr .badParam s
      | some f => bindActual p.d f s).withOpnd p.d).bind fun x s =>
        (bindParams b r s).bind fun xs s => .ok ((Param.index p, x) :: xs) s

/-! ## Parameters of an FB-like call -/

/-- The 48-bit block pointer of an aggregate actual (R364). -/
def blockPointer (n : BlockNum) (ba : BitAddr) : Data := n ++ (0x84000000#32 ||| ba.setWidth 32)

/-- The aggregate actual of an FB-like call: its block pointer is stored in the instance (R364). -/
def copyInAggregate (inst : BlockNum) (at_ : Nat) (d : Descriptor) (s : State) : Res Unit :=
  (decodeArg d s).bind fun D s =>
    (resolveDesc .fetch D s).bind fun o s =>
      match o with
      | .prim (.db _ q ba) =>
        (liveBlock false q s).bind fun n s => memWrite (.db inst) at_ .w48 (blockPointer n ba) s
      | .prim (.di _ q ba) =>
        (liveBlock true q s).bind fun n s => memWrite (.db inst) at_ .w48 (blockPointer n ba) s
      | _ => callErr .badParam s

/-- The copy-in of one pair (R363, R364). -/
def copyInOne (inst : BlockNum) (base : Nat) (f : Field) (d : Descriptor) (s : State) : Res Unit :=
  if f.agg then copyInAggregate inst (base + f.off.toNat) d s
  else if f.dir = .input ∨ f.dir = .inout then
    (decodeArg d s).bind fun D s =>
      if Desc.width D ≠ f.width then callErr .badParam s
      else (fetchOp D s).bind fun v s => memWrite (.db inst) (base + f.off.toNat) f.width v s
  else .ok () s

/-- The copy-in of a parameter list, in order (R363). A raise names the actual's descriptor. -/
def copyIn (b : CodeBlock) (inst : BlockNum) (base : Nat) (pl : List Param) (s : State) : Res Unit :=
  match pl with
  | [] => .ok () s
  | p :: r =>
    ((match b.field (Param.index p) with
      | none => callErr .badParam s
      | some f => copyInOne inst base f p.d s).withOpnd p.d).bind fun _ s => copyIn b inst base r s

/-- The actual-parameter tuple a frame keeps (R363). -/
def paramTuple (pl : List Param) : List (BitVec 16 × Descriptor) := pl.map fun p => (Param.index p, p.d)

/-! ## Multi-instance calls -/

/-- The instance base `AR2[18:0] + 8 * MIOFF` (R372). -/
def miBase (s : State) (mioff : BitVec 16) : Nat := (s.regs.ar2.extractLsb' 0 19).toNat + 8 * mioff.toNat

/-- `wbits(f)` of R377. -/
def fieldBits (f : Field) : Nat := if f.agg then 48 else f.width.bits

/-- The validation of R377, when `MI_VALIDATE` is set: every field but TEMP lies inside the instance data block. -/
def miInRange (b : CodeBlock) (base size : Nat) : Bool :=
  b.iface.all fun kf => kf.2.dir == .temp || decide (base + kf.2.off.toNat + fieldBits kf.2 ≤ 8 * size)

/-- The instance of a multi-instance call: the current DI block and the base inside it (R372, R375, R377). -/
def miInstance (b : CodeBlock) (mioff : BitVec 16) (s : State) : Res (BlockNum × Nat) :=
  if s.prog.hasDb s.regs.diReg then
    if s.cfg.miValidate ∧ miInRange b (miBase s mioff) (s.areaSize (.db s.regs.diReg)) = false then callErr .miRange s
    else .ok (s.regs.diReg, miBase s mioff) s
  else callErr .noInstance s

/-! ## The six shapes -/

/-- Push the frame and end the command (R353, R380). -/
def finishCall (f : Frame) (s : State) : Res Data :=
  let t := s.push f
  .ok 0 { t with step := { t.step with called := true } }

/-- The common part of a direct call up to its shape-specific part (R353): header checks, target, parameter checks
(notes/assumptions/15.md). -/
def directCall (sh : ShapeKind) (sys : Bool) (mioff : BitVec 16) (t : Descriptor) (pl : List Param)
    (k : BlockNum → CodeBlock → State → Res Data) (s : State) : Res Data :=
  (callHeaderCheck sh mioff 0 false s).bind fun _ s =>
    (callTarget (targetKind sh sys) false t s).bind fun nb s =>
      (checkParams nb.2 pl [] s).bind fun _ s => k nb.1 nb.2 s

/-- The common part of a raw call (R353). -/
def rawCall (sh : ShapeKind) (sys : Bool) (mioff nparam : BitVec 16) (t : Descriptor)
    (k : BlockNum → CodeBlock → State → Res Data) (s : State) : Res Data :=
  (callHeaderCheck sh mioff nparam true s).bind fun _ s =>
    (callTarget (targetKind sh sys) true t s).bind fun nb s => k nb.1 nb.2 s

/-- CALL_FC (R370). -/
def callFcOp (sys : Bool) (mioff : BitVec 16) (t : Descriptor) (pl : List Param) (s : State) : Res Data :=
  directCall .fc sys mioff t pl (fun n b s =>
    (bindParams b pl s).bind fun bs s =>
      finishCall { s.newFrame (targetKind .fc sys) n b.tempSize with bind := bs } s) s

/-- CALL_FB (R371): the registers change after every operand has been evaluated. -/
def callFbOp (sys : Bool) (mioff : BitVec 16) (t x : Descriptor) (pl : List Param) (s : State) : Res Data :=
  directCall .fb sys mioff t pl (fun n b s =>
    (callInstance x s).bind fun m s =>
      (copyIn b m 0 pl s).bind fun _ s =>
        finishCall
          { s.newFrame (targetKind .fb sys) n b.tempSize with
            params := paramTuple pl, instDB := m, instBase := 0, saved := some (s.regs.dbReg, s.regs.diReg) }
          (s.setDbDi s.regs.diReg m)) s

/-- CALL_MI (R372): DB is set to DI, DI is unchanged. -/
def callMiOp (sys : Bool) (mioff : BitVec 16) (t : Descriptor) (pl : List Param) (s : State) : Res Data :=
  directCall .mi sys mioff t pl (fun n b s =>
    (miInstance b mioff s).bind fun mb s =>
      (copyIn b mb.1 mb.2 pl s).bind fun _ s =>
        finishCall
          { s.newFrame (targetKind .mi sys) n b.tempSize with
            params := paramTuple pl, instDB := mb.1, instBase := mb.2, saved := some (s.regs.dbReg, s.regs.diReg) }
          (s.setDbDi s.regs.diReg s.regs.diReg)) s

/-- RAW_FC (R373). -/
def rawFcOp (sys : Bool) (mioff nparam : BitVec 16) (t : Descriptor) (s : State) : Res Data :=
  rawCall .fc sys mioff nparam t (fun n b s =>
    finishCall { s.newFrame (targetKind .fc sys) n b.tempSize with raw := true } s) s

/-- RAW_FB (R374): no register changes. -/
def rawFbOp (sys : Bool) (mioff nparam : BitVec 16) (t : Descriptor) (s : State) : Res Data :=
  rawCall .fb sys mioff nparam t (fun n b s =>
    finishCall
      { s.newFrame (targetKind .fb sys) n b.tempSize with
        raw := true, instDB := s.regs.diReg, instBase := 0, saved := some (s.regs.dbReg, s.regs.diReg) } s) s

/-- RAW_MI (R375). -/
def rawMiOp (sys : Bool) (mioff nparam : BitVec 16) (t : Descriptor) (s : State) : Res Data :=
  rawCall .mi sys mioff nparam t (fun n b s =>
    (miInstance b mioff s).bind fun mb s =>
      finishCall
        { s.newFrame (targetKind .mi sys) n b.tempSize with
          raw := true, instDB := mb.1, instBase := mb.2, saved := some (s.regs.dbReg, s.regs.diReg) }
        (s.setDbDi s.regs.diReg s.regs.diReg)) s

end Sys2Proof.Machine
end

