-- ==== Sys2Proof/Machine/Calls.lean ====
section
/-! DEFINITION. The twelve CALL rows (42_calls R351, R370 to R376): six shapes, each for user blocks and for system blocks. -/

namespace Sys2Proof.Machine

open Sys2Proof

/-- CALL_FC: a function (R370). -/
def execCallFc (mioff : BitVec 16) (t : Descriptor) (pl : List Param) (s : State) : Out :=
  microCmd s fun _ _ s => callFcOp false mioff t pl s

/-- CALL_FC.SYS: a system function (R370, R376). -/
def execCallFcSys (mioff : BitVec 16) (t : Descriptor) (pl : List Param) (s : State) : Out :=
  microCmd s fun _ _ s => callFcOp true mioff t pl s

/-- CALL_FB: a function block with its instance data block (R371). -/
def execCallFb (mioff : BitVec 16) (t x : Descriptor) (pl : List Param) (s : State) : Out :=
  microCmd s fun _ _ s => callFbOp false mioff t x pl s

/-- CALL_FB.SYS: a system function block (R371, R376). -/
def execCallFbSys (mioff : BitVec 16) (t x : Descriptor) (pl : List Param) (s : State) : Out :=
  microCmd s fun _ _ s => callFbOp true mioff t x pl s

/-- CALL_MI: a multi-instance call (R372). -/
def execCallMi (mioff : BitVec 16) (t : Descriptor) (pl : List Param) (s : State) : Out :=
  microCmd s fun _ _ s => callMiOp false mioff t pl s

/-- CALL_MI.SYS: a multi-instance call of a system function block (R372, R376). -/
def execCallMiSys (mioff : BitVec 16) (t : Descriptor) (pl : List Param) (s : State) : Out :=
  microCmd s fun _ _ s => callMiOp true mioff t pl s

/-- RAW_FC: an indirect function call (R373). -/
def execRawFc (mioff nparam : BitVec 16) (t : Descriptor) (s : State) : Out :=
  microCmd s fun _ _ s => rawFcOp false mioff nparam t s

/-- RAW_FC.SYS: an indirect system function call (R373, R376). -/
def execRawFcSys (mioff nparam : BitVec 16) (t : Descriptor) (s : State) : Out :=
  microCmd s fun _ _ s => rawFcOp true mioff nparam t s

/-- RAW_FB: an indirect function-block call (R374). -/
def execRawFb (mioff nparam : BitVec 16) (t : Descriptor) (s : State) : Out :=
  microCmd s fun _ _ s => rawFbOp false mioff nparam t s

/-- RAW_FB.SYS: an indirect system-function-block call (R374, R376). -/
def execRawFbSys (mioff nparam : BitVec 16) (t : Descriptor) (s : State) : Out :=
  microCmd s fun _ _ s => rawFbOp true mioff nparam t s

/-- RAW_MI: an indirect multi-instance call (R375). -/
def execRawMi (mioff nparam : BitVec 16) (t : Descriptor) (s : State) : Out :=
  microCmd s fun _ _ s => rawMiOp false mioff nparam t s

/-- RAW_MI.SYS: an indirect multi-instance call of a system function block (R375, R376). -/
def execRawMiSys (mioff nparam : BitVec 16) (t : Descriptor) (s : State) : Out :=
  microCmd s fun _ _ s => rawMiOp true mioff nparam t s

end Sys2Proof.Machine
end

