-- ==== Sys2Proof/Machine/Control.lean ====
section
/-! DEFINITION. Jumps, block end, the parenthesis stack and the MCR stack (43_dispatch_loop R430 to R447). -/

namespace Sys2Proof.Machine

open Sys2Proof

/-- JUMP_REL (R430): the distance is the signed reading of `IMM32`. -/
def execJumpRel (imm : BitVec 32) (s : State) : Out := microCmd s fun _ _ s => .ok 0 (s.setRj imm.toInt)

/-- JUMP_LABEL (R431). -/
def execJumpLabel (label : BitVec 32) (s : State) : Out :=
  microCmd s fun f b s =>
    match b.labels.lookup label with
    | none => execErr .unknownLabel s
    | some i => .ok 0 (s.setRj ((i : Int) - f.ip))

/-- BLOCK_END (R432). -/
def execBlockEnd (s : State) : Out := microCmd s fun f b s => .ok 0 (s.setRj ((b.len : Int) - f.ip))

/-- PAREN_PUSH (R440). -/
def execParenPush (entry : BitVec 16) (s : State) : Out :=
  microCmd s fun f _ s =>
    if f.paren.length ≥ Config.parenMax then callErr .parenOvf s
    else .ok 0 (s.modifyExec fun f => { f with paren := f.paren ++ [entry] })

/-- PAREN_POP (R441). -/
def execParenPop (s : State) : Out :=
  microCmd s fun f _ s =>
    match f.paren.getLast? with
    | none => callErr .parenUnf s
    | some e => .ok (e.setWidth 48) (s.modifyExec fun f => { f with paren := f.paren.dropLast })

/-- MCR_PUSH (R445). -/
def execMcrPush (bit : Bool) (s : State) : Out :=
  microCmd s fun _ _ s =>
    if s.mcr.length ≥ Config.mcrMax then callErr .mcrOvf s else .ok 0 { s with mcr := s.mcr ++ [bit] }

/-- MCR_POP (R446). -/
def execMcrPop (s : State) : Out :=
  microCmd s fun _ _ s =>
    match s.mcr.getLast? with
    | none => callErr .mcrUnf s
    | some b => .ok (BitVec.ofNat 48 b.toNat) { s with mcr := s.mcr.dropLast }

/-- MCR_STATE (R447): an empty stack reports 1. -/
def execMcrState (s : State) : Out := microCmd s fun _ _ s => .ok (BitVec.ofNat 48 (s.mcr.getLast?.getD true).toNat) s

end Sys2Proof.Machine
end

