-- ==== Sys2Proof/Machine/Scheduler.lean ====
section
/-! DEFINITION. The cyclic scheduler: clock memory, refresh and watchdogs, statistics, re-allocation, the start and the end of an
instruction, the pop of a frame and the end of a top-level call (43_dispatch_loop R420 to R426, 42_calls R390 to R394, 44_scheduler
R471 to R521). -/

namespace Sys2Proof.Machine

open Sys2Proof

/-! ## Clock memory -/

/-- The bits of the clock byte that toggle when the tick counter reaches `c` (R521). -/
def toggleMask (c : Nat) : BitVec 8 :=
  (List.range 8).foldl
    (fun (m : BitVec 8) n => if c % Config.clockPeriods.getD n 1 = 0 then m ||| BitVec.ofNat 8 (2 ^ n) else m) 0

/-- One tick of the clock memory (R521). -/
def tickOnce (c : ClockMem) : ClockMem :=
  let n := c.count + 1
  { c with count := n, clk := c.clk ^^^ toggleMask n.val, next := c.next + Config.clockTickNs }

/-- `k` ticks (R521). -/
def tickMany : Nat → ClockMem → ClockMem
  | 0, c => c
  | k + 1, c => tickMany k (tickOnce c)

/-- How many times the loop of R521 runs at reading `now`. -/
def ticksDue (now : Nat) (c : ClockMem) : Nat :=
  if c.on ∧ c.next ≤ now then (now - c.next) / Config.clockTickNs + 1 else 0

/-- `M[CLOCK_OFFSET] <- v` when there is a clock byte (R520, R521). -/
def State.writeClockByte (s : State) (v : BitVec 8) : State :=
  match s.cfg.clockOffset with
  | none => s
  | some o => s.setByte .flags o.toNat v

/-- `clockTick(now)` with the last reading (R521). -/
def clockTick (s : State) : State :=
  let k := ticksDue s.time.now s.clock
  let c := tickMany k s.clock
  let t := { s with clock := c }
  if k = 0 then t else t.writeClockByte c.clk

/-- `clockInit(now)` with the last reading (R520). -/
def clockInit (s : State) : State :=
  let t := { s with clock := ⟨0, 0, s.time.now + Config.clockTickNs, true⟩ }
  t.writeClockByte 0

/-- `clockRelocate()` (R505). -/
def clockRelocate (s : State) : State := if s.clock.on then s.writeClockByte s.clock.clk else s

/-! ## Refresh and watchdogs -/

/-- `refresh()` (R510): the run-time check comes first, both comparisons are strict. -/
def refresh (s : State) : Res Unit :=
  let t := clockTick s.readClock
  if t.cfg.runLimit > 0 ∧ t.time.now - t.time.runStart > t.cfg.runLimit then raise .maintenance t
  else if t.time.now - t.time.cycleStart > t.cfg.cycleLimit then raise .cycleTime t
  else .ok () t

/-! ## Statistics -/

/-- `min` of an optional minimum and a value (R486). -/
def minOpt (o : Option Nat) (t : Nat) : Nat :=
  match o with
  | none => t
  | some m => min m t

/-- `max` of an optional maximum and a value (R486). -/
def maxOpt (o : Option Nat) (t : Nat) : Nat :=
  match o with
  | none => t
  | some m => max m t

/-- The counting part of `statistics(t, k, now)` (R486). -/
def countCycle (t k : Nat) (x : Stats) : Stats :=
  { x with
    cycMin := some (minOpt x.cycMin t)
    cycMax := some (maxOpt x.cycMax t)
    winCycles := x.winCycles + 1
    winInsns := x.winInsns + k
    winTime := x.winTime + t }

/-- The closing part of `statistics(t, k, now)`: the averages, when the window is long enough (R486). -/
def closeWindow (now : Nat) (x : Stats) : Stats :=
  if now - x.winStart ≥ Config.statsWindowNs then
    { x with
      cycAvg := some (x.winTime / x.winCycles)
      ipcAvg := some (x.winInsns / x.winCycles)
      ipsAvg := if x.winTime > 0 then some (x.winInsns * 1000000000 / x.winTime) else x.ipsAvg
      winStart := now
      winCycles := 0
      winInsns := 0
      winTime := 0 }
  else x

/-- `statistics(t, k, now)` (R486). -/
def statistics (t k now : Nat) (x : Stats) : Stats := closeWindow now (countCycle t k x)

/-! ## Baselines and re-allocation -/

/-- `baselines(now)` with the last reading (R471). -/
def baselines (s : State) : State :=
  { s with
    time := { s.time with
      runStart := s.time.now
      msBase := (s.time.now : Int) - ((2 : Int) ^ s.cfg.msClockBits - s.cfg.msWrapLead) * 1000000 }
    stats := { s.stats with winStart := s.time.now, winCycles := 0, winInsns := 0, winTime := 0 } }

/-- The clock offset kept only while it fits the flag region (R504). -/
def keptOffset (c : Cfg) : Option (BitVec 16) :=
  match c.clockOffset with
  | none => none
  | some o => if o.toNat ≥ c.flagSize then none else some o

/-- `realloc()` (R504). -/
def realloc (s : State) : State :=
  let t : State :=
    { s with
      mem := s.mem.clearRegions
      timers := List.replicate s.cfg.timerCount Config.tcmReset
      counters := List.replicate s.cfg.counterCount Config.tcmReset
      regs := Regs.zero
      cs := []
      mcr := []
      stats := { Stats.zero with winStart := s.time.now }
      clock := { s.clock with clk := 0, count := 0 }
      cfg := { s.cfg with clockOffset := keptOffset s.cfg } }
  if t.clock.on then t.writeClockByte t.clock.clk else t

/-! ## Top-level frames -/

/-- A top-level frame of an OB pushed onto the call stack (R473). -/
def pushOb (n : BlockNum) (s : State) : State :=
  s.push (s.newFrame .ob n
    (match s.prog.code .ob n with
     | some b => b.tempSize
     | none => 0))

/-- `CYCLE_START <- now; CYC_INSN0 <- INSN_COUNT`, a frame of OB `n` pushed, and the phase (R470, R480). The host command that began this
has no reply yet. -/
def beginTopLevel (n : BlockNum) (ph : Phase) (s : State) : State :=
  let t := { s with
    time := { s.time with cycleStart := s.time.now }
    stats := { s.stats with cycInsn0 := s.stats.insnCount } }
  { pushOb n t with phase := ph, body := none, reply := none }

/-- The end of a top-level call (R484). -/
def endTopLevel (s : State) : State :=
  match s.phase with
  | .cycle =>
    let t := clockTick s.readClock
    let x := statistics (t.time.now - t.time.cycleStart) (t.stats.insnCount - t.stats.cycInsn0).toNat t.time.now t.stats
    let u := { t with stats := { x with cycleCount := x.cycleCount + 1 } }
    let v := u.emit (.cycleExit u.stats.cycleCount)
    { v with mode := .cycling, phase := .idle, reply := some (HostReply.ok []) }
  | .startupOb => { s with mode := .started, phase := .idle, reply := some (HostReply.ok []) }
  | .idle => s

/-! ## Pop -/

/-- The data-block registers restored by the pop of an FB-like frame (R391). -/
def restoreRegs (f : Frame) (s : State) : State :=
  match f.cls, f.saved with
  | .fblike, some (db, di) => s.setDbDi db di
  | _, _ => s

/-- The copy-back of a popped FB-like frame (R392), in the caller's context. -/
def copyBack (b : CodeBlock) (f : Frame) (ps : List (BitVec 16 × Descriptor)) (s : State) : Res Unit :=
  match ps with
  | [] => Res.ok () s
  | (k, d) :: r =>
    (match b.field k with
     | none => Res.ok () s
     | some fd =>
       if (fd.dir = Dir.output ∨ fd.dir = Dir.inout) ∧ fd.agg = false then
         (memRead (.db f.instDB) (f.instBase + fd.off.toNat) fd.width s).bind fun v s =>
           (decodeArg d s).bind fun D s => storeOp D v s
       else Res.ok () s).bind fun _ s => copyBack b f r s

/-- The copy-back runs for an FB-like frame that a raw call did not build (R390). -/
def copyBackDue (f : Frame) : Bool := f.cls == .fblike && !f.raw

/-- The copy-back of a popped frame, where one is due (R390). -/
def copyBackIfDue (f : Frame) (b : CodeBlock) (s : State) : Res Unit :=
  if copyBackDue f then copyBack b f f.params s else Res.ok () s

/-- The pop of frame `f`, whose block is `b`, from the top of the call stack (R390). A fault of the copy-back is located at the popped
frame (R546). -/
def popFrame (f : Frame) (b : CodeBlock) (s : State) : Out :=
  let t := restoreRegs f { s with cs := s.cs.dropLast }
  match copyBackIfDue f b t with
  | .err x u => .next (u.takeFault ⟨x.cause, none⟩ (some ⟨f.kind, f.num, f.ip⟩))
  | .ok _ u =>
    let v := u.emit (.blockExit f.kind f.num)
    .next (if v.cs = [] then endTopLevel v else v)

/-! ## The start and the end of an instruction -/

/-- The start of a step between instructions (R421, R425): the pop of a frame whose `ip` is past its block, or the fetch of the
next instruction, with `E`, `RJ`, `CALLED` and `LOC` set. -/
def beginInsn (s : State) : Out :=
  match s.top with
  | none => .fault .noFrame
  | some f =>
    match s.codeOf f with
    | none => .fault .noBlock
    | some b =>
      match b.insns[f.ip]? with
      | none => popFrame f b s
      | some i =>
        .next { s with
          step := ⟨1, s.depth - 1, false, ⟨f.kind, f.num, f.ip⟩⟩
          body := some ⟨i, []⟩ }

/-- `advance()` (R424). -/
def advance (s : State) : Except Fault (Res Unit) :=
  match s.cs[s.step.e]? with
  | none => .error .noFrame
  | some f =>
    let n := (f.ip : Int) + s.step.rj
    if n < 0 then .ok (execErr .negativeIp s)
    else .ok (.ok () (s.modifyExec fun f => { f with ip := n.toNat }))

/-- `INSN_COUNT <- (INSN_COUNT + 1) mod 2^64`, and the refresh after every 64th instruction (R421, R426). -/
def countInsn (s : State) : Res Unit :=
  let t := { s with body := none, stats := { s.stats with insnCount := s.stats.insnCount + 1 } }
  if t.stats.insnCount.toNat % Config.batch = 0 then refresh t else .ok () t

/-- The end of an instruction whose body has answered DONE (R421): the event, the advance, the count, the refresh. -/
def endInsn (s : State) : Out :=
  let t := s.emit (.postInsn s.step.loc.kind s.step.loc.num s.step.loc.ip)
  match advance t with
  | .error f => .fault f
  | .ok r =>
    match r.bind fun _ s => countInsn s with
    | .ok _ u => .next u
    | .err x u => .next (u.takeFault x (some u.step.loc))

/-! ## Commands as words -/

/-- A micro-command that is no command (R167, R422): COMMAND_AFTER_CALL, then REENTRY for an opcode of 0x80 or above, then
ILLEGAL_COMMAND. -/
def illegalMicro (words : List Word) (s : State) : State :=
  let r : ExecReason :=
    if s.step.called then .commandAfterCall
    else if 0x80 ≤ opcode (words.headD 0) then .reentry
    else .illegalCommand
  s.takeFault ⟨.exec r, none⟩ (some s.step.loc)

end Sys2Proof.Machine
end

