-- ==== Sys2Proof/Machine/HostCommands.lean ====
section
/-! DEFINITION. The six host commands (44_scheduler R470, R480, R490, R500 to R505, R530, R531). -/

namespace Sys2Proof.Machine

open Sys2Proof

/-- `entryOB()` (R472). -/
def entryOb (s : State) : Option BlockNum :=
  if s.cfg.accuCount = .four ∧ (s.prog.code .ob Config.coldOb).isSome then some Config.coldOb
  else if (s.prog.code .ob Config.warmOb).isSome then some Config.warmOb
  else none

/-- The part of STARTUP after the build (R470). -/
def startupRun (s : State) : State :=
  let t := baselines ({ s with err := ErrRec.none }).readClock
  let u := clockInit t
  let v := ({ u with cs := [], mcr := [] }).resetRegisters
  match entryOb v with
  | none => { v with mode := .started, phase := .idle, body := none, reply := some (HostReply.ok []) }
  | some n => beginTopLevel n .startupOb v

/-- STARTUP (R470, R474). -/
def startupCmd (s : State) : State :=
  if s.mode = .faulted ∨ s.mode = .maint then s.refuse .needsReset
  else if s.built then startupRun s
  else if (s.prog.code .ob Config.mainOb).isSome then startupRun { s with mem := s.mem.resetDbs, built := true }
  else s.takeBuildError .noMain

/-- RUN_CYCLE (R480). -/
def runCycleCmd (s : State) : State :=
  if s.mode = .uninit then s.refuse .notStarted
  else if s.mode = .faulted ∨ s.mode = .maint then s.refuse .needsReset
  else
    let t := ({ s with err := ErrRec.none, cs := [], mcr := [] }).resetRegisters
    beginTopLevel Config.mainOb .cycle (clockTick t.readClock)

/-- RESET (R490). -/
def resetCmd (s : State) : State :=
  let t := realloc s
  ({ t with
      mem := t.mem.resetDbs
      stats := Stats.zero
      time := TimeRegs.zero
      clock := ClockMem.zero
      err := ErrRec.none
      mode := .uninit
      phase := .idle
      body := none } : State).complete []

/-- `valid(PARAM, VALUE)` (R501). -/
def configValid (c : Cfg) (param : BitVec 4) (v : Data) : Bool :=
  match param.toNat with
  | 0 => v.toNat == 2 || v.toNat == 4
  | 1 => decide (v.toNat ≤ 65536)
  | 2 => decide (v.toNat ≤ 65536)
  | 3 => decide (v.toNat ≤ 65536)
  | 4 => decide (v.toNat ≤ 65536)
  | 5 => decide (v.toNat ≤ 65536)
  | 6 => decide (1 ≤ v.toNat)
  | 7 => true
  | 8 =>
    if v.getLsbD 47 then v.extractLsb' 0 47 == 0
    else v.extractLsb' 16 32 == 0 && decide ((v.extractLsb' 0 16).toNat < c.flagSize)
  | 9 => v.toNat == 0 || v.toNat == 1
  | _ => false

/-- The configuration with a field set (R502). -/
def configSet (c : Cfg) (param : BitVec 4) (v : Data) : Cfg :=
  match param.toNat with
  | 0 => { c with accuCount := if v.toNat = 4 then .four else .two }
  | 1 => { c with inputSize := Fin.ofNat 65537 v.toNat }
  | 2 => { c with outputSize := Fin.ofNat 65537 v.toNat }
  | 3 => { c with flagSize := Fin.ofNat 65537 v.toNat }
  | 4 => { c with timerCount := Fin.ofNat 65537 v.toNat }
  | 5 => { c with counterCount := Fin.ofNat 65537 v.toNat }
  | 6 => { c with cycleLimit := v.toNat }
  | 7 => { c with runLimit := v.toNat }
  | 8 => { c with clockOffset := if v.getLsbD 47 then none else some (v.extractLsb' 0 16) }
  | 9 => { c with extInsns := v.getLsbD 0 }
  | _ => c

/-- CONFIG_SET (R500). -/
def configSetCmd (param : BitVec 4) (v : Data) (s : State) : State :=
  if 10 ≤ param.toNat then s.refuse .illegalCommand
  else if configValid s.cfg param v then
    let t := { s with cfg := configSet s.cfg param v }
    (if param.toNat ≤ 5 then realloc t else if param.toNat = 8 then clockRelocate t else t).complete []
  else s.refuse .badConfig

/-- IMAGE_READ (R530): `sel` true is the output region. -/
def imageReadCmd (sel : Bool) (off len : BitVec 16) (s : State) : State :=
  let a : Area := if sel then .outputs else .inputs
  if off.toNat + len.toNat > s.areaSize a then s.refuse .imageRange
  else s.complete (s.readBytes a off.toNat len.toNat)

/-- IMAGE_WRITE (R531). -/
def imageWriteCmd (sel : Bool) (off : BitVec 16) (data : List Byte) (s : State) : State :=
  if sel then s.refuse .illegalCommand
  else if off.toNat + data.length > s.areaSize .inputs then s.refuse .imageRange
  else (s.writeBytes .inputs off.toNat data).complete []

/-- STARTUP. -/
def execStartup (s : State) : Out := hostCmd s startupCmd

/-- RUN_CYCLE. -/
def execRunCycle (s : State) : Out := hostCmd s runCycleCmd

/-- RESET. -/
def execReset (s : State) : Out := hostCmd s resetCmd

/-- CONFIG_SET. -/
def execConfigSet (param : BitVec 4) (value : Data) (s : State) : Out := hostCmd s (configSetCmd param value)

/-- IMAGE_READ. -/
def execImageRead (sel : Bool) (off len : BitVec 16) (s : State) : Out := hostCmd s (imageReadCmd sel off len)

/-- IMAGE_WRITE. -/
def execImageWrite (sel : Bool) (off : BitVec 16) (data : List Byte) (s : State) : Out := hostCmd s (imageWriteCmd sel off data)

end Sys2Proof.Machine
end

