-- ==== Sys2Proof/Machine/RegisterPort.lean ====
section
/-! DEFINITION. The register port, OPEN_DB, the STW writers and TC_OP (41_status_cc R310 to R331). -/

namespace Sys2Proof.Machine

open Sys2Proof

/-- ACCU3 and ACCU4 exist (R35). -/
def State.fourAccus (s : State) : Bool := s.cfg.accuCount == .four

/-- A register of the port as a number (R157, R315): the value, or the raise. -/
def readReg (reg : BitVec 4) (ip : Nat) (s : State) : Res Nat :=
  match reg.toNat with
  | 0 => .ok s.regs.accu1.toNat s
  | 1 => .ok s.regs.accu2.toNat s
  | 2 => if s.fourAccus then .ok s.regs.accu3.toNat s else addrErr .noRegister s
  | 3 => if s.fourAccus then .ok s.regs.accu4.toNat s else addrErr .noRegister s
  | 4 => .ok s.regs.ar1.toNat s
  | 5 => .ok s.regs.ar2.toNat s
  | 6 => .ok s.regs.stw.toNat s
  | 7 => .ok s.regs.dbReg.toNat s
  | 8 => .ok s.regs.diReg.toNat s
  | 9 => .ok s.msClock s
  | 10 => .ok ip s
  | 11 => .ok s.depth s
  | _ => execErr .illegalCommand s

/-- A write through the port (R157, R316). -/
def writeReg (reg : BitVec 4) (v : Data) (s : State) : Res Unit :=
  match reg.toNat with
  | 0 => .ok () { s with regs := { s.regs with accu1 := v.setWidth 32 } }
  | 1 => .ok () { s with regs := { s.regs with accu2 := v.setWidth 32 } }
  | 2 => if s.fourAccus then .ok () { s with regs := { s.regs with accu3 := v.setWidth 32 } } else addrErr .noRegister s
  | 3 => if s.fourAccus then .ok () { s with regs := { s.regs with accu4 := v.setWidth 32 } } else addrErr .noRegister s
  | 4 => .ok () (s.setAr .ar1 (v.setWidth 32))
  | 5 => .ok () (s.setAr .ar2 (v.setWidth 32))
  | 6 => .ok () (s.setStw (v.setWidth 9))
  | 7 => addrErr .readOnly s
  | 8 => addrErr .readOnly s
  | 9 => addrErr .readOnly s
  | 10 => addrErr .readOnly s
  | 11 => addrErr .readOnly s
  | _ => execErr .illegalCommand s

/-- The `ip` of the top frame, register 10 of the port (R315). -/
def State.topIp (s : State) : Nat :=
  match s.top with
  | some f => f.ip
  | none => 0

/-- REG_READ (R315). -/
def execRegRead (reg : BitVec 4) (s : State) : Out :=
  microCmd s fun _ _ s => (readReg reg s.topIp s).bind fun v s => .ok (BitVec.ofNat 48 v) s

/-- REG_WRITE (R316): the value is `DIN`. -/
def execRegWrite (reg : BitVec 4) (s : State) : Out :=
  microCmd s fun _ _ s => (writeReg reg s.din s).bind fun _ s => .ok 0 s

/-- OPEN_DB (R320): `sel` true is the DI register; block 0 is allowed. -/
def execOpenDb (sel : Bool) (num : BlockNum) (s : State) : Out :=
  microCmd s fun _ _ s =>
    if num ≠ 0 ∧ s.prog.hasDb num = false then addrErr .missingDb s else .ok 0 (s.setBlockReg sel num)

/-- STW_WRITE (R310). -/
def execStwWrite (mask val : BitVec 9) (s : State) : Out :=
  microCmd s fun _ _ s => .ok 0 (s.setStw (stwMasked s.regs.stw mask val))

/-- CC_SET (R311). -/
def execCcSet (a1 a0 ovf : Bool) (s : State) : Out :=
  microCmd s fun _ _ s => .ok 0 (s.setStw (stwCcSet s.regs.stw a1 a0 ovf))

/-- The array `SEL` selects (R331). -/
def cellKindOf (sel : Bool) : CellKind := if sel then .counter else .timer

/-- TC_OP (R331): the cell model's step at the last clock reading. -/
def execTcOp (sel : Bool) (idx : BitVec 16) (op : BitVec 8) (arg : BitVec 16) (s : State) : Out :=
  microCmd s fun _ _ s =>
    let k := cellKindOf sel
    if idx.toNat ≥ s.cellCount k then addrErr .missingTc s
    else
      let r := Config.tcmStep k op (s.cell k idx.toNat) s.time.now arg
      .ok (r.2.setWidth 48) (s.setCell k idx.toNat r.1)

end Sys2Proof.Machine
end

