-- ==== Sys2Proof/Machine/Dispatch.lean ====
section
/-! DEFINITION. The dispatch of commands to their meanings: one arm per constructor of `Instr`. -/

namespace Sys2Proof.Machine

open Sys2Proof

def exec (i : Instr) (s : State) : Host.Outcome State Fault Refusal :=
  match i with
  | .fetch amask d => Sys2Proof.Machine.execFetch amask d s
  | .store amask d => Sys2Proof.Machine.execStore amask d s
  | .regRead reg => Sys2Proof.Machine.execRegRead reg s
  | .regWrite reg => Sys2Proof.Machine.execRegWrite reg s
  | .openDb sel num => Sys2Proof.Machine.execOpenDb sel num s
  | .stwWrite mask val => Sys2Proof.Machine.execStwWrite mask val s
  | .ccSet a1 a0 ovf => Sys2Proof.Machine.execCcSet a1 a0 ovf s
  | .tcOp sel idx op arg => Sys2Proof.Machine.execTcOp sel idx op arg s
  | .jumpRel imm => Sys2Proof.Machine.execJumpRel imm s
  | .jumpLabel label => Sys2Proof.Machine.execJumpLabel label s
  | .blockEnd => Sys2Proof.Machine.execBlockEnd s
  | .parenPush entry => Sys2Proof.Machine.execParenPush entry s
  | .parenPop => Sys2Proof.Machine.execParenPop s
  | .mcrPush bit => Sys2Proof.Machine.execMcrPush bit s
  | .mcrPop => Sys2Proof.Machine.execMcrPop s
  | .mcrState => Sys2Proof.Machine.execMcrState s
  | .callFc mioff t pl => Sys2Proof.Machine.execCallFc mioff t pl s
  | .callFcSys mioff t pl => Sys2Proof.Machine.execCallFcSys mioff t pl s
  | .callFb mioff t x pl => Sys2Proof.Machine.execCallFb mioff t x pl s
  | .callFbSys mioff t x pl => Sys2Proof.Machine.execCallFbSys mioff t x pl s
  | .callMi mioff t pl => Sys2Proof.Machine.execCallMi mioff t pl s
  | .callMiSys mioff t pl => Sys2Proof.Machine.execCallMiSys mioff t pl s
  | .rawFc mioff nparam t => Sys2Proof.Machine.execRawFc mioff nparam t s
  | .rawFcSys mioff nparam t => Sys2Proof.Machine.execRawFcSys mioff nparam t s
  | .rawFb mioff nparam t => Sys2Proof.Machine.execRawFb mioff nparam t s
  | .rawFbSys mioff nparam t => Sys2Proof.Machine.execRawFbSys mioff nparam t s
  | .rawMi mioff nparam t => Sys2Proof.Machine.execRawMi mioff nparam t s
  | .rawMiSys mioff nparam t => Sys2Proof.Machine.execRawMiSys mioff nparam t s
  | .startup => Sys2Proof.Machine.execStartup s
  | .runCycle => Sys2Proof.Machine.execRunCycle s
  | .reset => Sys2Proof.Machine.execReset s
  | .configSet param value => Sys2Proof.Machine.execConfigSet param value s
  | .imageRead sel off len => Sys2Proof.Machine.execImageRead sel off len s
  | .imageWrite sel off data => Sys2Proof.Machine.execImageWrite sel off data s

end Sys2Proof.Machine
end

