-- ==== Sys2Proof/Machine/Step.lean ====
section
/-! DEFINITION. One step of the machine (43_dispatch_loop R420 to R425, 10_state R30): a host command while idle; while the core runs,
the start of an instruction or a pop, one micro-command of the instruction in progress, or the end of the instruction. -/

namespace Sys2Proof.Machine

open Sys2Proof

/-- A step while the phase is IDLE: the host's next command, or nothing when the host sends none (R30, R427, R576). A command that is
none is refused (R167). -/
def idleStep (s : State) : Out :=
  match s.env.commands with
  | [] => .next s
  | ws :: r =>
    let t := { s with env := { s.env with commands := r } }
    match decode ws with
    | .ok (i, _) => exec i t
    | .error _ => .next (t.refuse .illegalCommand)

/-- A step inside an instruction: its next micro-command, or its end when the body answers DONE (R422). -/
def bodyStep (b : BodyRun) (s : State) : Out :=
  match b.insn.next b.replies with
  | none => endInsn s
  | some c =>
    let t := { s with din := c.din }
    match decode c.words with
    | .ok (i, _) => exec i t
    | .error _ => .next (illegalMicro c.words t)

/-- One step of the machine. -/
def step (s : State) : Host.Outcome State Fault Refusal :=
  if s.phase = .idle then idleStep s
  else
    match s.body with
    | none => beginInsn s
    | some b => bodyStep b s

/-! ## Placing an instruction where the next step runs it -/

/-- An instruction that issues one command with `DIN` 0. -/
def oneCommand (ws : List Word) : Insn := .script [⟨ws, 0⟩]

/-- OB 1 as the one-instruction program that `withFetchWord` loads for a micro-command. -/
def oneCommandBlock (ws : List Word) : CodeBlock where
  insns := [oneCommand ws]
  labels := []
  iface := []
  tempSize := 0

/-- The state in which the host's next command is these words. -/
def State.withHostCommand (s : State) (ws : List Word) : State :=
  { s with phase := .idle, env := { s.env with commands := ws :: s.env.commands } }

/-- The state in which an instruction that issues these words has begun: in the frame that executes when the core runs one, else in a
frame of OB 1 holding that one instruction, which is loaded (notes/assumptions/1.md). -/
def State.withMicroCommand (s : State) (ws : List Word) : State :=
  match s.phase, s.execFrame with
  | .cycle, .ok _ => { s with step := { s.step with called := false }, body := some ⟨oneCommand ws, []⟩ }
  | .startupOb, .ok _ => { s with step := { s.step with called := false }, body := some ⟨oneCommand ws, []⟩ }
  | _, _ =>
    { s with
      prog := { s.prog with ob := (Config.mainOb, oneCommandBlock ws) :: s.prog.ob }
      cs := [s.newFrame .ob Config.mainOb 0]
      step := ⟨1, 0, false, ⟨.ob, Config.mainOb, 0⟩⟩
      phase := .cycle
      body := some ⟨oneCommand ws, []⟩ }

/-- `s` with the instruction whose bits are `w` stored where `step` fetches its next instruction: a host command (opcode 0x80 and above) is
the host's next command, a micro-command is the command of the instruction in progress. -/
def State.withFetchWord (s : State) (nbits w : Nat) : State :=
  let ws := tableWords nbits w
  if 0x80 ≤ opcode (ws.headD 0) then s.withHostCommand ws else s.withMicroCommand ws

end Sys2Proof.Machine
end

