-- ==== Sys2Proof/Safety.lean ====
section
/-! DEFINITION. The terms the statements use: a running core, a clean entry, the legal states of the block (the invariant every step
keeps), and what a step leaves alone. -/

namespace Sys2Proof.Machine

open Sys2Proof

/-- The core runs an instruction of frame `f`, whose block is `b`, and the instruction has issued no CALL yet: when a micro-command has
its effect (R420, R422). -/
structure State.Running (s : State) (f : Frame) (b : CodeBlock) : Prop where
  active : s.phase ≠ .idle
  noCall : s.step.called = false
  frame : s.cs[s.step.e]? = some f
  block : s.codeOf f = some b

/-- The fault of a micro-command: cause `c`, operand `o`, located at the executing instruction (R545, R546). -/
def State.faultWith (s : State) (c : Cause) (o : Option Descriptor) : State := s.takeFault ⟨c, o⟩ (some s.step.loc)

/-- `CleanEntry` (R587): the power-on state for some configuration and some program; the host's side is free. -/
def State.CleanEntry (s : State) : Prop := s = { State.powerOn s.cfg s.prog with env := s.env }

/-- A buffer held in memory: a region or a data block, not a frame's local data. -/
def Area.inMemory : Area → Bool
  | .loc _ => false
  | .inputs | .outputs | .flags | .db _ => true

/-- The memory address `a` is that of a byte which a region or a data block has (R41, R42). -/
def State.Mapped (s : State) (a : Nat) : Prop :=
  ∃ x : Area, ∃ b : Nat, x.inMemory = true ∧ b < s.areaSize x ∧ a = x.addr b

/-- A value the DB or the DI register may hold: 0, or the number of a block of `Prog.DB` (R38, R230, R320). -/
def Prog.regValue (p : Prog) (n : BlockNum) : Prop := n = 0 ∨ p.hasDb n = true

/-- A frame as R45 describes it: built for a block of the program, with that block's temp size, the class of its kind, at most seven
parenthesis entries, saved registers exactly when it is FB-like, and parameters only of its class and only when it is not raw. -/
structure FrameOk (p : Prog) (f : Frame) : Prop where
  block : ∃ b, p.code f.kind f.num = some b ∧ f.locals.length = b.tempSize
  cls : f.cls = frameClass f.kind
  paren : f.paren.length ≤ Config.parenMax
  saved : ∀ r, f.saved = some r → p.regValue r.1 ∧ p.regValue r.2
  savedFb : f.cls = .fblike ↔ f.saved.isSome = true
  bare : f.raw = true → f.bind = [] ∧ f.params = []
  bindFc : f.cls = .fblike → f.bind = []
  paramsFb : f.cls = .fclike → f.params = []
  inst : p.regValue f.instDB

/-- Which error kinds the record may hold in a mode and a phase (R545, R550, R536). -/
def errKindOk (m : Mode) (ph : Phase) (k : BitVec 3) : Bool :=
  match ph, m with
  | .idle, .uninit => k == 0 || k == 5
  | .idle, .started => k == 0
  | .idle, .cycling => k == 0
  | .idle, .faulted => k == 1 || k == 2 || k == 7
  | .idle, .timefault => k == 3
  | .idle, .maint => k == 4
  | .startupOb, _ => k == 0
  | .cycle, _ => k == 0

/-- The legal states of the block, which every step keeps. -/
structure State.Inv (s : State) : Prop where
  /-- memory has its canonical form -/
  memWf : s.mem.wf (resetByte s.prog) = true
  /-- memory lists only bytes that regions and data blocks have (R41, R42, R101) -/
  memMapped : ∀ e ∈ s.mem, s.Mapped e.1
  /-- as many timers and counters as configured (R43) -/
  timers : s.timers.length = s.cfg.timerCount
  counters : s.counters.length = s.cfg.counterCount
  /-- at most eight MCR entries (R47) -/
  mcr : s.mcr.length ≤ Config.mcrMax
  /-- every frame is one R45 describes -/
  frames : ∀ f ∈ s.cs, FrameOk s.prog f
  /-- the data-block registers name a data block or nothing (R38) -/
  dbReg : s.prog.regValue s.regs.dbReg
  diReg : s.prog.regValue s.regs.diReg
  /-- ACCU3 and ACCU4 exist only with four accumulators and stay 0 otherwise (R35) -/
  accus : s.cfg.accuCount = .two → s.regs.accu3 = 0 ∧ s.regs.accu4 = 0
  /-- the clock byte lies in the flag region (R7, R501, R504) -/
  clockByte : ∀ o, s.cfg.clockOffset = some o → o.toNat < s.cfg.flagSize
  /-- the cycle-time limit is positive (R7, R501) -/
  cycleLimit : 0 < s.cfg.cycleLimit
  /-- the millisecond clock's lead fits its width (R52, R471) -/
  lead : s.cfg.msWrapLead ≤ 2 ^ s.cfg.msClockBits
  /-- no time register is ahead of the last reading (R51, R112) -/
  now : s.time.now ≤ s.env.lastReading
  cycleStart : s.time.cycleStart ≤ s.time.now
  runStart : s.time.runStart ≤ s.time.now
  winStart : s.stats.winStart ≤ s.time.now
  msBase : s.time.msBase ≤ (s.time.now : Int)
  /-- while the core runs there is a frame, the program is built and the mode admits a run (R420, R470, R480) -/
  frame : s.phase ≠ .idle → s.cs ≠ []
  runMode : s.phase ≠ .idle → s.mode ≠ .faulted ∧ s.mode ≠ .maint
  runBuilt : s.phase ≠ .idle → s.built = true
  cycleMode : s.phase = .cycle → s.mode ≠ .uninit
  modeBuilt : s.mode ≠ .uninit → s.built = true
  builtMain : s.built = true → (s.prog.code .ob Config.mainOb).isSome = true
  /-- the error record agrees with the mode (R545, R550) -/
  errKind : errKindOk s.mode s.phase s.err.kind = true
  /-- an instruction is in progress only while the core runs; its frame is the top one until it has called, then the one below (R421,
  R422, R380) -/
  body : s.body.isSome = true → s.phase ≠ .idle ∧ s.cs.length = s.step.e + 1 + s.step.called.toNat

/-- The cycle statistics agree: the minimum, the average and the maximum are in order, and the sums of the open window lie between
the minimum and the maximum for each of its cycles (R486, R487). -/
structure Stats.Ordered (x : Stats) : Prop where
  both : x.cycMin.isSome = x.cycMax.isSome
  avg : ∀ a, x.cycAvg = some a → ∃ lo hi, x.cycMin = some lo ∧ x.cycMax = some hi ∧ lo ≤ a ∧ a ≤ hi
  range : ∀ lo hi, x.cycMin = some lo → x.cycMax = some hi →
    lo ≤ hi ∧ x.winCycles * lo ≤ x.winTime ∧ x.winTime ≤ x.winCycles * hi
  fresh : x.cycMin = none → x.winCycles = 0 ∧ x.winTime = 0

/-- The state with everything an operand access may change put to a fixed value: memory, the local data of the frames, the two
data-block registers, the status and address registers, and the host's peripheral answers and calls. Two states with the same
rest differ in nothing else. -/
def State.rest (s : State) : State :=
  { s with
    mem := []
    cs := s.cs.map fun f => { f with locals := [] }
    regs := { s.regs with dbReg := 0, diReg := 0, stw := 0, ar1 := 0, ar2 := 0 }
    env := { s.env with periphReads := [], periphWrites := [], periphCalls := [] } }

/-- The state with everything an operand FETCH may change put to a fixed value: the memory (the input mirror of a peripheral fetch, R241),
the two data-block registers (R230), and the host's answers and calls of the peripheral read. -/
def State.fetchRest (s : State) : State :=
  { s with
    mem := []
    regs := { s.regs with dbReg := 0, diReg := 0 }
    env := { s.env with periphReads := [], periphCalls := [] } }

/-- How many bytes of local data each frame has. -/
def State.localSizes (s : State) : List Nat := s.cs.map fun f => f.locals.length

/-- The next step of the machine runs the command `i`: the host's next command while idle, else the next micro-command of the
instruction in progress (R30, R422). -/
def State.Runs (s : State) (i : Instr) : Prop :=
  (s.phase = .idle ∧ ∃ ws r rest, s.env.commands = ws :: r ∧ decode ws = .ok (i, rest)) ∨
  (s.phase ≠ .idle ∧ ∃ run c rest, s.body = some run ∧ run.insn.next run.replies = some c ∧ decode c.words = .ok (i, rest))

/-- A command of class H (R153): the host issues it. -/
def isHostCommand : Instr → Bool
  | .startup | .runCycle | .reset | .configSet _ _ | .imageRead _ _ _ | .imageWrite _ _ _ => true
  | .fetch _ _ | .store _ _ | .regRead _ | .regWrite _ | .openDb _ _ | .stwWrite _ _ | .ccSet _ _ _ | .tcOp _ _ _ _ => false
  | .jumpRel _ | .jumpLabel _ | .blockEnd | .parenPush _ | .parenPop | .mcrPush _ | .mcrPop | .mcrState => false
  | .callFc _ _ _ | .callFcSys _ _ _ | .callFb _ _ _ _ | .callFbSys _ _ _ _ | .callMi _ _ _ | .callMiSys _ _ _ => false
  | .rawFc _ _ _ | .rawFcSys _ _ _ | .rawFb _ _ _ | .rawFbSys _ _ _ | .rawMi _ _ _ | .rawMiSys _ _ _ => false

/-- A command of class H that resets the registers (R312, R581): STARTUP, RUN_CYCLE, RESET and CONFIG_SET of a size or count. -/
def resetsRegisters (i : Instr) : Prop :=
  i = .startup ∨ i = .runCycle ∨ i = .reset ∨ ∃ p v, i = .configSet p v ∧ p.toNat ≤ 5

/-- A CALL command, of any of the twelve rows (R351). -/
def isCall (i : Instr) : Prop :=
  (∃ m t pl, i = .callFc m t pl ∨ i = .callFcSys m t pl ∨ i = .callMi m t pl ∨ i = .callMiSys m t pl) ∨
  (∃ m t x pl, i = .callFb m t x pl ∨ i = .callFbSys m t x pl) ∨
  ∃ m n t, i = .rawFc m n t ∨ i = .rawFcSys m n t ∨ i = .rawFb m n t ∨ i = .rawFbSys m n t ∨ i = .rawMi m n t ∨ i = .rawMiSys m n t

/-- The table of R340: the value of a view for A1 and A0. -/
def viewTable : StwView → Bool → Bool → Bool
  | .raw, _, _ => false
  | .eq0, false, false => true
  | .eq0, _, _ => false
  | .ne0, false, false => false
  | .ne0, _, _ => true
  | .gt0, true, false => true
  | .gt0, _, _ => false
  | .lt0, false, true => true
  | .lt0, _, _ => false
  | .ge0, _, false => true
  | .ge0, _, true => false
  | .le0, false, _ => true
  | .le0, true, _ => false
  | .uo, true, true => true
  | .uo, _, _ => false

/-- The buffer a region, local-data or data-block operand of width `w` at `ba` reaches in a state (R211 to R215, R231, R232). A data-block
operand counts here when it is unqualified and its register names a block. -/
def State.Reaches (s : State) (p : Prim) (x : Area) (w : Width) (ba : BitAddr) : Prop :=
  (p = .input w ba ∧ x = .inputs) ∨ (p = .output w ba ∧ x = .outputs) ∨ (p = .flag w ba ∧ x = .flags) ∨
  (p = .loc w ba ∧ x = .loc (s.cs.length - 1)) ∨
  (p = .parentLoc w ba ∧ 2 ≤ s.cs.length ∧ x = .loc (s.cs.length - 2)) ∨
  (p = .db w none ba ∧ s.prog.hasDb s.regs.dbReg = true ∧ x = .db s.regs.dbReg) ∨
  (p = .di w none ba ∧ s.prog.hasDb s.regs.diReg = true ∧ x = .db s.regs.diReg)

/-- The buffer and bit address a named interface field reaches in the current frame `g`, with sub-offset `off` (R261 to R264, R270): local
data for TEMP; for an FC-like frame the data block, frame or region its binding names; for an FB-like frame the instance data block at
the frame's base, or, for an aggregate, the data block that the stored pointer names. -/
def State.FieldReaches (s : State) (g : Frame) (k : BitVec 16) (fd : Field) (off : Nat) (x : Area) (at_ : Nat) : Prop :=
  (fd.dir = .temp ∧ x = .loc (s.cs.length - 1) ∧ at_ = fd.off.toNat + off) ∨
  (fd.dir ≠ .temp ∧ g.kind ≠ .ob ∧ g.cls = .fclike ∧ fd.dir ≠ .stat ∧ g.raw = false ∧
    ((∃ n ba, g.bind.lookup k = some (.dbLoc n ba) ∧ s.prog.hasDb n = true ∧ x = .db n ∧ at_ = ba + off) ∨
     (∃ j ba, g.bind.lookup k = some (.frameLocal j ba) ∧ j < s.cs.length ∧ x = .loc j ∧ at_ = ba + off) ∨
     (∃ (w : Width) (ba : BitAddr), g.bind.lookup k = some (.loc (.input w ba)) ∧ ba.toNat + off < 2 ^ 19 ∧ x = .inputs ∧ at_ = ba.toNat + off) ∨
     (∃ (w : Width) (ba : BitAddr), g.bind.lookup k = some (.loc (.output w ba)) ∧ ba.toNat + off < 2 ^ 19 ∧ x = .outputs ∧ at_ = ba.toNat + off) ∨
     (∃ (w : Width) (ba : BitAddr), g.bind.lookup k = some (.loc (.flag w ba)) ∧ ba.toNat + off < 2 ^ 19 ∧ x = .flags ∧ at_ = ba.toNat + off))) ∨
  (fd.dir ≠ .temp ∧ g.kind ≠ .ob ∧ g.cls = .fblike ∧ s.prog.hasDb s.regs.diReg = true ∧
    (((fd.agg = false ∨ fd.dir = .stat) ∧ x = .db s.regs.diReg ∧ at_ = g.instBase + fd.off.toNat + off) ∨
     (fd.agg = true ∧ fd.dir ≠ .stat ∧
      rangeCheck (s.areaSize (.db s.regs.diReg)) (g.instBase + fd.off.toNat) .w48 = none ∧
      ∃ ptr : Data, ptr = s.readVal (.db s.regs.diReg) (g.instBase + fd.off.toNat) .w48 ∧
        s.prog.hasDb (ptr.extractLsb' 32 16) = true ∧ (ptr.extractLsb' 0 19).toNat + off < 2 ^ 19 ∧
        x = .db (ptr.extractLsb' 32 16) ∧ at_ = (ptr.extractLsb' 0 19).toNat + off)))

/-- The buffer an indirect operand reaches through pointer `v` (R252): the target's own area, or for the area-crossing target the area the
pointer's code names, its other high bits as the rule asks. -/
def State.PointerReaches (s : State) (tgt : IndTarget) (v : Data) (x : Area) : Prop :=
  ((tgt = .input ∨ (tgt = .crossing ∧ v.extractLsb' 19 13 = 0x1020)) ∧ x = .inputs) ∨
  ((tgt = .output ∨ (tgt = .crossing ∧ v.extractLsb' 19 13 = 0x1040)) ∧ x = .outputs) ∨
  ((tgt = .flag ∨ (tgt = .crossing ∧ v.extractLsb' 19 13 = 0x1060)) ∧ x = .flags) ∨
  ((tgt = .db ∨ (tgt = .crossing ∧ v.extractLsb' 19 13 = 0x1080)) ∧ s.prog.hasDb s.regs.dbReg = true ∧ x = .db s.regs.dbReg) ∨
  ((tgt = .di ∨ (tgt = .crossing ∧ v.extractLsb' 19 13 = 0x10A0)) ∧ s.prog.hasDb s.regs.diReg = true ∧ x = .db s.regs.diReg) ∨
  ((tgt = .loc ∨ (tgt = .crossing ∧ v.extractLsb' 19 13 = 0x10C0)) ∧ x = .loc (s.cs.length - 1)) ∨
  ((tgt = .parentLoc ∨ (tgt = .crossing ∧ v.extractLsb' 19 13 = 0x10E0)) ∧ 2 ≤ s.cs.length ∧ x = .loc (s.cs.length - 2))

/-- What FETCH and STORE of operand `q` both raise: the range check, a null data-block register, a missing parent frame (R101, R215, R231,
R232), and WIDTH_MISMATCH for a width its handler does not accept (R202). -/
def State.PlaceRaises (s : State) (q : Prim) (r : AddrReason) : Prop :=
  (∃ (x : Area) (w : Width) (ba : BitAddr), s.Reaches q x w ba ∧ rangeCheck (s.areaSize x) ba.toNat w = some r) ∨
  (r = .missingDb ∧ ((s.prog.hasDb s.regs.dbReg = false ∧ ∃ w ba, q = .db w none ba) ∨
    (s.prog.hasDb s.regs.diReg = false ∧ ∃ w ba, q = .di w none ba))) ∨
  (r = .missingParent ∧ s.cs.length < 2 ∧ ∃ w ba, q = .parentLoc w ba) ∨
  (r = .widthMismatch ∧
    ((∃ w o i, (q = .timer w o i ∨ q = .counter w o i) ∧ w ≠ .w16 ∧ ¬ (w = .w1 ∧ o = false)) ∨
     (∃ w o ba, q = .periph w o ba ∧ w ≠ .w8 ∧ w ≠ .w16 ∧ w ≠ .w32) ∨
     (∃ w v i, q = .stw w v i ∧ w ≠ .w1 ∧ (v = .raw → w ≠ .w16)) ∨
     (∃ w n, q = .ar w n ∧ w ≠ .w32) ∨ ∃ w k n, q = .blk w k n ∧ w ≠ .w16))

/-- A width a peripheral operand may have (R202). -/
def PeriphWidth (w : Width) : Prop := w = .w8 ∨ w = .w16 ∨ w = .w32

/-- The state after the peripheral-read callback has been called for `w` bits at bit address `ba` (R240, R241). -/
def State.calledRead (s : State) (w : Width) (ba : BitAddr) : State :=
  { s with env := { s.env with
      periphReads := s.env.periphReads.tail
      periphCalls := s.env.periphCalls ++ [⟨false, 0, w.bits, ba.toNat / 8, []⟩] } }

/-- The state after the bytes `bs` have been mirrored where they fit the output region and the peripheral-write callback has been called
(R240, R242). -/
def State.calledWrite (s : State) (w : Width) (ba : BitAddr) (bs : List Byte) : State :=
  { (if ba.toNat / 8 + w.bytes ≤ s.cfg.outputSize then s.writeBytes .outputs (ba.toNat / 8) bs else s) with
    env := { s.env with
      periphWrites := s.env.periphWrites.tail
      periphCalls := s.env.periphCalls ++ [⟨true, 1, w.bits, ba.toNat / 8, bs⟩] } }

/-- A FETCH of operand `q` that changes no state gives `v`: buffers, status register and views, address registers, block references, cells
(R211 to R215, R231, R232, R235, R236, R245 to R247). Immediates and qualified data-block operands, which neither a field nor an indirect
operand resolves to, are not among them. -/
def State.Reads (s : State) (q : Prim) (v : Data) : Prop :=
  (∃ (x : Area) (w : Width) (ba : BitAddr), s.Reaches q x w ba ∧ rangeCheck (s.areaSize x) ba.toNat w = none ∧
    v = s.readVal x ba.toNat w) ∨
  (∃ i, q = .stw .w1 .raw i ∧ v = BitVec.ofNat 48 (s.regs.stw.getLsbD i.val).toNat) ∨
  (∃ k i, k ≠ .raw ∧ q = .stw .w1 k i ∧ v = BitVec.ofNat 48 (viewTable k (s.regs.stw.getLsbD 7) (s.regs.stw.getLsbD 6)).toNat) ∨
  (∃ i, q = .stw .w16 .raw i ∧ v = s.regs.stw.setWidth 48) ∨
  (q = .ar .w32 .ar1 ∧ v = s.regs.ar1.setWidth 48) ∨ (q = .ar .w32 .ar2 ∧ v = s.regs.ar2.setWidth 48) ∨
  (∃ k n, q = .blk .w16 k n ∧ v = n.setWidth 48) ∨
  ∃ (w : Width) (o : Bool) (i : BitVec 16) (c : Cell),
    ((q = .timer w o i ∧ i.toNat < s.cfg.timerCount ∧ c = s.timers.getD i.toNat Config.tcmReset) ∨
      (q = .counter w o i ∧ i.toNat < s.cfg.counterCount ∧ c = s.counters.getD i.toNat Config.tcmReset)) ∧
    ((w = .w1 ∧ o = false ∧ v = (Config.tcmState c).setWidth 48) ∨ (w = .w16 ∧ o = false ∧ v = (Config.tcmValue c).setWidth 48) ∨
      (w = .w16 ∧ o = true ∧ v = (Config.tcmBcd c).setWidth 48))

/-- A FETCH of operand `q` gives `v` and leaves `t`: `Reads`, or a peripheral fetch, whose bytes are mirrored where they fit the input region
(R241). -/
def State.Gives (s : State) (q : Prim) (v : Data) (t : State) : Prop :=
  (s.Reads q v ∧ t = s) ∨
  ∃ (w : Width) (ba : BitAddr) (bs : List Byte), PeriphWidth w ∧ q = .periph w false ba ∧ ba.toNat % 8 = 0 ∧
    s.env.periphReads.head? = some (some bs) ∧ bs.length = w.bytes ∧ v = BitVec.ofNat 48 (beNat bs) ∧
    t = if ba.toNat / 8 + w.bytes ≤ s.cfg.inputSize then (s.calledRead w ba).writeBytes .inputs (ba.toNat / 8) bs
      else s.calledRead w ba

/-- A FETCH of operand `q` raises `r` and leaves `t` (R202 to R204, R235, R241). -/
def State.FetchRaises (s : State) (q : Prim) (r : AddrReason) (t : State) : Prop :=
  (t = s ∧ (s.PlaceRaises q r ∨
    (r = .missingTc ∧ ∃ (w : Width) (o : Bool) (i : BitVec 16), (w = .w16 ∨ (w = .w1 ∧ o = false)) ∧
      (((s.cfg.timerCount : Nat) ≤ i.toNat ∧ q = .timer w o i) ∨ ((s.cfg.counterCount : Nat) ≤ i.toNat ∧ q = .counter w o i))) ∨
    (r = .writeOnly ∧ ∃ w ba, PeriphWidth w ∧ q = .periph w true ba) ∨
    (r = .misaligned ∧ ∃ w ba, PeriphWidth w ∧ q = .periph w false ba ∧ ba.toNat % 8 ≠ 0))) ∨
  (r = .peripheralFail ∧ ∃ w ba, PeriphWidth w ∧ q = .periph w false ba ∧ ba.toNat % 8 = 0 ∧
    (∀ bs, s.env.periphReads.head? = some (some bs) → bs.length ≠ w.bytes) ∧ t = s.calledRead w ba)

/-- A STORE of `x` to operand `q` leaves `t`: buffers, bits or the whole of the status register, address registers and the peripheral output
side (R201, R211 to R215, R231, R232, R242, R245, R246). -/
def State.Takes (s : State) (q : Prim) (x : Data) (t : State) : Prop :=
  (∃ (a : Area) (w : Width) (ba : BitAddr), s.Reaches q a w ba ∧ rangeCheck (s.areaSize a) ba.toNat w = none ∧
    t = s.writeVal a ba.toNat w (BitVec.ofNat 48 (x.toNat % 2 ^ w.bits))) ∨
  (∃ (i : Fin 9) (y : BitVec 9), q = .stw .w1 .raw i ∧
    (∀ j, j < 9 → y.getLsbD j = if j = i.val then x.getLsbD 0 else s.regs.stw.getLsbD j) ∧
    t = { s with regs := { s.regs with stw := y } }) ∨
  (∃ i, q = .stw .w16 .raw i ∧ t = { s with regs := { s.regs with stw := x.extractLsb' 0 9 } }) ∨
  (q = .ar .w32 .ar1 ∧ t = { s with regs := { s.regs with ar1 := x.extractLsb' 0 32 } }) ∨
  (q = .ar .w32 .ar2 ∧ t = { s with regs := { s.regs with ar2 := x.extractLsb' 0 32 } }) ∨
  ∃ (w : Width) (ba : BitAddr), PeriphWidth w ∧ q = .periph w true ba ∧ ba.toNat % 8 = 0 ∧ s.env.periphWrites.head? = some true ∧
    t = s.calledWrite w ba (beBytes w.bytes (BitVec.ofNat 48 (x.toNat % 2 ^ w.bits)))

/-- A STORE of `x` to operand `q` raises `r` and leaves `t` (R202 to R204, R242). -/
def State.StoreRaises (s : State) (q : Prim) (x : Data) (r : AddrReason) (t : State) : Prop :=
  (t = s ∧ (s.PlaceRaises q r ∨
    (r = .readOnly ∧
      ((∃ o i, q = .timer .w16 o i ∨ q = .counter .w16 o i) ∨ (∃ i, q = .timer .w1 false i ∨ q = .counter .w1 false i) ∨
        (∃ k n, q = .blk .w16 k n) ∨ (∃ k i, k ≠ .raw ∧ q = .stw .w1 k i) ∨ ∃ w ba, PeriphWidth w ∧ q = .periph w false ba)) ∨
    (r = .misaligned ∧ ∃ w ba, PeriphWidth w ∧ q = .periph w true ba ∧ ba.toNat % 8 ≠ 0))) ∨
  (r = .peripheralFail ∧ ∃ w ba, PeriphWidth w ∧ q = .periph w true ba ∧ ba.toNat % 8 = 0 ∧ s.env.periphWrites.head? ≠ some true ∧
    t = s.calledWrite w ba (beBytes w.bytes (BitVec.ofNat 48 (x.toNat % 2 ^ w.bits))))

/-- FETCH of descriptor `d` in `s` does what a FETCH of the operand `q` does in `u`, the state in which `d` resolved to `q`; a raise names `d`
(R250, R260, R546). -/
def State.FetchesAs (s u : State) (m : BitVec 5) (d : Descriptor) (q : Prim) : Prop :=
  (∀ v t, u.Gives q v t → exec (.fetch m d) s = .next (t.answer v)) ∧
  ∀ r t, u.FetchRaises q r t → exec (.fetch m d) s = .next (t.faultWith (.addr r) (some d))

/-- STORE of `DIN` to descriptor `d` in `s` does what a STORE to the operand `q` does in `u`; a raise names `d` (R250, R260, R546). -/
def State.StoresAs (s u : State) (m : BitVec 5) (d : Descriptor) (q : Prim) : Prop :=
  (∀ t, u.Takes q s.din t → exec (.store m d) s = .next (t.answer 0)) ∧
  ∀ r t, u.StoreRaises q s.din r t → exec (.store m d) s = .next (t.faultWith (.addr r) (some d))

/-- FETCH and STORE of descriptor `d` both raise `r` in `u`. -/
def State.BothRaise (s u : State) (m : BitVec 5) (d : Descriptor) (r : AddrReason) : Prop :=
  exec (.fetch m d) s = .next (u.faultWith (.addr r) (some d)) ∧ exec (.store m d) s = .next (u.faultWith (.addr r) (some d))

/-- In frame `g` the field `fd` of index `k` is a parameter of an FC-like frame that a call bound to `x` (R262, R365). -/
def Frame.BoundTo (g : Frame) (k : BitVec 16) (fd : Field) (x : Binding) : Prop :=
  fd.dir ≠ .temp ∧ fd.dir ≠ .stat ∧ g.kind ≠ .ob ∧ g.cls = .fclike ∧ g.raw = false ∧ g.bind.lookup k = some x

/-- The bit address of an I, Q, M or P operand, which a field's sub-offset moves (R270). -/
def Prim.movable : Prim → Option BitAddr
  | .input _ ba | .output _ ba | .flag _ ba | .periph _ _ ba => some ba
  | .imm _ _ | .loc _ _ | .parentLoc _ _ | .db _ _ _ | .di _ _ _ | .timer _ _ _ | .counter _ _ _ | .stw _ _ _ | .ar _ _ | .blk _ _ _ => none

/-- A T, C, STW, AR or BLK operand, which a field's sub-offset may not move (R270). -/
def Prim.unmovable : Prim → Bool
  | .timer _ _ _ | .counter _ _ _ | .stw _ _ _ | .ar _ _ | .blk _ _ _ => true
  | .imm _ _ | .input _ _ | .output _ _ | .flag _ _ | .loc _ _ | .parentLoc _ _ | .db _ _ _ | .di _ _ _ | .periph _ _ _ => false

/-- The operand that a field of width `w` and sub-offset `off` bound to the live operand `p` acts on (R270): a peripheral operand moved by
the sub-offset, or a T, C, STW, AR or BLK operand with none; I, Q and M are places, in `State.FieldReaches`. -/
def LiveOperand (p : Prim) (w : Width) (off : Nat) (q : Prim) : Prop :=
  (∃ (w' : Width) (o : Bool) (ba : BitAddr), p = .periph w' o ba ∧ ba.toNat + off < 2 ^ 19 ∧
    q = .periph w o (BitVec.ofNat 19 (ba.toNat + off))) ∨
  (Prim.unmovable p = true ∧ off = 0 ∧ q = Prim.withWidth w p)

/-- A target whose inner operand is a 32-bit pointer; the others take a 16-bit number (R250). -/
def IndTarget.byPointer : IndTarget → Bool
  | .input | .output | .flag | .loc | .parentLoc | .db | .di | .periph _ | .crossing => true
  | .timer _ | .counter _ | .blk _ => false

/-- An area-crossing pointer has the form R252 asks for: bit 31 set, bits 30 to 27 and 23 to 19 clear. -/
def CrossingForm (v : Data) : Prop := v.getLsbD 31 = true ∧ v.extractLsb' 27 4 = 0 ∧ v.extractLsb' 19 5 = 0

/-- The operand of width `w` at `ba` that a target selects through pointer `v` in the fetch or the store direction (R37, R252): the target's
own area, or for the area-crossing target the area of the pointer's code, the peripheral side by the direction. -/
def PointerSelects (tgt : IndTarget) (v : Data) (dir : AccessDir) (w : Width) (ba : BitAddr) (q : Prim) : Prop :=
  ((tgt = .input ∨ (tgt = .crossing ∧ v.extractLsb' 19 13 = 0x1020)) ∧ q = .input w ba) ∨
  ((tgt = .output ∨ (tgt = .crossing ∧ v.extractLsb' 19 13 = 0x1040)) ∧ q = .output w ba) ∨
  ((tgt = .flag ∨ (tgt = .crossing ∧ v.extractLsb' 19 13 = 0x1060)) ∧ q = .flag w ba) ∨
  ((tgt = .db ∨ (tgt = .crossing ∧ v.extractLsb' 19 13 = 0x1080)) ∧ q = .db w none ba) ∨
  ((tgt = .di ∨ (tgt = .crossing ∧ v.extractLsb' 19 13 = 0x10A0)) ∧ q = .di w none ba) ∨
  ((tgt = .loc ∨ (tgt = .crossing ∧ v.extractLsb' 19 13 = 0x10C0)) ∧ q = .loc w ba) ∨
  ((tgt = .parentLoc ∨ (tgt = .crossing ∧ v.extractLsb' 19 13 = 0x10E0)) ∧ q = .parentLoc w ba) ∨
  (∃ o, tgt = .periph o ∧ q = .periph w o ba) ∨
  (tgt = .crossing ∧ v.extractLsb' 19 13 = 0x1000 ∧ ((dir = .fetch ∧ q = .periph w false ba) ∨ (dir = .store ∧ q = .periph w true ba)))

/-- The operand of width `w` that a target selects by the number in `v` (R250). -/
def NumberSelects (tgt : IndTarget) (v : Data) (w : Width) (q : Prim) : Prop :=
  (∃ o, tgt = .timer o ∧ q = .timer w o (v.extractLsb' 0 16)) ∨ (∃ o, tgt = .counter o ∧ q = .counter w o (v.extractLsb' 0 16)) ∨
  ∃ k, tgt = .blk k ∧ q = .blk w k (v.extractLsb' 0 16)

/-! ## What an access may change -/

/-- The inner operand of an indirect operand. -/
def Desc.inner : Desc → Option Operand
  | .direct _ => none
  | .ind _ _ _ o => some o

/-- The operand whose handler a one-word operand runs: itself, or for a field bound to a live operand that operand with the field's width
(R260, R270); none for a field that is a place or a constant. -/
def State.finalPrim (s : State) (o : Operand) : Option Prim :=
  match o with
  | .prim p => some p
  | .field w k sub =>
    match resolveField k sub s with
    | .ok (.opnd p) _ => some (Prim.withWidth w p)
    | .ok (.dbAt _ _) _ | .ok (.localAt _ _) _ | .ok (.const _ _) _ | .err _ _ => none

/-- Where a STORE to operand `p` writes: buffer, bit address and width, the peripheral output side its mirror (R242); none for an operand that
stores to no buffer. -/
def State.primPlace (s : State) (p : Prim) : Option (Area × Nat × Width) :=
  match p with
  | .input w ba => some (.inputs, ba.toNat, w)
  | .output w ba => some (.outputs, ba.toNat, w)
  | .flag w ba => some (.flags, ba.toNat, w)
  | .loc w ba => some (.loc (s.cs.length - 1), ba.toNat, w)
  | .parentLoc w ba => some (.loc (s.cs.length - 2), ba.toNat, w)
  | .db w q ba => some (.db (q.getD s.regs.dbReg), ba.toNat, w)
  | .di w q ba => some (.db (q.getD s.regs.diReg), ba.toNat, w)
  | .periph w _ ba => some (.outputs, ba.toNat, w)
  | .imm _ _ | .timer _ _ _ | .counter _ _ _ | .stw _ _ _ | .ar _ _ | .blk _ _ _ => none

/-- Where a STORE to a one-word operand writes (R206, R260). -/
def State.storedPlace (s : State) (o : Operand) : Option (Area × Nat × Width) :=
  match o with
  | .prim p => s.primPlace p
  | .field w k sub =>
    match resolveField k sub s with
    | .ok (.dbAt n ba) _ => some (.db n, ba, w)
    | .ok (.localAt j ba) _ => some (.loc j, ba, w)
    | .ok (.opnd p) _ => s.primPlace (Prim.withWidth w p)
    | .ok (.const _ _) _ | .err _ _ => none

/-- Byte `c` of buffer `y` is one of the bytes that a STORE to `o` writes. -/
def State.Stored (s : State) (o : Operand) (y : Area) (c : Nat) : Prop :=
  ∃ (ba : Nat) (w : Width), s.storedPlace o = some (y, ba, w) ∧ ba / 8 ≤ c ∧ c < ba / 8 + w.span

/-- Byte `c` of buffer `y` is one of the bytes of the input region that a peripheral FETCH of `o` mirrors (R241). -/
def State.Mirrored (s : State) (o : Operand) (y : Area) (c : Nat) : Prop :=
  ∃ (w : Width) (ba : BitAddr), s.finalPrim o = some (.periph w false ba) ∧ y = .inputs ∧ ba.toNat / 8 ≤ c ∧ c < ba.toNat / 8 + w.bytes

/-- The operand runs the peripheral handler. -/
def State.Peripheral (s : State) (o : Operand) : Prop := ∃ w out ba, s.finalPrim o = some (.periph w out ba)

/-- The operand is a qualified data-block operand, which opens the DB register, or the DI register for `di` (R230). -/
def State.Opens (s : State) (o : Operand) (di : Bool) : Prop :=
  ∃ (w : Width) (n : BlockNum) (ba : BitAddr), s.finalPrim o = some (if di then .di w (some n) ba else .db w (some n) ba)

/-- The descriptor's operand is the raw status register: an STW operand, or a field without sub-offset that the current frame has bound to
one (R245, R270). No indirect operand is (R164). -/
def State.StwOperand (s : State) (d : Descriptor) : Prop :=
  (∃ w i, decodeDesc d = .ok (.direct (.prim (.stw w .raw i)))) ∨
  ∃ (w : Width) (k : BitVec 16) (g : Frame) (w' : Width) (i : Fin 9), decodeDesc d = .ok (.direct (.field w k 0)) ∧ s.top = some g ∧
    g.cls = .fclike ∧ g.raw = false ∧ g.bind.lookup k = some (.loc (.stw w' .raw i))

/-! ## Clock memory -/

/-- `clockTick(n)` of R521 leads from clock memory `c` to `c'`: nothing when it is off or no tick is due, else as many ticks as bring the
next one past `n`. -/
def Ticked (n : Nat) (c c' : ClockMem) : Prop :=
  (¬ (c.on = true ∧ c.next ≤ n) → c' = c) ∧
  (c.on = true → c.next ≤ n → ∃ k, c' = tickMany k c ∧ c'.on = true ∧ c'.next = c.next + k * 100000000 ∧
    n < c'.next ∧ c'.next ≤ n + 100000000 ∧ c'.count.val = (c.count.val + k) % 80)

/-- The clock memory and the clock byte after `clockTick(n)`, and every other byte of the regions and data blocks as before (R521). -/
def State.ClockTicked (s t : State) (n : Nat) : Prop :=
  Ticked n s.clock t.clock ∧
  (s.mem.wf (resetByte s.prog) = true → ∀ y c, y.inMemory = true → c < 65536 →
    t.byteAt y c = if (s.clock.on = true ∧ s.clock.next ≤ n) ∧ y = .flags ∧ s.cfg.clockOffset.map BitVec.toNat = some c
      then t.clock.clk else s.byteAt y c)

/-! ## Calls -/

/-- A parameter list a call accepts (R356): every index names an IN, OUT or INOUT field of the callee, no index occurs twice, and no reserved
bit of a parameter word is set. -/
def ParamsOk (b : CodeBlock) (pl : List Param) : Prop :=
  (∀ p ∈ pl, bits p.word 16 48 = 0 ∧
    ∃ fd, b.field (Param.index p) = some fd ∧ (fd.dir = .input ∨ fd.dir = .output ∨ fd.dir = .inout)) ∧
  (pl.map Param.index).Nodup

/-- The binding of a direct actual in a caller's state (R366): a constant, a live location, a place of a data block whose register is
not the null block, or a place of the caller's or its parent's local data. -/
def State.Binds (s : State) (p : Prim) (x : Binding) : Prop :=
  (∃ w v, p = .imm w v ∧ x = .const w v) ∨
  (∃ (w : Width) (ba : BitAddr), (p = .input w ba ∨ p = .output w ba ∨ p = .flag w ba) ∧ x = .loc p) ∨
  (∃ (w : Width) (o : Bool) (ba : BitAddr), p = .periph w o ba ∧ x = .loc p) ∨
  (∃ (w : Width) (o : Bool) (i : BitVec 16), (p = .timer w o i ∨ p = .counter w o i) ∧ x = .loc p) ∨
  (∃ (w : Width) (v : StwView) (i : Fin 9), p = .stw w v i ∧ x = .loc p) ∨
  (∃ (w : Width) (n : ArSel), p = .ar w n ∧ x = .loc p) ∨
  (∃ (w : Width) (k : RefKind) (n : BlockNum), p = .blk w k n ∧ x = .loc p) ∨
  (∃ (w : Width) (ba : BitAddr), p = .db w none ba ∧ s.prog.hasDb s.regs.dbReg = true ∧ x = .dbLoc s.regs.dbReg ba.toNat) ∨
  (∃ (w : Width) (ba : BitAddr), p = .di w none ba ∧ s.prog.hasDb s.regs.diReg = true ∧ x = .dbLoc s.regs.diReg ba.toNat) ∨
  (∃ (w : Width) (ba : BitAddr), p = .loc w ba ∧ x = .frameLocal (s.cs.length - 1) ba.toNat) ∨
  (∃ (w : Width) (ba : BitAddr), p = .parentLoc w ba ∧ 2 ≤ s.cs.length ∧ x = .frameLocal (s.cs.length - 2) ba.toNat)

/-- Operand `q` of a data block names block `n` at `ba`, and `t` is the state after a qualified operand has opened its register (R230, R364,
R366). -/
def State.NamesBlock (s : State) (q : Prim) (n : BlockNum) (ba : BitAddr) (t : State) : Prop :=
  s.prog.hasDb n = true ∧ ∃ w : Width,
    (q = .db w none ba ∧ n = s.regs.dbReg ∧ t = s) ∨ (q = .di w none ba ∧ n = s.regs.diReg ∧ t = s) ∨
    (q = .db w (some n) ba ∧ t = { s with regs := { s.regs with dbReg := n } }) ∨
    (q = .di w (some n) ba ∧ t = { s with regs := { s.regs with diReg := n } })

/-- Operand `q` is of a data block that is not there: a qualified number that names none, or a register that names none (R230, R38). -/
def State.LacksBlock (s : State) (q : Prim) : Prop :=
  ∃ (w : Width) (ba : BitAddr),
    (q = .db w none ba ∧ s.prog.hasDb s.regs.dbReg = false) ∨ (q = .di w none ba ∧ s.prog.hasDb s.regs.diReg = false) ∨
    ∃ n, (q = .db w (some n) ba ∨ q = .di w (some n) ba) ∧ s.prog.hasDb n = false

/-- Descriptor `D` resolves to the one-word operand `q` in the direction `dir`, and `u` is the state in which it has: a direct operand as it
stands, or the operand that the pointer or the number of an indirect one selects (R250 to R252). A named field is not among them. -/
def State.ResolvesTo (s : State) (dir : AccessDir) (D : Desc) (q : Prim) (u : State) : Prop :=
  (D = .direct (.prim q) ∧ u = s) ∨
  ∃ (w : Width) (tgt : IndTarget) (disp : BitAddr) (inner : Operand) (v : Data), D = .ind w tgt disp inner ∧
    fetchOperand inner s = .ok v u ∧
    ((Operand.width inner = .w32 ∧ (v.extractLsb' 0 19).toNat + disp.toNat < 2 ^ 19 ∧
      PointerSelects tgt v dir w (BitVec.ofNat 19 ((v.extractLsb' 0 19).toNat + disp.toNat)) q) ∨
     (Operand.width inner = .w16 ∧ NumberSelects tgt v w q))

/-- An I, Q, M or P operand at another bit address; any other operand as it stands. -/
def Prim.moved (ba : BitAddr) : Prim → Prim
  | .input w _ => .input w ba
  | .output w _ => .output w ba
  | .flag w _ => .flag w ba
  | .periph w o _ => .periph w o ba
  | .imm w v => .imm w v
  | .loc w a => .loc w a
  | .parentLoc w a => .parentLoc w a
  | .db w q a => .db w q a
  | .di w q a => .di w q a
  | .timer w b i => .timer w b i
  | .counter w b i => .counter w b i
  | .stw w v i => .stw w v i
  | .ar w n => .ar w n
  | .blk w k n => .blk w k n

/-- What a named field of the caller's frame `g` passes on as an actual (R366): a place of a data block or of local data as such a place, a
live operand moved by the sub-offset, a constant as it is (R270). -/
def State.PassesOn (s : State) (g : Frame) (k : BitVec 16) (fd : Field) (off : Nat) (y : Binding) : Prop :=
  (∃ n a, s.FieldReaches g k fd off (.db n) a ∧ y = .dbLoc n a) ∨ (∃ j a, s.FieldReaches g k fd off (.loc j) a ∧ y = .frameLocal j a) ∨
  (∃ p ba, g.BoundTo k fd (.loc p) ∧ Prim.movable p = some ba ∧ ba.toNat + off < 2 ^ 19 ∧
    y = .loc (Prim.moved (BitVec.ofNat 19 (ba.toNat + off)) p)) ∨
  (∃ p, g.BoundTo k fd (.loc p) ∧ Prim.unmovable p = true ∧ off = 0 ∧ y = .loc p) ∨
  ∃ w v, g.BoundTo k fd (.const w v) ∧ off = 0 ∧ y = .const w v

/-- The direction in which the indirect actual of parameter `fd` of a function is resolved (R366). -/
def Field.bindDir (fd : Field) : AccessDir := if fd.dir = .input then .fetch else .store

/-- The binding `y` of the actual `D` of a function's parameter `fd` and the state it leaves (R366): that of the operand it resolves to, a
qualified data-block operand opening its register first; a named field passes the caller's own parameter on. -/
def State.BindsActual (s : State) (fd : Field) (D : Desc) (y : Binding) (t : State) : Prop :=
  (∃ q u, s.ResolvesTo (Field.bindDir fd) D q u ∧
    ((u.Binds q y ∧ t = u) ∨ ∃ n ba, u.NamesBlock q n ba t ∧ y = .dbLoc n ba.toNat)) ∨
  ∃ (w : Width) (k : BitVec 16) (sub : BitAddr) (g : Frame) (gb : CodeBlock) (gd : Field), D = .direct (.field w k sub) ∧ t = s ∧
    s.top = some g ∧ s.codeOf g = some gb ∧ gb.field k = some gd ∧ s.PassesOn g k gd sub.toNat y

/-- What the actual `D` of a function's parameter `fd` raises, and in which state (R366): what its resolution raises, MISSING_DB or
MISSING_PARENT. -/
def State.BindRaises (s : State) (fd : Field) (D : Desc) (c : Cause) (t : State) : Prop :=
  (∃ x, resolveDesc (Field.bindDir fd) D s = .err x t ∧ c = x.cause) ∨
  (∃ w k sub x, D = .direct (.field w k sub) ∧ resolveField k sub s = .err x t ∧ c = x.cause) ∨
  ∃ q, s.ResolvesTo (Field.bindDir fd) D q t ∧
    ((t.LacksBlock q ∧ c = .addr .missingDb) ∨ (t.cs.length < 2 ∧ c = .addr .missingParent ∧ ∃ w ba, q = .parentLoc w ba))

/-- A direct call row with no `MIOFF` it may not have: the kind of its target block (R351, R353). -/
def DirectRow (i : Instr) (k : BlockKind) (t : Descriptor) (pl : List Param) : Prop :=
  (k = .fc ∧ i = .callFc 0 t pl) ∨ (k = .sfc ∧ i = .callFcSys 0 t pl) ∨
  (k = .fb ∧ ((∃ x, i = .callFb 0 t x pl) ∨ ∃ m, i = .callMi m t pl)) ∨
  (k = .sfb ∧ ((∃ x, i = .callFbSys 0 t x pl) ∨ ∃ m, i = .callMiSys m t pl))

/-- A raw call row without parameters and with no `MIOFF` it may not have: the kind of its target block (R351, R353). -/
def RawRow (i : Instr) (k : BlockKind) (t : Descriptor) : Prop :=
  (k = .fc ∧ i = .rawFc 0 0 t) ∨ (k = .sfc ∧ i = .rawFcSys 0 0 t) ∨
  (k = .fb ∧ (i = .rawFb 0 0 t ∨ ∃ m, i = .rawMi m 0 t)) ∨ (k = .sfb ∧ (i = .rawFbSys 0 0 t ∨ ∃ m, i = .rawMiSys m 0 t))

/-- A call row outside the multi-instance shapes, with `MIOFF` `m` and no parameters on a raw shape (R353). -/
def NoOffsetRow (i : Instr) (m : BitVec 16) : Prop :=
  (∃ t pl, i = .callFc m t pl ∨ i = .callFcSys m t pl) ∨ (∃ t x pl, i = .callFb m t x pl ∨ i = .callFbSys m t x pl) ∨
  ∃ t, i = .rawFc m 0 t ∨ i = .rawFcSys m 0 t ∨ i = .rawFb m 0 t ∨ i = .rawFbSys m 0 t

/-- A field ends past an instance data block of `size` bytes when the instance starts at `base` (R377). -/
def PastInstance (b : CodeBlock) (base size : Nat) : Prop :=
  ∃ kf ∈ b.iface, kf.2.dir ≠ .temp ∧ 8 * size < base + kf.2.off.toNat + (if kf.2.agg then 48 else kf.2.width.bits)

/-- The instance that a direct call row `i` of a function block `b` copies its parameters into, and the state in which it does: the block of
CALL_FB's instance operand at 0, or the current DI block at `AR2[18:0] + 8 * MIOFF` (R361, R371, R372, R377). -/
def State.InstanceOf (s : State) (i : Instr) (b : CodeBlock) (t : Descriptor) (pl : List Param) (inst : BlockNum) (base : Nat)
    (u : State) : Prop :=
  (∃ x X wx, (i = .callFb 0 t x pl ∨ i = .callFbSys 0 t x pl) ∧ decodeDesc x = .ok X ∧
    resolveDesc .fetch X s = .ok (.prim (.blk wx .db inst)) u ∧ s.prog.hasDb inst = true ∧ base = 0) ∨
  (∃ m : BitVec 16, (i = .callMi m t pl ∨ i = .callMiSys m t pl) ∧ u = s ∧ inst = s.regs.diReg ∧ s.prog.hasDb inst = true ∧
    base = (s.regs.ar2.extractLsb' 0 19).toNat + 8 * m.toNat ∧
    (s.cfg.miValidate = true → ¬ PastInstance b base (s.areaSize (.db inst))))

/-- A parameter that the pop of a function block copies back (R392). -/
def Field.copiedBack (fd : Field) : Prop := (fd.dir = .output ∨ fd.dir = .inout) ∧ fd.agg = false

/-- The copy-back of a parameter list of frame `f`, whose block is `b`, in order, from `s` to `t`: each value is read from the instance and
stored to its actual (R392). -/
inductive CopiedBack (b : CodeBlock) (f : Frame) : List (BitVec 16 × Descriptor) → State → State → Prop
  | nil (s : State) : CopiedBack b f [] s s
  | skip {k : BitVec 16} {d : Descriptor} {r : List (BitVec 16 × Descriptor)} {s t : State}
      (h : ∀ fd, b.field k = some fd → ¬ Field.copiedBack fd) (hr : CopiedBack b f r s t) : CopiedBack b f ((k, d) :: r) s t
  | copy {k : BitVec 16} {d : Descriptor} {r : List (BitVec 16 × Descriptor)} {s u t : State} {fd : Field} {D : Desc}
      (hf : b.field k = some fd) (hc : Field.copiedBack fd)
      (hi : rangeCheck (s.areaSize (.db f.instDB)) (f.instBase + fd.off.toNat) fd.width = none) (hd : decodeDesc d = .ok D)
      (hs : storeOp D (s.readVal (.db f.instDB) (f.instBase + fd.off.toNat) fd.width) s = .ok () u) (hr : CopiedBack b f r u t) :
      CopiedBack b f ((k, d) :: r) s t

/-- The caller's state in which the copy-back of a popped function block runs: the frame gone, the registers restored (R390, R391). -/
def State.returned (s : State) (db di : BlockNum) : State :=
  { s with cs := s.cs.dropLast, regs := { s.regs with dbReg := db, diReg := di } }

/-- A setting of CONFIG_SET that re-allocates (R501, R502, R504): parameter, value, and the configuration it asks for. -/
def SizeSetting (c : Cfg) (p : BitVec 4) (v : Data) (c' : Cfg) : Prop :=
  (p = 0 ∧ v = 2 ∧ c' = { c with accuCount := .two }) ∨ (p = 0 ∧ v = 4 ∧ c' = { c with accuCount := .four }) ∨
  ∃ n : Fin 65537, v.toNat = n.val ∧
    ((p = 1 ∧ c' = { c with inputSize := n }) ∨ (p = 2 ∧ c' = { c with outputSize := n }) ∨
     (p = 3 ∧ c' = { c with flagSize := n }) ∨ (p = 4 ∧ c' = { c with timerCount := n }) ∨
     (p = 5 ∧ c' = { c with counterCount := n }))

/-- The state after a CALL has pushed `f` onto the call stack of `u` and left the DB and DI registers at `db` and `di` (R353, R380). -/
def State.entered (u : State) (f : Frame) (db di : BlockNum) : State :=
  { u with
    cs := u.cs ++ [f]
    regs := { u.regs with dbReg := db, diReg := di }
    step := { u.step with called := true }
    env := { u.env with framesBuilt := u.env.framesBuilt + 1 } }

/-- The state `r` after a direct call row `i` of a function block has pushed its frame onto `v`: kind, number, block, parameters, instance and
base; DB becomes the caller's DI, and DI the instance, or stays for a multi-instance row (R371, R372, R380, R381). -/
def State.EnteredFb (v : State) (i : Instr) (k : BlockKind) (n : BlockNum) (cb : CodeBlock) (pl : List Param) (inst : BlockNum) (base : Nat)
    (r : State) : Prop :=
  ∃ (locals : List Byte) (di : BlockNum), locals.length = cb.tempSize ∧
    (((∃ t x, i = .callFb 0 t x pl ∨ i = .callFbSys 0 t x pl) ∧ di = inst) ∨
      ((∃ m t, i = .callMi m t pl ∨ i = .callMiSys m t pl) ∧ di = v.regs.diReg)) ∧
    r = (v.entered ⟨k, n, 0, locals, [], [], pl.map fun p => (bits p.word 0 16, p.d), false, .fblike, inst, base,
      some (v.regs.dbReg, v.regs.diReg)⟩ v.regs.diReg di).answer 0

/-- The state after frame `f` has been popped, with the DB and DI registers at `db` and `di` (R390). -/
def State.popped (s : State) (f : Frame) (db di : BlockNum) : State :=
  { s with
    cs := s.cs.dropLast
    regs := { s.regs with dbReg := db, diReg := di }
    trace := s.trace ++ [.blockExit f.kind f.num] }

/-- The mode a step may lead to (R536): unchanged, or one of the listed transitions. -/
def modeStep (m m' : Mode) : Bool :=
  m' == m ||
    match m' with
    | .uninit => true
    | .started => m == .uninit || m == .cycling || m == .timefault
    | .cycling => m == .started || m == .timefault
    | .faulted => m == .uninit || m == .started || m == .cycling || m == .timefault
    | .timefault => m == .uninit || m == .started || m == .cycling
    | .maint => m == .uninit || m == .started || m == .cycling || m == .timefault

end Sys2Proof.Machine
end

