-- ==== Sys2Proof/WellFormed.lean ====
section
/-! DEFINITION. Which terms of the syntax the encoding admits (`encodable`) and which of them are legal commands (`wellFormed`):
30_encoding R152, R163, R164, R167 and 42_calls R353. -/

namespace Sys2Proof

/-- A descriptor has a second word exactly when its tag field is IND (R152). -/
def Descriptor.encodable (d : Descriptor) : Bool := d.w1.isSome == isInd d.w0

/-- The descriptors of a parameter list have their words, and the list has a count of 16 bits (R156). -/
def paramsEncodable (pl : List Param) : Bool := pl.all (fun p => p.d.encodable) && decide (pl.length < 2 ^ 16)

/-- The parameter words of a list have their reserved bits `[63:16]` clear (R156). -/
def paramsLegal (pl : List Param) : Bool := pl.all fun p => bits p.word 16 48 == 0

/-- The command has words: every descriptor has as many words as its tag asks for, and every count fits its field. -/
def Instr.encodable : Instr → Bool
  | .fetch _ d => d.encodable
  | .store _ d => d.encodable
  | .callFc _ t pl => t.encodable && paramsEncodable pl
  | .callFcSys _ t pl => t.encodable && paramsEncodable pl
  | .callFb _ t x pl => t.encodable && x.encodable && paramsEncodable pl
  | .callFbSys _ t x pl => t.encodable && x.encodable && paramsEncodable pl
  | .callMi _ t pl => t.encodable && paramsEncodable pl
  | .callMiSys _ t pl => t.encodable && paramsEncodable pl
  | .rawFc _ _ t => t.encodable
  | .rawFcSys _ _ t => t.encodable
  | .rawFb _ _ t => t.encodable
  | .rawFbSys _ _ t => t.encodable
  | .rawMi _ _ t => t.encodable
  | .rawMiSys _ _ t => t.encodable
  | .imageWrite _ _ bs => decide (bs.length < 2 ^ 16)
  | .regRead _ | .regWrite _ | .openDb _ _ | .stwWrite _ _ | .ccSet _ _ _ | .tcOp _ _ _ _ => true
  | .jumpRel _ | .jumpLabel _ | .blockEnd | .parenPush _ | .parenPop | .mcrPush _ | .mcrPop | .mcrState => true
  | .startup | .runCycle | .reset | .configSet _ _ | .imageRead _ _ _ => true

/-- The command holds no reserved field value (R167): `MIOFF` and `NPARAM` are 0 where the shape does not use them, `REG` and `PARAM`
are not reserved, `SEL` of IMAGE_WRITE is 0, and no reserved bit of a parameter word is set. -/
def Instr.legal : Instr → Bool
  | .regRead r => decide (r.toNat < 12)
  | .regWrite r => decide (r.toNat < 12)
  | .callFc mi _ pl => mi == 0 && paramsLegal pl
  | .callFcSys mi _ pl => mi == 0 && paramsLegal pl
  | .callFb mi _ _ pl => mi == 0 && paramsLegal pl
  | .callFbSys mi _ _ pl => mi == 0 && paramsLegal pl
  | .callMi _ _ pl => paramsLegal pl
  | .callMiSys _ _ pl => paramsLegal pl
  | .rawFc mi np _ => mi == 0 && np == 0
  | .rawFcSys mi np _ => mi == 0 && np == 0
  | .rawFb mi np _ => mi == 0 && np == 0
  | .rawFbSys mi np _ => mi == 0 && np == 0
  | .rawMi _ np _ => np == 0
  | .rawMiSys _ np _ => np == 0
  | .configSet p _ => decide (p.toNat < 10)
  | .imageWrite sel _ _ => !sel
  | .fetch _ _ | .store _ _ | .openDb _ _ | .stwWrite _ _ | .ccSet _ _ _ | .tcOp _ _ _ _ => true
  | .jumpRel _ | .jumpLabel _ | .blockEnd | .parenPush _ | .parenPop | .mcrPush _ | .mcrPop | .mcrState => true
  | .startup | .runCycle | .reset | .imageRead _ _ _ => true

/-- A well-formed command: it has words and no reserved field value. -/
def Instr.wellFormed (i : Instr) : Bool := i.encodable && i.legal

/-- The fields of a `Prim` lie in the ranges R163 gives them: an immediate's value below its width, a status bit index only for the
one-bit raw view. -/
def Prim.wellFormed : Prim → Bool
  | .imm w v => decide (v.toNat < 2 ^ w.bits)
  | .stw w v b => decide (b = 0) || (decide (v = .raw) && decide (w = .w1))
  | .input _ _ | .output _ _ | .flag _ _ | .loc _ _ | .parentLoc _ _ | .db _ _ _ | .di _ _ _ => true
  | .timer _ _ _ | .counter _ _ _ | .periph _ _ _ | .ar _ _ | .blk _ _ _ => true

/-- The fields of a one-word operand lie in their ranges. -/
def Operand.wellFormed : Operand → Bool
  | .prim p => p.wellFormed
  | .field _ _ _ => true

/-- The fields of a descriptor lie in their ranges: for a timer, counter or block target the displacement is 0 (R164). -/
def Desc.wellFormed : Desc → Bool
  | .direct o => o.wellFormed
  | .ind _ t disp o =>
    (match t with
     | .timer _ | .counter _ | .blk _ => disp == 0
     | .input | .output | .flag | .loc | .parentLoc | .db | .di | .periph _ | .crossing => true) && o.wellFormed

end Sys2Proof
end

