-- ==== Sys2Proof/Certificates/Slice0/Obligations.lean ====
section
/-! DEFINITION. The statements for the provers. Each follows rules R<n> of spec/, named in its docstring. Where a statement gives the next
state as an equation, that equation is also the statement's frame: every register, every other status bit, every byte of memory, every stack
and count that the right-hand side does not name is as before. -/

section Statements

open Sys2Proof Sys2Proof.Machine

/-! ## Encoding -/

/-- R151 to R154, R156, R352, R531: the words of a command decode to that command, whatever words follow. -/
def Obligations.DecodeEncode : Prop :=
  ∀ (i : Instr) (rest : List Word), i.encodable = true → decode (encode i ++ rest) = .ok (i, rest)

/-- R151 to R154, R156: a command has one spelling; what the decoder reads is exactly the words it came from, with every reserved header bit
0. That words after the command are handed back and that a non-zero unused byte of image data makes the words no command is the model's
choice (notes/assumptions/13.md); so is that the pairs of a raw call with parameters are left unread (notes/assumptions/14.md). The reserved
bits of a parameter word are not checked by the decoder but by the call, and a reserved field value by its command's own rule
(notes/assumptions/21.md). -/
def Obligations.DecodeCanonical : Prop :=
  ∀ (ws : List Word) (i : Instr) (rest : List Word),
    decode ws = .ok (i, rest) → i.encodable = true ∧ ws = encode i ++ rest

/-- R160 to R165: descriptors decode to the operands the encoder writes, and to no other. Two points are the model's reading: the `TSUB` bits
that R164 does not name must be 0 (notes/assumptions/12.md), and both words of an indirect operand are checked at once
(notes/assumptions/11.md). -/
def Obligations.DescCodec : Prop :=
  (∀ D : Desc, (encodeDesc D).encodable = true) ∧
  ∀ (d : Descriptor) (D : Desc), d.encodable = true →
    (decodeDesc d = .ok D ↔ D.wellFormed = true ∧ encodeDesc D = d)

/-- R153, R351, R161, R162, R165: reserved opcodes, call shapes, tags and width codes are refused by name, and so is an indirect operand
inside another. That a reserved width code of word 0 is UNKNOWN_TAG even where word 1 is itself IND is the model's choice
(notes/assumptions/28.md). -/
def Obligations.ReservedEncodings : Prop :=
  (∀ (h : Word) (r : List Word),
    opcode h ∉ [0x01, 0x02, 0x10, 0x11, 0x12, 0x13, 0x14, 0x15, 0x20, 0x21, 0x22, 0x23, 0x24, 0x25, 0x26, 0x27, 0x30,
      0x80, 0x81, 0x82, 0x83, 0x84, 0x85] →
    decode (h :: r) = .error .reservedOpcode) ∧
  (∀ (h : Word) (r : List Word), opcode h = 0x30 → bits h 48 4 = 0 → bits h 16 16 = 0 → 6 ≤ (bits h 53 3).toNat →
    decode (h :: r) = .error .reservedShape) ∧
  (∀ d : Descriptor, 16 ≤ (bits d.w0 59 5).toNat → decodeDesc d = .error .unknownTag) ∧
  (∀ d : Descriptor, 5 ≤ (bits d.w0 56 3).toNat → decodeDesc d = .error .unknownTag) ∧
  ∀ (d : Descriptor) (w1 : Word) (x : Width × IndTarget × BitAddr),
    isInd d.w0 = true → decodeIndWord d.w0 = some x → d.w1 = some w1 → isInd w1 = true →
      decodeDesc d = .error .badIndirect

/-- R153 to R158, R163, R164: words written out from the tables decode to the commands they stand for. -/
def Obligations.DecodeWords : Prop :=
  decode [0x0100040000000000, 0x1A00000000000010] = .ok (.fetch 4 ⟨0x1A00000000000010, none⟩, []) ∧
  decodeDesc ⟨0x1A00000000000010, none⟩ = .ok (.direct (.prim (.flag .w16 16))) ∧
  decode [0x1104000000000000] = .ok (.regWrite 4, []) ∧
  decode [0x1300000300000001] = .ok (.stwWrite 3 1, []) ∧
  decode [0x20000000FFFFFFFB] = .ok (.jumpRel (-5), []) ∧
  decode [0x3020000000000000, 0x6A20002000000000, 0x6A30007000000000] =
    .ok (.callFb 0 ⟨0x6A20002000000000, none⟩ ⟨0x6A30007000000000, none⟩ [], []) ∧
  decodeDesc ⟨0x6A30007000000000, none⟩ = .ok (.direct (.prim (.blk .w16 .db 7))) ∧
  decodeDesc ⟨0x7A30000000000000, some 0x1B00000000000050⟩ = .ok (.ind .w16 .flag 0 (.prim (.flag .w32 80))) ∧
  decode [0x8303000000000004] = .ok (.configSet 3 4, []) ∧
  decode [0x8500000000000002, 0x1234000000000000] = .ok (.imageWrite false 0 [0x12, 0x34], [])

/-! ## Steps -/

/-- R30, R422: a step runs the command that was decoded: while idle the host's next command, taken off the queue; inside an instruction the
next micro-command of its body, with its data-in value. -/
def Obligations.StepRunsDecoded : Prop :=
  (∀ (s : State) (ws : List Word) (r : List (List Word)) (i : Instr) (rest : List Word),
    s.phase = .idle → s.env.commands = ws :: r → decode ws = .ok (i, rest) →
      step s = exec i { s with env := { s.env with commands := r } }) ∧
  ∀ (s : State) (run : BodyRun) (c : BodyCmd) (i : Instr) (rest : List Word),
    s.phase ≠ .idle → s.body = some run → run.insn.next run.replies = some c → decode c.words = .ok (i, rest) →
      step s = exec i { s with din := c.din }

/-- R167, R422, R427, R567, R576: words that are no command are refused to the host and are a fault of a body; no command runs after the body's
CALL; a body that issues a host command faults with REENTRY; with no host command the machine waits unchanged. Two clauses are the model's
reading: the order of the three faults of a body's illegal words (notes/assumptions/25.md) and the refusal of a micro-command that the host
sends (notes/assumptions/8.md). -/
def Obligations.CommandDiscipline : Prop :=
  (∀ s : State, s.phase = .idle → s.env.commands = [] → step s = .next s) ∧
  (∀ (s : State) (ws : List Word) (r : List (List Word)) (e : DecodeErr),
    s.phase = .idle → s.env.commands = ws :: r → decode ws = .error e →
      step s = .next { s with env := { s.env with commands := r }, reply := some (.refused .illegalCommand) }) ∧
  (∀ (s : State) (run : BodyRun) (c : BodyCmd) (e : DecodeErr),
    s.phase ≠ .idle → s.body = some run → run.insn.next run.replies = some c → decode c.words = .error e →
      step s = .next (({ s with din := c.din } : State).faultWith
        (.exec (if s.step.called then .commandAfterCall
          else if 0x80 ≤ opcode (c.words.headD 0) then .reentry else .illegalCommand)) none)) ∧
  (∀ (i : Instr) (s : State), s.phase ≠ .idle → s.step.called = true →
    exec i s = .next (s.faultWith (.exec .commandAfterCall) none)) ∧
  (∀ (i : Instr) (s : State), isHostCommand i = true → s.phase ≠ .idle → s.step.called = false →
    exec i s = .next (s.faultWith (.exec .reentry) none)) ∧
  ∀ (i : Instr) (s : State), isHostCommand i = false → s.phase = .idle → exec i s = .next (s.refuse .illegalCommand)

/-- R421, R423, R424: an instruction begins with `E`, `RJ`, `CALLED` and `LOC` set; once its body is done the event is emitted, the pointer of
the frame it came from advances by `RJ` and the count goes up by one; an advance below 0 is NEGATIVE_IP after the event. -/
def Obligations.InsnBeginEnd : Prop :=
  (∀ (s : State) (f : Frame) (b : CodeBlock) (i : Insn),
    s.phase ≠ .idle → s.body = none → s.top = some f → s.codeOf f = some b → b.insns[f.ip]? = some i →
      step s = .next { s with
        step := ⟨1, s.cs.length - 1, false, ⟨f.kind, f.num, f.ip⟩⟩
        body := some ⟨i, []⟩ }) ∧
  ∀ (s : State) (run : BodyRun) (f : Frame),
    s.phase ≠ .idle → s.body = some run → run.insn.next run.replies = none → s.cs[s.step.e]? = some f →
      ((f.ip : Int) + s.step.rj < 0 →
        step s = .next (({ s with
          trace := s.trace ++ [.postInsn s.step.loc.kind s.step.loc.num s.step.loc.ip] } : State).faultWith (.exec .negativeIp) none)) ∧
      (0 ≤ (f.ip : Int) + s.step.rj → (s.stats.insnCount + 1).toNat % 64 ≠ 0 →
        step s = .next { s with
          trace := s.trace ++ [.postInsn s.step.loc.kind s.step.loc.num s.step.loc.ip]
          cs := s.cs.set s.step.e { f with ip := ((f.ip : Int) + s.step.rj).toNat }
          stats := { s.stats with insnCount := s.stats.insnCount + 1 }
          body := none })

/-- R426, R510, R511, R512, R548: the instruction that makes the count a multiple of 64 completes and is followed by a clock reading and the two
watchdogs, the run-time check first, both strict; the reading also ticks the clock memory (R521). -/
def Obligations.WatchdogRefresh : Prop :=
  ∀ (s : State) (run : BodyRun) (f : Frame) (n : Nat) (r : List Nat),
    s.phase ≠ .idle → s.body = some run → run.insn.next run.replies = none → s.cs[s.step.e]? = some f →
    0 ≤ (f.ip : Int) + s.step.rj → (s.stats.insnCount + 1).toNat % 64 = 0 →
    s.env.clock = n :: r → s.env.lastReading ≤ n →
      ∃ t : State, step s = .next t ∧ t.time = { s.time with now := n } ∧ t.env.clock = r ∧ t.regs = s.regs ∧
        t.stats = { s.stats with insnCount := s.stats.insnCount + 1 } ∧
        t.trace = s.trace ++ [.postInsn s.step.loc.kind s.step.loc.num s.step.loc.ip] ∧
        t.cs = s.cs.set s.step.e { f with ip := ((f.ip : Int) + s.step.rj).toNat } ∧ t.body = none ∧
        s.ClockTicked t n ∧ (∀ j c, t.byteAt (.loc j) c = s.byteAt (.loc j) c) ∧ t.mcr = s.mcr ∧ t.timers = s.timers ∧
        t.counters = s.counters ∧
        (if s.cfg.runLimit > 0 ∧ n - s.time.runStart > s.cfg.runLimit then
          t.mode = .maint ∧ t.phase = .idle ∧ t.err = ⟨4, some 1, some s.step.loc, none⟩ ∧ t.reply = some (.failed t.err)
        else if n - s.time.cycleStart > s.cfg.cycleLimit then
          t.mode = .timefault ∧ t.phase = .idle ∧ t.err = ⟨3, some 1, some s.step.loc, none⟩ ∧ t.reply = some (.failed t.err)
        else t.mode = s.mode ∧ t.phase = s.phase ∧ t.err = s.err ∧ t.reply = s.reply)

/-- R390, R391, R393, R394, R425: a frame whose pointer is at or past the end of its block is popped; an FC-like frame leaves the DB and DI
registers alone, an FB-like frame restores them; the exit event is emitted; no instruction is counted. -/
def Obligations.PopRestores : Prop :=
  ∀ (s : State) (f : Frame) (b : CodeBlock),
    s.phase ≠ .idle → s.body = none → s.top = some f → s.codeOf f = some b → b.len ≤ f.ip → s.cs.dropLast ≠ [] →
      (f.cls = .fclike → step s = .next (s.popped f s.regs.dbReg s.regs.diReg)) ∧
      ∀ db di, f.cls = .fblike → f.saved = some (db, di) → (f.raw = true ∨ f.params = []) →
        step s = .next (s.popped f db di)

/-- R390, R391, R392, R546: the copy-back of a popped function block runs through its parameters in order, in the caller's context, after the
registers are restored. An OUT or INOUT value is read from the instance and stored to its actual: a direct operand, a named field of the
caller, or an indirect operand; an IN or aggregate parameter is not copied. The first raise, of the read, of a descriptor that is not
well-formed or of the store, is located at the popped frame and names no operand (notes/assumptions/16.md). The value is brought to the
actual's width (notes/assumptions/17.md). -/
def Obligations.CopyBack : Prop :=
  ∀ (s : State) (f : Frame) (b : CodeBlock) (db di : BlockNum),
    s.phase ≠ .idle → s.body = none → s.top = some f → s.codeOf f = some b → b.len ≤ f.ip → s.cs.dropLast ≠ [] →
    f.cls = .fblike → f.raw = false → f.saved = some (db, di) →
      (∀ t, CopiedBack b f f.params (s.returned db di) t →
        step s = .next { t with trace := t.trace ++ [.blockExit f.kind f.num] }) ∧
      (∀ (pre post : List (BitVec 16 × Descriptor)) (k : BitVec 16) (d : Descriptor) (fd : Field) (u : State),
        f.params = pre ++ (k, d) :: post → CopiedBack b f pre (s.returned db di) u → b.field k = some fd → Field.copiedBack fd →
          (∀ r, rangeCheck (u.areaSize (.db f.instDB)) (f.instBase + fd.off.toNat) fd.width = some r →
            step s = .next (u.takeFault ⟨.addr r, none⟩ (some ⟨f.kind, f.num, f.ip⟩))) ∧
          (rangeCheck (u.areaSize (.db f.instDB)) (f.instBase + fd.off.toNat) fd.width = none →
            (∀ e, decodeDesc d = .error e →
              step s = .next (u.takeFault ⟨.addr (descReason e), none⟩ (some ⟨f.kind, f.num, f.ip⟩))) ∧
            ∀ D x t, decodeDesc d = .ok D →
              storeOp D (u.readVal (.db f.instDB) (f.instBase + fd.off.toNat) fd.width) u = .err x t →
                step s = .next (t.takeFault ⟨x.cause, none⟩ (some ⟨f.kind, f.num, f.ip⟩)))) ∧
      ∀ (k : BitVec 16) (d : Descriptor) (fd : Field) (c : State) (v : Data),
        f.params = [(k, d)] → b.field k = some fd → c = s.returned db di →
        v = s.readVal (.db f.instDB) (f.instBase + fd.off.toNat) fd.width →
          (¬ Field.copiedBack fd → step s = .next (s.popped f db di)) ∧
          (Field.copiedBack fd → rangeCheck (s.areaSize (.db f.instDB)) (f.instBase + fd.off.toNat) fd.width = none →
            (∀ w y, decodeDesc d = .ok (.direct (.prim (.imm w y))) →
              step s = .next (c.takeFault ⟨.addr .readOnly, none⟩ (some ⟨f.kind, f.num, f.ip⟩))) ∧
            (∀ p, decodeDesc d = .ok (.direct (.prim p)) →
              (∀ t, c.Takes p v t → step s = .next { t with trace := t.trace ++ [.blockExit f.kind f.num] }) ∧
              ∀ r t, c.StoreRaises p v r t → step s = .next (t.takeFault ⟨.addr r, none⟩ (some ⟨f.kind, f.num, f.ip⟩))) ∧
            (∀ (w : Width) (k' : BitVec 16) (sub : BitAddr) (g : Frame) (gb : CodeBlock) (gd : Field) (x : Area) (a : Nat),
              decodeDesc d = .ok (.direct (.field w k' sub)) → c.top = some g → c.codeOf g = some gb → gb.field k' = some gd →
              c.FieldReaches g k' gd sub.toNat x a →
                (rangeCheck (c.areaSize x) a w = none →
                  step s = .next ((s.popped f db di).writeVal x a w (BitVec.ofNat 48 (v.toNat % 2 ^ w.bits)))) ∧
                ∀ r, rangeCheck (c.areaSize x) a w = some r →
                  step s = .next (c.takeFault ⟨.addr r, none⟩ (some ⟨f.kind, f.num, f.ip⟩))) ∧
            ∀ (w : Width) (tgt : IndTarget) (disp : BitAddr) (inner : Operand) (y : Data) (u : State) (q : Prim),
              decodeDesc d = .ok (.ind w tgt disp inner) → Operand.width inner = .w32 → fetchOperand inner c = .ok y u →
              (y.extractLsb' 0 19).toNat + disp.toNat < 2 ^ 19 →
              PointerSelects tgt y .store w (BitVec.ofNat 19 ((y.extractLsb' 0 19).toNat + disp.toNat)) q →
                (∀ t, u.Takes q v t → step s = .next { t with trace := t.trace ++ [.blockExit f.kind f.num] }) ∧
                ∀ r t, u.StoreRaises q v r t →
                  step s = .next (t.takeFault ⟨.addr r, none⟩ (some ⟨f.kind, f.num, f.ip⟩)))

/-- R484, R486, R521: the pop that empties the call stack ends the cycle (a clock reading, the tick of the clock memory, the statistics, the
count, the cycle-exit event, mode CYCLING) or the startup block (mode STARTED), and completes the host command with OK. -/
def Obligations.EndOfTopLevel : Prop :=
  ∀ (s : State) (f : Frame) (b : CodeBlock),
    s.body = none → s.cs = [f] → s.codeOf f = some b → b.len ≤ f.ip → f.cls = .fclike →
      (s.phase = .startupOb →
        step s = .next { s with
          cs := [], trace := s.trace ++ [.blockExit f.kind f.num], mode := .started, phase := .idle, reply := some (.ok []) }) ∧
      ∀ (n : Nat) (r : List Nat), s.phase = .cycle → s.env.clock = n :: r → s.env.lastReading ≤ n →
        ∃ t : State, step s = .next t ∧ t.cs = [] ∧ t.phase = .idle ∧ t.mode = .cycling ∧ t.reply = some (.ok []) ∧
          t.regs = s.regs ∧ t.time = { s.time with now := n } ∧
          s.ClockTicked t n ∧ t.mcr = s.mcr ∧ t.timers = s.timers ∧ t.counters = s.counters ∧
          t.trace = s.trace ++ [.blockExit f.kind f.num, .cycleExit (s.stats.cycleCount + 1)] ∧
          t.stats.cycleCount = s.stats.cycleCount + 1 ∧ t.stats.insnCount = s.stats.insnCount ∧
          t.stats.cycMin = some (min (s.stats.cycMin.getD (n - s.time.cycleStart)) (n - s.time.cycleStart)) ∧
          t.stats.cycMax = some (max (s.stats.cycMax.getD (n - s.time.cycleStart)) (n - s.time.cycleStart)) ∧
          (n - s.stats.winStart < 1000000000 →
            t.stats.winCycles = s.stats.winCycles + 1 ∧
            t.stats.winInsns = s.stats.winInsns + (s.stats.insnCount - s.stats.cycInsn0).toNat ∧
            t.stats.winTime = s.stats.winTime + (n - s.time.cycleStart) ∧ t.stats.winStart = s.stats.winStart ∧
            t.stats.cycAvg = s.stats.cycAvg ∧ t.stats.ipcAvg = s.stats.ipcAvg ∧ t.stats.ipsAvg = s.stats.ipsAvg) ∧
          (1000000000 ≤ n - s.stats.winStart →
            t.stats.winCycles = 0 ∧ t.stats.winInsns = 0 ∧ t.stats.winTime = 0 ∧ t.stats.winStart = n ∧
            t.stats.cycAvg = some ((s.stats.winTime + (n - s.time.cycleStart)) / (s.stats.winCycles + 1)) ∧
            t.stats.ipcAvg =
              some ((s.stats.winInsns + (s.stats.insnCount - s.stats.cycInsn0).toNat) / (s.stats.winCycles + 1)) ∧
            t.stats.ipsAvg =
              if 0 < s.stats.winTime + (n - s.time.cycleStart) then
                some ((s.stats.winInsns + (s.stats.insnCount - s.stats.cycInsn0).toNat) * 1000000000 /
                  (s.stats.winTime + (n - s.time.cycleStart)))
              else s.stats.ipsAvg)

/-! ## The whole machine -/

/-- R580, R587: the power-on state of any configuration and program has the values of the table and is a clean entry; the machine's reset state
is one and is a legal state. -/
def Obligations.ResetState : Prop :=
  (∀ (c : Cfg) (p : Prog), let s := State.powerOn c p
    s.CleanEntry ∧ s.mode = .uninit ∧ s.phase = .idle ∧ s.built = false ∧ s.err = ⟨0, none, none, none⟩ ∧
    s.cs = [] ∧ s.mcr = [] ∧ s.trace = [] ∧ s.cfg = c ∧
    s.regs = ⟨0, 0, 0, 0, 0, 0, 0, 0, 0⟩ ∧ s.step.rj = 1 ∧ s.step.e = 0 ∧ s.step.called = false ∧
    s.stats = ⟨0, 0, none, none, none, none, none, 0, 0, 0, 0, 0⟩ ∧ s.time = ⟨0, 0, 0, 0⟩ ∧ s.clock = ⟨0, 0, 0, false⟩ ∧
    (∀ b, b < 65536 → s.byteAt .inputs b = 0 ∧ s.byteAt .outputs b = 0 ∧ s.byteAt .flags b = 0) ∧
    (∀ n d b, p.dataBlock n = some d → b < 65536 → s.byteAt (.db n) b = d.init.getD b 0) ∧
    (∀ i, s.cell .timer i = Config.tcmReset ∧ s.cell .counter i = Config.tcmReset) ∧
    s.timers.length = c.timerCount ∧ s.counters.length = c.counterCount) ∧
  State.reset.CleanEntry ∧ State.reset.Inv

/-- R35, R38, R41 to R43, R45, R47, R101, R420, R470, R480, R545, R550: every step leads from a legal state to a legal state. -/
def Obligations.InvStep : Prop := ∀ s t : State, s.Inv → step s = .next t → t.Inv

/-- R420, R421, R422, R576: a legal state always has a next state; the machine stops in no fault and no refusal of the model. -/
def Obligations.Progress : Prop := ∀ s : State, s.Inv → ∃ t, step s = .next t

/-- R117, R566, R502: no step writes the program, takes an event off the trace, or changes the three configuration fields that no setter names. -/
def Obligations.FixedParts : Prop :=
  ∀ s t : State, step s = .next t →
    t.prog = s.prog ∧ s.trace <+: t.trace ∧ t.cfg.msClockBits = s.cfg.msClockBits ∧ t.cfg.msWrapLead = s.cfg.msWrapLead ∧
      t.cfg.miValidate = s.cfg.miValidate

/-- R486, R487: in every state the reset state leads to, the average cycle time lies between the minimum and the maximum: the ordering holds at
reset and every step keeps it. -/
def Obligations.StatsOrdered : Prop :=
  State.reset.stats.Ordered ∧ ∀ s t : State, s.stats.Ordered → step s = .next t → t.stats.Ordered

/-- R536: the mode changes only along the listed transitions. -/
def Obligations.ModeMachine : Prop :=
  ∀ s t : State, s.Inv → step s = .next t → modeStep s.mode t.mode = true

/-- R549, R536: only the RESET command leaves FAULTED or MAINT, and it leads to UNINIT. -/
def Obligations.OnlyResetRecovers : Prop :=
  ∀ s t : State, s.Inv → s.mode = .faulted ∨ s.mode = .maint → step s = .next t → t.mode ≠ s.mode →
    s.phase = .idle ∧ s.Runs .reset ∧ t.mode = .uninit

/-- R312: the only writers of STW are STW_WRITE, CC_SET, a STORE to an STW operand, REG_WRITE of register 6, the commands that reset the
registers, and the copy-back of a pop to an STW actual, which is such a store. -/
def Obligations.StwWriters : Prop :=
  ∀ s t : State, step s = .next t → t.regs.stw ≠ s.regs.stw →
    (∃ i, s.Runs i ∧ ((∃ m v, i = .stwWrite m v) ∨ (∃ a1 a0 o, i = .ccSet a1 a0 o) ∨
      (∃ m d, i = .store m d ∧ s.StwOperand d) ∨ i = .regWrite 6 ∨ resetsRegisters i)) ∨
    (s.phase ≠ .idle ∧ s.body = none ∧ ∃ f b, s.top = some f ∧ s.codeOf f = some b ∧ f.cls = .fblike ∧ f.raw = false ∧
      ∃ k d fd, (k, d) ∈ f.params ∧ b.field k = some fd ∧ Field.copiedBack fd ∧
        ({ s with cs := s.cs.dropLast } : State).StwOperand d)

/-- R315, R316, R235, R331, R504: accumulators change only through REG_WRITE and the register resets, timer and counter cells only through TC_OP
and re-allocation. -/
def Obligations.AccuAndCellWriters : Prop :=
  ∀ s t : State, step s = .next t →
    ((t.regs.accu1, t.regs.accu2, t.regs.accu3, t.regs.accu4) ≠ (s.regs.accu1, s.regs.accu2, s.regs.accu3, s.regs.accu4) →
      ∃ i, s.Runs i ∧ ((∃ r, i = .regWrite r ∧ r.toNat < 4) ∨ resetsRegisters i)) ∧
    ((t.timers, t.counters) ≠ (s.timers, s.counters) →
      ∃ i, s.Runs i ∧ ((∃ sel idx op arg, i = .tcOp sel idx op arg) ∨ i = .reset ∨ ∃ p v, i = .configSet p v ∧ p.toNat ≤ 5))

/-- R510, R591: `NOW` changes only at STARTUP, at RUN_CYCLE, at a refresh point and at the end of a cycle, or when RESET clears it. -/
def Obligations.TimeWriters : Prop :=
  ∀ s t : State, step s = .next t → t.time.now ≠ s.time.now →
    (∃ i, s.Runs i ∧ (i = .startup ∨ i = .runCycle ∨ i = .reset)) ∨
    (s.phase ≠ .idle ∧ (s.stats.insnCount + 1).toNat % 64 = 0 ∧ ∃ run, s.body = some run ∧ run.insn.next run.replies = none) ∨
    (s.phase = .cycle ∧ s.body = none ∧ s.cs.length = 1)

/-- R545, R546: a step that ends the run with an error reports it as the reply, sets the mode by its kind and locates it; the built flag,
every statistic and the cycle count stay, the instruction count goes up only when a watchdog raised (R426), and no exit event follows. -/
def Obligations.FaultReport : Prop :=
  ∀ s t : State, s.Inv → s.phase ≠ .idle → step s = .next t → t.phase = .idle → t.err.kind ≠ 0 →
    t.reply = some (.failed t.err) ∧ t.body = none ∧ t.built = s.built ∧
    (((t.err.kind = 1 ∨ t.err.kind = 2 ∨ t.err.kind = 7) ∧ t.mode = .faulted) ∨
      (t.err.kind = 3 ∧ t.mode = .timefault) ∨ (t.err.kind = 4 ∧ t.mode = .maint)) ∧
    (s.body.isSome = true → t.err.loc = some s.step.loc) ∧
    (∀ f, s.body = none → s.top = some f → t.err.loc = some ⟨f.kind, f.num, f.ip⟩) ∧
    t.stats = { s.stats with insnCount := t.stats.insnCount } ∧
    (t.stats.insnCount = s.stats.insnCount ∨ (t.stats.insnCount = s.stats.insnCount + 1 ∧ (t.err.kind = 3 ∨ t.err.kind = 4))) ∧
    t.mcr = s.mcr ∧ t.timers = s.timers ∧ t.counters = s.counters ∧
    (t.trace = s.trace ∨ t.trace = s.trace ++ [.postInsn s.step.loc.kind s.step.loc.num s.step.loc.ip])

/-! ## Memory -/

/-- R105: a store in range followed by a fetch of the same place and width gives the value back, truncated to the width. -/
def Obligations.MemRoundTrip : Prop :=
  ∀ (s : State) (x : Area) (ba : Nat) (w : Width) (v : Data),
    s.mem.wf (resetByte s.prog) = true → rangeCheck (s.areaSize x) ba w = none →
      ∃ u : State, memWrite x ba w v s = .ok () u ∧ memRead x ba w u = .ok (BitVec.ofNat 48 (v.toNat % 2 ^ w.bits)) u

/-- R102, R103, R104: a write of `n` bytes puts the most significant first and leaves every other byte of every buffer alone; a one-bit write
changes its bit only; a read gives the big-endian number of its bytes, or its bit. -/
def Obligations.MemBytes : Prop :=
  ∀ (s u : State) (x : Area) (ba : Nat) (w : Width) (v : Data),
    s.mem.wf (resetByte s.prog) = true → memWrite x ba w v s = .ok () u →
      (w ≠ .w1 → ∀ i, i < w.bytes → u.byteAt x (ba / 8 + i) = v.extractLsb' (8 * (w.bytes - 1 - i)) 8) ∧
      (w = .w1 → ∀ j, j < 8 →
        (u.byteAt x (ba / 8)).getLsbD j = if j = ba % 8 then v.getLsbD 0 else (s.byteAt x (ba / 8)).getLsbD j) ∧
      (∀ y c, c < s.areaSize y → ¬ (y = x ∧ ba / 8 ≤ c ∧ c < ba / 8 + w.span) → u.byteAt y c = s.byteAt y c) ∧
      (w ≠ .w1 → memRead x ba w s =
        .ok (BitVec.ofNat 48 (∑ i ∈ Finset.range w.bytes, (s.byteAt x (ba / 8 + i)).toNat * 2 ^ (8 * (w.bytes - 1 - i)))) s) ∧
      (w = .w1 → memRead x ba w s = .ok (BitVec.ofNat 48 ((s.byteAt x (ba / 8)).getLsbD (ba % 8)).toNat) s)

/-- R101: the range check, in its order; an access that fails it reads nothing and writes nothing; one that passes it is made. -/
def Obligations.MemRangeCheck : Prop :=
  ∀ (s : State) (x : Area) (ba : Nat) (w : Width) (v : Data),
    (w = .w1 → 8 * s.areaSize x ≤ ba →
      memRead x ba w s = addrErr .outOfRange s ∧ memWrite x ba w v s = addrErr .outOfRange s) ∧
    (w ≠ .w1 → ba % 8 ≠ 0 → memRead x ba w s = addrErr .misaligned s ∧ memWrite x ba w v s = addrErr .misaligned s) ∧
    (w ≠ .w1 → ba % 8 = 0 → s.areaSize x < ba / 8 + w.bytes →
      memRead x ba w s = addrErr .outOfRange s ∧ memWrite x ba w v s = addrErr .outOfRange s) ∧
    ((w = .w1 ∧ ba < 8 * s.areaSize x) ∨ (w ≠ .w1 ∧ ba % 8 = 0 ∧ ba / 8 + w.bytes ≤ s.areaSize x) →
      (∃ r, memRead x ba w s = .ok r s) ∧ ∃ u : State, memWrite x ba w v s = .ok () u)

/-- R521, R522: from an initialised clock memory, bit `n` of the clock byte after `k` ticks is `(k div P[n]) mod 2`. -/
def Obligations.ClockBits : Prop :=
  ∀ (k next n : Nat), n < 8 →
    (tickMany k ⟨0, 0, next, true⟩).clk.getLsbD n = decide (k / [1, 2, 4, 5, 8, 10, 16, 20].getD n 1 % 2 = 1)

/-! ## Status register and register port -/

/-- R301, R302, R340: a fetch of a view gives the table's value of A1 and A0; exactly one of ==0, >0, <0 and UO is 1. -/
def Obligations.StatusViews : Prop :=
  (∀ (s : State) (f : Frame) (b : CodeBlock) (m : BitVec 5) (d : Descriptor) (v : StwView),
    s.Running f b → decodeDesc d = .ok (.direct (.prim (.stw .w1 v 0))) → widthAllowed m .w1 = true → v ≠ .raw →
      exec (.fetch m d) s = .next (s.answer (BitVec.ofNat 48 (viewTable v (s.regs.stw.getLsbD 7) (s.regs.stw.getLsbD 6)).toNat))) ∧
  ∀ stw : BitVec 9,
    (ccView stw .eq0).toNat + (ccView stw .gt0).toNat + (ccView stw .lt0).toNat + (ccView stw .uo).toNat = 1 ∧
    ccView stw .ne0 = !ccView stw .eq0 ∧ ccView stw .ge0 = (ccView stw .eq0 || ccView stw .gt0) ∧
    ccView stw .le0 = (ccView stw .eq0 || ccView stw .lt0)

/-- R310: STW_WRITE writes the bits of the mask and no other, and nothing but STW. -/
def Obligations.StwWriteMasked : Prop :=
  ∀ (s : State) (f : Frame) (b : CodeBlock) (mask val : BitVec 9), s.Running f b →
    ∃ x : BitVec 9,
      exec (.stwWrite mask val) s = .next (({ s with regs := { s.regs with stw := x } } : State).answer 0) ∧
      ∀ i, i < 9 → x.getLsbD i = if mask.getLsbD i then val.getLsbD i else s.regs.stw.getLsbD i

/-- R311: CC_SET writes A1, A0 and OV, makes OS sticky, and leaves FC, RLO, STA, OR and BR and everything else alone. -/
def Obligations.CcSetSticky : Prop :=
  ∀ (s : State) (f : Frame) (b : CodeBlock) (a1 a0 ovf : Bool), s.Running f b →
    ∃ x : BitVec 9,
      exec (.ccSet a1 a0 ovf) s = .next (({ s with regs := { s.regs with stw := x } } : State).answer 0) ∧
      x.getLsbD 7 = a1 ∧ x.getLsbD 6 = a0 ∧ x.getLsbD 5 = ovf ∧ x.getLsbD 4 = (s.regs.stw.getLsbD 4 || ovf) ∧
      ∀ i, i ∈ [0, 1, 2, 3, 8] → x.getLsbD i = s.regs.stw.getLsbD i

/-- R157, R315, R52: what REG_READ answers for each register code, and what it raises. -/
def Obligations.RegReadAnswers : Prop :=
  ∀ (s : State) (f : Frame) (b : CodeBlock), s.Running f b →
    exec (.regRead 0) s = .next (s.answer (s.regs.accu1.setWidth 48)) ∧
    exec (.regRead 1) s = .next (s.answer (s.regs.accu2.setWidth 48)) ∧
    (s.cfg.accuCount = .four → exec (.regRead 2) s = .next (s.answer (s.regs.accu3.setWidth 48)) ∧
      exec (.regRead 3) s = .next (s.answer (s.regs.accu4.setWidth 48))) ∧
    (s.cfg.accuCount = .two → exec (.regRead 2) s = .next (s.faultWith (.addr .noRegister) none) ∧
      exec (.regRead 3) s = .next (s.faultWith (.addr .noRegister) none)) ∧
    exec (.regRead 4) s = .next (s.answer (s.regs.ar1.setWidth 48)) ∧
    exec (.regRead 5) s = .next (s.answer (s.regs.ar2.setWidth 48)) ∧
    exec (.regRead 6) s = .next (s.answer (s.regs.stw.setWidth 48)) ∧
    exec (.regRead 7) s = .next (s.answer (s.regs.dbReg.setWidth 48)) ∧
    exec (.regRead 8) s = .next (s.answer (s.regs.diReg.setWidth 48)) ∧
    (s.time.msBase ≤ s.time.now → exec (.regRead 9) s = .next (s.answer
      (BitVec.ofInt 48 (((s.time.now : Int) - s.time.msBase) / 1000000 % 2 ^ s.cfg.msClockBits)))) ∧
    (∀ g, s.top = some g → exec (.regRead 10) s = .next (s.answer (BitVec.ofNat 48 g.ip))) ∧
    exec (.regRead 11) s = .next (s.answer (BitVec.ofNat 48 s.cs.length)) ∧
    ∀ r : BitVec 4, 12 ≤ r.toNat → exec (.regRead r) s = .next (s.faultWith (.exec .illegalCommand) none)

/-- R157, R316: what REG_WRITE writes for each register code, and what it raises. -/
def Obligations.RegWriteWrites : Prop :=
  ∀ (s : State) (f : Frame) (b : CodeBlock), s.Running f b →
    exec (.regWrite 0) s = .next (({ s with regs := { s.regs with accu1 := s.din.extractLsb' 0 32 } } : State).answer 0) ∧
    exec (.regWrite 1) s = .next (({ s with regs := { s.regs with accu2 := s.din.extractLsb' 0 32 } } : State).answer 0) ∧
    (s.cfg.accuCount = .four →
      exec (.regWrite 2) s = .next (({ s with regs := { s.regs with accu3 := s.din.extractLsb' 0 32 } } : State).answer 0) ∧
      exec (.regWrite 3) s = .next (({ s with regs := { s.regs with accu4 := s.din.extractLsb' 0 32 } } : State).answer 0)) ∧
    (s.cfg.accuCount = .two → exec (.regWrite 2) s = .next (s.faultWith (.addr .noRegister) none) ∧
      exec (.regWrite 3) s = .next (s.faultWith (.addr .noRegister) none)) ∧
    exec (.regWrite 4) s = .next (({ s with regs := { s.regs with ar1 := s.din.extractLsb' 0 32 } } : State).answer 0) ∧
    exec (.regWrite 5) s = .next (({ s with regs := { s.regs with ar2 := s.din.extractLsb' 0 32 } } : State).answer 0) ∧
    exec (.regWrite 6) s = .next (({ s with regs := { s.regs with stw := s.din.extractLsb' 0 9 } } : State).answer 0) ∧
    (∀ r : BitVec 4, 7 ≤ r.toNat → r.toNat ≤ 11 → exec (.regWrite r) s = .next (s.faultWith (.addr .readOnly) none)) ∧
    ∀ r : BitVec 4, 12 ≤ r.toNat → exec (.regWrite r) s = .next (s.faultWith (.exec .illegalCommand) none)

/-- R320: OPEN_DB, with `SEL` in bit 48 and `NUM` in bits 47 to 32, writes the register it names; block 0 is allowed, an absent block is
MISSING_DB and leaves the register. -/
def Obligations.OpenDbWritesRegister : Prop :=
  ∀ (s : State) (f : Frame) (b : CodeBlock) (n : BlockNum), s.Running f b →
    ((n = 0 ∨ s.prog.hasDb n = true) →
      exec (.openDb false n) s = .next (({ s with regs := { s.regs with dbReg := n } } : State).answer 0) ∧
      exec (.openDb true n) s = .next (({ s with regs := { s.regs with diReg := n } } : State).answer 0)) ∧
    (n ≠ 0 → s.prog.hasDb n = false → ∀ sel, exec (.openDb sel n) s = .next (s.faultWith (.addr .missingDb) none)) ∧
    ∀ sel : Bool, decode [BitVec.ofNat 64 (0x12 * 2 ^ 56 + sel.toNat * 2 ^ 48 + n.toNat * 2 ^ 32)] = .ok (.openDb sel n, [])

/-- R330, R331: TC_OP applies the cell model's step, at the last clock reading, to the cell it names and answers the result; an index past the
configured count is MISSING_TC. -/
def Obligations.TcOpStepsCell : Prop :=
  ∀ (s : State) (f : Frame) (b : CodeBlock) (idx : BitVec 16) (op : BitVec 8) (arg : BitVec 16), s.Running f b →
    (idx.toNat < s.cfg.timerCount →
      let r := Config.tcmStep .timer op (s.timers.getD idx.toNat Config.tcmReset) s.time.now arg
      exec (.tcOp false idx op arg) s =
        .next (({ s with timers := s.timers.set idx.toNat r.1 } : State).answer (r.2.setWidth 48))) ∧
    (idx.toNat < s.cfg.counterCount →
      let r := Config.tcmStep .counter op (s.counters.getD idx.toNat Config.tcmReset) s.time.now arg
      exec (.tcOp true idx op arg) s =
        .next (({ s with counters := s.counters.set idx.toNat r.1 } : State).answer (r.2.setWidth 48))) ∧
    ((s.cfg.timerCount : Nat) ≤ idx.toNat →
      exec (.tcOp false idx op arg) s = .next (s.faultWith (.addr .missingTc) none)) ∧
    ((s.cfg.counterCount : Nat) ≤ idx.toNat →
      exec (.tcOp true idx op arg) s = .next (s.faultWith (.addr .missingTc) none))

/-! ## Control -/

/-- R430, R431, R432, R433: the three jumps set `RJ` and nothing else; an absent label is UNKNOWN_LABEL; when the body then ends, the pointer of
the frame is at the distance, at the label, or at the end of the block. -/
def Obligations.JumpsSetTheAdvance : Prop :=
  ∀ (s : State) (f : Frame) (b : CodeBlock), s.Running f b →
    (∀ imm : BitVec 32,
      exec (.jumpRel imm) s = .next (({ s with step := { s.step with rj := imm.toInt } } : State).answer 0)) ∧
    (∀ (l : BitVec 32) (i : Nat), b.labels.lookup l = some i →
      exec (.jumpLabel l) s = .next (({ s with step := { s.step with rj := (i : Int) - f.ip } } : State).answer 0)) ∧
    (∀ l : BitVec 32, b.labels.lookup l = none →
      exec (.jumpLabel l) s = .next (s.faultWith (.exec .unknownLabel) none)) ∧
    exec .blockEnd s = .next (({ s with step := { s.step with rj := (b.insns.length : Int) - f.ip } } : State).answer 0) ∧
    ∀ (run : BodyRun) (i : Instr) (target : Nat),
      s.body = some run → run.insn.next (run.replies ++ [0]) = none → (s.stats.insnCount + 1).toNat % 64 ≠ 0 →
      ((∃ imm : BitVec 32, i = .jumpRel imm ∧ (target : Int) = f.ip + imm.toInt) ∨
        (∃ l, i = .jumpLabel l ∧ b.labels.lookup l = some target) ∨ (i = .blockEnd ∧ target = b.insns.length)) →
        ∃ t u : State, exec i s = .next t ∧ step t = .next u ∧ u.cs = s.cs.set s.step.e { f with ip := target }

/-- R440, R441, R445, R446, R447: the parenthesis stack of the frame and the MCR stack are last in, first out, hold at most seven and eight
entries, and raise at their ends; an empty MCR stack reports 1. -/
def Obligations.ParenAndMcrStacks : Prop :=
  ∀ (s : State) (f : Frame) (b : CodeBlock), s.Running f b →
    (∀ e : BitVec 16, f.paren.length < 7 → exec (.parenPush e) s =
      .next (({ s with cs := s.cs.set s.step.e { f with paren := f.paren ++ [e] } } : State).answer 0)) ∧
    (∀ e : BitVec 16, 7 ≤ f.paren.length → exec (.parenPush e) s = .next (s.faultWith (.call .parenOvf) none)) ∧
    (∀ (p : List (BitVec 16)) (e : BitVec 16), f.paren = p ++ [e] → exec .parenPop s =
      .next (({ s with cs := s.cs.set s.step.e { f with paren := p } } : State).answer (e.setWidth 48))) ∧
    (f.paren = [] → exec .parenPop s = .next (s.faultWith (.call .parenUnf) none)) ∧
    (∀ x : Bool, s.mcr.length < 8 → exec (.mcrPush x) s = .next (({ s with mcr := s.mcr ++ [x] } : State).answer 0)) ∧
    (∀ x : Bool, 8 ≤ s.mcr.length → exec (.mcrPush x) s = .next (s.faultWith (.call .mcrOvf) none)) ∧
    (∀ (p : List Bool) (x : Bool), s.mcr = p ++ [x] →
      exec .mcrPop s = .next (({ s with mcr := p } : State).answer (BitVec.ofNat 48 x.toNat)) ∧
      exec .mcrState s = .next (s.answer (BitVec.ofNat 48 x.toNat))) ∧
    (s.mcr = [] → exec .mcrPop s = .next (s.faultWith (.call .mcrUnf) none) ∧ exec .mcrState s = .next (s.answer 1))

/-! ## Operands -/

/-- R200, R201, R211 to R215, R231, R232, R101: FETCH and STORE of a region, of local data or of an open data block read and write the place
in its buffer, the value truncated to the width; out of range or misaligned they raise and do nothing. -/
def Obligations.AccessBuffers : Prop :=
  ∀ (s : State) (f : Frame) (b : CodeBlock) (m : BitVec 5) (d : Descriptor) (p : Prim) (x : Area) (w : Width) (ba : BitAddr),
    s.Running f b → decodeDesc d = .ok (.direct (.prim p)) → widthAllowed m w = true → s.Reaches p x w ba →
      (rangeCheck (s.areaSize x) ba.toNat w = none →
        exec (.fetch m d) s = .next (s.answer (s.readVal x ba.toNat w)) ∧
        exec (.store m d) s =
          .next ((s.writeVal x ba.toNat w (BitVec.ofNat 48 (s.din.toNat % 2 ^ w.bits))).answer 0)) ∧
      ∀ r, rangeCheck (s.areaSize x) ba.toNat w = some r →
        exec (.fetch m d) s = .next (s.faultWith (.addr r) (some d)) ∧
        exec (.store m d) s = .next (s.faultWith (.addr r) (some d))

/-- R230, R231, R232, R215, R38: a qualified data-block operand opens its register first, and the register stays open when the access then
faults; an absent block, a null register and a missing parent raise and change nothing. -/
def Obligations.QualifiedOpen : Prop :=
  ∀ (s : State) (f : Frame) (b : CodeBlock) (m : BitVec 5) (d : Descriptor) (w : Width) (ba : BitAddr) (p : Prim),
    s.Running f b → decodeDesc d = .ok (.direct (.prim p)) → widthAllowed m w = true →
      (∀ (n : BlockNum) (u : State), s.prog.hasDb n = true →
        ((p = .db w (some n) ba ∧ u = { s with regs := { s.regs with dbReg := n } }) ∨
          (p = .di w (some n) ba ∧ u = { s with regs := { s.regs with diReg := n } })) →
        (rangeCheck (s.areaSize (.db n)) ba.toNat w = none →
          exec (.fetch m d) s = .next (u.answer (s.readVal (.db n) ba.toNat w)) ∧
          exec (.store m d) s =
            .next ((u.writeVal (.db n) ba.toNat w (BitVec.ofNat 48 (s.din.toNat % 2 ^ w.bits))).answer 0)) ∧
        ∀ r, rangeCheck (s.areaSize (.db n)) ba.toNat w = some r →
          exec (.fetch m d) s = .next (u.faultWith (.addr r) (some d)) ∧
          exec (.store m d) s = .next (u.faultWith (.addr r) (some d))) ∧
      ((∃ n, s.prog.hasDb n = false ∧ (p = .db w (some n) ba ∨ p = .di w (some n) ba)) ∨
        (s.prog.hasDb s.regs.dbReg = false ∧ p = .db w none ba) ∨ (s.prog.hasDb s.regs.diReg = false ∧ p = .di w none ba) →
        exec (.fetch m d) s = .next (s.faultWith (.addr .missingDb) (some d)) ∧
        exec (.store m d) s = .next (s.faultWith (.addr .missingDb) (some d))) ∧
      (s.cs.length < 2 → p = .parentLoc w ba →
        exec (.fetch m d) s = .next (s.faultWith (.addr .missingParent) (some d)) ∧
        exec (.store m d) s = .next (s.faultWith (.addr .missingParent) (some d)))

/-- R210, R235, R236, R245, R246, R247: what a FETCH of an immediate, the status register, an address register, a block reference, a timer or a
counter answers; a cell past the configured count is MISSING_TC. -/
def Obligations.FetchValues : Prop :=
  ∀ (s : State) (f : Frame) (b : CodeBlock) (m : BitVec 5) (d : Descriptor) (p : Prim),
    s.Running f b → decodeDesc d = .ok (.direct (.prim p)) → widthAllowed m (Prim.width p) = true →
      (∀ w v, p = .imm w v → exec (.fetch m d) s = .next (s.answer v)) ∧
      (∀ i, p = .stw .w1 .raw i → exec (.fetch m d) s = .next (s.answer (BitVec.ofNat 48 (s.regs.stw.getLsbD i.val).toNat))) ∧
      (∀ i, p = .stw .w16 .raw i → exec (.fetch m d) s = .next (s.answer (s.regs.stw.setWidth 48))) ∧
      (p = .ar .w32 .ar1 → exec (.fetch m d) s = .next (s.answer (s.regs.ar1.setWidth 48))) ∧
      (p = .ar .w32 .ar2 → exec (.fetch m d) s = .next (s.answer (s.regs.ar2.setWidth 48))) ∧
      (∀ k n, p = .blk .w16 k n → exec (.fetch m d) s = .next (s.answer (n.setWidth 48))) ∧
      (∀ (i : BitVec 16) (c : Cell),
        ((i.toNat < s.cfg.timerCount ∧ c = s.timers.getD i.toNat Config.tcmReset ∧
            ∃ w o, p = .timer w o i) ∨
          (i.toNat < s.cfg.counterCount ∧ c = s.counters.getD i.toNat Config.tcmReset ∧
            ∃ w o, p = .counter w o i)) →
        ((p = .timer .w1 false i ∨ p = .counter .w1 false i) →
          exec (.fetch m d) s = .next (s.answer ((Config.tcmState c).setWidth 48))) ∧
        ((p = .timer .w16 false i ∨ p = .counter .w16 false i) →
          exec (.fetch m d) s = .next (s.answer ((Config.tcmValue c).setWidth 48))) ∧
        ((p = .timer .w16 true i ∨ p = .counter .w16 true i) →
          exec (.fetch m d) s = .next (s.answer ((Config.tcmBcd c).setWidth 48)))) ∧
      ∀ (i : BitVec 16) (o : Bool) (w : Width), (w = .w16 ∨ (w = .w1 ∧ o = false)) →
        (((s.cfg.timerCount : Nat) ≤ i.toNat ∧ p = .timer w o i) ∨
          ((s.cfg.counterCount : Nat) ≤ i.toNat ∧ p = .counter w o i)) →
        exec (.fetch m d) s = .next (s.faultWith (.addr .missingTc) (some d))

/-- R204, R245, R246, R303: a STORE to a bit or the whole of STW or to an address register writes exactly it; immediates, cells, block references,
views and the peripheral input side are read-only; the peripheral output side is write-only. -/
def Obligations.StoreOthers : Prop :=
  ∀ (s : State) (f : Frame) (b : CodeBlock) (m : BitVec 5) (d : Descriptor) (p : Prim),
    s.Running f b → decodeDesc d = .ok (.direct (.prim p)) → widthAllowed m (Prim.width p) = true →
      (∀ i, p = .stw .w1 .raw i → ∃ x : BitVec 9,
        exec (.store m d) s = .next (({ s with regs := { s.regs with stw := x } } : State).answer 0) ∧
        ∀ j, j < 9 → x.getLsbD j = if j = i.val then s.din.getLsbD 0 else s.regs.stw.getLsbD j) ∧
      (∀ i, p = .stw .w16 .raw i → exec (.store m d) s =
        .next (({ s with regs := { s.regs with stw := s.din.extractLsb' 0 9 } } : State).answer 0)) ∧
      (p = .ar .w32 .ar1 → exec (.store m d) s =
        .next (({ s with regs := { s.regs with ar1 := s.din.extractLsb' 0 32 } } : State).answer 0)) ∧
      (p = .ar .w32 .ar2 → exec (.store m d) s =
        .next (({ s with regs := { s.regs with ar2 := s.din.extractLsb' 0 32 } } : State).answer 0)) ∧
      ((∃ w v, p = .imm w v) ∨ (∃ i, p = .timer .w1 false i ∨ p = .counter .w1 false i) ∨
        (∃ o i, p = .timer .w16 o i ∨ p = .counter .w16 o i) ∨ (∃ k n, p = .blk .w16 k n) ∨
        (∃ v i, v ≠ .raw ∧ p = .stw .w1 v i) ∨ (∃ w ba, (w = .w8 ∨ w = .w16 ∨ w = .w32) ∧ p = .periph w false ba) →
        exec (.store m d) s = .next (s.faultWith (.addr .readOnly) (some d))) ∧
      ∀ w ba, (w = .w8 ∨ w = .w16 ∨ w = .w32) → p = .periph w true ba →
        exec (.fetch m d) s = .next (s.faultWith (.addr .writeOnly) (some d))

/-- R202: a width that a handler does not accept is WIDTH_MISMATCH in both directions, although the allowed set admits it. -/
def Obligations.HandlerWidths : Prop :=
  ∀ (s : State) (f : Frame) (b : CodeBlock) (m : BitVec 5) (d : Descriptor) (p : Prim),
    s.Running f b → decodeDesc d = .ok (.direct (.prim p)) → widthAllowed m (Prim.width p) = true →
    (∃ w o i, (p = .timer w o i ∨ p = .counter w o i) ∧ w ≠ .w16 ∧ ¬ (w = .w1 ∧ o = false)) ∨
      (∃ w o ba, p = .periph w o ba ∧ w ≠ .w8 ∧ w ≠ .w16 ∧ w ≠ .w32) ∨
      (∃ w v i, p = .stw w v i ∧ w ≠ .w1 ∧ (v = .raw → w ≠ .w16)) ∨
      (∃ w n, p = .ar w n ∧ w ≠ .w32) ∨ (∃ w k n, p = .blk w k n ∧ w ≠ .w16) →
      exec (.fetch m d) s = .next (s.faultWith (.addr .widthMismatch) (some d)) ∧
      exec (.store m d) s = .next (s.faultWith (.addr .widthMismatch) (some d))

/-- R280: with an allowed set that is not empty and lacks the operand's width, FETCH and STORE raise WIDTH_MISMATCH, for every operand. -/
def Obligations.WidthNotAllowed : Prop :=
  ∀ (s : State) (f : Frame) (b : CodeBlock) (m : BitVec 5) (d : Descriptor) (D : Desc),
    s.Running f b → decodeDesc d = .ok D → m ≠ 0 → m.getLsbD (encodeWidth (Desc.width D)) = false →
      exec (.fetch m d) s = .next (s.faultWith (.addr .widthMismatch) (some d)) ∧
      exec (.store m d) s = .next (s.faultWith (.addr .widthMismatch) (some d))

/-- R240, R241, R242: a peripheral fetch calls the read callback once, gives the big-endian value of its bytes and mirrors them when they lie inside
the input region; a store mirrors inside the output region, then calls the write callback; a failed callback is PERIPHERAL_FAIL and the
output mirror stays; a bit address that is not a byte address is MISALIGNED with no call. -/
def Obligations.PeripheralAccess : Prop :=
  ∀ (s : State) (f : Frame) (b : CodeBlock) (m : BitVec 5) (d : Descriptor) (w : Width) (out : Bool) (ba : BitAddr),
    s.Running f b → decodeDesc d = .ok (.direct (.prim (.periph w out ba))) → widthAllowed m w = true →
    (w = .w8 ∨ w = .w16 ∨ w = .w32) →
      (ba.toNat % 8 ≠ 0 →
        (out = false → exec (.fetch m d) s = .next (s.faultWith (.addr .misaligned) (some d))) ∧
        (out = true → exec (.store m d) s = .next (s.faultWith (.addr .misaligned) (some d)))) ∧
      (out = false → ba.toNat % 8 = 0 → ∀ (u : State),
        u = { s with env := { s.env with
          periphReads := s.env.periphReads.tail
          periphCalls := s.env.periphCalls ++ [⟨false, 0, w.bits, ba.toNat / 8, []⟩] } } →
        (∀ bs, s.env.periphReads.head? = some (some bs) → bs.length = w.bytes →
          (ba.toNat / 8 + w.bytes ≤ s.cfg.inputSize →
            exec (.fetch m d) s = .next ((u.writeBytes .inputs (ba.toNat / 8) bs).answer (BitVec.ofNat 48 (beNat bs)))) ∧
          ((s.cfg.inputSize : Nat) < ba.toNat / 8 + w.bytes →
            exec (.fetch m d) s = .next (u.answer (BitVec.ofNat 48 (beNat bs))))) ∧
        ((∀ bs, s.env.periphReads.head? = some (some bs) → bs.length ≠ w.bytes) →
          exec (.fetch m d) s = .next (u.faultWith (.addr .peripheralFail) (some d)))) ∧
      (out = true → ba.toNat % 8 = 0 → ∀ (bs : List Byte) (t u : State),
        bs = beBytes w.bytes (BitVec.ofNat 48 (s.din.toNat % 2 ^ w.bits)) →
        t = (if ba.toNat / 8 + w.bytes ≤ s.cfg.outputSize then s.writeBytes .outputs (ba.toNat / 8) bs else s) →
        u = { t with env := { s.env with
          periphWrites := s.env.periphWrites.tail
          periphCalls := s.env.periphCalls ++ [⟨true, 1, w.bits, ba.toNat / 8, bs⟩] } } →
        (s.env.periphWrites.head? = some true → exec (.store m d) s = .next (u.answer 0)) ∧
        (s.env.periphWrites.head? ≠ some true →
          exec (.store m d) s = .next (u.faultWith (.addr .peripheralFail) (some d))))

/-- R260 to R264, R270: FETCH and STORE of a named interface field act on the place it resolves to, with the descriptor's width. -/
def Obligations.FieldBuffers : Prop :=
  ∀ (s : State) (f g : Frame) (b cb : CodeBlock) (m : BitVec 5) (d : Descriptor) (w : Width) (k : BitVec 16) (sub : BitAddr)
    (fd : Field) (x : Area) (a : Nat),
    s.Running f b → decodeDesc d = .ok (.direct (.field w k sub)) → widthAllowed m w = true →
    s.top = some g → s.codeOf g = some cb → cb.field k = some fd → s.FieldReaches g k fd sub.toNat x a →
      (rangeCheck (s.areaSize x) a w = none →
        exec (.fetch m d) s = .next (s.answer (s.readVal x a w)) ∧
        exec (.store m d) s = .next ((s.writeVal x a w (BitVec.ofNat 48 (s.din.toNat % 2 ^ w.bits))).answer 0)) ∧
      ∀ r, rangeCheck (s.areaSize x) a w = some r →
        exec (.fetch m d) s = .next (s.faultWith (.addr r) (some d)) ∧
        exec (.store m d) s = .next (s.faultWith (.addr r) (some d))

/-- R260, R262, R263, R264, R266, R270: a field bound to a live P, T, C, STW, AR or BLK operand acts on that operand with the field's width; a
sub-offset that moves a bound region operand to bit `2^19`, or that stands on an operand that cannot be moved, is BAD_POINTER; a bound data
block that is absent is MISSING_DB and a bound frame that is gone MISSING_PARENT; an aggregate whose stored pointer cannot be read raises the
range check's reason, one that names block 0 or an absent block MISSING_DB, one whose sum reaches `2^19` BAD_POINTER; a field bound to a
constant reads as it and is read-only; an absent field, a field of an OB other than TEMP, and a STAT field of an FC are NO_FIELD; an unbound
field or any bound field of a raw FC frame is NO_BINDING; a field of an FB with no instance block is MISSING_DB. -/
def Obligations.FieldOthers : Prop :=
  ∀ (s : State) (f g : Frame) (b cb : CodeBlock) (m : BitVec 5) (d : Descriptor) (w : Width) (k : BitVec 16) (sub : BitAddr),
    s.Running f b → decodeDesc d = .ok (.direct (.field w k sub)) → widthAllowed m w = true →
    s.top = some g → s.codeOf g = some cb →
      (∀ fd cw v, cb.field k = some fd → fd.dir ≠ .temp → fd.dir ≠ .stat → g.kind ≠ .ob → g.cls = .fclike → g.raw = false →
        g.bind.lookup k = some (.const cw v) →
          (sub = 0 → exec (.fetch m d) s = .next (s.answer (BitVec.ofNat 48 (v.toNat % 2 ^ w.bits))) ∧
            exec (.store m d) s = .next (s.faultWith (.addr .readOnly) (some d))) ∧
          (sub ≠ 0 → exec (.fetch m d) s = .next (s.faultWith (.addr .badPointer) (some d)) ∧
            exec (.store m d) s = .next (s.faultWith (.addr .badPointer) (some d)))) ∧
      ((cb.field k = none ∨ (∃ fd, cb.field k = some fd ∧ fd.dir ≠ .temp ∧
          (g.kind = .ob ∨ (g.cls = .fclike ∧ fd.dir = .stat)))) →
        exec (.fetch m d) s = .next (s.faultWith (.addr .noField) (some d)) ∧
        exec (.store m d) s = .next (s.faultWith (.addr .noField) (some d))) ∧
      (∀ fd, cb.field k = some fd → fd.dir ≠ .temp → fd.dir ≠ .stat → g.kind ≠ .ob → g.cls = .fclike →
        (g.raw = true ∨ g.bind.lookup k = none) →
          exec (.fetch m d) s = .next (s.faultWith (.addr .noBinding) (some d)) ∧
          exec (.store m d) s = .next (s.faultWith (.addr .noBinding) (some d))) ∧
      (∀ fd, cb.field k = some fd → fd.dir ≠ .temp → g.kind ≠ .ob → g.cls = .fblike → s.prog.hasDb s.regs.diReg = false →
        exec (.fetch m d) s = .next (s.faultWith (.addr .missingDb) (some d)) ∧
        exec (.store m d) s = .next (s.faultWith (.addr .missingDb) (some d))) ∧
      (∀ fd p, cb.field k = some fd → g.BoundTo k fd (.loc p) →
        (∀ q, LiveOperand p w sub.toNat q → s.FetchesAs s m d q ∧ s.StoresAs s m d q) ∧
        ((∃ ba, Prim.movable p = some ba ∧ 2 ^ 19 ≤ ba.toNat + sub.toNat) ∨ (Prim.unmovable p = true ∧ sub ≠ 0) →
          s.BothRaise s m d .badPointer)) ∧
      (∀ fd, cb.field k = some fd →
        (∀ n ba, g.BoundTo k fd (.dbLoc n ba) → s.prog.hasDb n = false → s.BothRaise s m d .missingDb) ∧
        ∀ j ba, g.BoundTo k fd (.frameLocal j ba) → s.cs.length ≤ j → s.BothRaise s m d .missingParent) ∧
      ∀ fd ptr, cb.field k = some fd → fd.dir ≠ .temp → fd.dir ≠ .stat → fd.agg = true → g.kind ≠ .ob → g.cls = .fblike →
        s.prog.hasDb s.regs.diReg = true → ptr = s.readVal (.db s.regs.diReg) (g.instBase + fd.off.toNat) .w48 →
          (∀ r, rangeCheck (s.areaSize (.db s.regs.diReg)) (g.instBase + fd.off.toNat) .w48 = some r → s.BothRaise s m d r) ∧
          (rangeCheck (s.areaSize (.db s.regs.diReg)) (g.instBase + fd.off.toNat) .w48 = none →
            ((ptr.extractLsb' 32 16 = 0 ∨ s.prog.hasDb (ptr.extractLsb' 32 16) = false) → s.BothRaise s m d .missingDb) ∧
            (s.prog.hasDb (ptr.extractLsb' 32 16) = true → 2 ^ 19 ≤ (ptr.extractLsb' 0 19).toNat + sub.toNat →
              s.BothRaise s m d .badPointer))

/-- R250, R251, R252, R37: an indirect access fetches its pointer in full, adds the displacement, and acts on the area the target or the pointer
names, the peripheral side of an area-crossing pointer by the direction; a malformed area-crossing pointer and a sum of `2^19` are BAD_POINTER
after the inner fetch, an inner operand that is not 32 bits wide BAD_INDIRECT before it; a timer, a counter or a block reference is selected
by a 16-bit number, and an inner operand of another width is BAD_INDIRECT; a raise of the inner fetch is the access's. -/
def Obligations.IndirectAccess : Prop :=
  ∀ (s : State) (f : Frame) (b : CodeBlock) (m : BitVec 5) (d : Descriptor) (w : Width) (tgt : IndTarget) (disp : BitAddr)
    (inner : Operand),
    s.Running f b → decodeDesc d = .ok (.ind w tgt disp inner) → widthAllowed m w = true →
      (∀ (v : Data) (u : State) (x : Area), Operand.width inner = .w32 → fetchOperand inner s = .ok v u → u.PointerReaches tgt v x →
        ((v.extractLsb' 0 19).toNat + disp.toNat < 2 ^ 19 →
          (rangeCheck (u.areaSize x) ((v.extractLsb' 0 19).toNat + disp.toNat) w = none →
            exec (.fetch m d) s = .next (u.answer (u.readVal x ((v.extractLsb' 0 19).toNat + disp.toNat) w)) ∧
            exec (.store m d) s = .next ((u.writeVal x ((v.extractLsb' 0 19).toNat + disp.toNat) w
              (BitVec.ofNat 48 (s.din.toNat % 2 ^ w.bits))).answer 0)) ∧
          ∀ r, rangeCheck (u.areaSize x) ((v.extractLsb' 0 19).toNat + disp.toNat) w = some r →
            exec (.fetch m d) s = .next (u.faultWith (.addr r) (some d)) ∧
            exec (.store m d) s = .next (u.faultWith (.addr r) (some d))) ∧
        (2 ^ 19 ≤ (v.extractLsb' 0 19).toNat + disp.toNat →
          exec (.fetch m d) s = .next (u.faultWith (.addr .badPointer) (some d)) ∧
          exec (.store m d) s = .next (u.faultWith (.addr .badPointer) (some d)))) ∧
      (Operand.width inner ≠ .w32 → (tgt = .input ∨ tgt = .output ∨ tgt = .flag ∨ tgt = .loc ∨ tgt = .db ∨ tgt = .di ∨
          tgt = .parentLoc ∨ tgt = .crossing ∨ ∃ o, tgt = .periph o) →
        exec (.fetch m d) s = .next (s.faultWith (.addr .badIndirect) (some d)) ∧
        exec (.store m d) s = .next (s.faultWith (.addr .badIndirect) (some d))) ∧
      (∀ (v : Data) (u : State), Operand.width inner = .w32 → fetchOperand inner s = .ok v u → IndTarget.byPointer tgt = true →
        (tgt = .crossing → ¬ CrossingForm v → s.BothRaise u m d .badPointer) ∧
        ((tgt = .crossing → CrossingForm v) → 2 ^ 19 ≤ (v.extractLsb' 0 19).toNat + disp.toNat → s.BothRaise u m d .badPointer) ∧
        ((v.extractLsb' 0 19).toNat + disp.toNat < 2 ^ 19 → ∀ q,
          (PointerSelects tgt v .fetch w (BitVec.ofNat 19 ((v.extractLsb' 0 19).toNat + disp.toNat)) q → s.FetchesAs u m d q) ∧
          (PointerSelects tgt v .store w (BitVec.ofNat 19 ((v.extractLsb' 0 19).toNat + disp.toNat)) q → s.StoresAs u m d q))) ∧
      (Operand.width inner ≠ .w16 → IndTarget.byPointer tgt = false → s.BothRaise s m d .badIndirect) ∧
      (∀ (v : Data) (u : State) (q : Prim), Operand.width inner = .w16 → fetchOperand inner s = .ok v u → NumberSelects tgt v w q →
        s.FetchesAs u m d q ∧ s.StoresAs u m d q) ∧
      ∀ (x : Raise) (u : State), Operand.width inner = (if IndTarget.byPointer tgt then .w32 else .w16) →
        fetchOperand inner s = .err x u →
          exec (.fetch m d) s = .next (u.faultWith x.cause (some d)) ∧ exec (.store m d) s = .next (u.faultWith x.cause (some d))

/-- R110, R200, R201, R206, R230, R241, R242, R250, R260: whatever its operand, an access that completes changes only what its operand names. Of
memory and local data: a FETCH the bytes that a peripheral fetch of the operand, or of its inner operand, mirrors; a STORE those bytes of the
inner operand and the bytes of the place the resolved operand names, none for an operand that stores to no buffer (STW, AR). Of registers: DB
or DI where a qualified operand opens it, STW and an address register where a STORE's operand is one. The host's answers and calls change only
with a peripheral operand. -/
def Obligations.AccessFrame : Prop :=
  ∀ (s t : State) (f : Frame) (b : CodeBlock) (m : BitVec 5) (d : Descriptor),
    s.Running f b → s.mem.wf (resetByte s.prog) = true → t.phase ≠ .idle →
      (exec (.fetch m d) s = .next t → ∃ D o u, decodeDesc d = .ok D ∧ resolveDesc .fetch D s = .ok o u ∧
        (∃ v, t.body = s.body.map fun r => { r with replies := r.replies ++ [v] }) ∧
        t.fetchRest = ({ s with body := t.body } : State).fetchRest ∧
        (∀ y c, c < 65536 → (∀ i, Desc.inner D = some i → ¬ s.Mirrored i y c) → ¬ u.Mirrored o y c → t.byteAt y c = s.byteAt y c) ∧
        (∀ di, (∀ i, Desc.inner D = some i → ¬ s.Opens i di) → ¬ u.Opens o di → t.blockReg di = s.blockReg di) ∧
        ((∀ i, Desc.inner D = some i → ¬ s.Peripheral i) → ¬ u.Peripheral o → t.env = s.env)) ∧
      (exec (.store m d) s = .next t → ∃ D o u, decodeDesc d = .ok D ∧ resolveDesc .store D s = .ok o u ∧
        (t.body = s.body.map fun r => { r with replies := r.replies ++ [0] }) ∧
        t.rest = ({ s with body := t.body } : State).rest ∧ t.localSizes = s.localSizes ∧
        (∀ y c, c < 65536 → (∀ i, Desc.inner D = some i → ¬ s.Mirrored i y c) → ¬ u.Stored o y c → t.byteAt y c = s.byteAt y c) ∧
        (∀ di, (∀ i, Desc.inner D = some i → ¬ s.Opens i di) → ¬ u.Opens o di → t.blockReg di = s.blockReg di) ∧
        ((∀ w k i, u.finalPrim o ≠ some (.stw w k i)) → t.regs.stw = s.regs.stw) ∧
        (∀ n, (∀ w, u.finalPrim o ≠ some (.ar w n)) → t.ar n = s.ar n) ∧
        ((∀ i, Desc.inner D = some i → ¬ s.Peripheral i) → ¬ u.Peripheral o → t.env = s.env))

/-! ## Calls -/

/-- R353, R354, R356, R360, R366, R370, R376, R380, R381: a call of a function whose parameters are accepted and can be bound pushes a fresh frame with those
bindings; registers other than those an actual's data-block number opens are untouched. -/
def Obligations.CallFcPushesFrame : Prop :=
  ∀ (s u : State) (f : Frame) (b cb : CodeBlock) (t : Descriptor) (pl : List Param) (w : Width) (n : BlockNum)
    (bs : List (BitVec 16 × Binding)) (sys : Bool),
    s.Running f b → decodeDesc t = .ok (.direct (.prim (.blk w (.code (if sys then .sfc else .fc)) n))) →
    s.prog.code (if sys then .sfc else .fc) n = some cb → ParamsOk cb pl → bindParams cb pl s = .ok bs u →
      ∃ locals : List Byte, locals.length = cb.tempSize ∧
        exec (if sys then .callFcSys 0 t pl else .callFc 0 t pl) s =
          .next ((u.entered ⟨if sys then .sfc else .fc, n, 0, locals, [], bs, [], false, .fclike, 0, 0, none⟩
            u.regs.dbReg u.regs.diReg).answer 0)

/-- R363, R364, R365, R366: what one parameter of a call leaves or raises, for every form of its actual. A function records the binding of the
actual: direct, indirect (resolved by the parameter's direction), qualified (its register opened first), or a field of the caller passed on. A
function block copies an IN or INOUT value into the instance; it records an OUT parameter and copies nothing; for an aggregate it stores the
pointer to the place of a data-block actual, direct, qualified or indirect. Which operand the error record names is left open
(notes/assumptions/16.md). -/
def Obligations.CallParameters : Prop :=
  ∀ (s : State) (f : Frame) (b cb : CodeBlock) (t d : Descriptor) (k : Word) (fd : Field) (w : Width) (n : BlockNum) (K : BlockKind)
    (i : Instr),
    s.Running f b → bits k 16 48 = 0 → cb.field (bits k 0 16) = some fd → (fd.dir = .input ∨ fd.dir = .output ∨ fd.dir = .inout) →
    DirectRow i K t [⟨k, d⟩] → decodeDesc t = .ok (.direct (.prim (.blk w (.code K) n))) → s.prog.code K n = some cb →
      (K = .fc ∨ K = .sfc →
        (∀ e, decodeDesc d = .error e → ∃ o, exec i s = .next (s.faultWith (.addr (descReason e)) o)) ∧
        ∀ D, decodeDesc d = .ok D →
          (∀ y u, s.BindsActual fd D y u →
            ∃ locals : List Byte, locals.length = cb.tempSize ∧
              exec i s = .next ((u.entered ⟨K, n, 0, locals, [], [(bits k 0 16, y)], [], false, .fclike, 0, 0, none⟩
                u.regs.dbReg u.regs.diReg).answer 0)) ∧
          ∀ c u, s.BindRaises fd D c u → ∃ o, exec i s = .next (u.faultWith c o)) ∧
      ∀ (inst : BlockNum) (base : Nat) (u : State), s.InstanceOf i cb t [⟨k, d⟩] inst base u →
        (fd.agg = false → fd.dir = .output → ∃ r, exec i s = .next r ∧ u.EnteredFb i K n cb [⟨k, d⟩] inst base r) ∧
        (fd.agg = true ∨ fd.dir ≠ .output →
          ∀ e, decodeDesc d = .error e → ∃ o, exec i s = .next (u.faultWith (.addr (descReason e)) o)) ∧
        ∀ D, decodeDesc d = .ok D →
          (fd.agg = false → fd.dir ≠ .output → Desc.width D = fd.width →
            (∀ x v, fetchOp D u = .err x v → ∃ o, exec i s = .next (v.faultWith x.cause o)) ∧
            ∀ y v, fetchOp D u = .ok y v →
              (rangeCheck (v.areaSize (.db inst)) (base + fd.off.toNat) fd.width = none →
                ∃ r, exec i s = .next r ∧
                  (v.writeVal (.db inst) (base + fd.off.toNat) fd.width y).EnteredFb i K n cb [⟨k, d⟩] inst base r) ∧
              ∀ a, rangeCheck (v.areaSize (.db inst)) (base + fd.off.toNat) fd.width = some a →
                ∃ o, exec i s = .next (v.faultWith (.addr a) o)) ∧
          (fd.agg = true →
            (∀ x v, resolveDesc .fetch D u = .err x v → ∃ o, exec i s = .next (v.faultWith x.cause o)) ∧
            ∀ q v, u.ResolvesTo .fetch D q v →
              (v.LacksBlock q → ∃ o, exec i s = .next (v.faultWith (.addr .missingDb) o)) ∧
              ∀ m ba v', v.NamesBlock q m ba v' →
                (rangeCheck (v'.areaSize (.db inst)) (base + fd.off.toNat) .w48 = none →
                  ∃ r, exec i s = .next r ∧
                    (v'.writeVal (.db inst) (base + fd.off.toNat) .w48
                      (BitVec.ofNat 48 (m.toNat * 2 ^ 32 + 0x84000000 + ba.toNat))).EnteredFb i K n cb [⟨k, d⟩] inst base r) ∧
                ∀ a, rangeCheck (v'.areaSize (.db inst)) (base + fd.off.toNat) .w48 = some a →
                  ∃ o, exec i s = .next (v'.faultWith (.addr a) o))

/-- R353, R354, R356, R360, R361, R371, R376, R380, R381: a call of a function block pushes a frame of its instance with the caller's registers
saved, after the parameters are copied in; DB becomes the caller's DI and DI the instance. That the list is copied in one pass, values and
aggregate pointers together, is the model's reading (notes/assumptions/26.md). -/
def Obligations.CallFbPushesFrame : Prop :=
  ∀ (s u v : State) (f : Frame) (b cb : CodeBlock) (t x : Descriptor) (pl : List Param) (X : Desc) (w wx : Width) (n m : BlockNum)
    (sys : Bool),
    s.Running f b → decodeDesc t = .ok (.direct (.prim (.blk w (.code (if sys then .sfb else .fb)) n))) →
    s.prog.code (if sys then .sfb else .fb) n = some cb → ParamsOk cb pl → decodeDesc x = .ok X →
    resolveDesc .fetch X s = .ok (.prim (.blk wx .db m)) u → s.prog.hasDb m = true → copyIn cb m 0 pl u = .ok () v →
      ∃ locals : List Byte, locals.length = cb.tempSize ∧
        exec (if sys then .callFbSys 0 t x pl else .callFb 0 t x pl) s =
          .next ((v.entered ⟨if sys then .sfb else .fb, n, 0, locals, [], [], pl.map fun p => (bits p.word 0 16, p.d), false,
            .fblike, m, 0, some (v.regs.dbReg, v.regs.diReg)⟩ v.regs.diReg m).answer 0)

/-- R353, R354, R356, R360, R372, R376, R377, R380, R381: a multi-instance call uses the current DI block at the base
`AR2[18:0] + 8 * MIOFF`; DB becomes DI and DI stays. That the list is copied in one pass, values and aggregate pointers together, is the
model's reading (notes/assumptions/26.md). -/
def Obligations.CallMiPushesFrame : Prop :=
  ∀ (s v : State) (f : Frame) (b cb : CodeBlock) (t : Descriptor) (pl : List Param) (w : Width) (n mioff : BlockNum) (base : Nat)
    (sys : Bool),
    s.Running f b → decodeDesc t = .ok (.direct (.prim (.blk w (.code (if sys then .sfb else .fb)) n))) →
    s.prog.code (if sys then .sfb else .fb) n = some cb → ParamsOk cb pl → s.prog.hasDb s.regs.diReg = true →
    base = (s.regs.ar2.extractLsb' 0 19).toNat + 8 * mioff.toNat →
    (s.cfg.miValidate = true → ∀ kf ∈ cb.iface, kf.2.dir ≠ .temp →
      base + kf.2.off.toNat + (if kf.2.agg then 48 else kf.2.width.bits) ≤ 8 * s.areaSize (.db s.regs.diReg)) →
    copyIn cb s.regs.diReg base pl s = .ok () v →
      ∃ locals : List Byte, locals.length = cb.tempSize ∧
        exec (if sys then .callMiSys mioff t pl else .callMi mioff t pl) s =
          .next ((v.entered ⟨if sys then .sfb else .fb, n, 0, locals, [], [], pl.map fun p => (bits p.word 0 16, p.d), false,
            .fblike, s.regs.diReg, base, some (v.regs.dbReg, v.regs.diReg)⟩ v.regs.diReg v.regs.diReg).answer 0)

/-- R353, R355, R360, R373, R374, R375, R376, R377, R380, R381: the raw calls take the block number from a 16-bit operand and bind no
parameter; RAW_FB changes no register and RAW_MI sets DB to DI. That the kind of an indirect block reference is not compared is the model's
reading (notes/assumptions/24.md). -/
def Obligations.RawCalls : Prop :=
  ∀ (s u : State) (f : Frame) (b cb : CodeBlock) (t : Descriptor) (D : Desc) (v : Data) (sys : Bool),
    s.Running f b → decodeDesc t = .ok D → Desc.width D = .w16 → fetchOp D s = .ok v u →
      ((∀ w k n, D = .direct (.prim (.blk w k n)) → k = .code (if sys then .sfc else .fc)) →
        s.prog.code (if sys then .sfc else .fc) (v.extractLsb' 0 16) = some cb →
        ∃ locals : List Byte, locals.length = cb.tempSize ∧
          exec (if sys then .rawFcSys 0 0 t else .rawFc 0 0 t) s =
            .next ((u.entered ⟨if sys then .sfc else .fc, v.extractLsb' 0 16, 0, locals, [], [], [], true, .fclike, 0, 0, none⟩
              u.regs.dbReg u.regs.diReg).answer 0)) ∧
      ((∀ w k n, D = .direct (.prim (.blk w k n)) → k = .code (if sys then .sfb else .fb)) →
        s.prog.code (if sys then .sfb else .fb) (v.extractLsb' 0 16) = some cb →
        (∃ locals : List Byte, locals.length = cb.tempSize ∧
          exec (if sys then .rawFbSys 0 0 t else .rawFb 0 0 t) s =
            .next ((u.entered ⟨if sys then .sfb else .fb, v.extractLsb' 0 16, 0, locals, [], [], [], true, .fblike, u.regs.diReg, 0,
              some (u.regs.dbReg, u.regs.diReg)⟩ u.regs.dbReg u.regs.diReg).answer 0)) ∧
        ∀ (mioff : BitVec 16) (base : Nat), u.prog.hasDb u.regs.diReg = true →
          base = (u.regs.ar2.extractLsb' 0 19).toNat + 8 * mioff.toNat →
          (u.cfg.miValidate = true → ∀ kf ∈ cb.iface, kf.2.dir ≠ .temp →
            base + kf.2.off.toNat + (if kf.2.agg then 48 else kf.2.width.bits) ≤ 8 * u.areaSize (.db u.regs.diReg)) →
          ∃ locals : List Byte, locals.length = cb.tempSize ∧
            exec (if sys then .rawMiSys mioff 0 t else .rawMi mioff 0 t) s =
              .next ((u.entered ⟨if sys then .sfb else .fb, v.extractLsb' 0 16, 0, locals, [], [], [], true, .fblike, u.regs.diReg,
                base, some (u.regs.dbReg, u.regs.diReg)⟩ u.regs.diReg u.regs.diReg).answer 0))

/-- R402, and R353 to R356, R360, R361, R363, R364, R372, R375, R377: what a faulting call raises, in which state, and that it pushes nothing.
Three points are the model's reading: the parameter list is checked before the instance operand (notes/assumptions/15.md); a raw target that
is an indirect block reference is fetched and its kind not compared (notes/assumptions/24.md); the parameters of a function block are copied
in one pass over the list, so that a raise leaves the effects of the pairs before it (notes/assumptions/26.md). Which operand the error
record names is left open (notes/assumptions/16.md). -/
def Obligations.CallFaults : Prop :=
  (∀ (s : State) (f : Frame) (b : CodeBlock) (i : Instr) (m : BitVec 16), s.Running f b → NoOffsetRow i m → m ≠ 0 →
    ∃ o, exec i s = .next (s.faultWith (.exec .illegalCommand) o)) ∧
  (∀ (s : State) (f : Frame) (b : CodeBlock) (t : Descriptor) (mioff np : BitVec 16) (i : Instr), s.Running f b → np ≠ 0 →
    (i = .rawFc mioff np t ∨ i = .rawFcSys mioff np t ∨ i = .rawFb mioff np t ∨ i = .rawFbSys mioff np t ∨ i = .rawMi mioff np t ∨
      i = .rawMiSys mioff np t) →
      ∃ o, exec i s = .next (s.faultWith (.call .badParam) o)) ∧
  (∀ (s : State) (f : Frame) (b : CodeBlock) (t : Descriptor) (pl : List Param) (k : BlockKind) (i : Instr), s.Running f b →
    (DirectRow i k t pl ∨ RawRow i k t) →
      (∀ e, decodeDesc t = .error e → ∃ o, exec i s = .next (s.faultWith (.addr (descReason e)) o)) ∧
      (∀ w k' n, decodeDesc t = .ok (.direct (.prim (.blk w k' n))) → k' ≠ .code k →
        ∃ o, exec i s = .next (s.faultWith (.call .wrongKind) o))) ∧
  (∀ (s : State) (f : Frame) (b : CodeBlock) (t : Descriptor) (pl : List Param) (k : BlockKind) (i : Instr), s.Running f b →
    DirectRow i k t pl →
      (∀ D, decodeDesc t = .ok D → (∀ w k' n, D ≠ .direct (.prim (.blk w k' n))) →
        ∃ o, exec i s = .next (s.faultWith (.call .wrongKind) o)) ∧
      ∀ w n, decodeDesc t = .ok (.direct (.prim (.blk w (.code k) n))) →
        (s.prog.code k n = none → ∃ o, exec i s = .next (s.faultWith (.call .noBlock) o)) ∧
        ∀ cb, s.prog.code k n = some cb →
          (∀ pre p post, pl = pre ++ p :: post → ParamsOk cb pre →
            ((∀ fd, cb.field (Param.index p) = some fd → fd.dir = .stat ∨ fd.dir = .temp) ∨ Param.index p ∈ pre.map Param.index →
              ∃ o, exec i s = .next (s.faultWith (.call .badParam) o)) ∧
            (∀ fd, cb.field (Param.index p) = some fd → fd.dir ≠ .stat → fd.dir ≠ .temp → Param.index p ∉ pre.map Param.index →
              bits p.word 16 48 ≠ 0 → ∃ o, exec i s = .next (s.faultWith (.exec .illegalCommand) o))) ∧
          (ParamsOk cb pl →
            (∀ x X o' u, (i = .callFb 0 t x pl ∨ i = .callFbSys 0 t x pl) → decodeDesc x = .ok X →
              resolveDesc .fetch X s = .ok o' u →
                ((∀ wx n', o' ≠ .prim (.blk wx .db n')) → ∃ o, exec i s = .next (u.faultWith (.call .notDb) o)) ∧
                ∀ wx n', o' = .prim (.blk wx .db n') → s.prog.hasDb n' = false →
                  ∃ o, exec i s = .next (u.faultWith (.call .noBlock) o)) ∧
            (∀ m, (i = .callMi m t pl ∨ i = .callMiSys m t pl) →
              (s.prog.hasDb s.regs.diReg = false → ∃ o, exec i s = .next (s.faultWith (.call .noInstance) o)) ∧
              (s.prog.hasDb s.regs.diReg = true → s.cfg.miValidate = true →
                PastInstance cb ((s.regs.ar2.extractLsb' 0 19).toNat + 8 * m.toNat) (s.areaSize (.db s.regs.diReg)) →
                  ∃ o, exec i s = .next (s.faultWith (.call .miRange) o))) ∧
            (∀ m, (i = .callFc m t pl ∨ i = .callFcSys m t pl) → ∀ x u, bindParams cb pl s = .err x u →
              ∃ o, exec i s = .next (u.faultWith x.cause o)) ∧
            ∀ inst base u, s.InstanceOf i cb t pl inst base u →
              (∀ x v, copyIn cb inst base pl u = .err x v → ∃ o, exec i s = .next (v.faultWith x.cause o)) ∧
              ∀ pre p post v fd D, pl = pre ++ p :: post → copyIn cb inst base pre u = .ok () v →
                cb.field (Param.index p) = some fd → decodeDesc p.d = .ok D →
                (fd.agg = false → (fd.dir = .input ∨ fd.dir = .inout) → Desc.width D ≠ fd.width →
                  ∃ o, exec i s = .next (v.faultWith (.call .badParam) o)) ∧
                (fd.agg = true → ∀ o' v', resolveDesc .fetch D v = .ok o' v' →
                  (∀ w' q ba, o' ≠ .prim (.db w' q ba) ∧ o' ≠ .prim (.di w' q ba)) →
                    ∃ o, exec i s = .next (v'.faultWith (.call .badParam) o)))) ∧
  (∀ (s : State) (f : Frame) (b : CodeBlock) (t : Descriptor) (k : BlockKind) (i : Instr) (D : Desc), s.Running f b →
    RawRow i k t → decodeDesc t = .ok D → (∀ w k' n, D = .direct (.prim (.blk w k' n)) → k' = .code k) →
      (Desc.width D ≠ .w16 → ∃ o, exec i s = .next (s.faultWith (.addr .widthMismatch) o)) ∧
      (Desc.width D = .w16 →
        (∀ x u, fetchOp D s = .err x u → ∃ o, exec i s = .next (u.faultWith x.cause o)) ∧
        ∀ v u, fetchOp D s = .ok v u →
          (s.prog.code k (v.extractLsb' 0 16) = none → ∃ o, exec i s = .next (u.faultWith (.call .noBlock) o)) ∧
          ∀ cb m, s.prog.code k (v.extractLsb' 0 16) = some cb → (i = .rawMi m 0 t ∨ i = .rawMiSys m 0 t) →
            (s.prog.hasDb u.regs.diReg = false → ∃ o, exec i s = .next (u.faultWith (.call .noInstance) o)) ∧
            (s.prog.hasDb u.regs.diReg = true → s.cfg.miValidate = true →
              PastInstance cb ((u.regs.ar2.extractLsb' 0 19).toNat + 8 * m.toNat) (u.areaSize (.db u.regs.diReg)) →
                ∃ o, exec i s = .next (u.faultWith (.call .miRange) o)))) ∧
  ∀ (s t : State) (f : Frame) (b : CodeBlock) (i : Instr), s.Running f b → isCall i → exec i s = .next t → t.phase = .idle →
    t.cs = s.cs ∧ t.step = s.step

/-- R400, R401, R371, R391: a call of a function block without instructions, and its return, bring back the call stack with the caller's pointer
advanced, the DB and DI registers and every other register. -/
def Obligations.CallReturn : Prop :=
  ∀ (s : State) (f : Frame) (b cb : CodeBlock) (run : BodyRun) (t x : Descriptor) (w wx : Width) (n m : BlockNum),
    s.Running f b → s.step.e + 1 = s.cs.length → s.body = some run → run.insn.next (run.replies ++ [0]) = none →
    (s.stats.insnCount + 1).toNat % 64 ≠ 0 → 0 ≤ (f.ip : Int) + s.step.rj →
    decodeDesc t = .ok (.direct (.prim (.blk w (.code .fb) n))) → s.prog.code .fb n = some cb → cb.insns = [] →
    decodeDesc x = .ok (.direct (.prim (.blk wx .db m))) → s.prog.hasDb m = true →
      ∃ t1 t2 t3 : State, exec (.callFb 0 t x []) s = .next t1 ∧ t1.regs.dbReg = s.regs.diReg ∧ t1.regs.diReg = m ∧
        t1.cs.length = s.cs.length + 1 ∧ step t1 = .next t2 ∧ step t2 = .next t3 ∧
        t3.cs = s.cs.set s.step.e { f with ip := ((f.ip : Int) + s.step.rj).toNat } ∧ t3.regs = s.regs ∧ t3.mem = s.mem ∧
        t3.trace = s.trace ++ [.postInsn s.step.loc.kind s.step.loc.num s.step.loc.ip, .blockExit .fb n]

/-! ## Host commands -/

/-- R470, R471, R472, R473, R474, R520, R481, R52: STARTUP builds the program once, reads the clock, sets the baselines and the clock memory, resets the registers and
stacks, and begins the startup block the configuration and the program select, or is done at once; the millisecond clock then stands its
lead before its wrap. -/
def Obligations.StartupEffect : Prop :=
  ∀ (s : State) (n : Nat) (r : List Nat), s.phase = .idle → s.mode ≠ .faulted → s.mode ≠ .maint →
    (s.prog.code .ob 1).isSome = true → s.mem.wf (resetByte s.prog) = true → s.env.clock = n :: r → s.env.lastReading ≤ n →
      ∃ t : State, exec .startup s = .next t ∧ t.built = true ∧ t.err = ⟨0, none, none, none⟩ ∧ t.regs = ⟨0, 0, 0, 0, 0, 0, 0, 0, 0⟩ ∧
        t.mcr = [] ∧ t.trace = s.trace ∧ t.timers = s.timers ∧ t.counters = s.counters ∧ t.cfg = s.cfg ∧ t.body = none ∧
        t.time.now = n ∧ t.time.runStart = n ∧
        t.time.msBase = (n : Int) - ((2 : Int) ^ s.cfg.msClockBits - s.cfg.msWrapLead) * 1000000 ∧
        (s.cfg.msWrapLead ≤ 2 ^ s.cfg.msClockBits →
          t.msClock = (2 ^ s.cfg.msClockBits - s.cfg.msWrapLead) % 2 ^ s.cfg.msClockBits) ∧
        t.clock = ⟨0, 0, n + 100000000, true⟩ ∧
        t.stats = { s.stats with
          winStart := n, winCycles := 0, winInsns := 0, winTime := 0, cycInsn0 := t.stats.cycInsn0 } ∧
        (∀ k d c, s.prog.dataBlock k = some d → c < 65536 →
          t.byteAt (.db k) c = if s.built then s.byteAt (.db k) c else d.init.getD c 0) ∧
        (∀ c, c < 65536 → t.byteAt .inputs c = s.byteAt .inputs c ∧ t.byteAt .outputs c = s.byteAt .outputs c ∧
          t.byteAt .flags c = if s.cfg.clockOffset.map BitVec.toNat = some c then 0 else s.byteAt .flags c) ∧
        (∀ e, e = (if s.cfg.accuCount = .four ∧ (s.prog.code .ob 102).isSome then (102 : BlockNum) else 100) →
          ((s.prog.code .ob e).isSome = false → t.mode = .started ∧ t.phase = .idle ∧ t.cs = [] ∧ t.reply = some (.ok [])) ∧
          ∀ cb, s.prog.code .ob e = some cb →
            t.mode = s.mode ∧ t.phase = .startupOb ∧ t.reply = none ∧ t.time.cycleStart = n ∧
            t.stats.cycInsn0 = s.stats.insnCount ∧
            ∃ locals : List Byte, locals.length = cb.tempSize ∧
              t.cs = [⟨.ob, e, 0, locals, [], [], [], false, .fclike, 0, 0, none⟩])

/-- R480, R473, R481, R482, R510, R521: RUN_CYCLE resets the registers and stacks, reads the clock, ticks the clock memory, and begins OB 1; regions other
than the clock byte, data blocks and cells keep their values. -/
def Obligations.RunCycleEffect : Prop :=
  ∀ (s : State) (cb : CodeBlock) (n : Nat) (r : List Nat), s.phase = .idle →
    (s.mode = .started ∨ s.mode = .cycling ∨ s.mode = .timefault) → s.prog.code .ob 1 = some cb →
    s.mem.wf (resetByte s.prog) = true → s.env.clock = n :: r → s.env.lastReading ≤ n →
      ∃ t : State, exec .runCycle s = .next t ∧ t.err = ⟨0, none, none, none⟩ ∧ t.regs = ⟨0, 0, 0, 0, 0, 0, 0, 0, 0⟩ ∧ t.mcr = [] ∧
        t.phase = .cycle ∧ t.mode = s.mode ∧ t.reply = none ∧ t.trace = s.trace ∧ t.body = none ∧ t.cfg = s.cfg ∧
        t.time = { s.time with now := n, cycleStart := n } ∧ t.stats = { s.stats with cycInsn0 := s.stats.insnCount } ∧
        t.timers = s.timers ∧ t.counters = s.counters ∧
        (∃ locals : List Byte, locals.length = cb.tempSize ∧
          t.cs = [⟨.ob, 1, 0, locals, [], [], [], false, .fclike, 0, 0, none⟩]) ∧
        (∀ k c, (s.prog.dataBlock k).isSome = true → c < 65536 → t.byteAt (.db k) c = s.byteAt (.db k) c) ∧
        (∀ c, c < 65536 → t.byteAt .inputs c = s.byteAt .inputs c ∧ t.byteAt .outputs c = s.byteAt .outputs c ∧
          t.byteAt .flags c = if s.clock.on = true ∧ s.clock.next ≤ n ∧ s.cfg.clockOffset.map BitVec.toNat = some c then t.clock.clk
            else s.byteAt .flags c) ∧
        s.ClockTicked t n

/-- R490, R504, R580, R581: RESET leaves the power-on state of the configuration and the program, but for `BUILT`, the trace and the per-step registers. -/
def Obligations.ResetToPowerOn : Prop :=
  ∀ s : State, s.phase = .idle → (∀ o, s.cfg.clockOffset = some o → o.toNat < s.cfg.flagSize) →
    exec .reset s = .next { State.powerOn s.cfg s.prog with
      built := s.built, trace := s.trace, step := s.step, din := s.din, env := s.env, reply := some (.ok []) }

/-- R500, R501, R502, R504, R505: CONFIG_SET with a valid value sets its field; a size, a count or the accumulator count re-allocates every buffer at the new
sizes; a new clock offset places the clock byte. -/
def Obligations.ConfigSetEffect : Prop :=
  ∀ (s : State) (v : Data), s.phase = .idle → s.mem.wf (resetByte s.prog) = true →
    (∀ (p : BitVec 4) (c : Cfg), SizeSetting s.cfg p v c →
      ∃ t : State, exec (.configSet p v) s = .next t ∧ t.reply = some (.ok []) ∧
        t.cfg = { c with clockOffset := t.cfg.clockOffset } ∧
        (∀ o, t.cfg.clockOffset = some o ↔ c.clockOffset = some o ∧ o.toNat < c.flagSize) ∧
        t.regs = ⟨0, 0, 0, 0, 0, 0, 0, 0, 0⟩ ∧ t.cs = [] ∧ t.mcr = [] ∧
        t.timers = List.replicate c.timerCount Config.tcmReset ∧ t.counters = List.replicate c.counterCount Config.tcmReset ∧
        t.stats = ⟨0, 0, none, none, none, none, none, s.time.now, 0, 0, 0, 0⟩ ∧
        t.clock = { s.clock with clk := 0, count := 0 } ∧ t.time = s.time ∧ t.mode = s.mode ∧ t.err = s.err ∧
        t.built = s.built ∧ t.trace = s.trace ∧
        (∀ a, a < 65536 → t.byteAt .inputs a = 0 ∧ t.byteAt .outputs a = 0 ∧ t.byteAt .flags a = 0) ∧
        ∀ k a, (s.prog.dataBlock k).isSome = true → a < 65536 → t.byteAt (.db k) a = s.byteAt (.db k) a) ∧
    (1 ≤ v.toNat → exec (.configSet 6 v) s =
      .next { s with cfg := { s.cfg with cycleLimit := v.toNat }, reply := some (.ok []) }) ∧
    (exec (.configSet 7 v) s = .next { s with cfg := { s.cfg with runLimit := v.toNat }, reply := some (.ok []) }) ∧
    (v.toNat ≤ 1 → exec (.configSet 9 v) s =
      .next { s with cfg := { s.cfg with extInsns := v.getLsbD 0 }, reply := some (.ok []) }) ∧
    (v.toNat = 2 ^ 47 → exec (.configSet 8 v) s =
      .next { s with cfg := { s.cfg with clockOffset := none }, reply := some (.ok []) }) ∧
    ∀ o : BitVec 16, v.toNat = o.toNat → o.toNat < s.cfg.flagSize →
      (s.clock.on = false → exec (.configSet 8 v) s =
        .next { s with cfg := { s.cfg with clockOffset := some o }, reply := some (.ok []) }) ∧
      (s.clock.on = true → ∃ mem : Memory, exec (.configSet 8 v) s =
          .next { s with cfg := { s.cfg with clockOffset := some o }, mem := mem, reply := some (.ok []) } ∧
        ∀ a, mem.read (resetByte s.prog) a =
          if a = Area.flags.addr o.toNat then s.clock.clk else s.mem.read (resetByte s.prog) a)

/-- R530, R531: IMAGE_READ answers the bytes of a region, IMAGE_WRITE writes the input region and no other byte; both need the range to lie inside the
region. -/
def Obligations.ImageAccess : Prop :=
  ∀ (s : State) (off len : BitVec 16) (data : List Byte), s.phase = .idle →
    (off.toNat + len.toNat ≤ s.cfg.inputSize → exec (.imageRead false off len) s =
      .next { s with reply := some (.ok ((List.range len.toNat).map fun i => s.byteAt .inputs (off.toNat + i))) }) ∧
    (off.toNat + len.toNat ≤ s.cfg.outputSize → exec (.imageRead true off len) s =
      .next { s with reply := some (.ok ((List.range len.toNat).map fun i => s.byteAt .outputs (off.toNat + i))) }) ∧
    (off.toNat + data.length ≤ s.cfg.inputSize → s.mem.wf (resetByte s.prog) = true →
      ∃ mem : Memory, exec (.imageWrite false off data) s = .next { s with mem := mem, reply := some (.ok []) } ∧
        ∀ a, mem.read (resetByte s.prog) a =
          if off.toNat ≤ a ∧ a < off.toNat + data.length then data.getD (a - off.toNat) 0 else s.mem.read (resetByte s.prog) a)

/-- R470, R480, R500, R501, R530, R531, R547, R550: a refused host command answers its reason and changes no state; a build without OB 1 records the build error and
changes neither mode, phase nor the built flag. -/
def Obligations.HostRefusals : Prop :=
  ∀ s : State, s.phase = .idle →
    ((s.mode = .faulted ∨ s.mode = .maint) →
      exec .startup s = .next { s with reply := some (.refused .needsReset) } ∧
      exec .runCycle s = .next { s with reply := some (.refused .needsReset) }) ∧
    (s.mode = .uninit → exec .runCycle s = .next { s with reply := some (.refused .notStarted) }) ∧
    (s.mode ≠ .faulted → s.mode ≠ .maint → s.built = false → s.prog.code .ob 1 = none →
      exec .startup s = .next { s with
        err := ⟨5, some 1, none, none⟩, reply := some (.failed ⟨5, some 1, none, none⟩) }) ∧
    (∀ (p : BitVec 4) (v : Data), 10 ≤ p.toNat →
      exec (.configSet p v) s = .next { s with reply := some (.refused .illegalCommand) }) ∧
    (∀ (p : BitVec 4) (v : Data),
      (p = 0 ∧ v ≠ 2 ∧ v ≠ 4) ∨ (1 ≤ p.toNat ∧ p.toNat ≤ 5 ∧ 65536 < v.toNat) ∨ (p = 6 ∧ v = 0) ∨ (p = 9 ∧ 1 < v.toNat) ∨
        (p = 8 ∧ v.toNat ≠ 2 ^ 47 ∧ (s.cfg.flagSize : Nat) ≤ v.toNat) →
      exec (.configSet p v) s = .next { s with reply := some (.refused .badConfig) }) ∧
    (∀ off len : BitVec 16, (s.cfg.inputSize : Nat) < off.toNat + len.toNat →
      exec (.imageRead false off len) s = .next { s with reply := some (.refused .imageRange) }) ∧
    (∀ off len : BitVec 16, (s.cfg.outputSize : Nat) < off.toNat + len.toNat →
      exec (.imageRead true off len) s = .next { s with reply := some (.refused .imageRange) }) ∧
    (∀ (off : BitVec 16) (data : List Byte),
      exec (.imageWrite true off data) s = .next { s with reply := some (.refused .illegalCommand) }) ∧
    ∀ (off : BitVec 16) (data : List Byte), (s.cfg.inputSize : Nat) < off.toNat + data.length →
      exec (.imageWrite false off data) s = .next { s with reply := some (.refused .imageRange) }

end Statements
end

