-- ==== Sys2Proof/Laws/State.lean ====
section
/-! SUPPORT. One lemma for each field of the state and each named update of it, so that no proof unfolds a record update. -/

namespace Sys2Proof.Machine

open Sys2Proof

variable (s : State)

/-! ### `takeFault` -/

@[simp] theorem State.takeFault_cfg (x : Raise) (l : Option Loc) : (s.takeFault x l).cfg = s.cfg := rfl
@[simp] theorem State.takeFault_prog (x : Raise) (l : Option Loc) : (s.takeFault x l).prog = s.prog := rfl
@[simp] theorem State.takeFault_regs (x : Raise) (l : Option Loc) : (s.takeFault x l).regs = s.regs := rfl
@[simp] theorem State.takeFault_mem (x : Raise) (l : Option Loc) : (s.takeFault x l).mem = s.mem := rfl
@[simp] theorem State.takeFault_timers (x : Raise) (l : Option Loc) : (s.takeFault x l).timers = s.timers := rfl
@[simp] theorem State.takeFault_counters (x : Raise) (l : Option Loc) : (s.takeFault x l).counters = s.counters := rfl
@[simp] theorem State.takeFault_cs (x : Raise) (l : Option Loc) : (s.takeFault x l).cs = s.cs := rfl
@[simp] theorem State.takeFault_mcr (x : Raise) (l : Option Loc) : (s.takeFault x l).mcr = s.mcr := rfl
@[simp] theorem State.takeFault_step (x : Raise) (l : Option Loc) : (s.takeFault x l).step = s.step := rfl
@[simp] theorem State.takeFault_time (x : Raise) (l : Option Loc) : (s.takeFault x l).time = s.time := rfl
@[simp] theorem State.takeFault_clock (x : Raise) (l : Option Loc) : (s.takeFault x l).clock = s.clock := rfl
@[simp] theorem State.takeFault_stats (x : Raise) (l : Option Loc) : (s.takeFault x l).stats = s.stats := rfl
@[simp] theorem State.takeFault_mode (x : Raise) (l : Option Loc) : (s.takeFault x l).mode = x.cause.modeAfter := rfl
@[simp] theorem State.takeFault_phase (x : Raise) (l : Option Loc) : (s.takeFault x l).phase = .idle := rfl
@[simp] theorem State.takeFault_built (x : Raise) (l : Option Loc) : (s.takeFault x l).built = s.built := rfl
@[simp] theorem State.takeFault_err (x : Raise) (l : Option Loc) : (s.takeFault x l).err = ⟨x.cause.kind, some x.cause.code, l, x.opnd⟩ := rfl
@[simp] theorem State.takeFault_trace (x : Raise) (l : Option Loc) : (s.takeFault x l).trace = s.trace := rfl
@[simp] theorem State.takeFault_body (x : Raise) (l : Option Loc) : (s.takeFault x l).body = none := rfl
@[simp] theorem State.takeFault_din (x : Raise) (l : Option Loc) : (s.takeFault x l).din = s.din := rfl
@[simp] theorem State.takeFault_reply (x : Raise) (l : Option Loc) : (s.takeFault x l).reply = some (.failed ⟨x.cause.kind, some x.cause.code, l, x.opnd⟩) := rfl
@[simp] theorem State.takeFault_env (x : Raise) (l : Option Loc) : (s.takeFault x l).env = s.env := rfl

/-! ### `takeBuildError` -/

@[simp] theorem State.takeBuildError_cfg (r : BuildReason) : (s.takeBuildError r).cfg = s.cfg := rfl
@[simp] theorem State.takeBuildError_prog (r : BuildReason) : (s.takeBuildError r).prog = s.prog := rfl
@[simp] theorem State.takeBuildError_regs (r : BuildReason) : (s.takeBuildError r).regs = s.regs := rfl
@[simp] theorem State.takeBuildError_mem (r : BuildReason) : (s.takeBuildError r).mem = s.mem := rfl
@[simp] theorem State.takeBuildError_timers (r : BuildReason) : (s.takeBuildError r).timers = s.timers := rfl
@[simp] theorem State.takeBuildError_counters (r : BuildReason) : (s.takeBuildError r).counters = s.counters := rfl
@[simp] theorem State.takeBuildError_cs (r : BuildReason) : (s.takeBuildError r).cs = s.cs := rfl
@[simp] theorem State.takeBuildError_mcr (r : BuildReason) : (s.takeBuildError r).mcr = s.mcr := rfl
@[simp] theorem State.takeBuildError_step (r : BuildReason) : (s.takeBuildError r).step = s.step := rfl
@[simp] theorem State.takeBuildError_time (r : BuildReason) : (s.takeBuildError r).time = s.time := rfl
@[simp] theorem State.takeBuildError_clock (r : BuildReason) : (s.takeBuildError r).clock = s.clock := rfl
@[simp] theorem State.takeBuildError_stats (r : BuildReason) : (s.takeBuildError r).stats = s.stats := rfl
@[simp] theorem State.takeBuildError_mode (r : BuildReason) : (s.takeBuildError r).mode = s.mode := rfl
@[simp] theorem State.takeBuildError_phase (r : BuildReason) : (s.takeBuildError r).phase = s.phase := rfl
@[simp] theorem State.takeBuildError_built (r : BuildReason) : (s.takeBuildError r).built = s.built := rfl
@[simp] theorem State.takeBuildError_err (r : BuildReason) : (s.takeBuildError r).err = ⟨5, some r.code, none, none⟩ := rfl
@[simp] theorem State.takeBuildError_trace (r : BuildReason) : (s.takeBuildError r).trace = s.trace := rfl
@[simp] theorem State.takeBuildError_body (r : BuildReason) : (s.takeBuildError r).body = s.body := rfl
@[simp] theorem State.takeBuildError_din (r : BuildReason) : (s.takeBuildError r).din = s.din := rfl
@[simp] theorem State.takeBuildError_reply (r : BuildReason) : (s.takeBuildError r).reply = some (.failed ⟨5, some r.code, none, none⟩) := rfl
@[simp] theorem State.takeBuildError_env (r : BuildReason) : (s.takeBuildError r).env = s.env := rfl

/-! ### `refuse` -/

@[simp] theorem State.refuse_cfg (r : HostReason) : (s.refuse r).cfg = s.cfg := rfl
@[simp] theorem State.refuse_prog (r : HostReason) : (s.refuse r).prog = s.prog := rfl
@[simp] theorem State.refuse_regs (r : HostReason) : (s.refuse r).regs = s.regs := rfl
@[simp] theorem State.refuse_mem (r : HostReason) : (s.refuse r).mem = s.mem := rfl
@[simp] theorem State.refuse_timers (r : HostReason) : (s.refuse r).timers = s.timers := rfl
@[simp] theorem State.refuse_counters (r : HostReason) : (s.refuse r).counters = s.counters := rfl
@[simp] theorem State.refuse_cs (r : HostReason) : (s.refuse r).cs = s.cs := rfl
@[simp] theorem State.refuse_mcr (r : HostReason) : (s.refuse r).mcr = s.mcr := rfl
@[simp] theorem State.refuse_step (r : HostReason) : (s.refuse r).step = s.step := rfl
@[simp] theorem State.refuse_time (r : HostReason) : (s.refuse r).time = s.time := rfl
@[simp] theorem State.refuse_clock (r : HostReason) : (s.refuse r).clock = s.clock := rfl
@[simp] theorem State.refuse_stats (r : HostReason) : (s.refuse r).stats = s.stats := rfl
@[simp] theorem State.refuse_mode (r : HostReason) : (s.refuse r).mode = s.mode := rfl
@[simp] theorem State.refuse_phase (r : HostReason) : (s.refuse r).phase = s.phase := rfl
@[simp] theorem State.refuse_built (r : HostReason) : (s.refuse r).built = s.built := rfl
@[simp] theorem State.refuse_err (r : HostReason) : (s.refuse r).err = s.err := rfl
@[simp] theorem State.refuse_trace (r : HostReason) : (s.refuse r).trace = s.trace := rfl
@[simp] theorem State.refuse_body (r : HostReason) : (s.refuse r).body = s.body := rfl
@[simp] theorem State.refuse_din (r : HostReason) : (s.refuse r).din = s.din := rfl
@[simp] theorem State.refuse_reply (r : HostReason) : (s.refuse r).reply = some (.refused r) := rfl
@[simp] theorem State.refuse_env (r : HostReason) : (s.refuse r).env = s.env := rfl

/-! ### `complete` -/

@[simp] theorem State.complete_cfg (d : List Byte) : (s.complete d).cfg = s.cfg := rfl
@[simp] theorem State.complete_prog (d : List Byte) : (s.complete d).prog = s.prog := rfl
@[simp] theorem State.complete_regs (d : List Byte) : (s.complete d).regs = s.regs := rfl
@[simp] theorem State.complete_mem (d : List Byte) : (s.complete d).mem = s.mem := rfl
@[simp] theorem State.complete_timers (d : List Byte) : (s.complete d).timers = s.timers := rfl
@[simp] theorem State.complete_counters (d : List Byte) : (s.complete d).counters = s.counters := rfl
@[simp] theorem State.complete_cs (d : List Byte) : (s.complete d).cs = s.cs := rfl
@[simp] theorem State.complete_mcr (d : List Byte) : (s.complete d).mcr = s.mcr := rfl
@[simp] theorem State.complete_step (d : List Byte) : (s.complete d).step = s.step := rfl
@[simp] theorem State.complete_time (d : List Byte) : (s.complete d).time = s.time := rfl
@[simp] theorem State.complete_clock (d : List Byte) : (s.complete d).clock = s.clock := rfl
@[simp] theorem State.complete_stats (d : List Byte) : (s.complete d).stats = s.stats := rfl
@[simp] theorem State.complete_mode (d : List Byte) : (s.complete d).mode = s.mode := rfl
@[simp] theorem State.complete_phase (d : List Byte) : (s.complete d).phase = s.phase := rfl
@[simp] theorem State.complete_built (d : List Byte) : (s.complete d).built = s.built := rfl
@[simp] theorem State.complete_err (d : List Byte) : (s.complete d).err = s.err := rfl
@[simp] theorem State.complete_trace (d : List Byte) : (s.complete d).trace = s.trace := rfl
@[simp] theorem State.complete_body (d : List Byte) : (s.complete d).body = s.body := rfl
@[simp] theorem State.complete_din (d : List Byte) : (s.complete d).din = s.din := rfl
@[simp] theorem State.complete_reply (d : List Byte) : (s.complete d).reply = some (.ok d) := rfl
@[simp] theorem State.complete_env (d : List Byte) : (s.complete d).env = s.env := rfl

/-! ### `emit` -/

@[simp] theorem State.emit_cfg (e : Event) : (s.emit e).cfg = s.cfg := rfl
@[simp] theorem State.emit_prog (e : Event) : (s.emit e).prog = s.prog := rfl
@[simp] theorem State.emit_regs (e : Event) : (s.emit e).regs = s.regs := rfl
@[simp] theorem State.emit_mem (e : Event) : (s.emit e).mem = s.mem := rfl
@[simp] theorem State.emit_timers (e : Event) : (s.emit e).timers = s.timers := rfl
@[simp] theorem State.emit_counters (e : Event) : (s.emit e).counters = s.counters := rfl
@[simp] theorem State.emit_cs (e : Event) : (s.emit e).cs = s.cs := rfl
@[simp] theorem State.emit_mcr (e : Event) : (s.emit e).mcr = s.mcr := rfl
@[simp] theorem State.emit_step (e : Event) : (s.emit e).step = s.step := rfl
@[simp] theorem State.emit_time (e : Event) : (s.emit e).time = s.time := rfl
@[simp] theorem State.emit_clock (e : Event) : (s.emit e).clock = s.clock := rfl
@[simp] theorem State.emit_stats (e : Event) : (s.emit e).stats = s.stats := rfl
@[simp] theorem State.emit_mode (e : Event) : (s.emit e).mode = s.mode := rfl
@[simp] theorem State.emit_phase (e : Event) : (s.emit e).phase = s.phase := rfl
@[simp] theorem State.emit_built (e : Event) : (s.emit e).built = s.built := rfl
@[simp] theorem State.emit_err (e : Event) : (s.emit e).err = s.err := rfl
@[simp] theorem State.emit_trace (e : Event) : (s.emit e).trace = s.trace ++ [e] := rfl
@[simp] theorem State.emit_body (e : Event) : (s.emit e).body = s.body := rfl
@[simp] theorem State.emit_din (e : Event) : (s.emit e).din = s.din := rfl
@[simp] theorem State.emit_reply (e : Event) : (s.emit e).reply = s.reply := rfl
@[simp] theorem State.emit_env (e : Event) : (s.emit e).env = s.env := rfl

/-! ### `answer` -/

@[simp] theorem State.answer_cfg (v : Data) : (s.answer v).cfg = s.cfg := rfl
@[simp] theorem State.answer_prog (v : Data) : (s.answer v).prog = s.prog := rfl
@[simp] theorem State.answer_regs (v : Data) : (s.answer v).regs = s.regs := rfl
@[simp] theorem State.answer_mem (v : Data) : (s.answer v).mem = s.mem := rfl
@[simp] theorem State.answer_timers (v : Data) : (s.answer v).timers = s.timers := rfl
@[simp] theorem State.answer_counters (v : Data) : (s.answer v).counters = s.counters := rfl
@[simp] theorem State.answer_cs (v : Data) : (s.answer v).cs = s.cs := rfl
@[simp] theorem State.answer_mcr (v : Data) : (s.answer v).mcr = s.mcr := rfl
@[simp] theorem State.answer_step (v : Data) : (s.answer v).step = s.step := rfl
@[simp] theorem State.answer_time (v : Data) : (s.answer v).time = s.time := rfl
@[simp] theorem State.answer_clock (v : Data) : (s.answer v).clock = s.clock := rfl
@[simp] theorem State.answer_stats (v : Data) : (s.answer v).stats = s.stats := rfl
@[simp] theorem State.answer_mode (v : Data) : (s.answer v).mode = s.mode := rfl
@[simp] theorem State.answer_phase (v : Data) : (s.answer v).phase = s.phase := rfl
@[simp] theorem State.answer_built (v : Data) : (s.answer v).built = s.built := rfl
@[simp] theorem State.answer_err (v : Data) : (s.answer v).err = s.err := rfl
@[simp] theorem State.answer_trace (v : Data) : (s.answer v).trace = s.trace := rfl
@[simp] theorem State.answer_body (v : Data) : (s.answer v).body = s.body.map fun b => { b with replies := b.replies ++ [v] } := rfl
@[simp] theorem State.answer_din (v : Data) : (s.answer v).din = s.din := rfl
@[simp] theorem State.answer_reply (v : Data) : (s.answer v).reply = s.reply := rfl
@[simp] theorem State.answer_env (v : Data) : (s.answer v).env = s.env := rfl

/-! ### `setMem` -/

@[simp] theorem State.setMem_cfg (a : Nat) (v : Byte) : (s.setMem a v).cfg = s.cfg := rfl
@[simp] theorem State.setMem_prog (a : Nat) (v : Byte) : (s.setMem a v).prog = s.prog := rfl
@[simp] theorem State.setMem_regs (a : Nat) (v : Byte) : (s.setMem a v).regs = s.regs := rfl
@[simp] theorem State.setMem_mem (a : Nat) (v : Byte) : (s.setMem a v).mem = s.mem.write (resetByte s.prog) a v := rfl
@[simp] theorem State.setMem_timers (a : Nat) (v : Byte) : (s.setMem a v).timers = s.timers := rfl
@[simp] theorem State.setMem_counters (a : Nat) (v : Byte) : (s.setMem a v).counters = s.counters := rfl
@[simp] theorem State.setMem_cs (a : Nat) (v : Byte) : (s.setMem a v).cs = s.cs := rfl
@[simp] theorem State.setMem_mcr (a : Nat) (v : Byte) : (s.setMem a v).mcr = s.mcr := rfl
@[simp] theorem State.setMem_step (a : Nat) (v : Byte) : (s.setMem a v).step = s.step := rfl
@[simp] theorem State.setMem_time (a : Nat) (v : Byte) : (s.setMem a v).time = s.time := rfl
@[simp] theorem State.setMem_clock (a : Nat) (v : Byte) : (s.setMem a v).clock = s.clock := rfl
@[simp] theorem State.setMem_stats (a : Nat) (v : Byte) : (s.setMem a v).stats = s.stats := rfl
@[simp] theorem State.setMem_mode (a : Nat) (v : Byte) : (s.setMem a v).mode = s.mode := rfl
@[simp] theorem State.setMem_phase (a : Nat) (v : Byte) : (s.setMem a v).phase = s.phase := rfl
@[simp] theorem State.setMem_built (a : Nat) (v : Byte) : (s.setMem a v).built = s.built := rfl
@[simp] theorem State.setMem_err (a : Nat) (v : Byte) : (s.setMem a v).err = s.err := rfl
@[simp] theorem State.setMem_trace (a : Nat) (v : Byte) : (s.setMem a v).trace = s.trace := rfl
@[simp] theorem State.setMem_body (a : Nat) (v : Byte) : (s.setMem a v).body = s.body := rfl
@[simp] theorem State.setMem_din (a : Nat) (v : Byte) : (s.setMem a v).din = s.din := rfl
@[simp] theorem State.setMem_reply (a : Nat) (v : Byte) : (s.setMem a v).reply = s.reply := rfl
@[simp] theorem State.setMem_env (a : Nat) (v : Byte) : (s.setMem a v).env = s.env := rfl

/-! ### `setStw` -/

@[simp] theorem State.setStw_cfg (v : BitVec 9) : (s.setStw v).cfg = s.cfg := rfl
@[simp] theorem State.setStw_prog (v : BitVec 9) : (s.setStw v).prog = s.prog := rfl
@[simp] theorem State.setStw_regs (v : BitVec 9) : (s.setStw v).regs = { s.regs with stw := v } := rfl
@[simp] theorem State.setStw_mem (v : BitVec 9) : (s.setStw v).mem = s.mem := rfl
@[simp] theorem State.setStw_timers (v : BitVec 9) : (s.setStw v).timers = s.timers := rfl
@[simp] theorem State.setStw_counters (v : BitVec 9) : (s.setStw v).counters = s.counters := rfl
@[simp] theorem State.setStw_cs (v : BitVec 9) : (s.setStw v).cs = s.cs := rfl
@[simp] theorem State.setStw_mcr (v : BitVec 9) : (s.setStw v).mcr = s.mcr := rfl
@[simp] theorem State.setStw_step (v : BitVec 9) : (s.setStw v).step = s.step := rfl
@[simp] theorem State.setStw_time (v : BitVec 9) : (s.setStw v).time = s.time := rfl
@[simp] theorem State.setStw_clock (v : BitVec 9) : (s.setStw v).clock = s.clock := rfl
@[simp] theorem State.setStw_stats (v : BitVec 9) : (s.setStw v).stats = s.stats := rfl
@[simp] theorem State.setStw_mode (v : BitVec 9) : (s.setStw v).mode = s.mode := rfl
@[simp] theorem State.setStw_phase (v : BitVec 9) : (s.setStw v).phase = s.phase := rfl
@[simp] theorem State.setStw_built (v : BitVec 9) : (s.setStw v).built = s.built := rfl
@[simp] theorem State.setStw_err (v : BitVec 9) : (s.setStw v).err = s.err := rfl
@[simp] theorem State.setStw_trace (v : BitVec 9) : (s.setStw v).trace = s.trace := rfl
@[simp] theorem State.setStw_body (v : BitVec 9) : (s.setStw v).body = s.body := rfl
@[simp] theorem State.setStw_din (v : BitVec 9) : (s.setStw v).din = s.din := rfl
@[simp] theorem State.setStw_reply (v : BitVec 9) : (s.setStw v).reply = s.reply := rfl
@[simp] theorem State.setStw_env (v : BitVec 9) : (s.setStw v).env = s.env := rfl

/-! ### `setDbDi` -/

@[simp] theorem State.setDbDi_cfg (m n : BlockNum) : (s.setDbDi m n).cfg = s.cfg := rfl
@[simp] theorem State.setDbDi_prog (m n : BlockNum) : (s.setDbDi m n).prog = s.prog := rfl
@[simp] theorem State.setDbDi_regs (m n : BlockNum) : (s.setDbDi m n).regs = { s.regs with dbReg := m, diReg := n } := rfl
@[simp] theorem State.setDbDi_mem (m n : BlockNum) : (s.setDbDi m n).mem = s.mem := rfl
@[simp] theorem State.setDbDi_timers (m n : BlockNum) : (s.setDbDi m n).timers = s.timers := rfl
@[simp] theorem State.setDbDi_counters (m n : BlockNum) : (s.setDbDi m n).counters = s.counters := rfl
@[simp] theorem State.setDbDi_cs (m n : BlockNum) : (s.setDbDi m n).cs = s.cs := rfl
@[simp] theorem State.setDbDi_mcr (m n : BlockNum) : (s.setDbDi m n).mcr = s.mcr := rfl
@[simp] theorem State.setDbDi_step (m n : BlockNum) : (s.setDbDi m n).step = s.step := rfl
@[simp] theorem State.setDbDi_time (m n : BlockNum) : (s.setDbDi m n).time = s.time := rfl
@[simp] theorem State.setDbDi_clock (m n : BlockNum) : (s.setDbDi m n).clock = s.clock := rfl
@[simp] theorem State.setDbDi_stats (m n : BlockNum) : (s.setDbDi m n).stats = s.stats := rfl
@[simp] theorem State.setDbDi_mode (m n : BlockNum) : (s.setDbDi m n).mode = s.mode := rfl
@[simp] theorem State.setDbDi_phase (m n : BlockNum) : (s.setDbDi m n).phase = s.phase := rfl
@[simp] theorem State.setDbDi_built (m n : BlockNum) : (s.setDbDi m n).built = s.built := rfl
@[simp] theorem State.setDbDi_err (m n : BlockNum) : (s.setDbDi m n).err = s.err := rfl
@[simp] theorem State.setDbDi_trace (m n : BlockNum) : (s.setDbDi m n).trace = s.trace := rfl
@[simp] theorem State.setDbDi_body (m n : BlockNum) : (s.setDbDi m n).body = s.body := rfl
@[simp] theorem State.setDbDi_din (m n : BlockNum) : (s.setDbDi m n).din = s.din := rfl
@[simp] theorem State.setDbDi_reply (m n : BlockNum) : (s.setDbDi m n).reply = s.reply := rfl
@[simp] theorem State.setDbDi_env (m n : BlockNum) : (s.setDbDi m n).env = s.env := rfl

/-! ### `resetRegisters` -/

@[simp] theorem State.resetRegisters_cfg : (s.resetRegisters).cfg = s.cfg := rfl
@[simp] theorem State.resetRegisters_prog : (s.resetRegisters).prog = s.prog := rfl
@[simp] theorem State.resetRegisters_regs : (s.resetRegisters).regs = Regs.zero := rfl
@[simp] theorem State.resetRegisters_mem : (s.resetRegisters).mem = s.mem := rfl
@[simp] theorem State.resetRegisters_timers : (s.resetRegisters).timers = s.timers := rfl
@[simp] theorem State.resetRegisters_counters : (s.resetRegisters).counters = s.counters := rfl
@[simp] theorem State.resetRegisters_cs : (s.resetRegisters).cs = s.cs := rfl
@[simp] theorem State.resetRegisters_mcr : (s.resetRegisters).mcr = s.mcr := rfl
@[simp] theorem State.resetRegisters_step : (s.resetRegisters).step = s.step := rfl
@[simp] theorem State.resetRegisters_time : (s.resetRegisters).time = s.time := rfl
@[simp] theorem State.resetRegisters_clock : (s.resetRegisters).clock = s.clock := rfl
@[simp] theorem State.resetRegisters_stats : (s.resetRegisters).stats = s.stats := rfl
@[simp] theorem State.resetRegisters_mode : (s.resetRegisters).mode = s.mode := rfl
@[simp] theorem State.resetRegisters_phase : (s.resetRegisters).phase = s.phase := rfl
@[simp] theorem State.resetRegisters_built : (s.resetRegisters).built = s.built := rfl
@[simp] theorem State.resetRegisters_err : (s.resetRegisters).err = s.err := rfl
@[simp] theorem State.resetRegisters_trace : (s.resetRegisters).trace = s.trace := rfl
@[simp] theorem State.resetRegisters_body : (s.resetRegisters).body = s.body := rfl
@[simp] theorem State.resetRegisters_din : (s.resetRegisters).din = s.din := rfl
@[simp] theorem State.resetRegisters_reply : (s.resetRegisters).reply = s.reply := rfl
@[simp] theorem State.resetRegisters_env : (s.resetRegisters).env = s.env := rfl

/-! ### `setRj` -/

@[simp] theorem State.setRj_cfg (d : Int) : (s.setRj d).cfg = s.cfg := rfl
@[simp] theorem State.setRj_prog (d : Int) : (s.setRj d).prog = s.prog := rfl
@[simp] theorem State.setRj_regs (d : Int) : (s.setRj d).regs = s.regs := rfl
@[simp] theorem State.setRj_mem (d : Int) : (s.setRj d).mem = s.mem := rfl
@[simp] theorem State.setRj_timers (d : Int) : (s.setRj d).timers = s.timers := rfl
@[simp] theorem State.setRj_counters (d : Int) : (s.setRj d).counters = s.counters := rfl
@[simp] theorem State.setRj_cs (d : Int) : (s.setRj d).cs = s.cs := rfl
@[simp] theorem State.setRj_mcr (d : Int) : (s.setRj d).mcr = s.mcr := rfl
@[simp] theorem State.setRj_step (d : Int) : (s.setRj d).step = { s.step with rj := d } := rfl
@[simp] theorem State.setRj_time (d : Int) : (s.setRj d).time = s.time := rfl
@[simp] theorem State.setRj_clock (d : Int) : (s.setRj d).clock = s.clock := rfl
@[simp] theorem State.setRj_stats (d : Int) : (s.setRj d).stats = s.stats := rfl
@[simp] theorem State.setRj_mode (d : Int) : (s.setRj d).mode = s.mode := rfl
@[simp] theorem State.setRj_phase (d : Int) : (s.setRj d).phase = s.phase := rfl
@[simp] theorem State.setRj_built (d : Int) : (s.setRj d).built = s.built := rfl
@[simp] theorem State.setRj_err (d : Int) : (s.setRj d).err = s.err := rfl
@[simp] theorem State.setRj_trace (d : Int) : (s.setRj d).trace = s.trace := rfl
@[simp] theorem State.setRj_body (d : Int) : (s.setRj d).body = s.body := rfl
@[simp] theorem State.setRj_din (d : Int) : (s.setRj d).din = s.din := rfl
@[simp] theorem State.setRj_reply (d : Int) : (s.setRj d).reply = s.reply := rfl
@[simp] theorem State.setRj_env (d : Int) : (s.setRj d).env = s.env := rfl

/-! ### `push` -/

@[simp] theorem State.push_cfg (f : Frame) : (s.push f).cfg = s.cfg := rfl
@[simp] theorem State.push_prog (f : Frame) : (s.push f).prog = s.prog := rfl
@[simp] theorem State.push_regs (f : Frame) : (s.push f).regs = s.regs := rfl
@[simp] theorem State.push_mem (f : Frame) : (s.push f).mem = s.mem := rfl
@[simp] theorem State.push_timers (f : Frame) : (s.push f).timers = s.timers := rfl
@[simp] theorem State.push_counters (f : Frame) : (s.push f).counters = s.counters := rfl
@[simp] theorem State.push_cs (f : Frame) : (s.push f).cs = s.cs ++ [f] := rfl
@[simp] theorem State.push_mcr (f : Frame) : (s.push f).mcr = s.mcr := rfl
@[simp] theorem State.push_step (f : Frame) : (s.push f).step = s.step := rfl
@[simp] theorem State.push_time (f : Frame) : (s.push f).time = s.time := rfl
@[simp] theorem State.push_clock (f : Frame) : (s.push f).clock = s.clock := rfl
@[simp] theorem State.push_stats (f : Frame) : (s.push f).stats = s.stats := rfl
@[simp] theorem State.push_mode (f : Frame) : (s.push f).mode = s.mode := rfl
@[simp] theorem State.push_phase (f : Frame) : (s.push f).phase = s.phase := rfl
@[simp] theorem State.push_built (f : Frame) : (s.push f).built = s.built := rfl
@[simp] theorem State.push_err (f : Frame) : (s.push f).err = s.err := rfl
@[simp] theorem State.push_trace (f : Frame) : (s.push f).trace = s.trace := rfl
@[simp] theorem State.push_body (f : Frame) : (s.push f).body = s.body := rfl
@[simp] theorem State.push_din (f : Frame) : (s.push f).din = s.din := rfl
@[simp] theorem State.push_reply (f : Frame) : (s.push f).reply = s.reply := rfl
@[simp] theorem State.push_env (f : Frame) : (s.push f).env = { s.env with framesBuilt := s.env.framesBuilt + 1 } := rfl

/-! ### `modifyExec` -/

@[simp] theorem State.modifyExec_cfg (g : Frame → Frame) : (s.modifyExec g).cfg = s.cfg := rfl
@[simp] theorem State.modifyExec_prog (g : Frame → Frame) : (s.modifyExec g).prog = s.prog := rfl
@[simp] theorem State.modifyExec_regs (g : Frame → Frame) : (s.modifyExec g).regs = s.regs := rfl
@[simp] theorem State.modifyExec_mem (g : Frame → Frame) : (s.modifyExec g).mem = s.mem := rfl
@[simp] theorem State.modifyExec_timers (g : Frame → Frame) : (s.modifyExec g).timers = s.timers := rfl
@[simp] theorem State.modifyExec_counters (g : Frame → Frame) : (s.modifyExec g).counters = s.counters := rfl
@[simp] theorem State.modifyExec_cs (g : Frame → Frame) : (s.modifyExec g).cs = s.cs.modify s.step.e g := rfl
@[simp] theorem State.modifyExec_mcr (g : Frame → Frame) : (s.modifyExec g).mcr = s.mcr := rfl
@[simp] theorem State.modifyExec_step (g : Frame → Frame) : (s.modifyExec g).step = s.step := rfl
@[simp] theorem State.modifyExec_time (g : Frame → Frame) : (s.modifyExec g).time = s.time := rfl
@[simp] theorem State.modifyExec_clock (g : Frame → Frame) : (s.modifyExec g).clock = s.clock := rfl
@[simp] theorem State.modifyExec_stats (g : Frame → Frame) : (s.modifyExec g).stats = s.stats := rfl
@[simp] theorem State.modifyExec_mode (g : Frame → Frame) : (s.modifyExec g).mode = s.mode := rfl
@[simp] theorem State.modifyExec_phase (g : Frame → Frame) : (s.modifyExec g).phase = s.phase := rfl
@[simp] theorem State.modifyExec_built (g : Frame → Frame) : (s.modifyExec g).built = s.built := rfl
@[simp] theorem State.modifyExec_err (g : Frame → Frame) : (s.modifyExec g).err = s.err := rfl
@[simp] theorem State.modifyExec_trace (g : Frame → Frame) : (s.modifyExec g).trace = s.trace := rfl
@[simp] theorem State.modifyExec_body (g : Frame → Frame) : (s.modifyExec g).body = s.body := rfl
@[simp] theorem State.modifyExec_din (g : Frame → Frame) : (s.modifyExec g).din = s.din := rfl
@[simp] theorem State.modifyExec_reply (g : Frame → Frame) : (s.modifyExec g).reply = s.reply := rfl
@[simp] theorem State.modifyExec_env (g : Frame → Frame) : (s.modifyExec g).env = s.env := rfl

/-! ### `setBlockReg` -/

@[simp] theorem State.setBlockReg_cfg (di : Bool) (n : BlockNum) : (s.setBlockReg di n).cfg = s.cfg := by cases di <;> rfl
@[simp] theorem State.setBlockReg_prog (di : Bool) (n : BlockNum) : (s.setBlockReg di n).prog = s.prog := by cases di <;> rfl
@[simp] theorem State.setBlockReg_mem (di : Bool) (n : BlockNum) : (s.setBlockReg di n).mem = s.mem := by cases di <;> rfl
@[simp] theorem State.setBlockReg_timers (di : Bool) (n : BlockNum) : (s.setBlockReg di n).timers = s.timers := by cases di <;> rfl
@[simp] theorem State.setBlockReg_counters (di : Bool) (n : BlockNum) : (s.setBlockReg di n).counters = s.counters := by cases di <;> rfl
@[simp] theorem State.setBlockReg_cs (di : Bool) (n : BlockNum) : (s.setBlockReg di n).cs = s.cs := by cases di <;> rfl
@[simp] theorem State.setBlockReg_mcr (di : Bool) (n : BlockNum) : (s.setBlockReg di n).mcr = s.mcr := by cases di <;> rfl
@[simp] theorem State.setBlockReg_step (di : Bool) (n : BlockNum) : (s.setBlockReg di n).step = s.step := by cases di <;> rfl
@[simp] theorem State.setBlockReg_time (di : Bool) (n : BlockNum) : (s.setBlockReg di n).time = s.time := by cases di <;> rfl
@[simp] theorem State.setBlockReg_clock (di : Bool) (n : BlockNum) : (s.setBlockReg di n).clock = s.clock := by cases di <;> rfl
@[simp] theorem State.setBlockReg_stats (di : Bool) (n : BlockNum) : (s.setBlockReg di n).stats = s.stats := by cases di <;> rfl
@[simp] theorem State.setBlockReg_mode (di : Bool) (n : BlockNum) : (s.setBlockReg di n).mode = s.mode := by cases di <;> rfl
@[simp] theorem State.setBlockReg_phase (di : Bool) (n : BlockNum) : (s.setBlockReg di n).phase = s.phase := by cases di <;> rfl
@[simp] theorem State.setBlockReg_built (di : Bool) (n : BlockNum) : (s.setBlockReg di n).built = s.built := by cases di <;> rfl
@[simp] theorem State.setBlockReg_err (di : Bool) (n : BlockNum) : (s.setBlockReg di n).err = s.err := by cases di <;> rfl
@[simp] theorem State.setBlockReg_trace (di : Bool) (n : BlockNum) : (s.setBlockReg di n).trace = s.trace := by cases di <;> rfl
@[simp] theorem State.setBlockReg_body (di : Bool) (n : BlockNum) : (s.setBlockReg di n).body = s.body := by cases di <;> rfl
@[simp] theorem State.setBlockReg_din (di : Bool) (n : BlockNum) : (s.setBlockReg di n).din = s.din := by cases di <;> rfl
@[simp] theorem State.setBlockReg_reply (di : Bool) (n : BlockNum) : (s.setBlockReg di n).reply = s.reply := by cases di <;> rfl
@[simp] theorem State.setBlockReg_env (di : Bool) (n : BlockNum) : (s.setBlockReg di n).env = s.env := by cases di <;> rfl

/-! ### `setAr` -/

@[simp] theorem State.setAr_cfg (n : ArSel) (v : BitVec 32) : (s.setAr n v).cfg = s.cfg := by cases n <;> rfl
@[simp] theorem State.setAr_prog (n : ArSel) (v : BitVec 32) : (s.setAr n v).prog = s.prog := by cases n <;> rfl
@[simp] theorem State.setAr_mem (n : ArSel) (v : BitVec 32) : (s.setAr n v).mem = s.mem := by cases n <;> rfl
@[simp] theorem State.setAr_timers (n : ArSel) (v : BitVec 32) : (s.setAr n v).timers = s.timers := by cases n <;> rfl
@[simp] theorem State.setAr_counters (n : ArSel) (v : BitVec 32) : (s.setAr n v).counters = s.counters := by cases n <;> rfl
@[simp] theorem State.setAr_cs (n : ArSel) (v : BitVec 32) : (s.setAr n v).cs = s.cs := by cases n <;> rfl
@[simp] theorem State.setAr_mcr (n : ArSel) (v : BitVec 32) : (s.setAr n v).mcr = s.mcr := by cases n <;> rfl
@[simp] theorem State.setAr_step (n : ArSel) (v : BitVec 32) : (s.setAr n v).step = s.step := by cases n <;> rfl
@[simp] theorem State.setAr_time (n : ArSel) (v : BitVec 32) : (s.setAr n v).time = s.time := by cases n <;> rfl
@[simp] theorem State.setAr_clock (n : ArSel) (v : BitVec 32) : (s.setAr n v).clock = s.clock := by cases n <;> rfl
@[simp] theorem State.setAr_stats (n : ArSel) (v : BitVec 32) : (s.setAr n v).stats = s.stats := by cases n <;> rfl
@[simp] theorem State.setAr_mode (n : ArSel) (v : BitVec 32) : (s.setAr n v).mode = s.mode := by cases n <;> rfl
@[simp] theorem State.setAr_phase (n : ArSel) (v : BitVec 32) : (s.setAr n v).phase = s.phase := by cases n <;> rfl
@[simp] theorem State.setAr_built (n : ArSel) (v : BitVec 32) : (s.setAr n v).built = s.built := by cases n <;> rfl
@[simp] theorem State.setAr_err (n : ArSel) (v : BitVec 32) : (s.setAr n v).err = s.err := by cases n <;> rfl
@[simp] theorem State.setAr_trace (n : ArSel) (v : BitVec 32) : (s.setAr n v).trace = s.trace := by cases n <;> rfl
@[simp] theorem State.setAr_body (n : ArSel) (v : BitVec 32) : (s.setAr n v).body = s.body := by cases n <;> rfl
@[simp] theorem State.setAr_din (n : ArSel) (v : BitVec 32) : (s.setAr n v).din = s.din := by cases n <;> rfl
@[simp] theorem State.setAr_reply (n : ArSel) (v : BitVec 32) : (s.setAr n v).reply = s.reply := by cases n <;> rfl
@[simp] theorem State.setAr_env (n : ArSel) (v : BitVec 32) : (s.setAr n v).env = s.env := by cases n <;> rfl

/-! ### `setByte` -/

@[simp] theorem State.setByte_cfg (a : Area) (b : Nat) (v : Byte) : (s.setByte a b v).cfg = s.cfg := by cases a <;> rfl
@[simp] theorem State.setByte_prog (a : Area) (b : Nat) (v : Byte) : (s.setByte a b v).prog = s.prog := by cases a <;> rfl
@[simp] theorem State.setByte_regs (a : Area) (b : Nat) (v : Byte) : (s.setByte a b v).regs = s.regs := by cases a <;> rfl
@[simp] theorem State.setByte_timers (a : Area) (b : Nat) (v : Byte) : (s.setByte a b v).timers = s.timers := by cases a <;> rfl
@[simp] theorem State.setByte_counters (a : Area) (b : Nat) (v : Byte) : (s.setByte a b v).counters = s.counters := by cases a <;> rfl
@[simp] theorem State.setByte_mcr (a : Area) (b : Nat) (v : Byte) : (s.setByte a b v).mcr = s.mcr := by cases a <;> rfl
@[simp] theorem State.setByte_step (a : Area) (b : Nat) (v : Byte) : (s.setByte a b v).step = s.step := by cases a <;> rfl
@[simp] theorem State.setByte_time (a : Area) (b : Nat) (v : Byte) : (s.setByte a b v).time = s.time := by cases a <;> rfl
@[simp] theorem State.setByte_clock (a : Area) (b : Nat) (v : Byte) : (s.setByte a b v).clock = s.clock := by cases a <;> rfl
@[simp] theorem State.setByte_stats (a : Area) (b : Nat) (v : Byte) : (s.setByte a b v).stats = s.stats := by cases a <;> rfl
@[simp] theorem State.setByte_mode (a : Area) (b : Nat) (v : Byte) : (s.setByte a b v).mode = s.mode := by cases a <;> rfl
@[simp] theorem State.setByte_phase (a : Area) (b : Nat) (v : Byte) : (s.setByte a b v).phase = s.phase := by cases a <;> rfl
@[simp] theorem State.setByte_built (a : Area) (b : Nat) (v : Byte) : (s.setByte a b v).built = s.built := by cases a <;> rfl
@[simp] theorem State.setByte_err (a : Area) (b : Nat) (v : Byte) : (s.setByte a b v).err = s.err := by cases a <;> rfl
@[simp] theorem State.setByte_trace (a : Area) (b : Nat) (v : Byte) : (s.setByte a b v).trace = s.trace := by cases a <;> rfl
@[simp] theorem State.setByte_body (a : Area) (b : Nat) (v : Byte) : (s.setByte a b v).body = s.body := by cases a <;> rfl
@[simp] theorem State.setByte_din (a : Area) (b : Nat) (v : Byte) : (s.setByte a b v).din = s.din := by cases a <;> rfl
@[simp] theorem State.setByte_reply (a : Area) (b : Nat) (v : Byte) : (s.setByte a b v).reply = s.reply := by cases a <;> rfl
@[simp] theorem State.setByte_env (a : Area) (b : Nat) (v : Byte) : (s.setByte a b v).env = s.env := by cases a <;> rfl

/-! ### `setCell` -/

@[simp] theorem State.setCell_cfg (k : CellKind) (i : Nat) (c : Cell) : (s.setCell k i c).cfg = s.cfg := by cases k <;> rfl
@[simp] theorem State.setCell_prog (k : CellKind) (i : Nat) (c : Cell) : (s.setCell k i c).prog = s.prog := by cases k <;> rfl
@[simp] theorem State.setCell_regs (k : CellKind) (i : Nat) (c : Cell) : (s.setCell k i c).regs = s.regs := by cases k <;> rfl
@[simp] theorem State.setCell_mem (k : CellKind) (i : Nat) (c : Cell) : (s.setCell k i c).mem = s.mem := by cases k <;> rfl
@[simp] theorem State.setCell_cs (k : CellKind) (i : Nat) (c : Cell) : (s.setCell k i c).cs = s.cs := by cases k <;> rfl
@[simp] theorem State.setCell_mcr (k : CellKind) (i : Nat) (c : Cell) : (s.setCell k i c).mcr = s.mcr := by cases k <;> rfl
@[simp] theorem State.setCell_step (k : CellKind) (i : Nat) (c : Cell) : (s.setCell k i c).step = s.step := by cases k <;> rfl
@[simp] theorem State.setCell_time (k : CellKind) (i : Nat) (c : Cell) : (s.setCell k i c).time = s.time := by cases k <;> rfl
@[simp] theorem State.setCell_clock (k : CellKind) (i : Nat) (c : Cell) : (s.setCell k i c).clock = s.clock := by cases k <;> rfl
@[simp] theorem State.setCell_stats (k : CellKind) (i : Nat) (c : Cell) : (s.setCell k i c).stats = s.stats := by cases k <;> rfl
@[simp] theorem State.setCell_mode (k : CellKind) (i : Nat) (c : Cell) : (s.setCell k i c).mode = s.mode := by cases k <;> rfl
@[simp] theorem State.setCell_phase (k : CellKind) (i : Nat) (c : Cell) : (s.setCell k i c).phase = s.phase := by cases k <;> rfl
@[simp] theorem State.setCell_built (k : CellKind) (i : Nat) (c : Cell) : (s.setCell k i c).built = s.built := by cases k <;> rfl
@[simp] theorem State.setCell_err (k : CellKind) (i : Nat) (c : Cell) : (s.setCell k i c).err = s.err := by cases k <;> rfl
@[simp] theorem State.setCell_trace (k : CellKind) (i : Nat) (c : Cell) : (s.setCell k i c).trace = s.trace := by cases k <;> rfl
@[simp] theorem State.setCell_body (k : CellKind) (i : Nat) (c : Cell) : (s.setCell k i c).body = s.body := by cases k <;> rfl
@[simp] theorem State.setCell_din (k : CellKind) (i : Nat) (c : Cell) : (s.setCell k i c).din = s.din := by cases k <;> rfl
@[simp] theorem State.setCell_reply (k : CellKind) (i : Nat) (c : Cell) : (s.setCell k i c).reply = s.reply := by cases k <;> rfl
@[simp] theorem State.setCell_env (k : CellKind) (i : Nat) (c : Cell) : (s.setCell k i c).env = s.env := by cases k <;> rfl

/-! ### `readClock` -/

@[simp] theorem State.readClock_cfg : (s.readClock).cfg = s.cfg := rfl
@[simp] theorem State.readClock_prog : (s.readClock).prog = s.prog := rfl
@[simp] theorem State.readClock_regs : (s.readClock).regs = s.regs := rfl
@[simp] theorem State.readClock_mem : (s.readClock).mem = s.mem := rfl
@[simp] theorem State.readClock_timers : (s.readClock).timers = s.timers := rfl
@[simp] theorem State.readClock_counters : (s.readClock).counters = s.counters := rfl
@[simp] theorem State.readClock_cs : (s.readClock).cs = s.cs := rfl
@[simp] theorem State.readClock_mcr : (s.readClock).mcr = s.mcr := rfl
@[simp] theorem State.readClock_step : (s.readClock).step = s.step := rfl
@[simp] theorem State.readClock_clock : (s.readClock).clock = s.clock := rfl
@[simp] theorem State.readClock_stats : (s.readClock).stats = s.stats := rfl
@[simp] theorem State.readClock_mode : (s.readClock).mode = s.mode := rfl
@[simp] theorem State.readClock_phase : (s.readClock).phase = s.phase := rfl
@[simp] theorem State.readClock_built : (s.readClock).built = s.built := rfl
@[simp] theorem State.readClock_err : (s.readClock).err = s.err := rfl
@[simp] theorem State.readClock_trace : (s.readClock).trace = s.trace := rfl
@[simp] theorem State.readClock_body : (s.readClock).body = s.body := rfl
@[simp] theorem State.readClock_din : (s.readClock).din = s.din := rfl
@[simp] theorem State.readClock_reply : (s.readClock).reply = s.reply := rfl

/-! ### Parts of the registers -/

@[simp] theorem State.setBlockReg_db (n : BlockNum) : (s.setBlockReg false n).regs = { s.regs with dbReg := n } := rfl
@[simp] theorem State.setBlockReg_di (n : BlockNum) : (s.setBlockReg true n).regs = { s.regs with diReg := n } := rfl
@[simp] theorem State.setAr_ar1 (v : BitVec 32) : (s.setAr .ar1 v).regs = { s.regs with ar1 := v } := rfl
@[simp] theorem State.setAr_ar2 (v : BitVec 32) : (s.setAr .ar2 v).regs = { s.regs with ar2 := v } := rfl
@[simp] theorem State.setCell_timers (i : Nat) (c : Cell) : (s.setCell .timer i c).timers = s.timers.set i c := rfl
@[simp] theorem State.setCell_counters (i : Nat) (c : Cell) : (s.setCell .counter i c).counters = s.counters.set i c := rfl
@[simp] theorem State.setCell_timers_counter (i : Nat) (c : Cell) : (s.setCell .counter i c).timers = s.timers := rfl
@[simp] theorem State.setCell_counters_timer (i : Nat) (c : Cell) : (s.setCell .timer i c).counters = s.counters := rfl
@[simp] theorem State.setByte_loc_mem (j b : Nat) (v : Byte) : (s.setByte (.loc j) b v).mem = s.mem := rfl
@[simp] theorem State.setByte_loc_cs (j b : Nat) (v : Byte) :
    (s.setByte (.loc j) b v).cs = s.cs.modify j fun f => { f with locals := f.locals.set b v } := rfl

end Sys2Proof.Machine
end

