-- ==== Sys2Proof/Laws/Memory.lean ====
section
/-! SUPPORT. Memory: a write keeps the canonical form, is read back, and leaves every other address alone; clearing the regions and
resetting the data blocks keep the form; the power-on memory has it. -/

namespace Sys2Proof.Machine

open Sys2Proof

/-! ## The list of cells -/

theorem Memory.wf_cons {d : Nat → Byte} {k : Nat} {v : Byte} {r : Memory} :
    Memory.wf d ((k, v) :: r) = true ↔ v ≠ d k ∧ (∀ e ∈ r, k < e.1) ∧ Memory.wf d r = true := by
  simp [Memory.wf, and_assoc]

theorem Memory.mem_write {d : Nat → Byte} {m : Memory} {a : Nat} {v : Byte} {e : Host.Cell} (h : e ∈ m.write d a v) :
    e = (a, v) ∨ e ∈ m := by
  induction m with
  | nil => unfold Memory.write at h; split at h <;> simp_all
  | cons c r ih =>
    obtain ⟨k, x⟩ := c
    unfold Memory.write at h
    split_ifs at h
    · exact .inr h
    · simpa using h
    · exact .inr (List.mem_cons_of_mem _ h)
    · rcases List.mem_cons.1 h with h | h
      · exact .inl h
      · exact .inr (List.mem_cons_of_mem _ h)
    · rcases List.mem_cons.1 h with h | h
      · exact .inr (h ▸ List.mem_cons_self)
      · exact (ih h).imp id (List.mem_cons_of_mem _)

theorem Memory.wf_write {d : Nat → Byte} {m : Memory} (a : Nat) (v : Byte) (h : m.wf d = true) : (m.write d a v).wf d = true := by
  induction m with
  | nil => unfold Memory.write; split <;> simp_all [Memory.wf]
  | cons c r ih =>
    obtain ⟨k, x⟩ := c
    obtain ⟨hx, hk, hr⟩ := Memory.wf_cons.1 h
    unfold Memory.write
    split_ifs with h1 h2 h3 h4
    · exact h
    · refine Memory.wf_cons.2 ⟨h2, ?_, h⟩
      intro e he
      rcases List.mem_cons.1 he with rfl | he
      · exact h1
      · exact h1.trans (hk e he)
    · exact hr
    · exact Memory.wf_cons.2 ⟨h4, h3 ▸ hk, hr⟩
    · refine Memory.wf_cons.2 ⟨hx, ?_, ih hr⟩
      intro e he
      rcases Memory.mem_write he with rfl | he
      · show k < a
        omega
      · exact hk e he

theorem Memory.read_of_lt {d : Nat → Byte} {m : Memory} {a : Nat} (h : ∀ e ∈ m, a < e.1) : m.read d a = d a := by
  induction m with
  | nil => rfl
  | cons c r ih =>
    obtain ⟨k, x⟩ := c
    have hk : a < k := h (k, x) List.mem_cons_self
    rw [Memory.read, if_neg (by omega), ih fun e he => h e (List.mem_cons_of_mem _ he)]

theorem Memory.read_write {d : Nat → Byte} {m : Memory} (a : Nat) (v : Byte) (h : m.wf d = true) (b : Nat) :
    (m.write d a v).read d b = if b = a then v else m.read d b := by
  induction m with
  | nil =>
    unfold Memory.write
    split_ifs with h1 h2 h2 <;> simp_all [Memory.read]
    omega
  | cons c r ih =>
    obtain ⟨k, x⟩ := c
    obtain ⟨hx, hk, hr⟩ := Memory.wf_cons.1 h
    unfold Memory.write
    by_cases h1 : a < k
    · have hlt : ∀ e ∈ ((k, x) :: r : Memory), a < e.1 := by
        intro e he
        rcases List.mem_cons.1 he with rfl | he
        · exact h1
        · exact h1.trans (hk e he)
      rw [if_pos h1]
      by_cases h2 : v = d a
      · rw [if_pos h2]
        by_cases hb : b = a
        · rw [if_pos hb, hb, Memory.read_of_lt hlt, h2]
        · rw [if_neg hb]
      · rw [if_neg h2]
        by_cases hb : b = a
        · rw [if_pos hb, Memory.read, if_pos hb.symm]
        · rw [if_neg hb, Memory.read, if_neg (Ne.symm hb)]
    · rw [if_neg h1]
      by_cases h2 : a = k
      · rw [if_pos h2]
        by_cases h3 : v = d a
        · rw [if_pos h3]
          by_cases hb : b = a
          · rw [if_pos hb, hb, Memory.read_of_lt (h2 ▸ hk), h3]
          · rw [if_neg hb, Memory.read, if_neg (fun e => hb (e.symm.trans h2.symm))]
        · rw [if_neg h3]
          by_cases hb : b = a
          · rw [if_pos hb, Memory.read, if_pos hb.symm]
          · rw [if_neg hb, Memory.read, Memory.read, if_neg (Ne.symm hb), if_neg (fun e => hb (e.symm.trans h2.symm))]
      · rw [if_neg h2, Memory.read, Memory.read, ih hr]
        by_cases hb : k = b
        · rw [if_pos hb, if_pos hb, if_neg (by omega)]
        · rw [if_neg hb, if_neg hb]

theorem Memory.wf_filter {d : Nat → Byte} {m : Memory} (p : Host.Cell → Bool) (h : m.wf d = true) :
    Memory.wf d (List.filter p m) = true := by
  induction m with
  | nil => rfl
  | cons c r ih =>
    obtain ⟨k, x⟩ := c
    obtain ⟨hx, hk, hr⟩ := Memory.wf_cons.1 h
    rw [List.filter_cons]
    split_ifs
    · exact Memory.wf_cons.2 ⟨hx, fun e he => hk e (List.mem_filter.1 he).1, ih hr⟩
    · exact ih hr

theorem Memory.read_filter {d : Nat → Byte} {m : Memory} (p : Nat → Bool) (h : m.wf d = true) (a : Nat) :
    Memory.read d (List.filter (fun e => p e.1) m) a = if p a then m.read d a else d a := by
  induction m with
  | nil => simp [Memory.read]
  | cons c r ih =>
    obtain ⟨k, x⟩ := c
    obtain ⟨hx, hk, hr⟩ := Memory.wf_cons.1 h
    rw [List.filter_cons]
    by_cases hpk : p k = true
    · simp only [hpk, ↓reduceIte, Memory.read]
      by_cases hka : k = a
      · subst hka; simp [hpk]
      · simp only [hka, ↓reduceIte]; exact ih hr
    · simp only [hpk, Bool.false_eq_true, ↓reduceIte, Memory.read]
      rw [ih hr]
      by_cases hka : k = a
      · subst hka; simp [hpk]
      · simp [hka]

/-- Clearing the regions keeps the form, and every data-block byte. -/
theorem Memory.clearRegions_spec {d : Nat → Byte} {m : Memory} (h : m.wf d = true) :
    m.clearRegions.wf d = true ∧ ∀ a, m.clearRegions.read d a = if dbBase ≤ a then m.read d a else d a := by
  refine ⟨Memory.wf_filter _ h, fun a => ?_⟩
  have := Memory.read_filter (fun k => decide (dbBase ≤ k)) h a
  simpa [Memory.clearRegions] using this

/-- Putting the data blocks back at their initial contents keeps the form, and every region byte. -/
theorem Memory.resetDbs_spec {d : Nat → Byte} {m : Memory} (h : m.wf d = true) :
    m.resetDbs.wf d = true ∧ ∀ a, m.resetDbs.read d a = if a < dbBase then m.read d a else d a := by
  refine ⟨Memory.wf_filter _ h, fun a => ?_⟩
  have := Memory.read_filter (fun k => decide (k < dbBase)) h a
  simpa [Memory.resetDbs] using this

/-- The memory of `State.reset` has the canonical form. -/
theorem Memory.wf_reset : State.reset.mem.wf (resetByte State.reset.prog) = true := rfl

/-! ## The map of the buffers -/

theorem Area.addr_inj {x y : Area} {b c : Nat} (hx : x.inMemory = true) (hy : y.inMemory = true) (hb : b < 65536) (hc : c < 65536)
    (h : x.addr b = y.addr c) : x = y ∧ b = c := by
  cases x <;> cases y <;> simp_all [Area.addr, Area.inMemory] <;> first | omega | skip
  rename_i m n
  have : m.toNat = n.toNat := by omega
  exact ⟨BitVec.eq_of_toNat_eq this, by omega⟩

theorem State.areaSize_le (s : State) (x : Area) (h : x.inMemory = true) : s.areaSize x ≤ 65536 := by
  cases x with
  | inputs => exact Nat.lt_succ_iff.1 s.cfg.inputSize.isLt
  | outputs => exact Nat.lt_succ_iff.1 s.cfg.outputSize.isLt
  | flags => exact Nat.lt_succ_iff.1 s.cfg.flagSize.isLt
  | db n =>
    simp only [State.areaSize]
    split
    · rename_i d _; exact Nat.lt_succ_iff.1 d.size.isLt
    · omega
  | loc j => simp [Area.inMemory] at h

end Sys2Proof.Machine
end

