-- ==== Sys2Proof/Laws/Bytes.lean ====
section
/-! SUPPORT. Bytes of the buffers: what a byte write, a byte-sequence write and an access of any width leave and give back. -/

namespace Sys2Proof.Machine

open Sys2Proof

/-! ## One byte -/

theorem State.areaSize_setByte (s : State) (x y : Area) (b : Nat) (v : Byte) : (s.setByte x b v).areaSize y = s.areaSize y := by
  cases y with
  | loc j =>
    cases x with
    | loc i =>
      simp only [State.areaSize, State.setByte_loc_cs, List.getElem?_modify]
      split_ifs with h
      · cases s.cs[j]? <;> simp
      · simp
    | _ => rfl
  | db n => simp only [State.areaSize, State.setByte_prog]
  | _ => simp only [State.areaSize, State.setByte_cfg]

/-- The memory after a byte write, for a buffer in memory. -/
theorem State.setByte_mem (s : State) {x : Area} (b : Nat) (v : Byte) (h : x.inMemory = true) :
    (s.setByte x b v).mem = s.mem.write (resetByte s.prog) (x.addr b) v := by
  cases x <;> first | rfl | simp [Area.inMemory] at h

theorem State.byteAt_mem (s : State) {x : Area} (b : Nat) (h : x.inMemory = true) :
    s.byteAt x b = s.mem.read (resetByte s.prog) (x.addr b) := by
  cases x <;> first | rfl | simp [Area.inMemory] at h

theorem State.setByte_wf (s : State) (x : Area) (b : Nat) (v : Byte) (h : s.mem.wf (resetByte s.prog) = true) :
    (s.setByte x b v).mem.wf (resetByte (s.setByte x b v).prog) = true := by
  rw [State.setByte_prog]
  cases x <;> first | exact Memory.wf_write _ _ h | exact h

/-- A byte write is read back, and every other byte of every buffer is as before. -/
theorem State.byteAt_setByte (s : State) {x y : Area} {b c : Nat} (v : Byte) (hwf : s.mem.wf (resetByte s.prog) = true)
    (hb : b < s.areaSize x) (hc : c < s.areaSize y) :
    (s.setByte x b v).byteAt y c = if y = x ∧ c = b then v else s.byteAt y c := by
  by_cases hy : y.inMemory = true
  · have hc' := Nat.lt_of_lt_of_le hc (s.areaSize_le y hy)
    rw [State.byteAt_mem _ _ hy, State.byteAt_mem _ _ hy, State.setByte_prog]
    by_cases hx : x.inMemory = true
    · have hb' := Nat.lt_of_lt_of_le hb (s.areaSize_le x hx)
      rw [State.setByte_mem _ _ _ hx, Memory.read_write _ _ hwf]
      by_cases he : y.addr c = x.addr b
      · rw [if_pos he, if_pos (Area.addr_inj hy hx hc' hb' he)]
      · rw [if_neg he, if_neg]
        rintro ⟨rfl, rfl⟩; exact he rfl
    · cases x with
      | loc j =>
        rw [if_neg]
        · rfl
        · rintro ⟨rfl, _⟩; simp [Area.inMemory] at hy
      | _ => simp [Area.inMemory] at hx
  · cases y with
    | loc j =>
      cases x with
      | loc i =>
        simp only [State.areaSize] at hb hc
        simp only [State.byteAt, State.setByte_loc_cs, List.getElem?_modify]
        by_cases hij : i = j
        · subst hij
          cases hcs : s.cs[i]? with
          | none => simp [hcs] at hb
          | some f =>
            simp only [hcs] at hb hc
            by_cases hcb : c = b
            · simp [hcb, hb]
            · simp [hcb, Ne.symm hcb]
        · have : ¬ (Area.loc j = Area.loc i ∧ c = b) := by rintro ⟨h, _⟩; exact hij (by injection h with h; exact h.symm)
          rw [if_neg this]
          simp [hij]
      | _ => rw [if_neg (by rintro ⟨h, _⟩; cases h)]; rfl
    | _ => simp [Area.inMemory] at hy

/-! ## Byte sequences -/

theorem State.areaSize_writeBytes (x y : Area) (bs : List Byte) :
    ∀ (s : State) (b : Nat), (s.writeBytes x b bs).areaSize y = s.areaSize y := by
  induction bs with
  | nil => intro s b; rfl
  | cons v r ih => intro s b; rw [State.writeBytes, ih, State.areaSize_setByte]

theorem State.writeBytes_prog (x : Area) (bs : List Byte) : ∀ (s : State) (b : Nat), (s.writeBytes x b bs).prog = s.prog := by
  induction bs with
  | nil => intro s b; rfl
  | cons v r ih => intro s b; rw [State.writeBytes, ih, State.setByte_prog]

theorem State.writeBytes_wf (x : Area) (bs : List Byte) : ∀ (s : State) (b : Nat), s.mem.wf (resetByte s.prog) = true →
    (s.writeBytes x b bs).mem.wf (resetByte (s.writeBytes x b bs).prog) = true := by
  induction bs with
  | nil => intro s b h; exact h
  | cons v r ih => intro s b h; exact ih _ _ (s.setByte_wf x b v h)

/-- A byte sequence written in range is read back, and every other byte of every buffer is as before. -/
theorem State.byteAt_writeBytes {x y : Area} {c : Nat} (bs : List Byte) :
    ∀ (s : State) (b : Nat), s.mem.wf (resetByte s.prog) = true → b + bs.length ≤ s.areaSize x → c < s.areaSize y →
      (s.writeBytes x b bs).byteAt y c = if y = x ∧ b ≤ c ∧ c < b + bs.length then bs.getD (c - b) 0 else s.byteAt y c := by
  induction bs with
  | nil => intro s b _ _ _; rw [if_neg (by simp only [List.length_nil]; omega)]; rfl
  | cons v r ih =>
    intro s b hwf hb hc
    rw [List.length_cons] at hb
    rw [State.writeBytes,
      ih (s.setByte x b v) (b + 1) (s.setByte_wf x b v hwf) (by rw [State.areaSize_setByte]; omega)
        (by rw [State.areaSize_setByte]; exact hc),
      State.byteAt_setByte s v hwf (by omega) hc, List.length_cons]
    by_cases hx : y = x
    · by_cases h1 : c = b
      · subst h1; simp [hx]
      · by_cases h2 : b + 1 ≤ c ∧ c < b + 1 + r.length
        · obtain ⟨k, rfl⟩ := Nat.exists_eq_add_of_le h2.1
          rw [if_pos ⟨hx, h2⟩, if_pos ⟨hx, by omega, by omega⟩, Nat.add_sub_cancel_left,
            show b + 1 + k - b = k + 1 by omega]
          rfl
        · rw [if_neg (by tauto), if_neg (by tauto), if_neg (by rintro ⟨_, h3, h4⟩; omega)]
    · simp [hx]

theorem State.length_readBytes (s : State) (x : Area) (b n : Nat) : (s.readBytes x b n).length = n := by
  simp [State.readBytes]

/-- Bytes written in range are read back. -/
theorem State.readBytes_writeBytes (s : State) {x : Area} {b : Nat} (bs : List Byte) (hwf : s.mem.wf (resetByte s.prog) = true)
    (hb : b + bs.length ≤ s.areaSize x) : (s.writeBytes x b bs).readBytes x b bs.length = bs := by
  apply List.ext_getElem
  · simp [State.readBytes]
  · intro i h1 h2
    simp only [State.readBytes, List.getElem_map, List.getElem_range]
    rw [State.byteAt_writeBytes bs s b hwf hb (by omega), if_pos ⟨rfl, by omega, by omega⟩, Nat.add_sub_cancel_left]
    simp [h2]

/-! ## Big-endian numbers -/

theorem beNat_append (x y : List Byte) : beNat (x ++ y) = beNat x * 256 ^ y.length + beNat y := by
  have key : ∀ (l : List Byte) (a : Nat),
      l.foldl (fun acc b => acc * 256 + b.toNat) a = a * 256 ^ l.length + l.foldl (fun acc b => acc * 256 + b.toNat) 0 := by
    intro l
    induction l with
    | nil => intro a; simp
    | cons b r ih =>
      intro a
      rw [List.foldl_cons, ih, List.foldl_cons, ih (0 * 256 + b.toNat), List.length_cons]
      ring
  unfold beNat
  rw [List.foldl_append, key y]

theorem beNat_cons (b : Byte) (r : List Byte) : beNat (b :: r) = b.toNat * 256 ^ r.length + beNat r := by
  have := beNat_append [b] r
  simpa [beNat] using this

theorem beNat_lt (l : List Byte) : beNat l < 256 ^ l.length := by
  induction l with
  | nil => simp [beNat]
  | cons b r ih =>
    rw [beNat_cons, List.length_cons, pow_succ]
    have := b.isLt
    nlinarith [Nat.pow_pos (n := r.length) (show 0 < 256 by decide)]

theorem beBytes_length (n : Nat) (v : Data) : (beBytes n v).length = n := by simp [beBytes]

theorem beBytes_succ (n : Nat) (v : Data) : beBytes (n + 1) v = v.extractLsb' (8 * n) 8 :: beBytes n v := by
  simp only [beBytes, List.range_succ_eq_map, List.map_cons, List.map_map]
  congr 1
  apply List.map_congr_left
  intro i hi
  simp only [Function.comp]
  congr 1
  omega

/-- The number of a value's `n` big-endian bytes is the value modulo `2^(8n)`. -/
theorem beNat_beBytes (n : Nat) (v : Data) : beNat (beBytes n v) = v.toNat % 2 ^ (8 * n) := by
  induction n with
  | zero => simp [beBytes, beNat, Nat.mod_one]
  | succ n ih =>
    rw [beBytes_succ, beNat_cons, ih, beBytes_length, BitVec.extractLsb'_toNat, Nat.shiftRight_eq_div_pow,
      show (256 : Nat) ^ n = 2 ^ (8 * n) by rw [pow_mul]; rfl, show 8 * (n + 1) = 8 * n + 8 by ring, pow_add,
      Nat.mod_mul, Nat.mul_comm, Nat.add_comm]

/-! ## Accesses of every width -/

theorem rangeCheck_none {size ba : Nat} {w : Width} :
    rangeCheck size ba w = none ↔ if w = .w1 then ba < 8 * size else ba % 8 = 0 ∧ ba / 8 + w.bytes ≤ size := by
  unfold rangeCheck
  split_ifs <;> simp <;> omega

/-- The bytes an access in range writes. -/
def writtenBytes (s : State) (x : Area) (ba : Nat) (w : Width) (v : Data) : List Byte :=
  if w = .w1 then [setBit (s.byteAt x (ba / 8)) (ba % 8) (v.getLsbD 0)] else beBytes w.bytes v

theorem writtenBytes_length (s : State) (x : Area) (ba : Nat) (w : Width) (v : Data) : (writtenBytes s x ba w v).length = w.span := by
  unfold writtenBytes Width.span
  split_ifs
  · rfl
  · exact beBytes_length _ _

theorem State.writeVal_eq (s : State) (x : Area) (ba : Nat) (w : Width) (v : Data) :
    s.writeVal x ba w v = s.writeBytes x (ba / 8) (writtenBytes s x ba w v) := by
  unfold State.writeVal writtenBytes
  split_ifs <;> rfl

theorem span_le {size ba : Nat} {w : Width} (h : rangeCheck size ba w = none) : ba / 8 + w.span ≤ size := by
  rw [rangeCheck_none] at h
  unfold Width.span
  split_ifs at h ⊢
  · omega
  · exact h.2

/-- An access in range writes the bytes at its place and no other byte of any buffer. -/
theorem State.byteAt_writeVal (s : State) {x y : Area} {ba c : Nat} {w : Width} (v : Data) (hwf : s.mem.wf (resetByte s.prog) = true)
    (hr : rangeCheck (s.areaSize x) ba w = none) (hc : c < s.areaSize y) :
    (s.writeVal x ba w v).byteAt y c =
      if y = x ∧ ba / 8 ≤ c ∧ c < ba / 8 + w.span then (writtenBytes s x ba w v).getD (c - ba / 8) 0 else s.byteAt y c := by
  rw [State.writeVal_eq, State.byteAt_writeBytes _ _ _ hwf (by rw [writtenBytes_length]; exact span_le hr) hc, writtenBytes_length]

theorem setBit_getLsbD (v : Byte) (i : Nat) (b : Bool) (hi : i < 8) : (setBit v i b).getLsbD i = b := by
  revert v b
  interval_cases i <;> decide

/-- An access in range reads back what it wrote, truncated to its width. -/
theorem State.readVal_writeVal (s : State) {x : Area} {ba : Nat} {w : Width} (v : Data) (hwf : s.mem.wf (resetByte s.prog) = true)
    (hr : rangeCheck (s.areaSize x) ba w = none) : (s.writeVal x ba w v).readVal x ba w = truncTo w v := by
  have hs := span_le hr
  by_cases hw : w = .w1
  · subst hw
    have hb : ba / 8 < s.areaSize x := by simp [Width.span] at hs; omega
    rw [State.readVal, if_pos rfl, State.writeVal, if_pos rfl, State.byteAt_setByte s _ hwf hb hb, if_pos ⟨rfl, rfl⟩,
      setBit_getLsbD _ _ _ (Nat.mod_lt _ (by decide)), truncTo]
    congr 1
    show _ = v.toNat % 2 ^ 1
    rw [pow_one, BitVec.getLsbD, Nat.testBit_zero]
    rcases Nat.mod_two_eq_zero_or_one v.toNat with h | h <;> simp [h]
  · simp only [Width.span, if_neg hw] at hs
    rw [State.readVal, if_neg hw, State.writeVal, if_neg hw]
    have := State.readBytes_writeBytes s (x := x) (b := ba / 8) (beBytes w.bytes v) hwf (by rw [beBytes_length]; exact hs)
    rw [beBytes_length] at this
    rw [this, beNat_beBytes, truncTo]
    congr 2
    cases w <;> first | rfl | exact absurd rfl hw

end Sys2Proof.Machine
end

