-- ==== Sys2Proof/Laws/Operands.lean ====
section
/-! SUPPORT. What an operand access can do, said once for each operation: a fetch changes at most the data-block registers, the
input mirror and the peripheral log; a store changes at most those, the bytes of one place and the status and address registers;
both keep the canonical form of memory, the mapped addresses, the sizes of local data and the legality of the data-block
registers. -/

namespace Sys2Proof.Machine

open Sys2Proof

/-- The state a piece of a command ends in, whether it answers or raises. -/
def Res.state {α : Type} : Res α → State
  | .ok _ s => s
  | .err _ s => s

@[simp] theorem Res.state_ok {α : Type} (a : α) (s : State) : (Res.ok a s).state = s := rfl
@[simp] theorem Res.state_err {α : Type} (x : Raise) (s : State) : (Res.err x s : Res α).state = s := rfl
@[simp] theorem raise_state {α : Type} (c : Cause) (s : State) : (raise c s : Res α).state = s := rfl
@[simp] theorem addrErr_state {α : Type} (r : AddrReason) (s : State) : (addrErr r s : Res α).state = s := rfl
@[simp] theorem callErr_state {α : Type} (r : CallReason) (s : State) : (callErr r s : Res α).state = s := rfl
@[simp] theorem execErr_state {α : Type} (r : ExecReason) (s : State) : (execErr r s : Res α).state = s := rfl

@[simp] theorem Res.withOpnd_state {α : Type} (d : Descriptor) (r : Res α) : (r.withOpnd d).state = r.state := by
  cases r <;> rfl

theorem Res.withOpnd_ok {α : Type} {d : Descriptor} {r : Res α} {a : α} {t : State} (h : r.withOpnd d = .ok a t) : r = .ok a t := by
  cases r with
  | ok b u => exact h
  | err x u => cases h

theorem Res.bind_ok {α β : Type} {r : Res α} {k : α → State → Res β} {b : β} {t : State} (h : r.bind k = .ok b t) :
    ∃ a u, r = .ok a u ∧ k a u = .ok b t := by
  cases r with
  | ok a u => exact ⟨a, u, rfl, h⟩
  | err x u => cases h

/-! ## What every access keeps -/

/-- `t` is `s` after accesses that stay inside the buffers and open only blocks the program has. -/
structure Keeps (s t : State) : Prop where
  rest : t.rest = s.rest
  sizes : t.localSizes = s.localSizes
  wf : s.mem.wf (resetByte s.prog) = true → t.mem.wf (resetByte t.prog) = true
  mapped : (∀ e ∈ s.mem, s.Mapped e.1) → ∀ e ∈ t.mem, t.Mapped e.1
  db : s.prog.regValue s.regs.dbReg → t.prog.regValue t.regs.dbReg
  di : s.prog.regValue s.regs.diReg → t.prog.regValue t.regs.diReg

theorem Keeps.refl (s : State) : Keeps s s := ⟨rfl, rfl, id, id, id, id⟩

theorem Keeps.trans {s t u : State} (h : Keeps s t) (k : Keeps t u) : Keeps s u :=
  ⟨k.rest.trans h.rest, k.sizes.trans h.sizes, fun x => k.wf (h.wf x), fun x => k.mapped (h.mapped x), fun x => k.db (h.db x),
    fun x => k.di (h.di x)⟩

theorem Keeps.prog {s t : State} (h : Keeps s t) : t.prog = s.prog := congrArg (·.prog) h.rest
theorem Keeps.cfg {s t : State} (h : Keeps s t) : t.cfg = s.cfg := congrArg (·.cfg) h.rest
theorem Keeps.mcr {s t : State} (h : Keeps s t) : t.mcr = s.mcr := congrArg (·.mcr) h.rest
theorem Keeps.timers {s t : State} (h : Keeps s t) : t.timers = s.timers := congrArg (·.timers) h.rest
theorem Keeps.counters {s t : State} (h : Keeps s t) : t.counters = s.counters := congrArg (·.counters) h.rest
theorem Keeps.step {s t : State} (h : Keeps s t) : t.step = s.step := congrArg (·.step) h.rest
theorem Keeps.time {s t : State} (h : Keeps s t) : t.time = s.time := congrArg (·.time) h.rest
theorem Keeps.clock {s t : State} (h : Keeps s t) : t.clock = s.clock := congrArg (·.clock) h.rest
theorem Keeps.stats {s t : State} (h : Keeps s t) : t.stats = s.stats := congrArg (·.stats) h.rest
theorem Keeps.mode {s t : State} (h : Keeps s t) : t.mode = s.mode := congrArg (·.mode) h.rest
theorem Keeps.phase {s t : State} (h : Keeps s t) : t.phase = s.phase := congrArg (·.phase) h.rest
theorem Keeps.built {s t : State} (h : Keeps s t) : t.built = s.built := congrArg (·.built) h.rest
theorem Keeps.err {s t : State} (h : Keeps s t) : t.err = s.err := congrArg (·.err) h.rest
theorem Keeps.trace {s t : State} (h : Keeps s t) : t.trace = s.trace := congrArg (·.trace) h.rest
theorem Keeps.body {s t : State} (h : Keeps s t) : t.body = s.body := congrArg (·.body) h.rest
theorem Keeps.din {s t : State} (h : Keeps s t) : t.din = s.din := congrArg (·.din) h.rest
theorem Keeps.reply {s t : State} (h : Keeps s t) : t.reply = s.reply := congrArg (·.reply) h.rest
theorem Keeps.commands {s t : State} (h : Keeps s t) : t.env.commands = s.env.commands := congrArg (·.env.commands) h.rest
theorem Keeps.lastReading {s t : State} (h : Keeps s t) : t.env.lastReading = s.env.lastReading := congrArg (·.env.lastReading) h.rest
theorem Keeps.framesBuilt {s t : State} (h : Keeps s t) : t.env.framesBuilt = s.env.framesBuilt := congrArg (·.env.framesBuilt) h.rest
theorem Keeps.accus {s t : State} (h : Keeps s t) : t.regs.accu3 = s.regs.accu3 ∧ t.regs.accu4 = s.regs.accu4 :=
  ⟨congrArg (·.regs.accu3) h.rest, congrArg (·.regs.accu4) h.rest⟩

theorem Keeps.cs {s t : State} (h : Keeps s t) :
    t.cs.map (fun f => ({ f with locals := [] } : Frame)) = s.cs.map fun f => { f with locals := [] } := congrArg (·.cs) h.rest

theorem Keeps.depth {s t : State} (h : Keeps s t) : t.cs.length = s.cs.length := by
  have := congrArg List.length h.cs
  simpa using this

/-- A frame after accesses is the frame before, but for the contents of its local data. -/
theorem Keeps.getElem? {s t : State} (h : Keeps s t) (i : Nat) :
    (s.cs[i]? = none ∧ t.cs[i]? = none) ∨
      ∃ f l, s.cs[i]? = some f ∧ t.cs[i]? = some { f with locals := l } ∧ l.length = f.locals.length := by
  have hc := congrArg (·[i]?) h.cs
  have hz := congrArg (·[i]?) h.sizes
  simp only [List.getElem?_map, State.localSizes] at hc hz
  cases hs : s.cs[i]? with
  | none =>
    cases ht : t.cs[i]? with
    | none => exact .inl ⟨rfl, rfl⟩
    | some g => simp [hs, ht] at hc
  | some f =>
    cases ht : t.cs[i]? with
    | none => simp [hs, ht] at hc
    | some g =>
      simp only [hs, ht, Option.map_some, Option.some.injEq] at hc hz
      refine .inr ⟨f, g.locals, rfl, ?_, hz⟩
      congr 1
      cases f; cases g; simp_all

theorem Keeps.areaSize {s t : State} (h : Keeps s t) (x : Area) : t.areaSize x = s.areaSize x := by
  cases x with
  | loc j =>
    simp only [State.areaSize]
    rcases h.getElem? j with ⟨h1, h2⟩ | ⟨f, l, h1, h2, h3⟩
    · rw [h1, h2]
    · rw [h1, h2]; exact h3
  | db n => simp only [State.areaSize, h.prog]
  | _ => simp only [State.areaSize, h.cfg]

/-! ## Bytes -/

theorem State.rest_setByte (s : State) (x : Area) (b : Nat) (v : Byte) : (s.setByte x b v).rest = s.rest := by
  cases x with
  | loc j =>
    have : (s.cs.modify j fun f => { f with locals := f.locals.set b v }).map (fun f => ({ f with locals := [] } : Frame))
        = s.cs.map fun f => { f with locals := [] } := by
      apply List.ext_getElem?
      intro i
      simp only [List.getElem?_map, List.getElem?_modify]
      cases s.cs[i]? with
      | none => simp
      | some f => split_ifs <;> rfl
    simp only [State.rest, State.setByte_loc_cs, this]
    rfl
  | _ => rfl

theorem State.localSizes_setByte (s : State) (x : Area) (b : Nat) (v : Byte) : (s.setByte x b v).localSizes = s.localSizes := by
  cases x with
  | loc j =>
    apply List.ext_getElem?
    intro i
    simp only [State.localSizes, State.setByte_loc_cs, List.getElem?_map, List.getElem?_modify]
    cases s.cs[i]? with
    | none => simp
    | some f => split_ifs <;> simp
  | _ => rfl

theorem State.writeBytes_regs (x : Area) (bs : List Byte) : ∀ (s : State) (b : Nat), (s.writeBytes x b bs).regs = s.regs := by
  induction bs with
  | nil => intro s b; rfl
  | cons v r ih => intro s b; rw [State.writeBytes, ih, State.setByte_regs]

theorem State.fetchRest_writeInputs (s : State) (b : Nat) (bs : List Byte) : (s.writeBytes .inputs b bs).fetchRest = s.fetchRest := by
  induction bs generalizing s b with
  | nil => rfl
  | cons v r ih => rw [State.writeBytes, ih]; rfl

/-- A byte written inside its buffer. -/
theorem Keeps.setByte (s : State) {x : Area} {b : Nat} (v : Byte) (hb : b < s.areaSize x) : Keeps s (s.setByte x b v) := by
  refine ⟨s.rest_setByte x b v, s.localSizes_setByte x b v, s.setByte_wf x b v, fun hm e he => ?_, ?_, ?_⟩
  · have conv : ∀ a, s.Mapped a → (s.setByte x b v).Mapped a := by
      rintro a ⟨y, c, h1, h2, h3⟩
      exact ⟨y, c, h1, by rw [State.areaSize_setByte]; exact h2, h3⟩
    by_cases hx : x.inMemory = true
    · rw [State.setByte_mem _ _ _ hx] at he
      rcases Memory.mem_write he with rfl | he
      · exact conv _ ⟨x, b, hx, hb, rfl⟩
      · exact conv _ (hm e he)
    · cases x <;> first | exact conv _ (hm e he) | simp [Area.inMemory] at hx
  · simp
  · simp

theorem Keeps.writeBytes {x : Area} (bs : List Byte) :
    ∀ (s : State) (b : Nat), b + bs.length ≤ s.areaSize x → Keeps s (s.writeBytes x b bs) := by
  induction bs with
  | nil => intro s b _; exact Keeps.refl s
  | cons v r ih =>
    intro s b hb
    rw [List.length_cons] at hb
    exact (Keeps.setByte s v (by omega)).trans (ih _ _ (by rw [State.areaSize_setByte]; omega))

theorem Keeps.writeVal (s : State) {x : Area} {ba : Nat} {w : Width} (v : Data) (h : rangeCheck (s.areaSize x) ba w = none) :
    Keeps s (s.writeVal x ba w v) := by
  rw [State.writeVal_eq]
  exact Keeps.writeBytes _ s _ (by rw [writtenBytes_length]; exact span_le h)

/-! ## Registers and the host's answers -/

theorem Keeps.setBlockReg (s : State) (di : Bool) {n : BlockNum} (h : s.prog.regValue n) : Keeps s (s.setBlockReg di n) := by
  cases di
  · exact ⟨rfl, rfl, id, id, fun _ => h, id⟩
  · exact ⟨rfl, rfl, id, id, id, fun _ => h⟩

theorem Keeps.setStw (s : State) (v : BitVec 9) : Keeps s (s.setStw v) := ⟨rfl, rfl, id, id, id, id⟩

theorem Keeps.setAr (s : State) (n : ArSel) (v : BitVec 32) : Keeps s (s.setAr n v) := by
  cases n <;> exact ⟨rfl, rfl, id, id, id, id⟩

theorem Keeps.periphRead (s : State) (w b : Nat) : Keeps s (s.periphRead w b).2 := ⟨rfl, rfl, id, id, id, id⟩

theorem Keeps.periphWrite (s : State) (w b : Nat) (bs : List Byte) : Keeps s (s.periphWrite w b bs).2 := ⟨rfl, rfl, id, id, id, id⟩

/-! ## The effects an access is made of -/

/-- `t` comes from `s` by the effects operand accesses are made of: opening a data block (R230), asking the peripheral and mirroring its
answer (R241); with `w`, writing bytes of a buffer in range; with `r`, writing the status or an address register and handing bytes to
the peripheral (R242, R245, R246). A FETCH is `Effects false false`, the copy-in of a CALL `Effects true false`, a STORE
`Effects true true`. -/
inductive Effects (w r : Bool) : State → State → Prop where
  | refl (s : State) : Effects w r s s
  | trans {s t u : State} : Effects w r s t → Effects w r t u → Effects w r s u
  | openReg (s : State) (di : Bool) {n : BlockNum} (h : s.prog.hasDb n = true) : Effects w r s (s.setBlockReg di n)
  | ask (s : State) (n b : Nat) : Effects w r s (s.periphRead n b).2
  | mirror (s : State) {b : Nat} {bs : List Byte} (h : b + bs.length ≤ s.areaSize .inputs) :
      Effects w r s (s.writeBytes .inputs b bs)
  | write (s : State) {x : Area} {b : Nat} {bs : List Byte} (hw : w = true) (h : b + bs.length ≤ s.areaSize x) :
      Effects w r s (s.writeBytes x b bs)
  | stw (s : State) (v : BitVec 9) (hr : r = true) : Effects w r s (s.setStw v)
  | ar (s : State) (n : ArSel) (v : BitVec 32) (hr : r = true) : Effects w r s (s.setAr n v)
  | tell (s : State) (n b : Nat) (bs : List Byte) (hr : r = true) : Effects w r s (s.periphWrite n b bs).2

/-- Whatever the effects, what `Keeps` lists is kept. -/
theorem Effects.keeps {w r : Bool} {s t : State} (h : Effects w r s t) : Keeps s t := by
  induction h with
  | refl s => exact Keeps.refl s
  | trans _ _ h k => exact h.trans k
  | openReg s di h => exact Keeps.setBlockReg s di (.inr h)
  | ask s n b => exact Keeps.periphRead s n b
  | mirror s h => exact Keeps.writeBytes _ s _ h
  | write s _ h => exact Keeps.writeBytes _ s _ h
  | stw s v _ => exact Keeps.setStw s v
  | ar s n v _ => exact Keeps.setAr s n v
  | tell s n b bs _ => exact Keeps.periphWrite s n b bs

/-- Effects without register writes leave the status and address registers and the accumulators as they are. -/
theorem Effects.regs {w : Bool} {s t : State} (h : Effects w false s t) :
    t.regs = { s.regs with dbReg := t.regs.dbReg, diReg := t.regs.diReg } := by
  induction h with
  | refl s => rfl
  | trans _ _ h k => rw [k, h]
  | openReg s di h => cases di <;> rfl
  | ask s n b => rfl
  | mirror s h => rw [State.writeBytes_regs]
  | write s _ h => rw [State.writeBytes_regs]
  | stw s v hr => cases hr
  | ar s n v hr => cases hr
  | tell s n b bs hr => cases hr

/-- A fetch leaves everything but what `State.fetchRest` lists, and every byte outside the input region. -/
theorem Effects.fetch {s t : State} (h : Effects false false s t) :
    t.fetchRest = s.fetchRest ∧
      (s.mem.wf (resetByte s.prog) = true → ∀ x, x ≠ .inputs → ∀ c, c < s.areaSize x → t.byteAt x c = s.byteAt x c) := by
  induction h with
  | refl s => exact ⟨rfl, fun _ _ _ _ _ => rfl⟩
  | trans h1 _ h k =>
    refine ⟨k.1.trans h.1, fun hwf x hx c hc => ?_⟩
    rw [k.2 (h1.keeps.wf hwf) x hx c (by rw [h1.keeps.areaSize]; exact hc), h.2 hwf x hx c hc]
  | openReg s di h => cases di <;> exact ⟨rfl, fun _ x _ c _ => by cases x <;> rfl⟩
  | ask s n b => exact ⟨rfl, fun _ x _ c _ => by cases x <;> rfl⟩
  | @mirror s b bs h =>
    refine ⟨State.fetchRest_writeInputs s b bs, fun hwf x hx c hc => ?_⟩
    rw [State.byteAt_writeBytes bs s b hwf h hc, if_neg (fun e => hx e.1)]
  | write s hw h => cases hw
  | stw s v hr => cases hr
  | ar s n v hr => cases hr
  | tell s n b bs hr => cases hr

/-! ## Composition -/

variable {wr rr : Bool}

theorem Effects.bind {α β : Type} {s : State} {r : Res α} {k : α → State → Res β} (h : Effects wr rr s r.state)
    (hk : ∀ a t, r = .ok a t → Effects wr rr t (k a t).state) : Effects wr rr s (r.bind k).state := by
  cases r with
  | ok a t => exact Effects.trans h (hk a t rfl)
  | err x t => exact h

theorem Effects.withOpnd {α : Type} {s : State} {r : Res α} (d : Descriptor) (h : Effects wr rr s r.state) : Effects wr rr s (r.withOpnd d).state := by
  rw [Res.withOpnd_state]; exact h

theorem Effects.decodeArg (d : Descriptor) (s : State) : Effects wr rr s (decodeArg d s).state := by
  unfold Machine.decodeArg; split <;> exact Effects.refl s

theorem Effects.memRead (x : Area) (ba : Nat) (w : Width) (s : State) : Effects wr rr s (memRead x ba w s).state := by
  unfold Machine.memRead
  split <;> exact Effects.refl s

theorem Effects.memWrite (x : Area) (ba : Nat) (w : Width) (v : Data) (s : State) : Effects true rr s (memWrite x ba w v s).state := by
  unfold Machine.memWrite
  split
  · exact Effects.refl s
  · rename_i h
    rw [Res.state_ok, State.writeVal_eq]
    exact Effects.write s rfl (by rw [writtenBytes_length]; exact span_le h)

theorem Effects.openBlock (di : Bool) (n : BlockNum) (s : State) : Effects wr rr s (openBlock di n s).state := by
  unfold Machine.openBlock
  split_ifs with h
  · exact Effects.openReg s di h
  · exact Effects.refl s

theorem Effects.liveBlock (di : Bool) (q : Option BlockNum) (s : State) : Effects wr rr s (liveBlock di q s).state := by
  unfold Machine.liveBlock
  refine Effects.bind ?_ fun a t _ => by split_ifs <;> exact Effects.refl t
  cases q with
  | none => exact Effects.refl s
  | some n => exact Effects.openBlock di n s

theorem Effects.parentArea (s : State) : Effects wr rr s (parentArea s).state := by
  unfold Machine.parentArea; split_ifs <;> exact Effects.refl s

/-! ## Fetches -/

theorem Effects.fetchCell (k : CellKind) (w : Width) (bcd : Bool) (i : BitVec 16) (s : State) : Effects wr rr s (fetchCell k w bcd i s).state := by
  unfold Machine.fetchCell
  split_ifs <;> exact Effects.refl s

theorem Effects.fetchPeriph (w : Width) (out : Bool) (ba : BitAddr) (s : State) : Effects wr rr s (fetchPeriph w out ba s).state := by
  unfold Machine.fetchPeriph
  split_ifs
  · exact Effects.refl s
  · exact Effects.refl s
  · exact Effects.refl s
  · dsimp only
    split
    · exact Effects.ask s _ _
    · split_ifs with h1 h2
      · exact Effects.ask s _ _
      · exact (Effects.ask s _ _).trans (Effects.mirror _ (by rw [not_not.1 h1]; exact h2))
      · exact Effects.ask s _ _

theorem Effects.fetchStw (w : Width) (v : StwView) (b : Fin 9) (s : State) : Effects wr rr s (fetchStw w v b s).state := by
  unfold Machine.fetchStw
  split_ifs <;> exact Effects.refl s

theorem Effects.fetchPrim (p : Prim) (s : State) : Effects wr rr s (fetchPrim p s).state := by
  cases p with
  | imm w v => exact Effects.refl s
  | input w ba => exact Effects.memRead _ _ _ s
  | output w ba => exact Effects.memRead _ _ _ s
  | flag w ba => exact Effects.memRead _ _ _ s
  | loc w ba => exact Effects.memRead _ _ _ s
  | parentLoc w ba => exact Effects.bind (Effects.parentArea s) fun a t _ => Effects.memRead _ _ _ t
  | db w q ba => exact Effects.bind (Effects.liveBlock _ _ s) fun a t _ => Effects.memRead _ _ _ t
  | di w q ba => exact Effects.bind (Effects.liveBlock _ _ s) fun a t _ => Effects.memRead _ _ _ t
  | timer w bcd i => exact Effects.fetchCell _ _ _ _ s
  | counter w bcd i => exact Effects.fetchCell _ _ _ _ s
  | periph w out ba => exact Effects.fetchPeriph _ _ _ s
  | stw w v b => exact Effects.fetchStw _ _ _ s
  | ar w n => simp only [Machine.fetchPrim]; split_ifs <;> exact Effects.refl s
  | blk w k n => simp only [Machine.fetchPrim]; split_ifs <;> exact Effects.refl s

theorem Effects.shiftAddr (ba : BitAddr) (off : Nat) (s : State) : Effects wr rr s (shiftAddr ba off s).state := by
  unfold Machine.shiftAddr; split_ifs <;> exact Effects.refl s

theorem Effects.bindingPrim (p : Prim) (off : Nat) (s : State) : Effects wr rr s (bindingPrim p off s).state := by
  cases p <;> simp only [Machine.bindingPrim] <;>
    first
    | exact Effects.bind (Effects.shiftAddr _ _ s) fun a t _ => Effects.refl t
    | (split_ifs <;> exact Effects.refl s)

theorem Effects.bindingLoc (b : Binding) (off : Nat) (s : State) : Effects wr rr s (bindingLoc b off s).state := by
  cases b <;> simp only [Machine.bindingLoc]
  · split_ifs <;> exact Effects.refl s
  · exact Effects.bindingPrim _ _ s
  · split_ifs <;> exact Effects.refl s
  · split_ifs <;> exact Effects.refl s

theorem Effects.resolveField (k : BitVec 16) (sub : BitAddr) (s : State) : Effects wr rr s (resolveField k sub s).state := by
  unfold Machine.resolveField
  split
  · exact Effects.refl s
  · split
    · exact Effects.refl s
    · rename_i f _ fd _
      split_ifs
      · exact Effects.refl s
      · exact Effects.refl s
      · split
        · unfold Machine.fcField
          split_ifs
          · exact Effects.refl s
          · exact Effects.refl s
          · split
            · exact Effects.refl s
            · exact Effects.bindingLoc _ _ s
        · unfold Machine.fbField
          dsimp only
          split_ifs
          · unfold Machine.fbAggregate
            refine Effects.bind (Effects.memRead _ _ _ s) fun a t _ => ?_
            dsimp only
            split_ifs <;> exact Effects.refl t
          · exact Effects.refl s
          · exact Effects.refl s

theorem Effects.fetchPlace (w : Width) (pl : Place) (s : State) : Effects wr rr s (fetchPlace w pl s).state := by
  cases pl with
  | dbAt n ba => exact Effects.memRead _ _ _ s
  | localAt j ba => exact Effects.memRead _ _ _ s
  | opnd p => exact Effects.fetchPrim _ s
  | const c v => exact Effects.refl s

theorem Effects.fetchOperand (o : Operand) (s : State) : Effects wr rr s (fetchOperand o s).state := by
  cases o with
  | prim p => exact Effects.fetchPrim p s
  | field w k sub => exact Effects.bind (Effects.resolveField _ _ s) fun a t _ => Effects.fetchPlace _ _ t

theorem Effects.resolvePointer (inner : Operand) (disp : BitAddr) (form : BitVec 32 → Bool) (mk : BitVec 32 → BitAddr → Prim) (s : State) :
    Effects wr rr s (resolvePointer inner disp form mk s).state := by
  unfold Machine.resolvePointer
  split_ifs
  · exact Effects.refl s
  · refine Effects.bind (Effects.fetchOperand _ s) fun a t _ => ?_
    dsimp only
    split_ifs
    · exact Effects.bind (Effects.shiftAddr _ _ t) fun b u _ => Effects.refl u
    · exact Effects.refl t

theorem Effects.resolveNumber (inner : Operand) (mk : BitVec 16 → Prim) (s : State) : Effects wr rr s (resolveNumber inner mk s).state := by
  unfold Machine.resolveNumber
  split_ifs
  · exact Effects.refl s
  · exact Effects.bind (Effects.fetchOperand _ s) fun a t _ => Effects.refl t

theorem Effects.resolveInd (dir : AccessDir) (w : Width) (tgt : IndTarget) (disp : BitAddr) (inner : Operand) (s : State) :
    Effects wr rr s (resolveInd dir w tgt disp inner s).state := by
  cases tgt <;> simp only [Machine.resolveInd] <;>
    first | exact Effects.resolveNumber _ _ s | exact Effects.resolvePointer _ _ _ _ s

theorem Effects.resolveDesc (dir : AccessDir) (D : Desc) (s : State) : Effects wr rr s (resolveDesc dir D s).state := by
  cases D with
  | direct o => exact Effects.refl s
  | ind w tgt disp inner => exact Effects.bind (Effects.resolveInd _ _ _ _ _ s) fun a t _ => Effects.refl t

theorem Effects.fetchOp (D : Desc) (s : State) : Effects wr rr s (fetchOp D s).state :=
  Effects.bind (Effects.resolveDesc _ _ s) fun a t _ => Effects.fetchOperand a t

/-! ## Stores -/

theorem Effects.storePeriph (w : Width) (out : Bool) (ba : BitAddr) (v : Data) (s : State) :
    Effects true true s (storePeriph w out ba v s).state := by
  unfold Machine.storePeriph
  have hw : ∀ n, ba.toNat / 8 + w.bytes ≤ n → ba.toNat / 8 + (beBytes w.bytes v).length ≤ n := by
    intro n h; rw [beBytes_length]; exact h
  split_ifs
  · exact Effects.refl s
  · exact Effects.refl s
  · exact Effects.refl s
  all_goals
    dsimp only
    split_ifs <;>
      first
      | exact (Effects.write s rfl (hw _ ‹_›)).trans (Effects.tell _ _ _ _ rfl)
      | exact Effects.tell s _ _ _ rfl

theorem Effects.storePrim (p : Prim) (v : Data) (s : State) : Effects true true s (storePrim p v s).state := by
  cases p with
  | imm w x => exact Effects.refl s
  | input w ba => exact Effects.memWrite _ _ _ _ s
  | output w ba => exact Effects.memWrite _ _ _ _ s
  | flag w ba => exact Effects.memWrite _ _ _ _ s
  | loc w ba => exact Effects.memWrite _ _ _ _ s
  | parentLoc w ba => exact Effects.bind (Effects.parentArea s) fun a t _ => Effects.memWrite _ _ _ _ t
  | db w q ba => exact Effects.bind (Effects.liveBlock _ _ s) fun a t _ => Effects.memWrite _ _ _ _ t
  | di w q ba => exact Effects.bind (Effects.liveBlock _ _ s) fun a t _ => Effects.memWrite _ _ _ _ t
  | timer w bcd i => simp only [Machine.storePrim, storeCell]; split_ifs <;> exact Effects.refl s
  | counter w bcd i => simp only [Machine.storePrim, storeCell]; split_ifs <;> exact Effects.refl s
  | periph w out ba => exact Effects.storePeriph _ _ _ _ s
  | stw w x b =>
    simp only [Machine.storePrim, storeStw]
    split_ifs
    · exact Effects.stw s _ rfl
    · exact Effects.stw s _ rfl
    · exact Effects.refl s
    · exact Effects.refl s
    · exact Effects.refl s
  | ar w n =>
    simp only [Machine.storePrim]
    split_ifs
    · exact Effects.ar s _ _ rfl
    · exact Effects.refl s
  | blk w k n => simp only [Machine.storePrim]; split_ifs <;> exact Effects.refl s

theorem Effects.storePlace (w : Width) (pl : Place) (v : Data) (s : State) : Effects true true s (storePlace w pl v s).state := by
  cases pl with
  | dbAt n ba => exact Effects.memWrite _ _ _ _ s
  | localAt j ba => exact Effects.memWrite _ _ _ _ s
  | opnd p => exact Effects.storePrim _ _ s
  | const c x => exact Effects.refl s

theorem Effects.storeOperand (o : Operand) (v : Data) (s : State) : Effects true true s (storeOperand o v s).state := by
  cases o with
  | prim p => exact Effects.storePrim p v s
  | field w k sub => exact Effects.bind (Effects.resolveField _ _ s) fun a t _ => Effects.storePlace _ _ _ t

theorem Effects.storeOp (D : Desc) (v : Data) (s : State) : Effects true true s (storeOp D v s).state :=
  Effects.bind (Effects.resolveDesc _ _ s) fun a t _ => Effects.storeOperand a v t

end Sys2Proof.Machine
end

