-- ==== Sys2Proof/Laws/Calls.lean ====
section
/-! SUPPORT. What a CALL and a copy-back can do: a faulting CALL leaves only the effects of its operands, a completing one pushes one legal
frame and sets the data-block registers to legal values; a copy-back has the effects of its stores. -/

namespace Sys2Proof.Machine

open Sys2Proof

/-! ## The pieces of a CALL -/

theorem Effects.callHeaderCheck {wr rr : Bool} (sh : ShapeKind) (m n : BitVec 16) (raw : Bool) (s : State) :
    Effects wr rr s (callHeaderCheck sh m n raw s).state := by
  unfold Machine.callHeaderCheck; split_ifs <;> exact Effects.refl s

theorem Effects.directTarget {wr rr : Bool} (k : BlockKind) (t : Descriptor) (s : State) : Effects wr rr s (directTarget k t s).state := by
  refine Effects.bind (Effects.decodeArg t s) fun D u _ => ?_
  split
  · split_ifs <;> exact Effects.refl u
  · exact Effects.refl u

theorem Effects.rawTarget {wr rr : Bool} (k : BlockKind) (t : Descriptor) (s : State) : Effects wr rr s (rawTarget k t s).state := by
  refine Effects.bind (Effects.decodeArg t s) fun D u _ => ?_
  split_ifs
  · exact Effects.refl u
  · exact Effects.refl u
  · exact Effects.bind (Effects.fetchOp D u) fun v w _ => Effects.refl w

theorem Effects.lookupBlock {wr rr : Bool} (k : BlockKind) (n : BlockNum) (s : State) : Effects wr rr s (lookupBlock k n s).state := by
  unfold Machine.lookupBlock; split <;> exact Effects.refl s

theorem lookupBlock_ok {k : BlockKind} {n : BlockNum} {s t : State} {b : CodeBlock} (h : lookupBlock k n s = .ok b t) :
    s.prog.code k n = some b ∧ t = s := by
  unfold lookupBlock at h
  split at h
  · cases h
  · rename_i h'; cases h; exact ⟨h', rfl⟩

theorem Effects.callTarget {wr rr : Bool} (k : BlockKind) (raw : Bool) (t : Descriptor) (s : State) :
    Effects wr rr s (callTarget k raw t s).state := by
  refine Effects.withOpnd _ (Effects.bind ?_ fun n u _ => Effects.bind (Effects.lookupBlock k n u) fun b v _ => Effects.refl v)
  split_ifs
  · exact Effects.rawTarget k t s
  · exact Effects.directTarget k t s

/-- The target of a CALL that answers is a block of the program, of the shape's kind. -/
theorem callTarget_ok {k : BlockKind} {raw : Bool} {t : Descriptor} {s u : State} {nb : BlockNum × CodeBlock}
    (h : callTarget k raw t s = .ok nb u) : u.prog.code k nb.1 = some nb.2 := by
  obtain ⟨n, w, _, h2⟩ := Res.bind_ok (Res.withOpnd_ok h)
  obtain ⟨b, x, h3, h4⟩ := Res.bind_ok h2
  obtain ⟨h5, rfl⟩ := lookupBlock_ok h3
  cases h4
  exact h5

theorem Effects.checkParams {wr rr : Bool} (b : CodeBlock) (pl : List Param) : ∀ (seen : List (BitVec 16)) (s : State),
    Effects wr rr s (checkParams b pl seen s).state := by
  induction pl with
  | nil => intro seen s; exact Effects.refl s
  | cons p r ih =>
    intro seen s
    refine Effects.bind (Effects.withOpnd _ ?_) fun _ u _ => ih _ u
    split
    · exact Effects.refl s
    · split_ifs <;> exact Effects.refl s

theorem Effects.callInstance {wr rr : Bool} (x : Descriptor) (s : State) : Effects wr rr s (callInstance x s).state := by
  refine Effects.withOpnd _ (Effects.bind (Effects.decodeArg x s) fun D u _ => Effects.bind (Effects.resolveDesc _ D u) fun o v _ => ?_)
  split
  · split_ifs <;> exact Effects.refl v
  · exact Effects.refl v

theorem callInstance_ok {x : Descriptor} {s u : State} {m : BlockNum} (h : callInstance x s = .ok m u) : u.prog.hasDb m = true := by
  obtain ⟨D, w, _, h2⟩ := Res.bind_ok (Res.withOpnd_ok h)
  obtain ⟨o, y, _, h4⟩ := Res.bind_ok h2
  split at h4
  · split_ifs at h4 with h5
    · cases h4; exact h5
    · cases h4
  · cases h4

theorem Effects.bindPrim {wr rr : Bool} (p : Prim) (s : State) : Effects wr rr s (bindPrim p s).state := by
  cases p <;> simp only [Machine.bindPrim] <;>
    first
    | exact Effects.refl s
    | exact Effects.bind (Effects.liveBlock _ _ s) fun n u _ => Effects.refl u
    | (split_ifs <;> exact Effects.refl s)

theorem Effects.bindPlace {wr rr : Bool} (pl : Place) (s : State) : Effects wr rr s (bindPlace pl s).state := by
  cases pl with
  | opnd p => exact Effects.bindPrim p s
  | _ => exact Effects.refl s

theorem Effects.bindActual {wr rr : Bool} (d : Descriptor) (f : Field) (s : State) : Effects wr rr s (bindActual d f s).state := by
  refine Effects.bind (Effects.decodeArg d s) fun D u _ => Effects.bind (Effects.resolveDesc _ D u) fun o v _ => ?_
  split
  · exact Effects.bindPrim _ v
  · exact Effects.bind (Effects.resolveField _ _ v) fun pl w _ => Effects.bindPlace pl w

theorem Effects.bindParams {wr rr : Bool} (b : CodeBlock) (pl : List Param) : ∀ s, Effects wr rr s (bindParams b pl s).state := by
  induction pl with
  | nil => intro s; exact Effects.refl s
  | cons p r ih =>
    intro s
    refine Effects.bind (Effects.withOpnd _ ?_) fun x u _ => Effects.bind (ih u) fun xs v _ => Effects.refl v
    split
    · exact Effects.refl s
    · exact Effects.bindActual _ _ s

theorem Effects.copyInOne {rr : Bool} (m : BlockNum) (base : Nat) (f : Field) (d : Descriptor) (s : State) :
    Effects true rr s (copyInOne m base f d s).state := by
  unfold Machine.copyInOne
  split_ifs
  · refine Effects.bind (Effects.decodeArg d s) fun D u _ => Effects.bind (Effects.resolveDesc _ D u) fun o v _ => ?_
    split
    · exact Effects.bind (Effects.liveBlock _ _ v) fun n w _ => Effects.memWrite _ _ _ _ w
    · exact Effects.bind (Effects.liveBlock _ _ v) fun n w _ => Effects.memWrite _ _ _ _ w
    · exact Effects.refl v
  · refine Effects.bind (Effects.decodeArg d s) fun D u _ => ?_
    split_ifs
    · exact Effects.refl u
    · exact Effects.bind (Effects.fetchOp D u) fun v w _ => Effects.memWrite _ _ _ _ w
  · exact Effects.refl s

theorem Effects.copyIn {rr : Bool} (b : CodeBlock) (m : BlockNum) (base : Nat) (pl : List Param) : ∀ s,
    Effects true rr s (copyIn b m base pl s).state := by
  induction pl with
  | nil => intro s; exact Effects.refl s
  | cons p r ih =>
    intro s
    refine Effects.bind (Effects.withOpnd _ ?_) fun x u _ => ih u
    split
    · exact Effects.refl s
    · exact Effects.copyInOne _ _ _ _ s

theorem Effects.miInstance {wr rr : Bool} (b : CodeBlock) (m : BitVec 16) (s : State) : Effects wr rr s (miInstance b m s).state := by
  unfold Machine.miInstance; split_ifs <;> exact Effects.refl s

theorem miInstance_ok {b : CodeBlock} {m : BitVec 16} {s t : State} {x : BlockNum × Nat} (h : miInstance b m s = .ok x t) :
    t = s ∧ s.prog.hasDb s.regs.diReg = true ∧ x = (s.regs.diReg, miBase s m) := by
  unfold miInstance at h
  split_ifs at h with h1 h2 <;> cases h
  exact ⟨rfl, h1, rfl⟩

/-! ## The whole of a CALL -/

/-- What a CALL ends in: it raised, and only its operands' effects happened; or it answered 0, and after those effects one frame was pushed,
the two data-block registers were written and `CALLED` set. The frame and the registers are legal when the registers were. -/
def CallEnds (s : State) : Res Data → Prop
  | .err _ t => Effects true false s t
  | .ok v t => v = 0 ∧ ∃ u f db di, Effects true false s u ∧
      t = { (u.setDbDi db di).push f with step := { u.step with called := true } } ∧
      (u.prog.regValue u.regs.dbReg → u.prog.regValue u.regs.diReg →
        FrameOk u.prog f ∧ u.prog.regValue db ∧ u.prog.regValue di)

theorem CallEnds.bind {α : Type} {s : State} {r : Res α} {k : α → State → Res Data} (h : Effects true false s r.state)
    (hk : ∀ a t, r = .ok a t → Effects true false s t → CallEnds t (k a t)) : CallEnds s (r.bind k) := by
  cases r with
  | err x t => exact h
  | ok a t =>
    have := hk a t rfl h
    rw [Res.bind]
    cases hc : k a t with
    | err x u => rw [hc] at this; exact Effects.trans h this
    | ok v u =>
      rw [hc] at this
      obtain ⟨h0, w, f, db, di, h1, h2, h3⟩ := this
      exact ⟨h0, w, f, db, di, Effects.trans h h1, h2, h3⟩

theorem directCall_ends {sh : ShapeKind} {sys : Bool} {m : BitVec 16} {t : Descriptor} {pl : List Param}
    {k : BlockNum → CodeBlock → State → Res Data} {s : State}
    (hk : ∀ n b u, u.prog.code (targetKind sh sys) n = some b → CallEnds u (k n b u)) :
    CallEnds s (directCall sh sys m t pl k s) := by
  refine CallEnds.bind (Effects.callHeaderCheck _ _ _ _ s) fun _ u _ _ => ?_
  refine CallEnds.bind (Effects.callTarget _ _ _ u) fun nb v hv _ => ?_
  have hb := callTarget_ok hv
  refine CallEnds.bind (Effects.checkParams _ _ _ v) fun _ w _ hw => ?_
  exact hk _ _ w (by rw [hw.keeps.prog]; exact hb)

theorem rawCall_ends {sh : ShapeKind} {sys : Bool} {m n : BitVec 16} {t : Descriptor}
    {k : BlockNum → CodeBlock → State → Res Data} {s : State}
    (hk : ∀ n b u, u.prog.code (targetKind sh sys) n = some b → CallEnds u (k n b u)) :
    CallEnds s (rawCall sh sys m n t k s) := by
  refine CallEnds.bind (Effects.callHeaderCheck _ _ _ _ s) fun _ u _ _ => ?_
  refine CallEnds.bind (Effects.callTarget _ _ _ u) fun nb v hv _ => ?_
  exact hk _ _ v (callTarget_ok hv)

theorem State.length_newFrame (s : State) (k : BlockKind) (n : BlockNum) (m : Nat) : (s.newFrame k n m).locals.length = m := by
  simp [State.newFrame]

theorem finishCall_ends {s u : State} {f : Frame} {db di : BlockNum} (h : Effects true false s u)
    (hf : u.prog.regValue u.regs.dbReg → u.prog.regValue u.regs.diReg →
      FrameOk u.prog f ∧ u.prog.regValue db ∧ u.prog.regValue di) : CallEnds s (finishCall f (u.setDbDi db di)) :=
  ⟨rfl, u, f, db, di, h, rfl, hf⟩

/-- The frame of a function call is legal. -/
theorem frameOk_fc {p : Prog} {sys : Bool} {n : BlockNum} {b : CodeBlock} (hb : p.code (targetKind .fc sys) n = some b) (s : State)
    (bs : List (BitVec 16 × Binding)) (raw : Bool) (h : raw = true → bs = []) :
    FrameOk p { s.newFrame (targetKind .fc sys) n b.tempSize with bind := bs, raw := raw } where
  block := ⟨b, hb, s.length_newFrame (targetKind .fc sys) n b.tempSize⟩
  cls := rfl
  paren := Nat.zero_le _
  saved := fun r hr => by cases hr
  savedFb := by cases sys <;> exact ⟨fun hc => (by cases hc), fun hc => (by cases hc)⟩
  bare := fun hr => ⟨h hr, rfl⟩
  bindFc := fun hc => by cases sys <;> cases hc
  paramsFb := fun _ => rfl
  inst := .inl rfl

/-- The frame of a function-block call, of any of the four shapes, is legal. -/
theorem frameOk_fb {p : Prog} {sh : ShapeKind} (hsh : sh ≠ .fc) {sys : Bool} {n : BlockNum} {b : CodeBlock}
    (hb : p.code (targetKind sh sys) n = some b) (s : State) (ps : List (BitVec 16 × Descriptor)) (raw : Bool) (h : raw = true → ps = [])
    {m x y : BlockNum} (base : Nat) (hm : p.regValue m) (hx : p.regValue x) (hy : p.regValue y) :
    FrameOk p { s.newFrame (targetKind sh sys) n b.tempSize with
      params := ps, raw := raw, instDB := m, instBase := base, saved := some (x, y) } where
  block := ⟨b, hb, s.length_newFrame (targetKind sh sys) n b.tempSize⟩
  cls := rfl
  paren := Nat.zero_le _
  saved := fun r hr => by cases hr; exact ⟨hx, hy⟩
  savedFb := by cases sh <;> first | exact absurd rfl hsh | (cases sys <;> exact ⟨fun _ => rfl, fun _ => rfl⟩)
  bare := fun hr => ⟨rfl, h hr⟩
  bindFc := fun _ => rfl
  paramsFb := fun hc => by cases sh <;> first | exact absurd rfl hsh | (cases sys <;> cases hc)
  inst := hm

theorem callFcOp_ends (sys : Bool) (m : BitVec 16) (t : Descriptor) (pl : List Param) (s : State) :
    CallEnds s (callFcOp sys m t pl s) := by
  refine directCall_ends fun n b u hb => CallEnds.bind (Effects.bindParams _ _ u) fun bs v _ hv => ?_
  rw [← hv.keeps.prog] at hb
  exact finishCall_ends (db := v.regs.dbReg) (di := v.regs.diReg) (Effects.refl v) fun h1 h2 =>
    ⟨frameOk_fc hb v bs false (by simp), h1, h2⟩

theorem callFbOp_ends (sys : Bool) (m : BitVec 16) (t x : Descriptor) (pl : List Param) (s : State) :
    CallEnds s (callFbOp sys m t x pl s) := by
  refine directCall_ends fun n b u hb => CallEnds.bind (Effects.callInstance _ u) fun i v hi hv => ?_
  have hd := callInstance_ok hi
  refine CallEnds.bind (Effects.copyIn _ _ _ _ v) fun _ w _ hw => ?_
  rw [← hv.keeps.prog, ← hw.keeps.prog] at hb
  rw [← hw.keeps.prog] at hd
  exact finishCall_ends (Effects.refl w) fun h1 h2 =>
    ⟨frameOk_fb (by simp) hb w (paramTuple pl) false (by simp) 0 (.inr hd) h1 h2, h2, .inr hd⟩

theorem callMiOp_ends (sys : Bool) (m : BitVec 16) (t : Descriptor) (pl : List Param) (s : State) :
    CallEnds s (callMiOp sys m t pl s) := by
  refine directCall_ends fun n b u hb => CallEnds.bind (Effects.miInstance _ _ u) fun i v hi _ => ?_
  obtain ⟨rfl, hd, rfl⟩ := miInstance_ok hi
  refine CallEnds.bind (Effects.copyIn _ _ _ _ _) fun _ w _ hw => ?_
  rw [← hw.keeps.prog] at hb hd
  exact finishCall_ends (Effects.refl w) fun h1 h2 =>
    ⟨frameOk_fb (by simp) hb w (paramTuple pl) false (by simp) _ (.inr hd) h1 h2, h2, h2⟩

theorem rawFcOp_ends (sys : Bool) (m n : BitVec 16) (t : Descriptor) (s : State) : CallEnds s (rawFcOp sys m n t s) :=
  rawCall_ends fun _ _ u hb => finishCall_ends (db := u.regs.dbReg) (di := u.regs.diReg) (Effects.refl u) fun h1 h2 =>
    ⟨frameOk_fc hb u [] true (by simp), h1, h2⟩

theorem rawFbOp_ends (sys : Bool) (m n : BitVec 16) (t : Descriptor) (s : State) : CallEnds s (rawFbOp sys m n t s) :=
  rawCall_ends fun _ _ u hb => finishCall_ends (db := u.regs.dbReg) (di := u.regs.diReg) (Effects.refl u) fun h1 h2 =>
    ⟨frameOk_fb (by simp) hb u [] true (by simp) 0 h2 h1 h2, h1, h2⟩

theorem rawMiOp_ends (sys : Bool) (m n : BitVec 16) (t : Descriptor) (s : State) : CallEnds s (rawMiOp sys m n t s) := by
  refine rawCall_ends fun _ _ u hb => CallEnds.bind (Effects.miInstance _ _ u) fun i v hi _ => ?_
  obtain ⟨rfl, hd, rfl⟩ := miInstance_ok hi
  exact finishCall_ends (Effects.refl _) fun h1 h2 => ⟨frameOk_fb (by simp) hb _ [] true (by simp) _ (.inr hd) h1 h2, h2, h2⟩

/-! ## Copy-back -/

theorem Effects.copyBack (b : CodeBlock) (f : Frame) (ps : List (BitVec 16 × Descriptor)) : ∀ s,
    Effects true true s (copyBack b f ps s).state := by
  induction ps with
  | nil => intro s; exact Effects.refl s
  | cons p r ih =>
    intro s
    obtain ⟨k, d⟩ := p
    refine Effects.bind ?_ fun _ u _ => ih u
    split
    · exact Effects.refl s
    · split_ifs
      · exact Effects.bind (Effects.memRead _ _ _ s) fun v u _ =>
          Effects.bind (Effects.decodeArg d u) fun D w _ => Effects.storeOp D v w
      · exact Effects.refl s

theorem Effects.copyBackIfDue (f : Frame) (b : CodeBlock) (s : State) : Effects true true s (copyBackIfDue f b s).state := by
  unfold Machine.copyBackIfDue
  split_ifs
  · exact Effects.copyBack _ _ _ s
  · exact Effects.refl s

/-! ## Lists: what a call and a copy-back do with the first part of a list -/

/-- The check of a parameter list passes an accepted first part and goes on with the rest (R356). -/
theorem checkParams_append {cb : CodeBlock} {s : State} : ∀ (pre post : List Param) (seen : List (BitVec 16)),
    (∀ p ∈ pre, bits p.word 16 48 = 0 ∧
      ∃ fd, cb.field (Param.index p) = some fd ∧ (fd.dir = .input ∨ fd.dir = .output ∨ fd.dir = .inout)) →
    (pre.map Param.index).Nodup → (∀ p ∈ pre, Param.index p ∉ seen) →
      checkParams cb (pre ++ post) seen s = checkParams cb post ((pre.map Param.index).reverse ++ seen) s := by
  intro pre
  induction pre with
  | nil => intro post seen _ _ _; rfl
  | cons p r ih =>
    intro post seen h1 h2 h3
    obtain ⟨hb, fd, hf, hd⟩ := h1 p (by simp)
    have hs := h3 p (by simp)
    have hd' : ¬ (fd.dir = .stat ∨ fd.dir = .temp) := by rcases hd with h | h | h <;> simp [h]
    simp only [List.cons_append, checkParams, hf, hd', hs, hb, ne_eq, not_true_eq_false, if_false, Res.withOpnd, Res.bind]
    simp only [List.map_cons, List.nodup_cons] at h2
    rw [ih post _ (fun q hq => h1 q (by simp [hq])) h2.2 (fun q hq => by
      simp only [List.mem_cons, not_or]
      exact ⟨fun he => h2.1 (List.mem_map.2 ⟨q, hq, he⟩), h3 q (by simp [hq])⟩)]
    simp

/-- An accepted parameter list passes the check. -/
theorem checkParams_ok {cb : CodeBlock} {s : State} {pl : List Param} (h : ParamsOk cb pl) : checkParams cb pl [] s = .ok () s := by
  have := checkParams_append (s := s) pl [] [] h.1 h.2 (by simp)
  rw [List.append_nil] at this
  rw [this]; rfl

/-- The copy-in runs its list in order. -/
theorem copyIn_append {cb : CodeBlock} {inst : BlockNum} {base : Nat} : ∀ (pre post : List Param) (u v : State),
    copyIn cb inst base pre u = .ok () v → copyIn cb inst base (pre ++ post) u = copyIn cb inst base post v := by
  intro pre
  induction pre with
  | nil => intro post u v h; cases h; rfl
  | cons p r ih =>
    intro post u v h
    rw [copyIn] at h
    obtain ⟨a, w, h1, h2⟩ := Res.bind_ok h
    rw [List.cons_append, copyIn, h1]
    exact ih post w v h2

/-- The copy-back passes the first part of its list that copies back, and goes on with the rest (R392). -/
theorem copyBack_append {b : CodeBlock} {f : Frame} {pre : List (BitVec 16 × Descriptor)} {s u : State}
    (post : List (BitVec 16 × Descriptor)) (h : CopiedBack b f pre s u) : copyBack b f (pre ++ post) s = copyBack b f post u := by
  induction h with
  | nil s => rfl
  | @skip k d r s t h hr ih =>
    rw [List.cons_append, copyBack]
    cases hk : b.field k with
    | none => exact ih
    | some fd =>
      have := h fd hk
      simp only [Field.copiedBack] at this
      simp only [this, if_false]
      exact ih
  | @copy k d r s u t fd D hf hc hi hd hs hr ih =>
    simp only [Field.copiedBack] at hc
    simp only [List.cons_append, copyBack, hf, hc, and_self, if_true, memRead, hi, Res.bind, decodeArg, hd, hs]
    exact ih

theorem copyBack_ok {b : CodeBlock} {f : Frame} {ps : List (BitVec 16 × Descriptor)} {s t : State} (h : CopiedBack b f ps s t) :
    copyBack b f ps s = .ok () t := by
  have := copyBack_append [] h
  rwa [List.append_nil] at this

/-- A completed copy-back has the effects of its stores only. -/
theorem CopiedBack.keeps {b : CodeBlock} {f : Frame} {ps : List (BitVec 16 × Descriptor)} {s t : State} (h : CopiedBack b f ps s t) :
    Keeps s t := by
  have := (Effects.copyBack b f ps s).keeps
  rwa [copyBack_ok h] at this

/-! ## The header of a call row -/

theorem callHeaderCheck_ok {sh : ShapeKind} {m : BitVec 16} {raw : Bool} {s : State} (h : m = 0 ∨ sh = .mi) :
    callHeaderCheck sh m 0 raw s = .ok () s := by
  have h1 : ¬ (m ≠ 0 ∧ sh ≠ .mi) := by tauto
  have h2 : ¬ (raw = true ∧ (0 : BitVec 16) ≠ 0) := by simp
  rw [callHeaderCheck, if_neg h2, if_neg h1]

/-- `MIOFF` outside the multi-instance shapes (R353). -/
theorem callHeaderCheck_offset {sh : ShapeKind} {m : BitVec 16} {raw : Bool} {s : State} (h : m ≠ 0) (hs : sh ≠ .mi) :
    callHeaderCheck sh m 0 raw s = execErr .illegalCommand s := by
  have h2 : ¬ (raw = true ∧ (0 : BitVec 16) ≠ 0) := by simp
  rw [callHeaderCheck, if_neg h2, if_pos ⟨h, hs⟩]

/-- Parameters of a raw call (R353). -/
theorem callHeaderCheck_params {sh : ShapeKind} {m n : BitVec 16} {s : State} (h : n ≠ 0) :
    callHeaderCheck sh m n true s = callErr .badParam s := by
  rw [callHeaderCheck, if_pos ⟨rfl, h⟩]

end Sys2Proof.Machine
end

