-- ==== Sys2Proof/Laws/Commands.lean ====
section
/-! SUPPORT. The two classes of command and the scheduler's pieces, each with one lemma that says all it can do. -/

namespace Sys2Proof.Machine

open Sys2Proof

/-! ## The classes -/

theorem State.execFrame_ok {s : State} {f : Frame} {b : CodeBlock} :
    s.execFrame = .ok (f, b) ↔ s.cs[s.step.e]? = some f ∧ s.codeOf f = some b := by
  unfold State.execFrame
  split
  · rename_i h; simp [h]
  · rename_i g h
    split
    · rename_i hc; simp only [h, reduceCtorEq, Option.some.injEq, false_iff, not_and]; rintro rfl; simp [hc]
    · rename_i c hc
      simp only [h, Except.ok.injEq, Prod.mk.injEq, Option.some.injEq]
      constructor
      · rintro ⟨rfl, rfl⟩; exact ⟨rfl, hc⟩
      · rintro ⟨rfl, h2⟩; rw [hc] at h2; cases h2; exact ⟨rfl, rfl⟩

/-- A micro-command of a running instruction has its effect. -/
theorem microCmd_running {s : State} {f : Frame} {b : CodeBlock} (h : s.Running f b) (k : Frame → CodeBlock → State → Res Data) :
    microCmd s k =
      match k f b s with
      | .ok v t => .next (t.answer v)
      | .err x t => .next (t.takeFault x (some t.step.loc)) := by
  unfold microCmd
  rw [if_neg h.active, h.noCall, if_neg (by simp), State.execFrame_ok.2 ⟨h.frame, h.block⟩]
  all_goals rfl

theorem microCmd_ok {s : State} {f : Frame} {b : CodeBlock} (h : s.Running f b) {k : Frame → CodeBlock → State → Res Data} {v : Data}
    {t : State} (hk : k f b s = .ok v t) : microCmd s k = .next (t.answer v) := by
  rw [microCmd_running h, hk]

theorem microCmd_err {s : State} {f : Frame} {b : CodeBlock} (h : s.Running f b) {k : Frame → CodeBlock → State → Res Data} {x : Raise}
    {t : State} (hk : k f b s = .err x t) : microCmd s k = .next (t.takeFault x (some t.step.loc)) := by
  rw [microCmd_running h, hk]

/-- Every way a micro-command ends in a next state. -/
theorem microCmd_next {s t : State} {k : Frame → CodeBlock → State → Res Data} (h : microCmd s k = .next t) :
    (s.phase = .idle ∧ t = s.refuse .illegalCommand) ∨
    (s.phase ≠ .idle ∧ t = s.takeFault ⟨.exec .commandAfterCall, none⟩ (some s.step.loc)) ∨
    ∃ f b, s.Running f b ∧
      ((∃ v u, k f b s = .ok v u ∧ t = u.answer v) ∨ ∃ x u, k f b s = .err x u ∧ t = u.takeFault x (some u.step.loc)) := by
  unfold microCmd at h
  split_ifs at h with h1 h2
  · cases h; exact .inl ⟨h1, rfl⟩
  · cases h; exact .inr (.inl ⟨h1, rfl⟩)
  · split at h
    · cases h
    · rename_i f b he
      obtain ⟨he1, he2⟩ := State.execFrame_ok.1 he
      refine .inr (.inr ⟨f, b, ⟨h1, by simpa using h2, he1, he2⟩, ?_⟩)
      split at h
      · rename_i v u hk; cases h; exact .inl ⟨v, u, hk, rfl⟩
      · rename_i x u hk; cases h; exact .inr ⟨x, u, hk, rfl⟩

/-- Every way a host command ends: done while idle, else a fault. -/
theorem hostCmd_next (s : State) (k : State → State) :
    (s.phase = .idle ∧ hostCmd s k = .next (k s)) ∨
    (s.phase ≠ .idle ∧ ∃ r, (r = .commandAfterCall ∨ r = .reentry) ∧ hostCmd s k = .next (s.takeFault ⟨.exec r, none⟩ (some s.step.loc))) := by
  unfold hostCmd
  split_ifs with h1 h2
  · exact .inl ⟨h1, rfl⟩
  · exact .inr ⟨h1, _, .inl rfl, rfl⟩
  · exact .inr ⟨h1, _, .inr rfl, rfl⟩

/-! ## Clock memory -/

theorem tickOnce_on (c : ClockMem) : (tickOnce c).on = c.on := rfl

theorem tickMany_succ (k : Nat) (c : ClockMem) : tickMany (k + 1) c = tickOnce (tickMany k c) := by
  induction k generalizing c with
  | zero => rfl
  | succ k ih => rw [tickMany, ih (tickOnce c), ← tickMany]

theorem tickMany_next (k : Nat) (c : ClockMem) : (tickMany k c).next = c.next + k * Config.clockTickNs := by
  induction k with
  | zero => simp [tickMany]
  | succ k ih => rw [tickMany_succ, tickOnce]; simp only [ih]; ring

theorem tickMany_on (k : Nat) (c : ClockMem) : (tickMany k c).on = c.on := by
  induction k with
  | zero => rfl
  | succ k ih => rw [tickMany_succ, tickOnce_on, ih]

theorem tickMany_count (k : Nat) (c : ClockMem) : (tickMany k c).count.val = (c.count.val + k) % 80 := by
  induction k with
  | zero => simp [tickMany, Nat.mod_eq_of_lt c.count.isLt]
  | succ k ih =>
    rw [tickMany_succ, tickOnce]
    simp only [Fin.val_add, ih]
    show ((c.count.val + k) % 80 + 1) % 80 = _
    omega

/-- Writing the clock byte is a write of one byte of the flag region. -/
theorem Effects.writeClockByte {rr : Bool} (s : State) (v : BitVec 8) (h : ∀ o, s.cfg.clockOffset = some o → o.toNat < s.cfg.flagSize) :
    Effects true rr s (s.writeClockByte v) := by
  unfold State.writeClockByte
  split
  · exact Effects.refl s
  · rename_i o ho
    have := Effects.write (w := true) (r := rr) s (x := .flags) (b := o.toNat) (bs := [v]) rfl
      (show o.toNat + 1 ≤ (s.cfg.flagSize : Nat) from h o ho)
    exact this

/-- A clock reading is at least every earlier one (R112). -/
theorem State.readClock_le (s : State) :
    s.env.lastReading ≤ s.readClock.env.lastReading ∧ s.readClock.time.now = s.readClock.env.lastReading :=
  ⟨Nat.le_max_left _ _, rfl⟩

/-! ## Advance -/

theorem advance_frame {s : State} {f : Frame} (h : s.cs[s.step.e]? = some f) :
    advance s =
      if (f.ip : Int) + s.step.rj < 0 then .ok (execErr .negativeIp s)
      else .ok (.ok () (s.modifyExec fun f' => { f' with ip := ((f.ip : Int) + s.step.rj).toNat })) := by
  unfold advance
  rw [h]

/-! ## The tick of the clock memory -/

/-- The number of ticks brings the next tick past the reading (R521). -/
theorem ticked_clockTick (n : Nat) (c : ClockMem) : Ticked n c (tickMany (ticksDue n c) c) := by
  refine ⟨fun h => by rw [ticksDue, if_neg h]; rfl, fun h1 h2 => ⟨ticksDue n c, rfl, ?_⟩⟩
  have hk : ticksDue n c = (n - c.next) / 100000000 + 1 := by rw [ticksDue, if_pos ⟨h1, h2⟩]; rfl
  rw [tickMany_on, tickMany_next, tickMany_count, show Config.clockTickNs = 100000000 from rfl]
  refine ⟨h1, rfl, ?_, ?_, rfl⟩ <;> rw [hk] <;> omega

/-- One byte of the regions and data blocks after one byte has been written, whatever their sizes. -/
theorem State.byteAt_setByte_window (s : State) {x y : Area} {b c : Nat} (v : Byte) (hwf : s.mem.wf (resetByte s.prog) = true)
    (hx : x.inMemory = true) (hy : y.inMemory = true) (hb : b < 65536) (hc : c < 65536) :
    (s.setByte x b v).byteAt y c = if y = x ∧ c = b then v else s.byteAt y c := by
  rw [State.byteAt_mem _ c hy, State.byteAt_mem _ c hy, State.setByte_mem s b v hx, State.setByte_prog]
  show ((s.mem.write (resetByte s.prog) (x.addr b) v).read (resetByte s.prog) (y.addr c)) = _
  rw [Memory.read_write _ _ hwf]
  by_cases h : y.addr c = x.addr b
  · obtain ⟨rfl, rfl⟩ := Area.addr_inj hy hx hc hb h
    simp
  · rw [if_neg h, if_neg]
    rintro ⟨rfl, rfl⟩; exact h rfl

/-- The tick writes the clock memory and the memory, nothing else. -/
theorem clockTick_rest (s : State) : ∃ (c : ClockMem) (m : Memory), clockTick s = { s with clock := c, mem := m } := by
  simp only [clockTick]
  split_ifs
  · exact ⟨_, s.mem, rfl⟩
  · unfold State.writeClockByte
    split
    · exact ⟨_, s.mem, rfl⟩
    · exact ⟨_, _, rfl⟩

/-- What `clockTick` does (R521). -/
theorem clockTick_ticked {s : State} {n : Nat} (h : s.time.now = n) : s.ClockTicked (clockTick s) n := by
  subst h
  have hcl : (clockTick s).clock = tickMany (ticksDue s.time.now s.clock) s.clock := by
    simp only [clockTick]
    split_ifs with hk
    · rfl
    · unfold State.writeClockByte; split <;> rfl
  refine ⟨by rw [hcl]; exact ticked_clockTick _ _, fun hwf y c hy hc => ?_⟩
  rw [hcl]
  by_cases hk : s.clock.on = true ∧ s.clock.next ≤ s.time.now
  · have h0 : ticksDue s.time.now s.clock ≠ 0 := by rw [ticksDue, if_pos hk]; exact Nat.succ_ne_zero _
    simp only [clockTick, h0, if_false, hk, and_self, true_and, State.writeClockByte]
    cases ho : s.cfg.clockOffset with
    | none => simp only [Option.map_none, reduceCtorEq, and_false, if_false]; cases y <;> rfl
    | some o =>
      have e := State.byteAt_setByte_window { s with clock := tickMany (ticksDue s.time.now s.clock) s.clock } (x := .flags) (y := y)
        (b := o.toNat) (c := c) (tickMany (ticksDue s.time.now s.clock) s.clock).clk hwf rfl hy o.isLt hc
      simp only [Option.map_some, Option.some.injEq]
      rw [e]
      simp only [eq_comm (a := c)]
      split_ifs
      · rfl
      · cases y <;> rfl
  · have h0 : ticksDue s.time.now s.clock = 0 := by rw [ticksDue, if_neg hk]
    simp only [clockTick, h0, if_true, hk, false_and, if_false]
    cases y <;> rfl

/-- `ClockTicked` reads the clock memory, the memory, the program and the configuration only. -/
theorem State.ClockTicked.congr {s s' t t' : State} {n : Nat} (h : s'.ClockTicked t' n) (h1 : s.clock = s'.clock) (h2 : s.mem = s'.mem)
    (h3 : s.prog = s'.prog) (h4 : s.cfg = s'.cfg) (h5 : t.clock = t'.clock) (h6 : t.mem = t'.mem) (h7 : t.prog = t'.prog) :
    s.ClockTicked t n := by
  have byte : ∀ {u u' : State} (y : Area) (c : Nat), y.inMemory = true → u.mem = u'.mem → u.prog = u'.prog →
      u.byteAt y c = u'.byteAt y c := by
    intro u u' y c hy hm hp
    rw [State.byteAt_mem _ c hy, State.byteAt_mem _ c hy, hm, hp]
  refine ⟨by rw [h1, h5]; exact h.1, fun hwf y c hy hc => ?_⟩
  rw [byte y c hy h6 h7, byte y c hy h2 h3, h1, h4, h5]
  exact h.2 (by rw [← h2, ← h3]; exact hwf) y c hy hc

/-- A reading that is not behind the last one becomes `NOW` (R112, R510). -/
theorem State.readClock_eq {s : State} {n : Nat} {r : List Nat} (h1 : s.env.clock = n :: r) (h2 : s.env.lastReading ≤ n) :
    s.readClock = { s with
      time := { s.time with now := n }
      env := { s.env with clock := r, lastReading := n, readings := s.env.readings + 1 } } := by
  simp [State.readClock, h1, Nat.max_eq_right h2]

end Sys2Proof.Machine
end

