-- ==== Sys2Proof/Laws/Access.lean ====
section
/-! SUPPORT. FETCH and STORE of a decoded operand as equations over the dispatcher, and the handlers of the buffers: what the provers cite
instead of unfolding the commands. -/

namespace Sys2Proof.Machine

open Sys2Proof

/-- A change of the executing frame is a list update at `E`. -/
theorem State.modifyExec_eq_set {s : State} {f : Frame} (g : Frame → Frame) (h : s.cs[s.step.e]? = some f) :
    s.cs.modify s.step.e g = s.cs.set s.step.e (g f) := by
  apply List.ext_getElem?
  intro i
  rw [List.getElem?_modify, List.getElem?_set]
  by_cases hi : s.step.e = i
  · subst hi
    obtain ⟨h1, h2⟩ := List.getElem?_eq_some_iff.1 h
    simp [h1, h2]
  · simp [hi]

/-- The checks before the handler pass for an allowed width. -/
theorem checkedDesc_ok {m : BitVec 5} {d : Descriptor} {D : Desc} {s : State} (hd : decodeDesc d = .ok D)
    (hw : widthAllowed m (Desc.width D) = true) : checkedDesc m d s = .ok D s := by
  simp only [checkedDesc, decodeArg, hd, Res.bind, hw, ↓reduceIte]

/-- FETCH of a decoded operand of an allowed width is the dispatcher's fetch; a raise names the descriptor. -/
theorem exec_fetch {s : State} {f : Frame} {b : CodeBlock} {m : BitVec 5} {d : Descriptor} {D : Desc} (hr : s.Running f b)
    (hd : decodeDesc d = .ok D) (hw : widthAllowed m (Desc.width D) = true) :
    exec (.fetch m d) s =
      match fetchOp D s with
      | .ok v t => .next (t.answer v)
      | .err x t => .next (t.takeFault ⟨x.cause, some d⟩ (some t.step.loc)) := by
  simp only [exec, execFetch, microCmd_running hr, checkedDesc_ok hd hw, Res.bind]
  cases fetchOp D s <;> rfl

/-- STORE of a decoded operand of an allowed width is the dispatcher's store of `DIN`; a raise names the descriptor. -/
theorem exec_store {s : State} {f : Frame} {b : CodeBlock} {m : BitVec 5} {d : Descriptor} {D : Desc} (hr : s.Running f b)
    (hd : decodeDesc d = .ok D) (hw : widthAllowed m (Desc.width D) = true) :
    exec (.store m d) s =
      match storeOp D s.din s with
      | .ok _ t => .next (t.answer 0)
      | .err x t => .next (t.takeFault ⟨x.cause, some d⟩ (some t.step.loc)) := by
  simp only [exec, execStore, microCmd_running hr, checkedDesc_ok hd hw, Res.bind]
  cases storeOp D s.din s <;> rfl

/-- A width outside a non-empty allowed set is refused before the handler runs. -/
theorem checkedDesc_mismatch {m : BitVec 5} {d : Descriptor} {D : Desc} {s : State} (hd : decodeDesc d = .ok D)
    (hw : widthAllowed m (Desc.width D) = false) : checkedDesc m d s = addrErr .widthMismatch s := by
  simp only [checkedDesc, decodeArg, hd, Res.bind, hw, Bool.false_eq_true, ↓reduceIte]

/-- The handler of an operand that reaches a buffer is the memory primitive, in both directions. -/
theorem prim_reaches {s : State} {p : Prim} {x : Area} {w : Width} {ba : BitAddr} (h : s.Reaches p x w ba) :
    Prim.width p = w ∧ fetchPrim p s = memRead x ba.toNat w s ∧
      ∀ v, storePrim p v s = memWrite x ba.toNat w (truncTo w v) s := by
  rcases h with ⟨rfl, rfl⟩ | ⟨rfl, rfl⟩ | ⟨rfl, rfl⟩ | ⟨rfl, rfl⟩ | ⟨rfl, hd, rfl⟩ | ⟨rfl, hb, rfl⟩ | ⟨rfl, hb, rfl⟩
  · exact ⟨rfl, rfl, fun _ => rfl⟩
  · exact ⟨rfl, rfl, fun _ => rfl⟩
  · exact ⟨rfl, rfl, fun _ => rfl⟩
  · exact ⟨rfl, rfl, fun _ => rfl⟩
  · have h2 : ¬ s.cs.length < 2 := by omega
    refine ⟨rfl, ?_, fun v => ?_⟩ <;> simp only [fetchPrim, storePrim, parentArea, State.depth, h2, ↓reduceIte, Res.bind, Prim.width]
  · refine ⟨rfl, ?_, fun v => ?_⟩ <;>
      simp only [fetchPrim, storePrim, liveBlock, Res.bind, State.blockReg, Bool.false_eq_true, hb, ↓reduceIte, Prim.width]
  · refine ⟨rfl, ?_, fun v => ?_⟩ <;>
      simp only [fetchPrim, storePrim, liveBlock, Res.bind, State.blockReg, hb, ↓reduceIte, Prim.width]

/-- A memory access in range answers; out of range it raises in the state it was given. -/
theorem memRead_ok {s : State} {x : Area} {ba : Nat} {w : Width} (h : rangeCheck (s.areaSize x) ba w = none) :
    memRead x ba w s = .ok (s.readVal x ba w) s := by
  simp only [memRead, h]

theorem memRead_err {s : State} {x : Area} {ba : Nat} {w : Width} {r : AddrReason} (h : rangeCheck (s.areaSize x) ba w = some r) :
    memRead x ba w s = addrErr r s := by
  simp only [memRead, h]

theorem memWrite_ok {s : State} {x : Area} {ba : Nat} {w : Width} {v : Data} (h : rangeCheck (s.areaSize x) ba w = none) :
    memWrite x ba w v s = .ok () (s.writeVal x ba w v) := by
  simp only [memWrite, h]

theorem memWrite_err {s : State} {x : Area} {ba : Nat} {w : Width} {v : Data} {r : AddrReason}
    (h : rangeCheck (s.areaSize x) ba w = some r) : memWrite x ba w v s = addrErr r s := by
  simp only [memWrite, h]

/-! ## The handlers, each direction in one lemma for what answers and one for what raises -/

/-- The widths of R202 are those the peripheral handler accepts. -/
theorem PeriphWidth.ok {w : Width} (h : PeriphWidth w) : periphWidthOk w = true := by
  rcases h with rfl | rfl | rfl <;> rfl

/-- What FETCH and STORE of an operand both raise. -/
theorem prim_placeRaises {s : State} {q : Prim} {r : AddrReason} (h : s.PlaceRaises q r) :
    fetchPrim q s = addrErr r s ∧ ∀ x, storePrim q x s = addrErr r s := by
  rcases h with ⟨x, w, ba, hr, hc⟩ | ⟨rfl, h⟩ | ⟨rfl, hd, w, ba, rfl⟩ | ⟨rfl, h⟩
  · obtain ⟨-, h1, h2⟩ := prim_reaches hr
    exact ⟨h1.trans (memRead_err hc), fun x => (h2 x).trans (memWrite_err hc)⟩
  · rcases h with ⟨hd, w, ba, rfl⟩ | ⟨hd, w, ba, rfl⟩ <;> refine ⟨?_, fun x => ?_⟩ <;>
      simp [fetchPrim, storePrim, liveBlock, Res.bind, State.blockReg, hd, addrErr, raise]
  · refine ⟨?_, fun x => ?_⟩ <;> simp [fetchPrim, storePrim, parentArea, State.depth, hd, Res.bind, addrErr, raise]
  · rcases h with ⟨w, o, i, hq, h1, h2⟩ | ⟨w, o, ba, rfl, h1, h2, h3⟩ | ⟨w, v, i, rfl, h1, h2⟩ | ⟨w, n, rfl, h1⟩ | ⟨w, k, n, rfl, h1⟩
    · have hc : cellWidthOk w o = false := by cases w <;> cases o <;> simp_all [cellWidthOk]
      rcases hq with rfl | rfl <;> refine ⟨?_, fun x => ?_⟩ <;> simp [fetchPrim, storePrim, fetchCell, storeCell, hc]
    · have hc : periphWidthOk w = false := by cases w <;> simp_all [periphWidthOk]
      refine ⟨?_, fun x => ?_⟩ <;> simp [fetchPrim, storePrim, fetchPeriph, storePeriph, hc]
    · refine ⟨?_, fun x => ?_⟩ <;> by_cases hv : v = .raw <;> simp_all [fetchPrim, storePrim, fetchStw, storeStw]
    · refine ⟨?_, fun x => ?_⟩ <;> simp [fetchPrim, storePrim, h1]
    · refine ⟨?_, fun x => ?_⟩ <;> simp [fetchPrim, storePrim, h1]

/-- A view's formula (R301) has the table's value (R340). -/
theorem ccView_eq_viewTable (stw : BitVec 9) {k : StwView} (h : k ≠ .raw) :
    ccView stw k = viewTable k (stw.getLsbD 7) (stw.getLsbD 6) := by
  cases k
  case raw => exact absurd rfl h
  all_goals
    simp only [ccView, viewTable, stwA0, stwA1]
    cases stw.getLsbD 7 <;> cases stw.getLsbD 6 <;> rfl

/-- A handler that changes no state gives the value the rules give. -/
theorem fetchPrim_reads {s : State} {q : Prim} {v : Data} (h : s.Reads q v) : fetchPrim q s = .ok v s := by
  rcases h with ⟨x, w, ba, hr, hc, rfl⟩ | ⟨i, rfl, rfl⟩ | ⟨k, i, hk, rfl, rfl⟩ | ⟨i, rfl, rfl⟩ | ⟨rfl, rfl⟩ | ⟨rfl, rfl⟩ | ⟨k, n, rfl, rfl⟩ |
    ⟨w, o, i, c, hq, hv⟩
  · exact (prim_reaches hr).2.1.trans (memRead_ok hc)
  · rfl
  · simp [fetchPrim, fetchStw, hk, ccView_eq_viewTable _ hk]
  · rfl
  · rfl
  · rfl
  · rfl
  · rcases hq with ⟨rfl, hi, rfl⟩ | ⟨rfl, hi, rfl⟩ <;> rcases hv with ⟨rfl, rfl, rfl⟩ | ⟨rfl, rfl, rfl⟩ | ⟨rfl, rfl, rfl⟩ <;>
      simp [fetchPrim, fetchCell, cellWidthOk, State.cellCount, State.cell, Nat.not_le.2 hi]

/-- The peripheral handler after its checks, fetch direction (R241). -/
theorem fetchPeriph_called {s : State} {w : Width} {ba : BitAddr} (hw : PeriphWidth w) (ha : ba.toNat % 8 = 0) :
    fetchPeriph w false ba s =
      match s.env.periphReads.headD none with
      | none => addrErr .peripheralFail (s.calledRead w ba)
      | some bs =>
        if bs.length ≠ w.bytes then addrErr .peripheralFail (s.calledRead w ba)
        else .ok (BitVec.ofNat 48 (beNat bs))
          (if ba.toNat / 8 + w.bytes ≤ s.cfg.inputSize then (s.calledRead w ba).writeBytes .inputs (ba.toNat / 8) bs
           else s.calledRead w ba) := by
  simp only [fetchPeriph, hw.ok, Bool.not_true, Bool.false_eq_true, ↓reduceIte, ha, ne_eq, not_true_eq_false]
  rfl

/-- What the fetch handlers answer. -/
theorem fetchPrim_gives {s t : State} {q : Prim} {v : Data} (h : s.Gives q v t) : fetchPrim q s = .ok v t := by
  rcases h with ⟨h, rfl⟩ | ⟨w, ba, bs, hw, rfl, ha, hh, hl, rfl, rfl⟩
  · exact fetchPrim_reads h
  · have : s.env.periphReads.headD none = some bs := by rw [List.headD_eq_head?_getD, hh]; rfl
    rw [fetchPrim, fetchPeriph_called hw ha, this]
    simp [hl]

/-- What the fetch handlers raise. -/
theorem fetchPrim_raises {s t : State} {q : Prim} {r : AddrReason} (h : s.FetchRaises q r t) : fetchPrim q s = addrErr r t := by
  rcases h with ⟨rfl, h | ⟨rfl, w, o, i, hw, hq⟩ | ⟨rfl, w, ba, hw, rfl⟩ | ⟨rfl, w, ba, hw, rfl, ha⟩⟩ | ⟨rfl, w, ba, hw, rfl, ha, hb, rfl⟩
  · exact (prim_placeRaises h).1
  · have hc : cellWidthOk w o = true := by rcases hw with rfl | ⟨rfl, rfl⟩ <;> simp [cellWidthOk]
    rcases hq with ⟨hi, rfl⟩ | ⟨hi, rfl⟩ <;> simp [fetchPrim, fetchCell, hc, State.cellCount, hi]
  · simp [fetchPrim, fetchPeriph, hw.ok]
  · simp [fetchPrim, fetchPeriph, hw.ok, ha]
  · rw [fetchPrim, fetchPeriph_called hw ha, List.headD_eq_head?_getD]
    cases hh : s.env.periphReads.head? with
    | none => rfl
    | some o =>
      cases o with
      | none => rfl
      | some bs => simp [hb bs hh]

theorem State.writeBytes_env (x : Area) (bs : List Byte) : ∀ (s : State) (b : Nat), (s.writeBytes x b bs).env = s.env := by
  induction bs with
  | nil => intro s b; rfl
  | cons v r ih => intro s b; rw [State.writeBytes, ih, State.setByte_env]

/-- The peripheral handler after its checks, store direction (R242). -/
theorem storePeriph_called {s : State} {w : Width} {ba : BitAddr} {v : Data} (hw : PeriphWidth w) (ha : ba.toNat % 8 = 0) :
    storePeriph w true ba v s =
      if s.env.periphWrites.headD false then .ok () (s.calledWrite w ba (beBytes w.bytes v))
      else addrErr .peripheralFail (s.calledWrite w ba (beBytes w.bytes v)) := by
  simp only [storePeriph, hw.ok, Bool.not_true, Bool.false_eq_true, ↓reduceIte, ha, ne_eq, not_true_eq_false, State.calledWrite]
  have hq : (if ba.toNat / 8 + w.bytes ≤ s.cfg.outputSize then s.writeBytes .outputs (ba.toNat / 8) (beBytes w.bytes v) else s).env =
      s.env := by
    split_ifs
    · exact State.writeBytes_env _ _ _ _
    · rfl
  revert hq
  generalize (if ba.toNat / 8 + w.bytes ≤ s.cfg.outputSize then s.writeBytes .outputs (ba.toNat / 8) (beBytes w.bytes v) else s) = t
  intro hq
  simp only [← hq]
  rfl

/-- A status register that differs from another in one bit as given is that register with the bit set. -/
theorem stwSetBit_eq {stw y : BitVec 9} {i : Fin 9} {v : Bool}
    (h : ∀ j, j < 9 → y.getLsbD j = if j = i.val then v else stw.getLsbD j) : stwSetBit stw i.val v = y := by
  refine BitVec.eq_of_getLsbD_eq fun j hj => ?_
  rw [h j hj]
  fin_cases i <;> interval_cases j <;> cases v <;> simp [stwSetBit]

/-- What the store handlers do. -/
theorem storePrim_takes {s t : State} {q : Prim} {x : Data} (h : s.Takes q x t) : storePrim q x s = .ok () t := by
  rcases h with ⟨a, w, ba, hr, hc, rfl⟩ | ⟨i, y, rfl, hy, rfl⟩ | ⟨i, rfl, rfl⟩ | ⟨rfl, rfl⟩ | ⟨rfl, rfl⟩ | ⟨w, ba, hw, rfl, ha, hh, rfl⟩
  · rw [(prim_reaches hr).2.2, memWrite_ok hc]; rfl
  · have hx : (truncTo .w1 x).getLsbD 0 = x.getLsbD 0 := by
      rw [truncTo, BitVec.getLsbD_ofNat, ← BitVec.testBit_toNat]; simp [Width.bits, Nat.testBit_zero]
    have he := stwSetBit_eq hy
    simp only [storePrim, storeStw, Prim.width, hx, he, State.setStw, if_pos]
  · simp only [storePrim, storeStw, Prim.width, truncTo, Width.bits, State.setStw, if_pos, reduceCtorEq, if_false]
    congr 3
    apply BitVec.eq_of_toNat_eq
    simp
  · simp only [storePrim, Prim.width, truncTo, Width.bits, State.setAr, if_pos]
    congr 3
    apply BitVec.eq_of_toNat_eq
    simp
  · simp only [storePrim, Prim.width, truncTo, Width.bits, State.setAr, if_pos]
    congr 3
    apply BitVec.eq_of_toNat_eq
    simp
  · have : s.env.periphWrites.headD false = true := by rw [List.headD_eq_head?_getD, hh]; rfl
    rw [storePrim, storePeriph_called hw ha, this]
    rfl

/-- What the store handlers raise. -/
theorem storePrim_raises {s t : State} {q : Prim} {x : Data} {r : AddrReason} (h : s.StoreRaises q x r t) :
    storePrim q x s = addrErr r t := by
  rcases h with ⟨rfl, h | ⟨rfl, h⟩ | ⟨rfl, w, ba, hw, rfl, ha⟩⟩ | ⟨rfl, w, ba, hw, rfl, ha, hb, rfl⟩
  · exact (prim_placeRaises h).2 x
  · rcases h with ⟨o, i, rfl | rfl⟩ | ⟨i, rfl | rfl⟩ | ⟨k, n, rfl⟩ | ⟨k, i, hk, rfl⟩ | ⟨w, ba, hw, rfl⟩
    · simp [storePrim, storeCell, cellWidthOk]
    · simp [storePrim, storeCell, cellWidthOk]
    · simp [storePrim, storeCell, cellWidthOk]
    · simp [storePrim, storeCell, cellWidthOk]
    · simp [storePrim]
    · simp [storePrim, storeStw, hk]
    · simp [storePrim, storePeriph, hw.ok]
  · simp [storePrim, storePeriph, hw.ok, ha]
  · have : s.env.periphWrites.headD false = false := by
      rw [List.headD_eq_head?_getD]
      cases hh : s.env.periphWrites.head? with
      | none => rfl
      | some v => cases v <;> simp_all
    rw [storePrim, storePeriph_called hw ha, this]
    rfl

/-! ## Operands that resolve to another one -/

/-- An operand that resolves to `q` in `u` is fetched as `q` is. -/
theorem fetchesAs_of {s u : State} {f : Frame} {b : CodeBlock} {m : BitVec 5} {d : Descriptor} {D : Desc} {q : Prim}
    (hr : s.Running f b) (hd : decodeDesc d = .ok D) (hw : widthAllowed m (Desc.width D) = true) (h : fetchOp D s = fetchPrim q u) :
    s.FetchesAs u m d q := by
  refine ⟨fun v t hg => ?_, fun r t hg => ?_⟩
  · rw [exec_fetch hr hd hw, h, fetchPrim_gives hg]
  · rw [exec_fetch hr hd hw, h, fetchPrim_raises hg]; rfl

/-- An operand that resolves to `q` in `u` is stored to as `q` is. -/
theorem storesAs_of {s u : State} {f : Frame} {b : CodeBlock} {m : BitVec 5} {d : Descriptor} {D : Desc} {q : Prim}
    (hr : s.Running f b) (hd : decodeDesc d = .ok D) (hw : widthAllowed m (Desc.width D) = true)
    (h : storeOp D s.din s = storePrim q s.din u) : s.StoresAs u m d q := by
  refine ⟨fun t hg => ?_, fun r t hg => ?_⟩
  · rw [exec_store hr hd hw, h, storePrim_takes hg]
  · rw [exec_store hr hd hw, h, storePrim_raises hg]; rfl

theorem bothRaise_of {s u : State} {f : Frame} {b : CodeBlock} {m : BitVec 5} {d : Descriptor} {D : Desc} {r : AddrReason}
    (hr : s.Running f b) (hd : decodeDesc d = .ok D) (hw : widthAllowed m (Desc.width D) = true) (h : fetchOp D s = addrErr r u)
    (h' : storeOp D s.din s = addrErr r u) : s.BothRaise u m d r := by
  refine ⟨?_, ?_⟩
  · rw [exec_fetch hr hd hw, h]; rfl
  · rw [exec_store hr hd hw, h']; rfl

/-- A pointer that has been fetched: its form, then the sum with the displacement (R250 to R252). -/
theorem resolvePointer_ok {inner : Operand} {disp : BitAddr} {form : BitVec 32 → Bool} {mk : BitVec 32 → BitAddr → Prim} {s u : State}
    {v : Data} (hw : Operand.width inner = .w32) (hf : fetchOperand inner s = .ok v u) :
    resolvePointer inner disp form mk s =
      if form (v.setWidth 32) then
        if (v.extractLsb' 0 19).toNat + disp.toNat < 2 ^ 19 then
          .ok (mk (v.setWidth 32) (BitVec.ofNat 19 ((v.extractLsb' 0 19).toNat + disp.toNat))) u
        else addrErr .badPointer u
      else addrErr .badPointer u := by
  have : (v.setWidth 32).extractLsb' 0 19 = v.extractLsb' 0 19 := by
    apply BitVec.eq_of_getLsbD_eq; intro i hi; simp [hi]; omega
  simp only [resolvePointer, hw, hf, Res.bind, this, shiftAddr]
  simp only [ne_eq, not_true_eq_false, if_false]
  split_ifs <;> rfl

/-- The form check of an area-crossing pointer (R252). -/
theorem crossingOk_iff (v : Data) : crossingOk (v.setWidth 32) = true ↔ CrossingForm v := by
  have h1 : (v.setWidth 32).extractLsb' 31 1 = BitVec.ofBool (v.getLsbD 31) := by
    apply BitVec.eq_of_getLsbD_eq; intro i hi
    have : i = 0 := by omega
    subst this; simp
  have h2 : (v.setWidth 32).extractLsb' 27 4 = v.extractLsb' 27 4 := by
    apply BitVec.eq_of_getLsbD_eq; intro i hi; simp [hi]; omega
  have h3 : (v.setWidth 32).extractLsb' 19 5 = v.extractLsb' 19 5 := by
    apply BitVec.eq_of_getLsbD_eq; intro i hi; simp [hi]; omega
  unfold crossingOk CrossingForm
  rw [h1, h2, h3]
  cases v.getLsbD 31 <;> simp

/-- The area code of a pointer whose upper bits are as R252 asks. -/
theorem crossing_code (v : Data) (c : BitVec 3) (h : v.extractLsb' 19 13 = (0x1000#13 ||| (c.setWidth 13 <<< 5))) :
    CrossingForm v ∧ (v.setWidth 32).extractLsb' 24 3 = c := by
  have hb : ∀ i, i < 13 → v.getLsbD (19 + i) = ((0x1000#13 ||| (c.setWidth 13 <<< 5)).getLsbD i) := by
    intro i hi; rw [← h]; simp [hi]
  refine ⟨⟨?_, ?_, ?_⟩, ?_⟩
  · have := hb 12 (by omega); simpa using this
  · apply BitVec.eq_of_getLsbD_eq; intro i hi
    have := hb (8 + i) (by omega)
    simp only [BitVec.getLsbD_extractLsb', hi, decide_true, Bool.true_and]
    rw [show 27 + i = 19 + (8 + i) by omega, this]
    interval_cases i <;> simp
  · apply BitVec.eq_of_getLsbD_eq; intro i hi
    have := hb (i) (by omega)
    simp only [BitVec.getLsbD_extractLsb', hi, decide_true, Bool.true_and]
    rw [this]
    interval_cases i <;> simp
  · apply BitVec.eq_of_getLsbD_eq; intro i hi
    have := hb (5 + i) (by omega)
    simp only [BitVec.getLsbD_extractLsb', BitVec.getLsbD_setWidth, hi, decide_true, Bool.true_and, show 24 + i < 32 by omega]
    rw [show 24 + i = 19 + (5 + i) by omega, this]
    interval_cases i <;> simp

/-- An indirect operand resolves to the operand its pointer selects, in the state after the pointer's fetch. -/
theorem resolveInd_selects {tgt : IndTarget} {v : Data} {dir : AccessDir} {w : Width} {ba disp : BitAddr} {q : Prim} {inner : Operand}
    {s u : State} (hw : Operand.width inner = .w32) (hf : fetchOperand inner s = .ok v u)
    (hlt : (v.extractLsb' 0 19).toNat + disp.toNat < 2 ^ 19) (hba : ba = BitVec.ofNat 19 ((v.extractLsb' 0 19).toNat + disp.toNat))
    (h : PointerSelects tgt v dir w ba q) : resolveInd dir w tgt disp inner s = .ok q u := by
  subst hba
  have area : ∀ (c : BitVec 3), tgt = .crossing → v.extractLsb' 19 13 = (0x1000#13 ||| (c.setWidth 13 <<< 5)) →
      resolveInd dir w tgt disp inner s =
        .ok (crossingPrim dir (v.setWidth 32) w (BitVec.ofNat 19 ((v.extractLsb' 0 19).toNat + disp.toNat))) u ∧
      (v.setWidth 32).extractLsb' 24 3 = c := by
    rintro c rfl hc
    obtain ⟨h1, h2⟩ := crossing_code v c hc
    exact ⟨by simp only [resolveInd, resolvePointer_ok hw hf, hlt, (crossingOk_iff v).2 h1, if_true], h2⟩
  rcases h with ⟨rfl | ⟨ht, hc⟩, rfl⟩ | ⟨rfl | ⟨ht, hc⟩, rfl⟩ | ⟨rfl | ⟨ht, hc⟩, rfl⟩ | ⟨rfl | ⟨ht, hc⟩, rfl⟩ | ⟨rfl | ⟨ht, hc⟩, rfl⟩ |
    ⟨rfl | ⟨ht, hc⟩, rfl⟩ | ⟨rfl | ⟨ht, hc⟩, rfl⟩ | ⟨o, rfl, rfl⟩ | ⟨ht, hc, hq⟩
  all_goals try (simp only [resolveInd, resolvePointer_ok hw hf, hlt, if_true]; done)
  · obtain ⟨h1, h2⟩ := area 1 ht hc; simp [h1, crossingPrim, h2]
  · obtain ⟨h1, h2⟩ := area 2 ht hc; simp [h1, crossingPrim, h2]
  · obtain ⟨h1, h2⟩ := area 3 ht hc; simp [h1, crossingPrim, h2]
  · obtain ⟨h1, h2⟩ := area 4 ht hc; simp [h1, crossingPrim, h2]
  · obtain ⟨h1, h2⟩ := area 5 ht hc; simp [h1, crossingPrim, h2]
  · obtain ⟨h1, h2⟩ := area 6 ht hc; simp [h1, crossingPrim, h2]
  · obtain ⟨h1, h2⟩ := area 7 ht hc; simp [h1, crossingPrim, h2]
  · obtain ⟨h1, h2⟩ := area 0 ht hc
    rcases hq with ⟨rfl, rfl⟩ | ⟨rfl, rfl⟩ <;> simp [h1, crossingPrim, h2]

theorem fetchOp_ind {w : Width} {tgt : IndTarget} {disp : BitAddr} {inner : Operand} {s u : State} {q : Prim}
    (h : resolveInd .fetch w tgt disp inner s = .ok q u) : fetchOp (.ind w tgt disp inner) s = fetchPrim q u := by
  simp [fetchOp, resolveDesc, h, Res.bind, fetchOperand]

theorem storeOp_ind {w : Width} {tgt : IndTarget} {disp : BitAddr} {inner : Operand} {s u : State} {q : Prim} {v : Data}
    (h : resolveInd .store w tgt disp inner s = .ok q u) : storeOp (.ind w tgt disp inner) v s = storePrim q v u := by
  simp [storeOp, resolveDesc, h, Res.bind, storeOperand]

theorem fetchOp_ind_err {w : Width} {tgt : IndTarget} {disp : BitAddr} {inner : Operand} {s u : State} {x : Raise}
    (h : resolveInd .fetch w tgt disp inner s = .err x u) : fetchOp (.ind w tgt disp inner) s = .err x u := by
  simp [fetchOp, resolveDesc, h, Res.bind]

theorem storeOp_ind_err {w : Width} {tgt : IndTarget} {disp : BitAddr} {inner : Operand} {s u : State} {x : Raise} {v : Data}
    (h : resolveInd .store w tgt disp inner s = .err x u) : storeOp (.ind w tgt disp inner) v s = .err x u := by
  simp [storeOp, resolveDesc, h, Res.bind]

/-- A field of the current frame's interface resolves by its direction, then by the frame's class (R261 to R263). -/
theorem resolveField_of {s : State} {g : Frame} {cb : CodeBlock} {k : BitVec 16} {sub : BitAddr} {fd : Field} (ht : s.top = some g)
    (hc : s.codeOf g = some cb) (hf : cb.field k = some fd) :
    resolveField k sub s =
      if fd.dir = .temp then .ok (.localAt (s.depth - 1) (fd.off.toNat + sub.toNat)) s
      else if g.kind = .ob then addrErr .noField s
      else
        match g.cls with
        | .fclike => fcField g k fd sub.toNat s
        | .fblike => fbField g fd sub.toNat s := by
  simp [resolveField, ht, hc, hf]
  all_goals (cases g.cls <;> rfl)

/-- A bound parameter resolves as its binding does (R262). -/
theorem resolveField_bound {s : State} {g : Frame} {cb : CodeBlock} {k : BitVec 16} {sub : BitAddr} {fd : Field} {x : Binding}
    (ht : s.top = some g) (hc : s.codeOf g = some cb) (hf : cb.field k = some fd) (hb : g.BoundTo k fd x) :
    resolveField k sub s = bindingLoc x sub.toNat s := by
  obtain ⟨h1, h2, h3, h4, h5, h6⟩ := hb
  rw [resolveField_of ht hc hf, if_neg h1, if_neg h3, h4]
  simp [fcField, h2, h5, h6]

theorem fetchOp_field {w : Width} {k : BitVec 16} {sub : BitAddr} {s u : State} {pl : Place} (h : resolveField k sub s = .ok pl u) :
    fetchOp (.direct (.field w k sub)) s = fetchPlace w pl u := by
  simp [fetchOp, resolveDesc, Res.bind, fetchOperand, h]

theorem storeOp_field {w : Width} {k : BitVec 16} {sub : BitAddr} {s u : State} {pl : Place} {v : Data}
    (h : resolveField k sub s = .ok pl u) : storeOp (.direct (.field w k sub)) v s = storePlace w pl v u := by
  simp [storeOp, resolveDesc, Res.bind, storeOperand, h]

theorem fetchOp_field_err {w : Width} {k : BitVec 16} {sub : BitAddr} {s u : State} {x : Raise} (h : resolveField k sub s = .err x u) :
    fetchOp (.direct (.field w k sub)) s = .err x u := by
  simp [fetchOp, resolveDesc, Res.bind, fetchOperand, h]

theorem storeOp_field_err {w : Width} {k : BitVec 16} {sub : BitAddr} {s u : State} {x : Raise} {v : Data}
    (h : resolveField k sub s = .err x u) : storeOp (.direct (.field w k sub)) v s = .err x u := by
  simp [storeOp, resolveDesc, Res.bind, storeOperand, h]

end Sys2Proof.Machine
end

