-- ==== Sys2Proof/Laws/Params.lean ====
section
/-! SUPPORT. The actuals of a call: what an actual resolves to, binds to and leaves in an instance, and the direct call rows as equations over
their parameters: what the provers cite instead of unfolding the calls. -/

namespace Sys2Proof.Machine

open Sys2Proof

/-! ## Actuals of a call -/

/-- A data-block operand that names a block: its register opened when it is qualified (R230). -/
theorem liveBlock_names {s t : State} {q : Prim} {n : BlockNum} {ba : BitAddr} (h : s.NamesBlock q n ba t) :
    ∃ (w : Width) (di : Bool) (x : Option BlockNum), q = (if di then .di w x ba else .db w x ba) ∧ liveBlock di x s = .ok n t := by
  obtain ⟨hn, w, ⟨rfl, rfl, rfl⟩ | ⟨rfl, rfl, rfl⟩ | ⟨rfl, rfl⟩ | ⟨rfl, rfl⟩⟩ := h
  · exact ⟨w, false, none, rfl, by simp [liveBlock, Res.bind, State.blockReg, hn]⟩
  · exact ⟨w, true, none, rfl, by simp [liveBlock, Res.bind, State.blockReg, hn]⟩
  · exact ⟨w, false, some n, rfl, by simp [liveBlock, openBlock, Res.bind, State.blockReg, State.setBlockReg, hn]⟩
  · exact ⟨w, true, some n, rfl, by simp [liveBlock, openBlock, Res.bind, State.blockReg, State.setBlockReg, hn]⟩

/-- A data-block operand of a block that is not there. -/
theorem liveBlock_lacks {s : State} {q : Prim} (h : s.LacksBlock q) :
    ∃ (w : Width) (di : Bool) (x : Option BlockNum) (ba : BitAddr), q = (if di then .di w x ba else .db w x ba) ∧
      liveBlock di x s = addrErr .missingDb s := by
  obtain ⟨w, ba, ⟨rfl, hn⟩ | ⟨rfl, hn⟩ | ⟨n, rfl | rfl, hn⟩⟩ := h
  · exact ⟨w, false, none, ba, rfl, by simp [liveBlock, Res.bind, State.blockReg, hn]⟩
  · exact ⟨w, true, none, ba, rfl, by simp [liveBlock, Res.bind, State.blockReg, hn]⟩
  · exact ⟨w, false, some n, ba, rfl, by simp [liveBlock, openBlock, Res.bind, hn, addrErr, raise]⟩
  · exact ⟨w, true, some n, ba, rfl, by simp [liveBlock, openBlock, Res.bind, hn, addrErr, raise]⟩

/-- A number that has been fetched selects its operand (R250). -/
theorem resolveInd_number {tgt : IndTarget} {v : Data} {dir : AccessDir} {w : Width} {disp : BitAddr} {q : Prim} {inner : Operand}
    {s u : State} (hw : Operand.width inner = .w16) (hf : fetchOperand inner s = .ok v u) (h : NumberSelects tgt v w q) :
    resolveInd dir w tgt disp inner s = .ok q u := by
  have he : BitVec.setWidth 16 v = v.extractLsb' 0 16 := by
    apply BitVec.eq_of_getLsbD_eq; intro i hi; simp [hi]
  rcases h with ⟨o, rfl, rfl⟩ | ⟨o, rfl, rfl⟩ | ⟨k, rfl, rfl⟩ <;> simp [resolveInd, resolveNumber, hw, hf, Res.bind, he]

theorem resolveDesc_to {s u : State} {dir : AccessDir} {D : Desc} {q : Prim} (h : s.ResolvesTo dir D q u) :
    resolveDesc dir D s = .ok (.prim q) u := by
  rcases h with ⟨rfl, rfl⟩ | ⟨w, tgt, disp, inner, v, rfl, hf, ⟨hw, hlt, hs⟩ | ⟨hw, hs⟩⟩
  · rfl
  · simp only [resolveDesc, resolveInd_selects hw hf hlt rfl hs, Res.bind]
  · simp only [resolveDesc, resolveInd_number hw hf hs, Res.bind]

/-- The binding of a resolved operand (R366). -/
theorem bindPrim_binds {s : State} {q : Prim} {y : Binding} (h : s.Binds q y) : bindPrim q s = .ok y s := by
  rcases h with ⟨w, v, rfl, rfl⟩ | ⟨w, ba, rfl | rfl | rfl, rfl⟩ | ⟨w, o, ba, rfl, rfl⟩ | ⟨w, o, i, rfl | rfl, rfl⟩ | ⟨w, v, i, rfl, rfl⟩ |
    ⟨w, n, rfl, rfl⟩ | ⟨w, k, n, rfl, rfl⟩ | ⟨w, ba, rfl, hn, rfl⟩ | ⟨w, ba, rfl, hn, rfl⟩ | ⟨w, ba, rfl, rfl⟩ | ⟨w, ba, rfl, hd, rfl⟩
  all_goals try rfl
  · simp [bindPrim, liveBlock, Res.bind, State.blockReg, hn]
  · simp [bindPrim, liveBlock, Res.bind, State.blockReg, hn]
  · simp [bindPrim, State.depth, Nat.not_lt.2 hd]

theorem bindPrim_names {s t : State} {q : Prim} {n : BlockNum} {ba : BitAddr} (h : s.NamesBlock q n ba t) :
    bindPrim q s = .ok (.dbLoc n ba.toNat) t := by
  obtain ⟨w, di, x, rfl, hl⟩ := liveBlock_names h
  cases di <;> simp [bindPrim, hl, Res.bind]

theorem bindPrim_raises {s : State} {q : Prim} {c : Cause}
    (h : (s.LacksBlock q ∧ c = .addr .missingDb) ∨ (s.cs.length < 2 ∧ c = .addr .missingParent ∧ ∃ w ba, q = .parentLoc w ba)) :
    bindPrim q s = .err ⟨c, none⟩ s := by
  rcases h with ⟨h, rfl⟩ | ⟨h, rfl, w, ba, rfl⟩
  · obtain ⟨w, di, x, ba, rfl, hl⟩ := liveBlock_lacks h
    cases di <;> simp [bindPrim, hl, Res.bind, addrErr, raise]
  · simp [bindPrim, State.depth, h, addrErr, raise]

/-- A place that a field reaches, as `resolveField` gives it: data blocks and local data (R261 to R264, R270). -/
theorem resolveField_place {s : State} {g : Frame} {cb : CodeBlock} {k : BitVec 16} {sub : BitAddr} {fd : Field} {x : Area} {a : Nat}
    (ht : s.top = some g) (hc : s.codeOf g = some cb) (hf : cb.field k = some fd) (h : s.FieldReaches g k fd sub.toNat x a) :
    (∀ n, x = .db n → resolveField k sub s = .ok (.dbAt n a) s) ∧ ∀ j, x = .loc j → resolveField k sub s = .ok (.localAt j a) s := by
  have hr := resolveField_of (sub := sub) ht hc hf
  rcases h with ⟨h1, rfl, rfl⟩ | ⟨h1, hk, hcl, hs, hraw, h⟩ | ⟨h1, hk, hcl, hdi, h⟩
  · refine ⟨nofun, fun j hj => ?_⟩
    cases hj
    exact hr.trans (if_pos h1)
  · rw [if_neg h1, if_neg hk, hcl] at hr
    simp only [fcField, hs, hraw, if_false, Bool.false_eq_true] at hr
    rcases h with ⟨n, ba, hb, hn, rfl, rfl⟩ | ⟨j, ba, hb, hj, rfl, rfl⟩ | ⟨w, ba, hb, hlt, rfl, rfl⟩ | ⟨w, ba, hb, hlt, rfl, rfl⟩ |
      ⟨w, ba, hb, hlt, rfl, rfl⟩
    · rw [hb] at hr
      simp only [bindingLoc, hn, if_true] at hr
      exact ⟨fun m hm => by cases hm; exact hr, nofun⟩
    · rw [hb] at hr
      simp only [bindingLoc, State.depth, ge_iff_le, Nat.not_le.2 hj, if_false] at hr
      exact ⟨nofun, fun m hm => by cases hm; exact hr⟩
    · exact ⟨nofun, nofun⟩
    · exact ⟨nofun, nofun⟩
    · exact ⟨nofun, nofun⟩
  · rw [if_neg h1, if_neg hk, hcl] at hr
    simp only [fbField, hdi, if_true] at hr
    rcases h with ⟨h, rfl, rfl⟩ | ⟨ha, hs, hrc, ptr, rfl, hm, hlt, rfl, rfl⟩
    · have : ¬ (fd.agg = true ∧ fd.dir ≠ .stat) := by rintro ⟨h1, h2⟩; rcases h with h | h <;> simp_all
      rw [if_neg this] at hr
      exact ⟨fun m hm => by cases hm; exact hr, nofun⟩
    · rw [if_pos ⟨ha, hs⟩, fbAggregate, memRead_ok hrc] at hr
      simp only [Res.bind, hm, if_true, ge_iff_le, Nat.not_le.2 hlt, if_false] at hr
      exact ⟨fun m hm => by cases hm; exact hr, nofun⟩

/-- A field that the caller passes on (R366). -/
theorem bindPlace_passes {s : State} {g : Frame} {cb : CodeBlock} {k : BitVec 16} {sub : BitAddr} {fd : Field} {y : Binding}
    (ht : s.top = some g) (hc : s.codeOf g = some cb) (hf : cb.field k = some fd) (h : s.PassesOn g k fd sub.toNat y) :
    (resolveField k sub s).bind bindPlace = .ok y s := by
  rcases h with ⟨n, a, h, rfl⟩ | ⟨j, a, h, rfl⟩ | ⟨p, ba, hb, hm, hlt, rfl⟩ | ⟨p, hb, hu, h0, rfl⟩ | ⟨w, v, hb, h0, rfl⟩
  · rw [(resolveField_place ht hc hf h).1 n rfl]; rfl
  · rw [(resolveField_place ht hc hf h).2 j rfl]; rfl
  · rw [resolveField_bound ht hc hf hb]
    cases p <;> simp only [Prim.movable, Option.some.injEq, reduceCtorEq] at hm <;> subst hm <;>
      simp only [bindingLoc, bindingPrim, shiftAddr, hlt, if_true, Res.bind, bindPlace, bindPrim, Prim.moved]
  · rw [resolveField_bound ht hc hf hb, h0]
    cases p <;> simp only [Prim.unmovable, Bool.false_eq_true] at hu <;> rfl
  · rw [resolveField_bound ht hc hf hb, h0]; rfl

/-- `bind(d, f)` of every form of an actual (R366). -/
theorem bindActual_binds {s t : State} {fd : Field} {d : Descriptor} {D : Desc} {y : Binding} (hd : decodeDesc d = .ok D)
    (h : s.BindsActual fd D y t) : bindActual d fd s = .ok y t := by
  rcases h with ⟨q, u, hq, h⟩ | ⟨w, k, sub, g, gb, gd, rfl, rfl, ht, hc, hf, hp⟩
  · have hr := resolveDesc_to hq
    simp only [Field.bindDir] at hr
    simp only [bindActual, decodeArg, hd, Res.bind, hr]
    rcases h with ⟨hb, rfl⟩ | ⟨n, ba, hn, rfl⟩
    · exact bindPrim_binds hb
    · exact bindPrim_names hn
  · simp only [bindActual, decodeArg, hd, Res.bind, resolveDesc]
    exact bindPlace_passes ht hc hf hp

theorem bindActual_raises {s t : State} {fd : Field} {d : Descriptor} {D : Desc} {c : Cause} (hd : decodeDesc d = .ok D)
    (h : s.BindRaises fd D c t) : ∃ o, bindActual d fd s = .err ⟨c, o⟩ t := by
  rcases h with ⟨x, hx, rfl⟩ | ⟨w, k, sub, x, rfl, hx, rfl⟩ | ⟨q, hq, h⟩
  · simp only [Field.bindDir] at hx
    exact ⟨x.opnd, by simp only [bindActual, decodeArg, hd, Res.bind, hx]⟩
  · exact ⟨x.opnd, by simp only [bindActual, decodeArg, hd, Res.bind, resolveDesc, hx]⟩
  · have hr := resolveDesc_to hq
    simp only [Field.bindDir] at hr
    exact ⟨none, by simp only [bindActual, decodeArg, hd, Res.bind, hr, bindPrim_raises h]⟩

/-- The pointer that an aggregate parameter leaves in the instance (R364). -/
theorem blockPointer_eq (m : BlockNum) (ba : BitAddr) :
    blockPointer m ba = BitVec.ofNat 48 (m.toNat * 2 ^ 32 + 0x84000000 + ba.toNat) := by
  have hor : (0x84000000#32 ||| ba.setWidth 32) = BitVec.ofNat 32 (0x84000000 + ba.toNat) := by
    have := ba.isLt
    have e : (0x84000000#32 ||| ba.setWidth 32) = 0x84000000#32 + ba.setWidth 32 := by
      rw [BitVec.add_eq_or_of_and_eq_zero]
      apply BitVec.eq_of_getLsbD_eq
      intro i hi
      simp only [BitVec.getLsbD_and, BitVec.getLsbD_setWidth, BitVec.getLsbD_zero]
      by_cases h : i < 19
      · have : (0x84000000#32).getLsbD i = false := by interval_cases i <;> rfl
        simp [this]
      · simp [BitVec.getLsbD_of_ge ba i (by omega)]
    rw [e]
    apply BitVec.eq_of_toNat_eq
    simp [BitVec.toNat_add]
  rw [blockPointer, hor]
  have h1 := m.isLt
  have h2 := ba.isLt
  apply BitVec.eq_of_toNat_eq
  rw [BitVec.toNat_append, BitVec.toNat_ofNat, BitVec.toNat_ofNat, Nat.mod_eq_of_lt (by omega), Nat.mod_eq_of_lt (by omega),
    Nat.shiftLeft_eq, ← Nat.shiftLeft_eq, ← Nat.shiftLeft_add_eq_or_of_lt (by omega), Nat.shiftLeft_eq]
  omega

/-- The aggregate actual of a function block (R364). -/
theorem copyInAggregate_names {inst m : BlockNum} {at_ : Nat} {d : Descriptor} {D : Desc} {s u t : State} {q : Prim} {ba : BitAddr}
    (hd : decodeDesc d = .ok D) (hq : s.ResolvesTo .fetch D q u) (h : u.NamesBlock q m ba t) :
    copyInAggregate inst at_ d s = memWrite (.db inst) at_ .w48 (blockPointer m ba) t := by
  obtain ⟨w, di, x, rfl, hl⟩ := liveBlock_names h
  cases di <;> simp only [copyInAggregate, decodeArg, hd, Res.bind, resolveDesc_to hq, Bool.false_eq_true, if_false, if_true, hl]

theorem copyInAggregate_lacks {inst : BlockNum} {at_ : Nat} {d : Descriptor} {D : Desc} {s u : State} {q : Prim}
    (hd : decodeDesc d = .ok D) (hq : s.ResolvesTo .fetch D q u) (h : u.LacksBlock q) :
    copyInAggregate inst at_ d s = addrErr .missingDb u := by
  obtain ⟨w, di, x, ba, rfl, hl⟩ := liveBlock_lacks h
  cases di <;> simp only [copyInAggregate, decodeArg, hd, Res.bind, resolveDesc_to hq, Bool.false_eq_true, if_false, if_true, hl,
    addrErr, raise]

/-! ## The direct call rows -/

/-- A direct call row whose header, target and parameter list are accepted runs its shape-specific part (R353). -/
theorem directCall_accepted {s : State} {cb : CodeBlock} {sh : ShapeKind} {sys : Bool} {m n : BitVec 16} {t : Descriptor} {pl : List Param}
    {w : Width} (hm : m = 0 ∨ sh = .mi) (ht : decodeDesc t = .ok (.direct (.prim (.blk w (.code (targetKind sh sys)) n))))
    (hc : s.prog.code (targetKind sh sys) n = some cb) (hp : ParamsOk cb pl) (k : BlockNum → CodeBlock → State → Res Data) :
    directCall sh sys m t pl k s = k n cb s := by
  simp only [directCall, callHeaderCheck_ok hm, Res.bind, callTarget, directTarget, decodeArg, ht, if_true, lookupBlock, hc, Res.withOpnd,
    checkParams_ok hp, Bool.false_eq_true, if_false]

/-- CALL_FC after its checks: the parameters are bound and the frame is pushed (R370). -/
theorem exec_fcRow {s : State} {f : Frame} {b cb : CodeBlock} {t : Descriptor} {pl : List Param} {w : Width} {n : BlockNum} {K : BlockKind}
    {i : Instr} (hr : s.Running f b) (hK : K = .fc ∨ K = .sfc) (hi : DirectRow i K t pl)
    (ht : decodeDesc t = .ok (.direct (.prim (.blk w (.code K) n)))) (hc : s.prog.code K n = some cb) (hp : ParamsOk cb pl) :
    exec i s =
      match (bindParams cb pl s).bind fun bs u => finishCall { u.newFrame K n cb.tempSize with bind := bs } u with
      | .ok v u => .next (u.answer v)
      | .err x u => .next (u.takeFault x (some u.step.loc)) := by
  rcases hi with ⟨rfl, rfl⟩ | ⟨rfl, rfl⟩ | ⟨rfl, h⟩ | ⟨rfl, h⟩
  · simp only [exec, execCallFc, microCmd_running hr, callFcOp]
    rw [directCall_accepted (sh := .fc) (sys := false) (.inl rfl) ht hc hp]; rfl
  · simp only [exec, execCallFcSys, microCmd_running hr, callFcOp]
    rw [directCall_accepted (sh := .fc) (sys := true) (.inl rfl) ht hc hp]; rfl
  · simp at hK
  · simp at hK

/-- An instance operand that resolves to a present data block (R361). -/
theorem callInstance_accepted {s u : State} {x : Descriptor} {X : Desc} {w : Width} {m : BlockNum} (hX : decodeDesc x = .ok X)
    (hres : resolveDesc .fetch X s = .ok (.prim (.blk w .db m)) u) (hdb : s.prog.hasDb m = true) : callInstance x s = .ok m u := by
  have hpr : u.prog = s.prog := by
    have := (Effects.resolveDesc (wr := false) (rr := false) .fetch X s).keeps.prog
    rwa [hres] at this
  simp only [callInstance, decodeArg, hX, Res.bind, hres, hpr, hdb, if_true]
  rfl

/-- A current DI block that is long enough where that is validated (R372, R377). -/
theorem miInstance_accepted {s : State} {b : CodeBlock} {m : BitVec 16} (hdb : s.prog.hasDb s.regs.diReg = true)
    (h : s.cfg.miValidate = true → ¬ PastInstance b (miBase s m) (s.areaSize (.db s.regs.diReg))) :
    miInstance b m s = .ok (s.regs.diReg, miBase s m) s := by
  rw [miInstance, if_pos hdb, if_neg]
  rintro ⟨h1, h2⟩
  rw [miInRange, List.all_eq_false] at h2
  obtain ⟨kf, h3, h4⟩ := h2
  simp only [Bool.or_eq_true, not_or, decide_eq_true_eq, Nat.not_le, beq_iff_eq] at h4
  exact h h1 ⟨kf, h3, h4.1, h4.2⟩

/-- A direct call row of a function block after its checks and its instance: it does what its copy-in does, then pushes its frame (R371,
R372). -/
theorem exec_fbRow {s u : State} {f : Frame} {b cb : CodeBlock} {t : Descriptor} {pl : List Param} {w : Width} {n inst : BlockNum}
    {K : BlockKind} {i : Instr} {base : Nat} (hr : s.Running f b) (hi : DirectRow i K t pl)
    (ht : decodeDesc t = .ok (.direct (.prim (.blk w (.code K) n)))) (hc : s.prog.code K n = some cb) (hp : ParamsOk cb pl)
    (hin : s.InstanceOf i cb t pl inst base u) :
    (∀ x v, copyIn cb inst base pl u = .err x v → ∃ o, exec i s = .next (v.faultWith x.cause o)) ∧
    ∀ v, copyIn cb inst base pl u = .ok () v → ∃ r, exec i s = .next r ∧ v.EnteredFb i K n cb pl inst base r := by
  rcases hin with ⟨x, X, wx, hix, hX, hres, hdb, rfl⟩ | ⟨m, hix, rfl, rfl, hdb, rfl, hval⟩
  · have hci := callInstance_accepted hX hres hdb
    have main : ∀ sys, K = targetKind .fb sys → exec i s = microCmd s (fun _ _ s => callFbOp sys 0 t x pl s) →
        (∀ y v, copyIn cb inst 0 pl u = .err y v → ∃ o, exec i s = .next (v.faultWith y.cause o)) ∧
        ∀ v, copyIn cb inst 0 pl u = .ok () v → ∃ r, exec i s = .next r ∧ v.EnteredFb i K n cb pl inst 0 r := by
      intro sys hk he
      subst hk
      refine ⟨fun y v h => ⟨y.opnd, ?_⟩, fun v h => ?_⟩ <;> rw [he, microCmd_running hr] <;>
        simp only [callFbOp, directCall_accepted (sh := .fb) (.inl rfl) ht hc hp, hci, Res.bind, h, finishCall]
      · rfl
      · refine ⟨_, rfl, (v.newFrame (targetKind .fb sys) n cb.tempSize).locals, inst, State.length_newFrame v _ n _,
          .inl ⟨⟨t, x, hix⟩, rfl⟩, ?_⟩
        cases sys <;> rfl
    rcases hix with rfl | rfl
    · exact main false (by rcases hi with ⟨rfl, h⟩ | ⟨rfl, h⟩ | ⟨rfl, h⟩ | ⟨rfl, h⟩ <;> simp_all [targetKind]) rfl
    · exact main true (by rcases hi with ⟨rfl, h⟩ | ⟨rfl, h⟩ | ⟨rfl, h⟩ | ⟨rfl, h⟩ <;> simp_all [targetKind]) rfl
  · have hmi := miInstance_accepted hdb hval
    have main : ∀ sys, K = targetKind .mi sys → exec i u = microCmd u (fun _ _ s => callMiOp sys m t pl s) →
        (∀ y v, copyIn cb u.regs.diReg (miBase u m) pl u = .err y v → ∃ o, exec i u = .next (v.faultWith y.cause o)) ∧
        ∀ v, copyIn cb u.regs.diReg (miBase u m) pl u = .ok () v →
          ∃ r, exec i u = .next r ∧ v.EnteredFb i K n cb pl u.regs.diReg (miBase u m) r := by
      intro sys hk he
      subst hk
      refine ⟨fun y v h => ⟨y.opnd, ?_⟩, fun v h => ?_⟩ <;> rw [he, microCmd_running hr] <;>
        simp only [callMiOp, directCall_accepted (sh := .mi) (.inr rfl) ht hc hp, hmi, Res.bind, h, finishCall]
      · rfl
      · refine ⟨_, rfl, (v.newFrame (targetKind .mi sys) n cb.tempSize).locals, v.regs.diReg, State.length_newFrame v _ n _,
          .inr ⟨⟨m, t, hix⟩, rfl⟩, ?_⟩
        cases sys <;> rfl
    rcases hix with rfl | rfl
    · exact main false (by rcases hi with ⟨rfl, h⟩ | ⟨rfl, h⟩ | ⟨rfl, h⟩ | ⟨rfl, h⟩ <;> simp_all [targetKind]) rfl
    · exact main true (by rcases hi with ⟨rfl, h⟩ | ⟨rfl, h⟩ | ⟨rfl, h⟩ | ⟨rfl, h⟩ <;> simp_all [targetKind]) rfl

end Sys2Proof.Machine
end

