-- ==== Sys2Proof/Laws/PerInstr.lean ====
section
/-! SUPPORT. For each command, what the first word of its encoding says: the opcode of the table, and for a CALL the row number that SHAPE and
SYS make up (30_encoding R151, R153, R154, 42_calls R351). -/

namespace Sys2Proof.Laws

open Sys2Proof

/-- The opcode of a command (R153). -/
def Encoding.opc : Instr → Nat
  | .fetch _ _ => 0x01
  | .store _ _ => 0x02
  | .regRead _ => 0x10
  | .regWrite _ => 0x11
  | .openDb _ _ => 0x12
  | .stwWrite _ _ => 0x13
  | .ccSet _ _ _ => 0x14
  | .tcOp _ _ _ _ => 0x15
  | .jumpRel _ => 0x20
  | .jumpLabel _ => 0x21
  | .blockEnd => 0x22
  | .parenPush _ => 0x23
  | .parenPop => 0x24
  | .mcrPush _ => 0x25
  | .mcrPop => 0x26
  | .mcrState => 0x27
  | .callFc _ _ _ => 0x30
  | .callFcSys _ _ _ => 0x30
  | .callFb _ _ _ _ => 0x30
  | .callFbSys _ _ _ _ => 0x30
  | .callMi _ _ _ => 0x30
  | .callMiSys _ _ _ => 0x30
  | .rawFc _ _ _ => 0x30
  | .rawFcSys _ _ _ => 0x30
  | .rawFb _ _ _ => 0x30
  | .rawFbSys _ _ _ => 0x30
  | .rawMi _ _ _ => 0x30
  | .rawMiSys _ _ _ => 0x30
  | .startup => 0x80
  | .runCycle => 0x81
  | .reset => 0x82
  | .configSet _ _ => 0x83
  | .imageRead _ _ _ => 0x84
  | .imageWrite _ _ _ => 0x85

/-- The CALL row `2 * SHAPE + SYS` of a command, none for the others (R351). -/
def Encoding.row : Instr → Option Nat
  | .fetch _ _ => none
  | .store _ _ => none
  | .regRead _ => none
  | .regWrite _ => none
  | .openDb _ _ => none
  | .stwWrite _ _ => none
  | .ccSet _ _ _ => none
  | .tcOp _ _ _ _ => none
  | .jumpRel _ => none
  | .jumpLabel _ => none
  | .blockEnd => none
  | .parenPush _ => none
  | .parenPop => none
  | .mcrPush _ => none
  | .mcrPop => none
  | .mcrState => none
  | .callFc _ _ _ => some 0
  | .callFcSys _ _ _ => some 1
  | .callFb _ _ _ _ => some 2
  | .callFbSys _ _ _ _ => some 3
  | .callMi _ _ _ => some 4
  | .callMiSys _ _ _ => some 5
  | .rawFc _ _ _ => some 6
  | .rawFcSys _ _ _ => some 7
  | .rawFb _ _ _ => some 8
  | .rawFbSys _ _ _ => some 9
  | .rawMi _ _ _ => some 10
  | .rawMiSys _ _ _ => some 11
  | .startup => none
  | .runCycle => none
  | .reset => none
  | .configSet _ _ => none
  | .imageRead _ _ _ => none
  | .imageWrite _ _ _ => none

/-- The first word of an encodable command has the command's opcode in bits 63 to 56, and a CALL's row in bits 55 to 52. -/
def Encoding.Statement (i : Instr) : Prop :=
  i.encodable = true →
    ((encode i).headD 0).toNat / 2 ^ 56 = Encoding.opc i ∧
    ∀ r, Encoding.row i = some r → ((encode i).headD 0).toNat / 2 ^ 52 % 16 = r

/-- A header whose other fields stay below bit 56 has its opcode on top. -/
theorem Encoding.header_opcode {opc fields : Nat} (ho : opc < 256) (hf : fields < 2 ^ 56) :
    (header opc fields).toNat / 2 ^ 56 = opc := by
  rw [header, BitVec.toNat_ofNat]
  omega

/-- A call header has opcode 0x30 on top and its row below. -/
theorem Encoding.callHeader_row {row mioff np : Nat} (hr : row < 16) (hm : mioff < 2 ^ 16) (hn : np < 2 ^ 16) :
    (callHeader row mioff np).toNat / 2 ^ 56 = 0x30 ∧ (callHeader row mioff np).toNat / 2 ^ 52 % 16 = row := by
  rw [callHeader, header, BitVec.toNat_ofNat]
  omega

/-- The statement of a command that is no CALL. -/
theorem Encoding.of_header {i : Instr} {opc fields : Nat} (hw : (encode i).headD 0 = header opc fields)
    (hr : Encoding.row i = none) (ho : Encoding.opc i = opc) (hb : opc < 256) (hf : i.encodable = true → fields < 2 ^ 56) :
    Encoding.Statement i := by
  intro he
  rw [hw, hr, ho]
  exact ⟨Encoding.header_opcode hb (hf he), fun _ h => nomatch h⟩

/-- The statement of a CALL. -/
theorem Encoding.of_call {i : Instr} {row mioff np : Nat} (hw : (encode i).headD 0 = callHeader row mioff np)
    (hr : Encoding.row i = some row) (ho : Encoding.opc i = 0x30) (hb : row < 16) (hm : mioff < 2 ^ 16)
    (hn : i.encodable = true → np < 2 ^ 16) : Encoding.Statement i := by
  intro he
  have h := Encoding.callHeader_row hb hm (hn he)
  rw [hw, hr, ho]
  exact ⟨h.1, fun r e => by cases e; exact h.2⟩

/-- A parameter list the encoding admits has a count of 16 bits. -/
theorem Encoding.params_length {pl : List Param} (h : paramsEncodable pl = true) : pl.length < 2 ^ 16 := by
  simp only [paramsEncodable, Bool.and_eq_true, decide_eq_true_eq] at h
  exact h.2

theorem Encoding.fetch (m : BitVec 5) (d : Descriptor) : Encoding.Statement (.fetch m d) :=
  Encoding.of_header rfl rfl rfl (by decide) (fun _ => by have := m.isLt; omega)

theorem Encoding.store (m : BitVec 5) (d : Descriptor) : Encoding.Statement (.store m d) :=
  Encoding.of_header rfl rfl rfl (by decide) (fun _ => by have := m.isLt; omega)

theorem Encoding.regRead (r : BitVec 4) : Encoding.Statement (.regRead r) :=
  Encoding.of_header rfl rfl rfl (by decide) (fun _ => by have := r.isLt; omega)

theorem Encoding.regWrite (r : BitVec 4) : Encoding.Statement (.regWrite r) :=
  Encoding.of_header rfl rfl rfl (by decide) (fun _ => by have := r.isLt; omega)

theorem Encoding.openDb (sel : Bool) (n : BlockNum) : Encoding.Statement (.openDb sel n) :=
  Encoding.of_header rfl rfl rfl (by decide) (fun _ => by have := n.isLt; have := sel.toNat_lt; omega)

theorem Encoding.stwWrite (m v : BitVec 9) : Encoding.Statement (.stwWrite m v) :=
  Encoding.of_header rfl rfl rfl (by decide) (fun _ => by have := m.isLt; have := v.isLt; omega)

theorem Encoding.ccSet (a b c : Bool) : Encoding.Statement (.ccSet a b c) :=
  Encoding.of_header rfl rfl rfl (by decide) (fun _ => by have := a.toNat_lt; have := b.toNat_lt; have := c.toNat_lt; omega)

theorem Encoding.tcOp (sel : Bool) (i : BitVec 16) (op : BitVec 8) (a : BitVec 16) : Encoding.Statement (.tcOp sel i op a) :=
  Encoding.of_header rfl rfl rfl (by decide) (fun _ => by have := sel.toNat_lt; have := i.isLt; have := op.isLt; have := a.isLt; omega)

theorem Encoding.jumpRel (i : BitVec 32) : Encoding.Statement (.jumpRel i) :=
  Encoding.of_header rfl rfl rfl (by decide) (fun _ => by have := i.isLt; omega)

theorem Encoding.jumpLabel (l : BitVec 32) : Encoding.Statement (.jumpLabel l) :=
  Encoding.of_header rfl rfl rfl (by decide) (fun _ => by have := l.isLt; omega)

theorem Encoding.blockEnd : Encoding.Statement .blockEnd :=
  Encoding.of_header rfl rfl rfl (by decide) (fun _ => by omega)

theorem Encoding.parenPush (e : BitVec 16) : Encoding.Statement (.parenPush e) :=
  Encoding.of_header rfl rfl rfl (by decide) (fun _ => by have := e.isLt; omega)

theorem Encoding.parenPop : Encoding.Statement .parenPop :=
  Encoding.of_header rfl rfl rfl (by decide) (fun _ => by omega)

theorem Encoding.mcrPush (b : Bool) : Encoding.Statement (.mcrPush b) :=
  Encoding.of_header rfl rfl rfl (by decide) (fun _ => by have := b.toNat_lt; omega)

theorem Encoding.mcrPop : Encoding.Statement .mcrPop :=
  Encoding.of_header rfl rfl rfl (by decide) (fun _ => by omega)

theorem Encoding.mcrState : Encoding.Statement .mcrState :=
  Encoding.of_header rfl rfl rfl (by decide) (fun _ => by omega)

theorem Encoding.callFc (mi : BitVec 16) (t : Descriptor) (pl : List Param) : Encoding.Statement (.callFc mi t pl) :=
  Encoding.of_call rfl rfl rfl (by decide) mi.isLt (fun h => Encoding.params_length (by simp only [Instr.encodable, Bool.and_eq_true] at h; exact h.2))

theorem Encoding.callFcSys (mi : BitVec 16) (t : Descriptor) (pl : List Param) : Encoding.Statement (.callFcSys mi t pl) :=
  Encoding.of_call rfl rfl rfl (by decide) mi.isLt (fun h => Encoding.params_length (by simp only [Instr.encodable, Bool.and_eq_true] at h; exact h.2))

theorem Encoding.callFb (mi : BitVec 16) (t x : Descriptor) (pl : List Param) : Encoding.Statement (.callFb mi t x pl) :=
  Encoding.of_call rfl rfl rfl (by decide) mi.isLt (fun h => Encoding.params_length (by simp only [Instr.encodable, Bool.and_eq_true] at h; exact h.2))

theorem Encoding.callFbSys (mi : BitVec 16) (t x : Descriptor) (pl : List Param) : Encoding.Statement (.callFbSys mi t x pl) :=
  Encoding.of_call rfl rfl rfl (by decide) mi.isLt (fun h => Encoding.params_length (by simp only [Instr.encodable, Bool.and_eq_true] at h; exact h.2))

theorem Encoding.callMi (mi : BitVec 16) (t : Descriptor) (pl : List Param) : Encoding.Statement (.callMi mi t pl) :=
  Encoding.of_call rfl rfl rfl (by decide) mi.isLt (fun h => Encoding.params_length (by simp only [Instr.encodable, Bool.and_eq_true] at h; exact h.2))

theorem Encoding.callMiSys (mi : BitVec 16) (t : Descriptor) (pl : List Param) : Encoding.Statement (.callMiSys mi t pl) :=
  Encoding.of_call rfl rfl rfl (by decide) mi.isLt (fun h => Encoding.params_length (by simp only [Instr.encodable, Bool.and_eq_true] at h; exact h.2))

theorem Encoding.rawFc (mi np : BitVec 16) (t : Descriptor) : Encoding.Statement (.rawFc mi np t) :=
  Encoding.of_call rfl rfl rfl (by decide) mi.isLt (fun _ => np.isLt)

theorem Encoding.rawFcSys (mi np : BitVec 16) (t : Descriptor) : Encoding.Statement (.rawFcSys mi np t) :=
  Encoding.of_call rfl rfl rfl (by decide) mi.isLt (fun _ => np.isLt)

theorem Encoding.rawFb (mi np : BitVec 16) (t : Descriptor) : Encoding.Statement (.rawFb mi np t) :=
  Encoding.of_call rfl rfl rfl (by decide) mi.isLt (fun _ => np.isLt)

theorem Encoding.rawFbSys (mi np : BitVec 16) (t : Descriptor) : Encoding.Statement (.rawFbSys mi np t) :=
  Encoding.of_call rfl rfl rfl (by decide) mi.isLt (fun _ => np.isLt)

theorem Encoding.rawMi (mi np : BitVec 16) (t : Descriptor) : Encoding.Statement (.rawMi mi np t) :=
  Encoding.of_call rfl rfl rfl (by decide) mi.isLt (fun _ => np.isLt)

theorem Encoding.rawMiSys (mi np : BitVec 16) (t : Descriptor) : Encoding.Statement (.rawMiSys mi np t) :=
  Encoding.of_call rfl rfl rfl (by decide) mi.isLt (fun _ => np.isLt)

theorem Encoding.startup : Encoding.Statement .startup :=
  Encoding.of_header rfl rfl rfl (by decide) (fun _ => by omega)

theorem Encoding.runCycle : Encoding.Statement .runCycle :=
  Encoding.of_header rfl rfl rfl (by decide) (fun _ => by omega)

theorem Encoding.reset : Encoding.Statement .reset :=
  Encoding.of_header rfl rfl rfl (by decide) (fun _ => by omega)

theorem Encoding.configSet (p : BitVec 4) (v : Data) : Encoding.Statement (.configSet p v) :=
  Encoding.of_header rfl rfl rfl (by decide) (fun _ => by have := p.isLt; have := v.isLt; omega)

theorem Encoding.imageRead (sel : Bool) (o l : BitVec 16) : Encoding.Statement (.imageRead sel o l) :=
  Encoding.of_header rfl rfl rfl (by decide) (fun _ => by have := sel.toNat_lt; have := o.isLt; have := l.isLt; omega)

theorem Encoding.imageWrite (sel : Bool) (o : BitVec 16) (bs : List Byte) : Encoding.Statement (.imageWrite sel o bs) :=
  Encoding.of_header rfl rfl rfl (by decide) (fun h => by have := sel.toNat_lt; have := o.isLt; have : bs.length < 2 ^ 16 := of_decide_eq_true h; omega)

end Sys2Proof.Laws
end

