-- ==== Sys2Proof/Tests/Slice0.lean ====
section
/-! SUPPORT. The model's own tests: ill-formed terms that the checks refuse; words of 95_test_vectors that decode to the commands they stand
for; single steps with the results of 95_test_vectors or of the rule named; and, for each statement with hypotheses, a concrete state and
operands that meet them. -/

namespace Sys2Proof.Tests

open Sys2Proof Sys2Proof.Machine

/-! ## A small program and a running state -/

def d (w : Word) : Descriptor := ⟨w, none⟩
def d2 (w x : Word) : Descriptor := ⟨w, some x⟩

/-- OB 1: two instructions without commands, label 7 at index 1, a TEMP field and an IN field. -/
def obMain : CodeBlock :=
  ⟨[.script [], .script []], [(7, 1)], [(0, ⟨.temp, .w16, 16, false⟩), (1, ⟨.input, .w16, 0, false⟩)], 4⟩

/-- FC 3 and SFC 3: an IN field. -/
def fcBlk : CodeBlock := ⟨[.script []], [], [(1, ⟨.input, .w16, 0, false⟩), (3, ⟨.stat, .w16, 0, false⟩)], 0⟩

/-- FB 2 and SFB 2: no instruction; IN, OUT, an aggregate and a STAT field. -/
def fbBlk : CodeBlock :=
  ⟨[], [], [(0, ⟨.input, .w16, 0, false⟩), (1, ⟨.output, .w16, 16, false⟩), (5, ⟨.input, .w48, 64, true⟩),
    (6, ⟨.stat, .w8, 32, false⟩)], 0⟩

def prog : Prog where
  ob := [(1, obMain), (100, ⟨[], [], [], 0⟩)]
  fc := [(3, fcBlk)]
  fb := [(2, fbBlk)]
  sfc := [(3, fcBlk)]
  sfb := [(2, fbBlk)]
  db := [(4, ⟨16, []⟩), (5, ⟨4, [0, 0, 0xAB, 0xCD]⟩), (7, ⟨14, []⟩), (9, ⟨16, []⟩)]
  udt := []

/-- A frame of OB 1 with four bytes of local data. -/
def fOb : Frame := ⟨.ob, 1, 0, [0x0A, 0x0B, 0x0C, 0x0D], [], [], [], false, .fclike, 0, 0, none⟩

/-- A frame of FC 3 with its field 1 bound. -/
def fFc (x : Binding) : Frame := ⟨.fc, 3, 0, [], [], [(1, x)], [], false, .fclike, 0, 0, none⟩

/-- A frame of FB 2 with instance DB 7 and the caller's registers 4 and 9. -/
def fFb (raw : Bool) (ps : List (BitVec 16 × Descriptor)) : Frame :=
  ⟨.fb, 2, 0, [], [], [], ps, raw, .fblike, 7, 0, some (4, 9)⟩

/-- A cycle of the program with this call stack, whose top frame runs an instruction that issues these commands. -/
def cycle (cs : List Frame) (cmds : List BodyCmd) : State :=
  { State.powerOn Config.cfg0 prog with
    cs := cs
    phase := .cycle
    mode := .cycling
    built := true
    timers := [10, 11, 12, 13]
    counters := [20, 21, 22, 23]
    step := ⟨1, cs.length - 1, false, ⟨.ob, 1, 0⟩⟩
    body := some ⟨.script cmds, []⟩ }

/-- OB 1 about to issue one command. -/
def one (ws : List Word) (din : Data := 0) : State := cycle [fOb] [⟨ws, din⟩]

/-- OB 1 with the body of its instruction done. -/
def s0 : State := cycle [fOb] []

/-- `f` of the next state, none when the step stops. -/
def after {α : Type} (o : Out) (f : State → α) : Option α :=
  match o with
  | .next s => some (f s)
  | .fault _ => none
  | .refused _ => none

/-- The reply the last micro-command had. -/
def lastReply (s : State) : Option Data := s.body.bind fun r => r.replies.getLast?

/-- The kind and reason of the error record. -/
def errOf (s : State) : BitVec 3 × Option (BitVec 8) := (s.err.kind, s.err.reason)

/-- The first bytes of a buffer. -/
def firstBytes (x : Area) (n : Nat) (s : State) : List Byte := (List.range n).map (s.byteAt x)

/-- The flag region's bytes 2 and 3, as memory entries. -/
def m23 (a b : Byte) : Memory := [(131074, a), (131075, b)]

/-! ## Ill-formed terms -/

theorem test_wf_descriptor_words : (d 0x7A30000000000000).encodable = false := by decide
theorem test_wf_params_words : paramsEncodable [⟨0, d2 0x1A00000000000000 0⟩] = false := by decide
theorem test_wf_params_reserved : paramsLegal [⟨0x10000, d 0x1A00000000000000⟩] = false := by decide
theorem test_wf_fetch : (Instr.fetch 0 (d2 0x1A00000000000000 0)).wellFormed = false := by decide
theorem test_wf_reg_code : (Instr.regRead 12).wellFormed = false ∧ (Instr.regRead 11).wellFormed = true := by decide
theorem test_wf_mioff : (Instr.callFc 1 (d 0x6A10003000000000) []).wellFormed = false := by decide
theorem test_wf_raw_nparam : (Instr.rawMi 0 1 (d 0x6A20002000000000)).wellFormed = false := by decide
theorem test_wf_config_code : (Instr.configSet 10 0).wellFormed = false := by decide
theorem test_wf_image_sel : (Instr.imageWrite true 0 []).wellFormed = false := by decide
theorem test_wf_imm : (Prim.imm .w8 0x100).wellFormed = false := by decide
theorem test_wf_stw : (Prim.stw .w16 .raw 3).wellFormed = false := by decide
theorem test_wf_operand : (Operand.prim (.imm .w1 2)).wellFormed = false := by decide
theorem test_wf_desc : (Desc.ind .w16 (.timer false) 1 (.prim (.flag .w16 0))).wellFormed = false := by decide

/-! ## Words of 95_test_vectors and the commands they stand for -/

theorem test_decode_fetch : decode [0x0100040000000000, 0x1A00000000000010] = .ok (.fetch 4 (d 0x1A00000000000010), []) := by decide
theorem test_decode_store : decode [0x0200080000000000, 0x6310000000000000] = .ok (.store 8 (d 0x6310000000000000), []) := by decide
theorem test_decode_reg : decode [0x1009000000000000] = .ok (.regRead 9, []) ∧ decode [0x1104000000000000] = .ok (.regWrite 4, []) := by
  decide
theorem test_decode_open : decode [0x1201000500000000] = .ok (.openDb true 5, []) := by decide
theorem test_decode_stw : decode [0x130001FF00000000] = .ok (.stwWrite 0x1FF 0, []) := by decide
theorem test_decode_cc : decode [0x1400000000000005] = .ok (.ccSet true false true, []) := by decide
theorem test_decode_tc : decode [0x1500000201000010] = .ok (.tcOp false 2 1 16, []) := by decide
theorem test_decode_jumps :
    decode [0x20000000FFFFFFFA] = .ok (.jumpRel (-6), []) ∧ decode [0x2100000000000007] = .ok (.jumpLabel 7, []) ∧
      decode [0x2200000000000000] = .ok (.blockEnd, []) := by decide
theorem test_decode_stacks :
    decode [0x2300000000000102] = .ok (.parenPush 0x102, []) ∧ decode [0x2400000000000000] = .ok (.parenPop, []) ∧
      decode [0x2500000000000001] = .ok (.mcrPush true, []) ∧ decode [0x2600000000000000] = .ok (.mcrPop, []) ∧
      decode [0x2700000000000000] = .ok (.mcrState, []) := by decide
theorem test_decode_call_fc :
    decode [0x3000000000000001, 0x6A10003000000000, 1, 0x1A00000000000020] =
      .ok (.callFc 0 (d 0x6A10003000000000) [⟨1, d 0x1A00000000000020⟩], []) := by decide
theorem test_decode_call_sys :
    decode [0x3010000000000000, 0x6A40014000000000] = .ok (.callFcSys 0 (d 0x6A40014000000000) [], []) := by decide
theorem test_decode_call_fb :
    decode [0x3020000000000000, 0x6A20009000000000, 0x6A30007000000000] =
      .ok (.callFb 0 (d 0x6A20009000000000) (d 0x6A30007000000000) [], []) := by decide
theorem test_decode_call_fb_sys :
    decode [0x3030000000000000, 0x6A50009000000000, 0x6A30007000000000] =
      .ok (.callFbSys 0 (d 0x6A50009000000000) (d 0x6A30007000000000) [], []) := by decide
theorem test_decode_call_mi :
    decode [0x3040000200000000, 0x6A20002000000000] = .ok (.callMi 2 (d 0x6A20002000000000) [], []) ∧
      decode [0x3050000200000000, 0x6A50002000000000] = .ok (.callMiSys 2 (d 0x6A50002000000000) [], []) := by decide
theorem test_decode_raw :
    decode [0x3060000000000000, 0x1A00000000000030] = .ok (.rawFc 0 0 (d 0x1A00000000000030), []) ∧
      decode [0x3080000000000000, 0x6A20002000000000] = .ok (.rawFb 0 0 (d 0x6A20002000000000), []) ∧
      decode [0x30A0000200000000, 0x6A20002000000000] = .ok (.rawMi 2 0 (d 0x6A20002000000000), []) := by decide
theorem test_decode_raw_sys :
    decode [0x3070000000000000, 0x1A00000000000030] = .ok (.rawFcSys 0 0 (d 0x1A00000000000030), []) ∧
      decode [0x3090000000000000, 0x6A20002000000000] = .ok (.rawFbSys 0 0 (d 0x6A20002000000000), []) ∧
      decode [0x30B0000200000000, 0x6A20002000000000] = .ok (.rawMiSys 2 0 (d 0x6A20002000000000), []) := by decide
theorem test_decode_host :
    decode [0x8000000000000000] = .ok (.startup, []) ∧ decode [0x8100000000000000] = .ok (.runCycle, []) ∧
      decode [0x8200000000000000] = .ok (.reset, []) ∧ decode [0x8308800000000000] = .ok (.configSet 8 0x800000000000, []) ∧
      decode [0x8401000000000002] = .ok (.imageRead true 0 2, []) ∧
      decode [0x8500000000000002, 0xAABB000000000000] = .ok (.imageWrite false 0 [0xAA, 0xBB], []) := by decide
theorem test_decode_operands :
    decodeDesc (d 0x3210005000000010) = .ok (.direct (.prim (.db .w16 (some 5) 16))) ∧
      decodeDesc (d 0x5110000000000008) = .ok (.direct (.prim (.periph .w8 true 8))) ∧
      decodeDesc (d 0x7100005000000008) = .ok (.direct (.field .w8 5 8)) ∧
      decodeDesc (d2 0x7AF0000000000000 0x1B00000000000060) = .ok (.ind .w16 .crossing 0 (.prim (.flag .w32 96))) := by decide
theorem test_decode_table_word :
    decodeTableWord 64 0x8306000000000000 = some (.configSet 6 0) ∧ decodeTableWord 64 0x0300000000000000 = none := by decide

/-! ## Single steps, with the results of 95_test_vectors -/

theorem test_fetch_d1 :
    after (step { one [0x0100040000000000, 0x1A00000000000010] with mem := m23 0x12 0x34 }) lastReply = some (some 0x1234) := by decide
theorem test_fetch_db2 :
    after (step (one [0x0100040000000000, 0x3210005000000018])) (fun s => (errOf s, s.regs.dbReg, s.err.opnd)) =
      some ((1, some 3), 5, some (d 0x3210005000000018)) := by decide
theorem test_store_d5 :
    after (step (one [0x0200000000000000, 0x1900000000000008] 0x1FF)) (firstBytes .flags 3) = some [0, 0xFF, 0] := by decide
theorem test_store_cc16 : after (step (one [0x0200010000000000, 0x5800000000000005] 1)) (fun s => s.regs.stw) = some 0x020 := by decide
theorem test_reg_read_rg10 :
    after (step (cycle [{ fOb with ip := 3 }] [⟨[0x100A000000000000], 0⟩])) lastReply = some (some 3) := by decide
theorem test_reg_read_rg9 : after (step (one [0x100C000000000000])) errOf = some (7, some 5) := by decide
theorem test_reg_write_rg1 :
    after (step (one [0x1100000000000000] 0xABCD12345678)) (fun s => s.regs.accu1) = some 0x12345678 := by decide
theorem test_reg_write_rg8 : after (step (one [0x1107000000000000] 5)) (fun s => (errOf s, s.regs.dbReg)) = some ((1, some 8), 0) := by
  decide
theorem test_open_op1 : after (step (one [0x1201000500000000])) (fun s => (s.regs.dbReg, s.regs.diReg)) = some (0, 5) := by decide
theorem test_open_op2 : after (step (one [0x1200000600000000])) (fun s => (errOf s, s.regs.dbReg)) = some ((1, some 5), 0) := by decide
theorem test_stw_cc1 :
    after (step { one [0x1300000300000001] with regs := { Regs.zero with stw := 0x1FF } }) (fun s => s.regs.stw) = some 0x1FD := by decide
theorem test_stw_cc5 : after (step (one [0x1300000000000200])) (fun s => (errOf s, s.regs.stw)) = some ((7, some 5), 0) := by decide
theorem test_cc_cc8 :
    after (step { one [0x1400000000000002] with regs := { Regs.zero with stw := 0x0FF } }) (fun s => s.regs.stw) = some 0x05F := by decide
theorem test_cc_cc7 :
    after (step { one [0x1400000000000000] with regs := { Regs.zero with stw := 0x0B0 } }) (fun s => s.regs.stw) = some 0x010 := by decide
theorem test_tc_tc1 :
    after (step (one [0x1500000401000010])) (fun s => (errOf s, s.timers)) = some ((1, some 6), [10, 11, 12, 13]) := by decide
theorem test_jump_rel_j1 : after (step (one [0x20000000FFFFFFFB])) (fun s => s.step.rj) = some (-5) := by decide
theorem test_jump_label_j5 :
    after (step (cycle [{ fOb with ip := 9 }] [⟨[0x2100000000000007], 0⟩])) (fun s => s.step.rj) = some (-8) := by decide
theorem test_jump_label_j6 : after (step (one [0x2100000000000008])) errOf = some (7, some 2) := by decide
theorem test_block_end_j7 : after (step (one [0x2200000000000000])) (fun s => s.step.rj) = some 2 := by decide
theorem test_paren_push_pa4 :
    after (step (cycle [{ fOb with paren := [1, 2, 3, 4, 5, 6, 7] }] [⟨[0x2300000000000001], 0⟩])) errOf = some (2, some 4) := by decide
theorem test_paren_push_pa1 :
    after (step (one [0x2300000000000102])) (fun s => s.cs.map Frame.paren) = some [[0x0102]] := by decide
theorem test_paren_pop_pa2 :
    after (step (cycle [{ fOb with paren := [5, 0x0102] }] [⟨[0x2400000000000000], 0⟩]))
      (fun s => (lastReply s, s.cs.map Frame.paren)) = some (some 0x0102, [[5]]) := by decide
theorem test_paren_pop_pa3 : after (step (one [0x2400000000000000])) errOf = some (2, some 5) := by decide
theorem test_mcr_push_mc4 :
    after (step { one [0x2500000000000001] with mcr := List.replicate 8 false }) (fun s => (errOf s, s.mcr.length)) =
      some ((2, some 6), 8) := by decide
theorem test_mcr_pop_mc5 :
    after (step { one [0x2600000000000000] with mcr := [false, true] }) (fun s => (lastReply s, s.mcr)) = some (some 1, [false]) := by
  decide
theorem test_mcr_pop_mc1 : after (step (one [0x2600000000000000])) errOf = some (2, some 7) := by decide
theorem test_mcr_state_mc2 : after (step (one [0x2700000000000000])) lastReply = some (some 1) := by decide
theorem test_mcr_state_mc3 : after (step { one [0x2700000000000000] with mcr := [false] }) lastReply = some (some 0) := by decide

/-- The registers that section 6 of 95_test_vectors starts from. -/
def regs49 : Regs := { Regs.zero with dbReg := 4, diReg := 9 }

/-- The frame a call has pushed, and the registers. -/
def called (s : State) : Option Frame × BlockNum × BlockNum := (s.cs[1]?, s.regs.dbReg, s.regs.diReg)

/-- A fresh frame of a function. -/
def fcFrame (k : BlockKind) (raw : Bool) (bind : List (BitVec 16 × Binding)) : Frame :=
  ⟨k, 3, 0, [], [], bind, [], raw, .fclike, 0, 0, none⟩

/-- A fresh frame of a function block called from registers 4 and 9. -/
def fbFrame (k : BlockKind) (raw : Bool) (ps : List (BitVec 16 × Descriptor)) (db : BlockNum) (base : Nat) : Frame :=
  ⟨k, 2, 0, [], [], [], ps, raw, .fblike, db, base, some (4, 9)⟩

theorem test_call_fc_cl14 :
    after (step { one [0x3000000000000001, 0x6A10003000000000, 1, 0x1A00000000000020] with regs := regs49 }) called =
      some (some (fcFrame .fc false [(1, .loc (.flag .w16 32))]), 4, 9) := by decide
theorem test_call_fc_cl4 :
    after (step { one [0x3000000000000000, 0x6A20003000000000] with regs := regs49 }) (fun s => (errOf s, called s)) =
      some ((2, some 2), none, 4, 9) := by decide
theorem test_call_fc_sys :
    after (step (one [0x3010000000000000, 0x6A40003000000000])) called = some (some (fcFrame .sfc false []), 0, 0) := by decide
theorem test_call_fb_cl15 :
    after (step { one [0x3020000000000002, 0x6A20002000000000, 0x6A30007000000000, 0, 0x0200000000000055, 1, 0x1A00000000000000] with
        regs := regs49 })
      (fun s => (firstBytes (.db 7) 3 s, called s)) =
      some ([0, 0x55, 0], some (fbFrame .fb false [(0, d 0x0200000000000055), (1, d 0x1A00000000000000)] 7 0), 9, 7) := by decide
theorem test_call_fb_cl1 :
    after (step { one [0x3020000000000000, 0x6A20009000000000, 0x6A30007000000000] with regs := regs49 })
      (fun s => (errOf s, called s)) = some ((2, some 1), none, 4, 9) := by decide
theorem test_call_fb_sys :
    after (step { one [0x3030000000000000, 0x6A50002000000000, 0x6A30007000000000] with regs := regs49 }) called =
      some (some (fbFrame .sfb false [] 7 0), 9, 7) := by decide
theorem test_call_mi_cl16 :
    after (step { one [0x3040000200000000, 0x6A20002000000000] with regs := { regs49 with ar2 := 0x40 } }) called =
      some (some (fbFrame .fb false [] 9 0x50), 9, 9) := by decide
theorem test_call_mi_cl11 : after (step (one [0x3040000200000000, 0x6A20002000000000])) errOf = some (2, some 9) := by decide
theorem test_call_mi_sys :
    after (step { one [0x3050000200000000, 0x6A50002000000000] with regs := { regs49 with ar2 := 0x40 } }) called =
      some (some (fbFrame .sfb false [] 9 0x50), 9, 9) := by decide
theorem test_call_mi_sys_cl12 :
    after (step { one [0x3050000200000000, 0x6A50002000000000] with
        cfg := { Config.cfg0 with miValidate := true }, regs := { regs49 with ar2 := 0x40 } }) errOf = some (2, some 10) := by decide
theorem test_raw_fc_cl17 :
    after (step { one [0x3060000000000000, 0x1A00000000000010] with mem := [(131075, 3)] }) called =
      some (some (fcFrame .fc true []), 0, 0) := by decide
theorem test_raw_fc_cl6 : after (step (one [0x3060000000000001, 0x1A00000000000030])) errOf = some (2, some 8) := by decide
theorem test_raw_fc_sys :
    after (step { one [0x3070000000000000, 0x1A00000000000010] with mem := [(131075, 3)] }) called =
      some (some (fcFrame .sfc true []), 0, 0) := by decide
theorem test_raw_fb_cl18 :
    after (step { one [0x3080000000000000, 0x6A20002000000000] with regs := regs49 }) called =
      some (some (fbFrame .fb true [] 9 0), 4, 9) := by decide
theorem test_raw_fb_sys :
    after (step { one [0x3090000000000000, 0x6A50002000000000] with regs := regs49 }) called =
      some (some (fbFrame .sfb true [] 9 0), 4, 9) := by decide
theorem test_raw_mi_cl19 :
    after (step { one [0x30A0000200000000, 0x6A20002000000000] with regs := { regs49 with ar2 := 0x40 } }) called =
      some (some (fbFrame .fb true [] 9 0x50), 9, 9) := by decide
theorem test_raw_mi_sys :
    after (step { one [0x30B0000200000000, 0x6A50002000000000] with regs := { regs49 with ar2 := 0x40 } }) called =
      some (some (fbFrame .sfb true [] 9 0x50), 9, 9) := by decide

/-! ## Host commands -/

/-- The machine after power-on with the program loaded, in a mode, with one host command sent and these clock readings to come. -/
def host (m : Mode) (ws : List Word) (clk : List Nat := []) : State :=
  { State.powerOn Config.cfg0 prog with
    mode := m
    built := m ≠ .uninit
    err := if m = .faulted then ⟨1, some 3, none, none⟩ else if m = .maint then ⟨4, some 1, none, none⟩ else ErrRec.none
    timers := [10, 11, 12, 13]
    counters := [20, 21, 22, 23]
    env := { Env.quiet with commands := [ws], clock := clk } }

theorem test_startup_sc3 :
    after (step (host .uninit [0x8000000000000000] [1000])) (fun s => (s.phase, s.built, s.cs.map Frame.num, s.time.now)) =
      some (.startupOb, true, [100], 1000) := by decide
theorem test_startup_sc7 :
    after (step (host .faulted [0x8000000000000000])) (fun s => (s.reply, s.mode)) = some (some (.refused .needsReset), .faulted) := by
  decide
theorem test_run_cycle_sc1 :
    after (step (host .uninit [0x8100000000000000])) (fun s => (s.reply, s.mode)) = some (some (.refused .notStarted), .uninit) := by
  decide
theorem test_run_cycle_sc11 :
    after (step { host .timefault [0x8100000000000000] [7] with cs := [fOb, fOb] }) (fun s => (s.phase, s.cs.map Frame.num)) =
      some (.cycle, [1]) := by decide
theorem test_reset_sc9 :
    after (step { host .faulted [0x8200000000000000] with mem := [(131074, 1), (524290, 1)] })
      (fun s => (s.mode, s.err.kind, firstBytes .flags 3 s, firstBytes (.db 5) 4 s)) =
      some (.uninit, 0, [0, 0, 0], [0, 0, 0xAB, 0xCD]) := by decide
theorem test_config_set_cf3 :
    after (step { host .started [0x8303000000000004] with
        mem := [(131074, 0xFF), (524290, 1)], regs := { Regs.zero with stw := 0x1FF }, time := ⟨9, 5, 5, 0⟩ })
      (fun s => (firstBytes .flags 4 s, firstBytes (.db 5) 3 s, s.regs.stw, s.stats.winStart, s.time.now, s.mode)) =
      some ([0, 0, 0, 0], [0, 0, 1], 0, 9, 9, .started) := by decide
theorem test_config_set_cf11 :
    after (step { host .started [0x8308000000000001] with
        mem := [(131072, 5)], clock := ⟨5, 3, 0, true⟩, cfg := { Config.cfg0 with clockOffset := some 0 } })
      (firstBytes .flags 3) = some [5, 5, 0] := by decide
theorem test_image_read_im5 :
    after (step { host .started [0x8401000000000002] with mem := [(65536, 0xBE), (65537, 0xEF)] }) (fun s => s.reply) =
      some (some (.ok [0xBE, 0xEF])) := by decide
theorem test_image_read_im1 :
    after (step (host .started [0x8400000100000002])) (fun s => s.reply) = some (some (.refused .imageRange)) := by decide
theorem test_image_write_im3 :
    after (step (host .started [0x8500000000000002, 0x1234000000000000])) (fun s => (s.reply, firstBytes .inputs 2 s)) =
      some (some (.ok []), [0x12, 0x34]) := by decide
theorem test_image_write_im4 :
    after (step (host .started [0x8501000000000001, 0])) (fun s => s.reply) = some (some (.refused .illegalCommand)) := by decide

/-! ## Ends of instructions and of cycles -/

theorem test_end_j2 :
    after (step { cycle [{ fOb with ip := 5 }] [] with step := ⟨-6, 0, false, ⟨.ob, 1, 5⟩⟩ })
      (fun s => (errOf s, s.cs.map Frame.ip, s.trace, s.stats.insnCount)) =
      some ((7, some 1), [5], [.postInsn .ob 1 5], 0) := by decide
theorem test_refresh_p4 :
    after (step { s0 with
        cfg := { Config.cfg0 with cycleLimit := 1000000 }, time := ⟨11000000, 10000000, 0, 0⟩
        stats := { Stats.zero with insnCount := 191 }, env := { Env.quiet with clock := [11000001] } })
      (fun s => (errOf s, s.mode, s.stats.insnCount, s.time.now)) = some ((3, some 1), .timefault, 192, 11000001) := by decide
theorem test_clock_ck : (tickMany 20 ⟨0, 0, 100000000, true⟩).clk = 0xC4 ∧ (tickMany 80 ⟨0, 0, 100000000, true⟩).clk = 0x40 := by
  decide
theorem test_fetch_word_micro : after (step (State.reset.withFetchWord 64 0x1300000200000002)) (fun s => s.regs.stw) = some 2 := by decide
theorem test_fetch_word_host :
    after (step (State.reset.withFetchWord 64 0x8306000000000005)) (fun s => (s.cfg.cycleLimit, s.reply)) = some (5, some (.ok [])) := by
  decide

/-! ## Witnesses: for each statement with hypotheses, a state and operands that meet them -/

theorem witness_DecodeEncode :
    (Instr.callFb 0 (d 0x6A20002000000000) (d 0x6A30007000000000) [⟨1, d2 0x7A30000000000000 0x1B00000000000050⟩]).encodable = true := by
  decide

theorem witness_DecodeCanonical :
    decode [0x0100040000000000, 0x7A30000000000000, 0x1B00000000000050, 9] =
      .ok (.fetch 4 (d2 0x7A30000000000000 0x1B00000000000050), [9]) := by decide

theorem witness_DescCodec :
    (d2 0x7A30000000000000 0x1B00000000000050).encodable = true ∧ (d 0x5800000000000008).encodable = true ∧
      decodeDesc (d 0x5800000000000008) = .ok (.direct (.prim (.stw .w1 .raw 8))) := by decide

/-- The opcodes of the table (R153). -/
def opcodes : List Nat :=
  [0x01, 0x02, 0x10, 0x11, 0x12, 0x13, 0x14, 0x15, 0x20, 0x21, 0x22, 0x23, 0x24, 0x25, 0x26, 0x27, 0x30, 0x80, 0x81, 0x82, 0x83, 0x84, 0x85]

theorem witness_ReservedEncodings_opcode :
    opcode 0x0000000000000000 ∉ opcodes ∧ opcode 0x0300000000000000 ∉ opcodes ∧ opcode 0x3100000000000000 ∉ opcodes ∧
      opcode 0x8600000000000000 ∉ opcodes := by
  refine ⟨?_, ?_, ?_, ?_⟩ <;> decide
theorem witness_ReservedEncodings :
    (opcode 0x30C0000000000000 = 0x30 ∧ bits 0x30C0000000000000 48 4 = 0 ∧ bits 0x30C0000000000000 16 16 = 0 ∧
      6 ≤ (bits 0x30C0000000000000 53 3).toNat) ∧
    16 ≤ (bits (d 0x8200000000000000).w0 59 5).toNat ∧ 5 ≤ (bits (d 0x1D00000000000000).w0 56 3).toNat ∧
    isInd 0x7A30000000000000 = true ∧ (decodeIndWord 0x7A30000000000000).isSome = true :=
  ⟨by decide, by decide, by decide, by decide, by decide⟩

theorem witness_StepRunsDecoded :
    ((host .started [0x8200000000000000]).phase = .idle ∧ (host .started [0x8200000000000000]).env.commands = [[0x8200000000000000]] ∧
      decode [0x8200000000000000] = .ok (.reset, [])) ∧
    ((one [0x2200000000000000]).phase ≠ .idle ∧ (one [0x2200000000000000]).body = some ⟨.script [⟨[0x2200000000000000], 0⟩], []⟩ ∧
      (Insn.script [⟨[0x2200000000000000], 0⟩]).next [] = some ⟨[0x2200000000000000], 0⟩ ∧
      decode [0x2200000000000000] = .ok (.blockEnd, [])) := by decide

theorem witness_CommandDiscipline :
    ({ host .started [] with env := Env.quiet } : State).phase = .idle ∧
    ({ host .started [] with env := Env.quiet } : State).env.commands = [] ∧
    decode [0x8600000000000000] = .error .reservedOpcode ∧ (host .started [0x8600000000000000]).phase = .idle ∧
    (one [0x0300000000000000]).phase ≠ .idle ∧ (one [0x0300000000000000]).body = some ⟨.script [⟨[0x0300000000000000], 0⟩], []⟩ ∧
    decode [0x0300000000000000] = .error .reservedOpcode ∧
    ({ s0 with step := { s0.step with called := true } } : State).step.called = true ∧ s0.phase ≠ .idle ∧
    isHostCommand .startup = true ∧ s0.step.called = false ∧ isHostCommand .blockEnd = false := by decide

/-- OB 1 between two instructions. -/
def between : State := { s0 with body := none }

theorem witness_InsnBeginEnd_begin :
    between.phase ≠ .idle ∧ between.body = none ∧ between.top = some fOb ∧ between.codeOf fOb = some obMain ∧
      obMain.insns[fOb.ip]? = some (.script []) := by decide

/-- OB 1 at the end of an instruction, with this advance and this count before it. -/
def ending (rj : Int) (count : BitVec 64) (now : Nat) : State :=
  { s0 with
    step := { s0.step with rj := rj }
    stats := { Stats.zero with insnCount := count }
    time := ⟨10, 10, 5, 0⟩
    env := { Env.quiet with clock := [now], lastReading := 10 } }

theorem witness_InsnBeginEnd_end :
    s0.phase ≠ .idle ∧ s0.body = some ⟨.script [], []⟩ ∧ (Insn.script []).next [] = none ∧ s0.cs[s0.step.e]? = some fOb ∧
      (fOb.ip : Int) + (ending (-1) 0 0).step.rj < 0 ∧ 0 ≤ (fOb.ip : Int) + (ending 0 62 0).step.rj ∧
      ((ending 0 62 0).stats.insnCount + 1).toNat % 64 ≠ 0 := by decide

/-- The three outcomes of a refresh, the limits just passed or just kept. -/
theorem witness_WatchdogRefresh :
    (∀ n ∈ [10, 20], (ending 1 63 n).phase ≠ .idle ∧ (ending 1 63 n).body = some ⟨.script [], []⟩ ∧
      (ending 1 63 n).cs[(ending 1 63 n).step.e]? = some fOb ∧ 0 ≤ (fOb.ip : Int) + (ending 1 63 n).step.rj ∧
      ((ending 1 63 n).stats.insnCount + 1).toNat % 64 = 0 ∧ (ending 1 63 n).env.clock = [n] ∧ (ending 1 63 n).env.lastReading ≤ n) ∧
    (Insn.script []).next [] = none ∧ (10 : Nat) - (ending 1 63 10).time.cycleStart ≤ 1000 ∧ (20 : Nat) - (ending 1 63 20).time.runStart > 14 := by
  decide
/-- The clock memory on, its next tick due at the reading 20 or just not. -/
theorem witness_WatchdogRefresh_clock :
    ∀ k ∈ [20, 21], let s : State := { ending 1 63 20 with clock := ⟨0, 79, k, true⟩, cfg := { Config.cfg0 with clockOffset := some 15 } }
      s.phase ≠ .idle ∧ s.body = some ⟨.script [], []⟩ ∧ s.cs[s.step.e]? = some fOb ∧ 0 ≤ (fOb.ip : Int) + s.step.rj ∧
        (s.stats.insnCount + 1).toNat % 64 = 0 ∧ s.env.clock = [20] ∧ s.env.lastReading ≤ 20 ∧
        s.mem.wf (resetByte s.prog) = true ∧ s.clock.on = true ∧ (s.clock.next ≤ 20 ↔ k = 20) := by decide

/-- FB 2 or FC 3 on top of OB 1, between two instructions. -/
def onTop (f : Frame) : State := { cycle [fOb, f] [] with body := none }

theorem witness_PopRestores :
    (∀ f ∈ [fFb true [], fFb false []], (onTop f).phase ≠ .idle ∧ (onTop f).body = none ∧ (onTop f).top = some f ∧
      (onTop f).codeOf f = some fbBlk ∧ fbBlk.len ≤ f.ip ∧ (onTop f).cs.dropLast ≠ [] ∧ f.cls = .fblike ∧ f.saved = some (4, 9) ∧
      (f.raw = true ∨ f.params = [])) ∧
    (onTop { fFc (.const .w16 5) with ip := 1 }).top = some { fFc (.const .w16 5) with ip := 1 } ∧
    (onTop { fFc (.const .w16 5) with ip := 1 }).codeOf { fFc (.const .w16 5) with ip := 1 } = some fcBlk ∧ fcBlk.len ≤ 1 ∧
    (fFc (.const .w16 5)).cls = .fclike := by decide

/-- FB 2 about to return, with this parameter. -/
def returning (k : BitVec 16) : Frame := fFb false [(k, d 0x1A00000000000070)]

theorem witness_CopyBack_state :
    ∀ k : BitVec 16, (onTop (returning k)).phase ≠ .idle ∧ (onTop (returning k)).body = none ∧
      (onTop (returning k)).top = some (returning k) ∧ (onTop (returning k)).codeOf (returning k) = some fbBlk ∧
      fbBlk.len ≤ (returning k).ip ∧ (onTop (returning k)).cs.dropLast ≠ [] ∧ (returning k).cls = .fblike ∧
      (returning k).raw = false ∧ (returning k).saved = some (4, 9) ∧ (returning k).params = [(k, d 0x1A00000000000070)] :=
  fun _ => ⟨nofun, rfl, rfl, rfl, Nat.le_refl 0, nofun, rfl, rfl, rfl, rfl⟩
theorem witness_CopyBack :
    fbBlk.field 0 = some ⟨.input, .w16, 0, false⟩ ∧ fbBlk.field 1 = some ⟨.output, .w16, 16, false⟩ ∧
    fbBlk.field 5 = some ⟨.input, .w48, 64, true⟩ ∧
    decodeDesc (d 0x1A00000000000070) = .ok (.direct (.prim (.flag .w16 112))) ∧
    decodeDesc (d 0x0200000000000000) = .ok (.direct (.prim (.imm .w16 0))) ∧
    rangeCheck ((onTop (fFb false [])).areaSize (.db 7)) 16 .w16 = none ∧ rangeCheck Config.cfg0.flagSize 112 .w16 = none :=
  ⟨by decide, by decide, by decide, by decide, by decide, by decide, by decide⟩
/-- The caller's state in the pop of FB 2, its registers restored; the pointer 2.0 stands in flag bytes 10 to 13. -/
def backState (ps : List (BitVec 16 × Descriptor)) : State := { onTop (fFb false ps) with mem := [(131085, 0x10)] }.returned 4 9

/-- The IN parameter is passed over and the OUT parameter copied. -/
theorem witness_CopyBack_list :
    ∃ t, CopiedBack fbBlk (fFb false [(0, d 0), (1, d 0x1A00000000000070)]) [(0, d 0), (1, d 0x1A00000000000070)]
      (backState [(0, d 0), (1, d 0x1A00000000000070)]) t :=
  ⟨_, .skip (fun fd h => by cases h; exact fun hc => by rcases hc.1 with hc | hc <;> cases hc)
    (.copy (fd := ⟨.output, .w16, 16, false⟩) (D := .direct (.prim (.flag .w16 112))) rfl ⟨.inl rfl, rfl⟩ rfl rfl rfl (.nil _))⟩
/-- The instance ends at the field's last bit, or one byte before it; an ill-formed actual; an actual that is not a place. -/
theorem witness_CopyBack_raises :
    CopiedBack fbBlk (fFb false []) [] (backState []) (backState []) ∧ Field.copiedBack ⟨.output, .w16, 16, false⟩ ∧
      rangeCheck ((backState []).areaSize (.db 7)) (80 + 16) .w16 = none ∧
      rangeCheck ((backState []).areaSize (.db 7)) (88 + 16) .w16 = some .outOfRange ∧
      decodeDesc (d 0x8000000000000000) = .error .unknownTag ∧ decodeDesc (d 0x0200000000000000) = .ok (.direct (.prim (.imm .w16 0))) ∧
      ∃ x t, storeOp (.direct (.prim (.imm .w16 0))) 0 (backState []) = .err x t :=
  ⟨.nil _, ⟨.inl rfl, rfl⟩, by decide, by decide, by decide, by decide, _, _, rfl⟩
/-- A flag actual at the region's end and past it, a TEMP field of the caller that fits and one that does not, and an indirect actual. -/
theorem witness_CopyBack_actuals :
    (∃ t, (backState []).Takes (.flag .w16 112) 0 t) ∧ (backState []).StoreRaises (.flag .w16 120) 0 .outOfRange (backState []) ∧
      decodeDesc (d 0x7200000000000000) = .ok (.direct (.field .w16 0 0)) ∧ (backState []).top = some fOb ∧
      (backState []).codeOf fOb = some obMain ∧ obMain.field 0 = some ⟨.temp, .w16, 16, false⟩ ∧
      (backState []).FieldReaches fOb 0 ⟨.temp, .w16, 16, false⟩ 0 (.loc 0) 16 ∧
      rangeCheck ((backState []).areaSize (.loc 0)) 16 .w16 = none ∧
      rangeCheck ((backState []).areaSize (.loc 0)) 24 .w16 = some .outOfRange ∧
      decodeDesc (d2 0x7A30000000000000 0x1B00000000000050) = .ok (.ind .w16 .flag 0 (.prim (.flag .w32 80))) ∧
      ∃ y, fetchOperand (.prim (.flag .w32 80)) (backState []) = .ok y (backState []) ∧
        (y.extractLsb' 0 19).toNat + (0 : BitAddr).toNat < 2 ^ 19 ∧
        PointerSelects .flag y .store .w16 (BitVec.ofNat 19 ((y.extractLsb' 0 19).toNat + (0 : BitAddr).toNat)) (.flag .w16 16) ∧
        ∃ t, (backState []).Takes (.flag .w16 16) 0 t :=
  ⟨⟨_, .inl ⟨.flags, .w16, 112, .inr (.inr (.inl ⟨rfl, rfl⟩)), by decide, rfl⟩⟩,
    .inl ⟨rfl, .inl (.inl ⟨.flags, .w16, 120, .inr (.inr (.inl ⟨rfl, rfl⟩)), by decide⟩)⟩, by decide, rfl, rfl, rfl,
    .inl ⟨rfl, rfl, rfl⟩, by decide, by decide, by decide, 16, by rfl, by decide, .inr (.inr (.inl ⟨.inl rfl, by decide⟩)),
    _, .inl ⟨.flags, .w16, 16, .inr (.inr (.inl ⟨rfl, rfl⟩)), by decide, rfl⟩⟩

theorem witness_EndOfTopLevel :
    (∀ ph ∈ [Phase.startupOb, .cycle], ∀ n ∈ [999999999, 1000000000],
      let s : State := { between with
        cs := [{ fOb with ip := 2 }], phase := ph, env := { Env.quiet with clock := [n], lastReading := 10 } }
      s.body = none ∧ s.cs = [{ fOb with ip := 2 }] ∧ s.codeOf { fOb with ip := 2 } = some obMain ∧ obMain.len ≤ 2 ∧ s.env.clock = [n] ∧
        s.env.lastReading ≤ n) ∧
    (999999999 - between.stats.winStart < 1000000000) ∧ 1000000000 ≤ 1000000000 - between.stats.winStart := by decide
theorem witness_EndOfTopLevel_clock :
    ∀ k ∈ [1000, 1001], let s : State := { between with
        cs := [{ fOb with ip := 2 }], env := { Env.quiet with clock := [1000], lastReading := 10 }
        clock := ⟨0, 79, k, true⟩, cfg := { Config.cfg0 with clockOffset := some 15 } }
      s.phase = .cycle ∧ s.mem.wf (resetByte s.prog) = true ∧ s.clock.on = true ∧ (s.clock.next ≤ 1000 ↔ k = 1000) := by decide

theorem witness_ResetState : prog.dataBlock 5 = some ⟨4, [0, 0, 0xAB, 0xCD]⟩ ∧ (65535 : Nat) < 65536 := by decide

/-- The frame of OB 1 is one R45 describes. -/
theorem fOb_ok : FrameOk prog fOb where
  block := ⟨obMain, by decide, by decide⟩
  cls := rfl
  paren := by decide
  saved := fun _ h => nomatch h
  savedFb := by decide
  bare := fun h => nomatch h
  bindFc := fun _ => rfl
  paramsFb := fun _ => rfl
  inst := .inl rfl

/-- A cycle of OB 1 is a legal state, whatever its instruction is about to issue. -/
theorem cycle_inv (cmds : List BodyCmd) : (cycle [fOb] cmds).Inv where
  memWf := rfl
  memMapped := fun _ h => nomatch h
  timers := rfl
  counters := rfl
  mcr := Nat.zero_le 8
  frames := by
    intro f h
    obtain rfl : f = fOb := by simpa [cycle] using h
    exact fOb_ok
  dbReg := .inl rfl
  diReg := .inl rfl
  accus := fun _ => ⟨rfl, rfl⟩
  clockByte := fun _ h => nomatch h
  cycleLimit := (by decide : (0 : Nat) < 1000000000000)
  lead := (by decide : (1000 : Nat) ≤ 2 ^ 31)
  now := Nat.le_refl 0
  cycleStart := Nat.le_refl 0
  runStart := Nat.le_refl 0
  winStart := Nat.le_refl 0
  msBase := Int.le_refl 0
  frame := fun _ => nofun
  runMode := fun _ => ⟨nofun, nofun⟩
  runBuilt := fun _ => rfl
  cycleMode := fun _ => nofun
  modeBuilt := fun _ => rfl
  builtMain := fun _ => rfl
  errKind := rfl
  body := fun _ => ⟨nofun, rfl⟩

/-- An idle core in any mode is a legal state. -/
theorem host_inv (m : Mode) (ws : List Word) (clk : List Nat) (hm : m ≠ .timefault) : (host m ws clk).Inv where
  memWf := rfl
  memMapped := fun _ h => nomatch h
  timers := rfl
  counters := rfl
  mcr := by simp [host, State.powerOn]
  frames := fun _ h => nomatch h
  dbReg := .inl rfl
  diReg := .inl rfl
  accus := fun _ => ⟨rfl, rfl⟩
  clockByte := fun _ h => nomatch h
  cycleLimit := by simp [host, State.powerOn, Config.cfg0]
  lead := by simp [host, State.powerOn, Config.cfg0]
  now := Nat.le_refl 0
  cycleStart := Nat.le_refl 0
  runStart := Nat.le_refl 0
  winStart := Nat.le_refl 0
  msBase := by simp [host, State.powerOn, TimeRegs.zero]
  frame := fun h => absurd rfl h
  runMode := fun h => absurd rfl h
  runBuilt := fun h => absurd rfl h
  cycleMode := fun h => nomatch h
  modeBuilt := fun h => decide_eq_true h
  builtMain := fun _ => rfl
  errKind := by cases m <;> first | rfl | exact absurd rfl hm
  body := fun h => nomatch h

/-- For the statements about every step of a legal state. -/
theorem witness_InvStep : (cycle [fOb] []).Inv ∧ ∃ t, step (cycle [fOb] []) = .next t := ⟨cycle_inv [], _, rfl⟩
theorem witness_Progress : (host .faulted [0x8200000000000000]).Inv := host_inv _ _ _ (by decide)
theorem witness_FixedParts : ∃ t, step (one [0x2200000000000000]) = .next t := ⟨_, rfl⟩
theorem witness_StatsOrdered : Stats.zero.Ordered ∧ ∃ t, step { s0 with stats := Stats.zero } = .next t :=
  ⟨⟨rfl, nofun, nofun, fun _ => ⟨rfl, rfl⟩⟩, ⟨_, rfl⟩⟩
theorem witness_ModeMachine :
    (host .faulted [0x8200000000000000]).Inv ∧
      ∃ t, step (host .faulted [0x8200000000000000]) = .next t ∧ t.mode ≠ (host .faulted [0x8200000000000000]).mode :=
  ⟨host_inv _ _ _ (by decide), _, rfl, by decide⟩
theorem witness_OnlyResetRecovers :
    (host .maint [0x8200000000000000]).Inv ∧ (host .maint [0x8200000000000000]).mode = .maint ∧
      ∃ t, step (host .maint [0x8200000000000000]) = .next t ∧ t.mode ≠ (host .maint [0x8200000000000000]).mode :=
  ⟨host_inv _ _ _ (by decide), rfl, _, rfl, by decide⟩
theorem witness_StwWriters :
    (∃ t, step (one [0x1400000000000005]) = .next t ∧ t.regs.stw ≠ (one [0x1400000000000005]).regs.stw) ∧
    ∃ t, step { onTop (fFb false [(1, d 0x5A00000000000000)]) with mem := [(655363, 3)] } = .next t ∧
      t.regs.stw ≠ (onTop (fFb false [(1, d 0x5A00000000000000)])).regs.stw :=
  ⟨⟨_, rfl, by decide⟩, _, rfl, by decide⟩
/-- A STORE to OV, directly and through a field bound to it, and the actual of the pop above. -/
theorem witness_StwWriters_store :
    (∃ t, step (one [0x0200010000000000, 0x5800000000000005] 1) = .next t ∧
      t.regs.stw ≠ (one [0x0200010000000000, 0x5800000000000005] 1).regs.stw) ∧
    (one [0x0200010000000000, 0x5800000000000005] 1).StwOperand (d 0x5800000000000005) ∧
    (cycle [fOb, fFc (.loc (.stw .w1 .raw 5))] []).StwOperand (d 0x7000001000000000) ∧ s0.StwOperand (d 0x5A00000000000000) :=
  ⟨⟨_, rfl, by decide⟩, .inl ⟨.w1, 5, by decide⟩,
    .inr ⟨.w1, 1, fFc (.loc (.stw .w1 .raw 5)), .w1, 5, by decide, rfl, rfl, rfl, rfl⟩, .inl ⟨.w16, 0, by decide⟩⟩
theorem witness_AccuAndCellWriters :
    (∃ t, step (one [0x1100000000000000] 1) = .next t ∧ t.regs.accu1 ≠ (one [0x1100000000000000] 1).regs.accu1) ∧
    ∃ t, step (host .started [0x8304000000000001]) = .next t ∧ t.timers ≠ (host .started [0x8304000000000001]).timers :=
  ⟨⟨_, rfl, by decide⟩, _, rfl, fun h => absurd (congrArg List.length h) (by decide)⟩
theorem witness_TimeWriters :
    (∃ t, step (host .started [0x8100000000000000] [7]) = .next t ∧ t.time.now ≠ (host .started [0x8100000000000000] [7]).time.now) ∧
    ∃ t, step (ending 1 63 20) = .next t ∧ t.time.now ≠ (ending 1 63 20).time.now :=
  ⟨⟨_, rfl, by decide⟩, _, rfl, by decide⟩
theorem witness_FaultReport :
    (cycle [fOb] [⟨[0x0300000000000000], 0⟩]).Inv ∧ (cycle [fOb] [⟨[0x0300000000000000], 0⟩]).phase ≠ .idle ∧
      ∃ t, step (cycle [fOb] [⟨[0x0300000000000000], 0⟩]) = .next t ∧ t.phase = .idle ∧ t.err.kind ≠ 0 :=
  ⟨cycle_inv _, by decide, _, rfl, by decide, by decide⟩

theorem witness_MemRoundTrip :
    s0.mem.wf (resetByte s0.prog) = true ∧ rangeCheck (s0.areaSize .flags) 80 .w48 = none ∧ rangeCheck (s0.areaSize .flags) 127 .w1 = none ∧
      rangeCheck (s0.areaSize (.loc 0)) 24 .w8 = none := by decide
theorem witness_MemBytes :
    s0.mem.wf (resetByte s0.prog) = true ∧ (∃ u, memWrite .flags 112 .w16 0x1234 s0 = .ok () u) ∧
      ∃ u, memWrite (.db 7) 111 .w1 1 s0 = .ok () u := ⟨rfl, ⟨_, rfl⟩, _, rfl⟩
theorem witness_MemRangeCheck :
    8 * s0.areaSize .flags ≤ 128 ∧ 113 % 8 ≠ 0 ∧ 120 % 8 = 0 ∧ s0.areaSize .flags < 120 / 8 + Width.w16.bytes ∧
      127 < 8 * s0.areaSize .flags ∧ 112 % 8 = 0 ∧ 112 / 8 + Width.w16.bytes ≤ s0.areaSize .flags := by decide
theorem witness_ClockBits : (7 : Nat) < 8 := by decide

/-- Any stack whose top frame has a block runs. -/
theorem cycle_running (cs : List Frame) (cmds : List BodyCmd) (f : Frame) (b : CodeBlock) (hf : cs[cs.length - 1]? = some f)
    (hb : prog.code f.kind f.num = some b) : (cycle cs cmds).Running f b :=
  ⟨nofun, rfl, hf, hb⟩

theorem s0_running : s0.Running fOb obMain := cycle_running _ _ _ _ rfl rfl

theorem witness_StatusViews :
    s0.Running fOb obMain ∧ decodeDesc (d 0x5810000000000000) = .ok (.direct (.prim (.stw .w1 .eq0 0))) ∧
      decodeDesc (d 0x5870000000000000) = .ok (.direct (.prim (.stw .w1 .uo 0))) ∧ widthAllowed 1 .w1 = true :=
  ⟨s0_running, by decide, by decide, by decide⟩
theorem witness_StwWriteMasked : s0.Running fOb obMain := s0_running
theorem witness_CcSetSticky : s0.Running fOb obMain := s0_running
theorem witness_RegReadAnswers :
    s0.Running fOb obMain ∧ s0.cfg.accuCount = .two ∧
      ({ s0 with cfg := { s0.cfg with accuCount := .four } } : State).Running fOb obMain ∧ s0.time.msBase ≤ s0.time.now ∧
      s0.top = some fOb ∧ 12 ≤ (12 : BitVec 4).toNat :=
  ⟨s0_running, rfl, ⟨nofun, rfl, rfl, rfl⟩, by decide, rfl, by decide⟩
theorem witness_RegWriteWrites :
    s0.Running fOb obMain ∧ s0.cfg.accuCount = .two ∧
      ({ s0 with cfg := { s0.cfg with accuCount := .four } } : State).Running fOb obMain ∧
      (∀ r ∈ [7#4, 11], 7 ≤ r.toNat ∧ r.toNat ≤ 11) ∧ 12 ≤ (12 : BitVec 4).toNat :=
  ⟨s0_running, rfl, ⟨nofun, rfl, rfl, rfl⟩, by decide, by decide⟩
theorem witness_OpenDbWritesRegister :
    s0.Running fOb obMain ∧ s0.prog.hasDb 5 = true ∧ (6 : BlockNum) ≠ 0 ∧ s0.prog.hasDb 6 = false :=
  ⟨s0_running, by decide, by decide, by decide⟩
theorem witness_TcOpStepsCell :
    s0.Running fOb obMain ∧ (3 : BitVec 16).toNat < s0.cfg.timerCount ∧ (3 : BitVec 16).toNat < s0.cfg.counterCount ∧
      (s0.cfg.timerCount : Nat) ≤ (4 : BitVec 16).toNat ∧ (s0.cfg.counterCount : Nat) ≤ (4 : BitVec 16).toNat :=
  ⟨s0_running, by decide, by decide, by decide, by decide⟩
theorem witness_JumpsSetTheAdvance :
    s0.Running fOb obMain ∧ obMain.labels.lookup 7 = some 1 ∧ obMain.labels.lookup 8 = none ∧
      s0.body = some ⟨.script [], []⟩ ∧ (Insn.script []).next [0] = none ∧ (s0.stats.insnCount + 1).toNat % 64 ≠ 0 ∧
      ((0 : Nat) : Int) = fOb.ip + (0 : BitVec 32).toInt :=
  ⟨s0_running, rfl, rfl, rfl, rfl, by decide, by decide⟩
theorem witness_ParenAndMcrStacks :
    (∀ p ∈ [[], [1#16, 2, 3, 4, 5, 6], [1, 2, 3, 4, 5, 6, 7]],
      (cycle [{ fOb with paren := p }] []).Running { fOb with paren := p } obMain) ∧
    [1#16, 2, 3, 4, 5, 6].length < 7 ∧ 7 ≤ [1#16, 2, 3, 4, 5, 6, 7].length ∧ [1#16, 2] = [1] ++ [2] ∧
    (∀ m ∈ [[], List.replicate 7 true, List.replicate 8 true], ({ s0 with mcr := m } : State).Running fOb obMain) ∧
    (List.replicate 7 true).length < 8 ∧ 8 ≤ (List.replicate 8 true).length ∧ s0.mcr = [] :=
  ⟨fun _ _ => cycle_running _ _ _ _ rfl rfl, by decide, by decide, rfl, fun _ _ => ⟨nofun, rfl, rfl, rfl⟩, by decide, by decide, rfl⟩

theorem witness_AccessBuffers :
    s0.Running fOb obMain ∧ decodeDesc (d 0x1A00000000000070) = .ok (.direct (.prim (.flag .w16 112))) ∧ widthAllowed 0 .w16 = true ∧
      s0.Reaches (.flag .w16 112) .flags .w16 112 ∧ rangeCheck (s0.areaSize .flags) (112 : BitAddr).toNat .w16 = none ∧
      decodeDesc (d 0x1A00000000000078) = .ok (.direct (.prim (.flag .w16 120))) ∧ s0.Reaches (.flag .w16 120) .flags .w16 120 ∧
      rangeCheck (s0.areaSize .flags) (120 : BitAddr).toNat .w16 = some .outOfRange :=
  ⟨s0_running, by decide, by decide, .inr (.inr (.inl ⟨rfl, rfl⟩)), by decide, by decide, .inr (.inr (.inl ⟨rfl, rfl⟩)), by decide⟩
theorem witness_AccessBuffers_parent :
    (onTop (fFc (.const .w16 5))).Reaches (.parentLoc .w8 24) (.loc 0) .w8 24 ∧
      rangeCheck ((onTop (fFc (.const .w16 5))).areaSize (.loc 0)) 24 .w8 = none :=
  ⟨.inr (.inr (.inr (.inr (.inl ⟨rfl, by decide, rfl⟩)))), by decide⟩
theorem witness_QualifiedOpen :
    s0.Running fOb obMain ∧ decodeDesc (d 0x3210005000000010) = .ok (.direct (.prim (.db .w16 (some 5) 16))) ∧
      widthAllowed 4 .w16 = true ∧ s0.prog.hasDb 5 = true ∧ rangeCheck (s0.areaSize (.db 5)) (16 : BitAddr).toNat .w16 = none ∧
      rangeCheck (s0.areaSize (.db 5)) (24 : BitAddr).toNat .w16 = some .outOfRange ∧
      decodeDesc (d 0x3210005000000018) = .ok (.direct (.prim (.db .w16 (some 5) 24))) ∧
      decodeDesc (d 0x3110006000000000) = .ok (.direct (.prim (.db .w8 (some 6) 0))) ∧ s0.prog.hasDb 6 = false ∧
      s0.prog.hasDb s0.regs.dbReg = false ∧ decodeDesc (d 0x2900000000000000) = .ok (.direct (.prim (.parentLoc .w8 0))) ∧
      s0.cs.length < 2 :=
  ⟨s0_running, by decide, by decide, by decide, by decide, by decide, by decide, by decide, by decide, by decide, by decide, by decide⟩
theorem witness_FetchValues :
    s0.Running fOb obMain ∧ decodeDesc (d 0x03000000FFFFFFFF) = .ok (.direct (.prim (.imm .w32 0xFFFFFFFF))) ∧
      widthAllowed 8 .w32 = true ∧ decodeDesc (d 0x4210003000000000) = .ok (.direct (.prim (.timer .w16 true 3))) ∧
      (3 : BitVec 16).toNat < s0.cfg.timerCount ∧ decodeDesc (d 0x4200004000000000) = .ok (.direct (.prim (.timer .w16 false 4))) ∧
      (s0.cfg.timerCount : Nat) ≤ (4 : BitVec 16).toNat ∧ widthAllowed 0 .w16 = true :=
  ⟨s0_running, by decide, by decide, by decide, by decide, by decide, by decide, by decide⟩
theorem witness_FetchValues_state :
    decodeDesc (d 0x4000003000000000) = .ok (.direct (.prim (.timer .w1 false 3))) ∧
      decodeDesc (d 0x4000004000000000) = .ok (.direct (.prim (.timer .w1 false 4))) ∧ widthAllowed 0 .w1 = true ∧
      decodeDesc (d 0x4800004000000000) = .ok (.direct (.prim (.counter .w1 false 4))) ∧
      (s0.cfg.counterCount : Nat) ≤ (4 : BitVec 16).toNat := by decide
theorem witness_StoreOthers :
    s0.Running fOb obMain ∧ decodeDesc (d 0x5800000000000008) = .ok (.direct (.prim (.stw .w1 .raw 8))) ∧ widthAllowed 0 .w1 = true ∧
      decodeDesc (d 0x6310000000000000) = .ok (.direct (.prim (.ar .w32 .ar1))) ∧ widthAllowed 0 .w32 = true ∧
      decodeDesc (d 0x5830000000000000) = .ok (.direct (.prim (.stw .w1 .gt0 0))) ∧
      decodeDesc (d 0x5110000000000008) = .ok (.direct (.prim (.periph .w8 true 8))) ∧ widthAllowed 2 .w8 = true :=
  ⟨s0_running, by decide, by decide, by decide, by decide, by decide, by decide, by decide⟩
theorem witness_HandlerWidths :
    s0.Running fOb obMain ∧ decodeDesc (d 0x4300000000000000) = .ok (.direct (.prim (.timer .w32 false 0))) ∧
      decodeDesc (d 0x5000000000000000) = .ok (.direct (.prim (.periph .w1 false 0))) ∧
      decodeDesc (d 0x5A10000000000000) = .ok (.direct (.prim (.stw .w16 .eq0 0))) ∧
      decodeDesc (d 0x6210000000000000) = .ok (.direct (.prim (.ar .w16 .ar1))) ∧
      decodeDesc (d 0x6910000000000000) = .ok (.direct (.prim (.blk .w8 (.code .fc) 0))) ∧ widthAllowed 0 .w32 = true :=
  ⟨s0_running, by decide, by decide, by decide, by decide, by decide, by decide⟩
theorem witness_WidthNotAllowed :
    s0.Running fOb obMain ∧ decodeDesc (d 0x1A00000000000010) = .ok (.direct (.prim (.flag .w16 16))) ∧ (2 : BitVec 5) ≠ 0 ∧
      (2 : BitVec 5).getLsbD (encodeWidth .w16) = false :=
  ⟨s0_running, by decide, by decide, by decide⟩
theorem witness_PeripheralAccess :
    s0.Running fOb obMain ∧ decodeDesc (d 0x5200000000000000) = .ok (.direct (.prim (.periph .w16 false 0))) ∧
      decodeDesc (d 0x5200000000000008) = .ok (.direct (.prim (.periph .w16 false 8))) ∧
      decodeDesc (d 0x5100000000000001) = .ok (.direct (.prim (.periph .w8 false 1))) ∧
      decodeDesc (d 0x5110000000000008) = .ok (.direct (.prim (.periph .w8 true 8))) ∧ widthAllowed 0 .w16 = true ∧
      (0 : BitAddr).toNat / 8 + Width.w16.bytes ≤ s0.cfg.inputSize ∧ (s0.cfg.inputSize : Nat) < (8 : BitAddr).toNat / 8 + Width.w16.bytes ∧
      ([some [0xAB, 0xCD]] : List (Option (List Byte))).head? = some (some [0xAB, 0xCD]) ∧
      s0.env.periphWrites.head? ≠ some true ∧ ([true] : List Bool).head? = some true :=
  ⟨s0_running, by decide, by decide, by decide, by decide, by decide, by decide, by decide, rfl, by decide, rfl⟩

/-- FB 2 on top of OB 1 with its instance open; the aggregate's pointer in DB 7 names DB 5 at byte 2. -/
def fbState : State :=
  { cycle [fOb, fFb false []] [] with
    regs := { Regs.zero with dbReg := 9, diReg := 7 }
    mem := [(655369, 5), (655370, 0x84), (655373, 0x10)] }

theorem fb_running : fbState.Running (fFb false []) fbBlk := ⟨nofun, rfl, rfl, rfl⟩

theorem witness_FieldBuffers_temp :
    s0.Running fOb obMain ∧ decodeDesc (d 0x7200000000000000) = .ok (.direct (.field .w16 0 0)) ∧ widthAllowed 4 .w16 = true ∧
      s0.top = some fOb ∧ s0.codeOf fOb = some obMain ∧ obMain.field 0 = some ⟨.temp, .w16, 16, false⟩ ∧
      s0.FieldReaches fOb 0 ⟨.temp, .w16, 16, false⟩ 0 (.loc 0) 16 ∧ rangeCheck (s0.areaSize (.loc 0)) 16 .w16 = none :=
  ⟨s0_running, by decide, by decide, by decide, by decide, by decide, .inl ⟨rfl, rfl, rfl⟩, by decide⟩
theorem witness_FieldBuffers_fc :
    (cycle [fOb, fFc (.dbLoc 5 16)] []).Running (fFc (.dbLoc 5 16)) fcBlk ∧
      (cycle [fOb, fFc (.dbLoc 5 16)] []).FieldReaches (fFc (.dbLoc 5 16)) 1 ⟨.input, .w16, 0, false⟩ 0 (.db 5) 16 ∧
      rangeCheck ((cycle [fOb, fFc (.dbLoc 5 16)] []).areaSize (.db 5)) 16 .w16 = none ∧
      (cycle [fOb, fFc (.loc (.flag .w16 524280))] []).FieldReaches (fFc (.loc (.flag .w16 524280))) 1 ⟨.input, .w16, 0, false⟩ 7 .flags
        524287 ∧
      rangeCheck (s0.areaSize .flags) 524287 .w16 = some .misaligned :=
  ⟨cycle_running _ _ _ _ rfl rfl,
    .inr (.inl ⟨nofun, nofun, rfl, nofun, rfl, .inl ⟨5, 16, rfl, by decide, rfl, rfl⟩⟩), by decide,
    .inr (.inl ⟨nofun, nofun, rfl, nofun, rfl, .inr (.inr (.inr (.inr ⟨.w16, 524280, rfl, by decide, rfl, rfl⟩)))⟩), by decide⟩
theorem witness_FieldBuffers_fb :
    fbState.Running (fFb false []) fbBlk ∧ fbState.top = some (fFb false []) ∧ fbBlk.field 6 = some ⟨.stat, .w8, 32, false⟩ ∧
      fbBlk.field 5 = some ⟨.input, .w48, 64, true⟩ ∧
      fbState.FieldReaches (fFb false []) 6 ⟨.stat, .w8, 32, false⟩ 0 (.db 7) 32 ∧
      fbState.FieldReaches (fFb false []) 5 ⟨.input, .w48, 64, true⟩ 8 (.db 5) 24 ∧
      rangeCheck (fbState.areaSize (.db 5)) 24 .w8 = none :=
  ⟨fb_running, rfl, rfl, rfl, .inr (.inr ⟨nofun, nofun, rfl, by decide, .inl ⟨.inl rfl, rfl, rfl⟩⟩),
    .inr (.inr ⟨nofun, nofun, rfl, by decide, .inr ⟨rfl, nofun, by decide, _, rfl, by decide, by decide, by decide, by decide⟩⟩),
    by decide⟩
theorem witness_FieldOthers :
    (∀ x ∈ [Binding.const .w16 5, .loc (.flag .w16 0)], (cycle [fOb, fFc x] []).Running (fFc x) fcBlk) ∧
      decodeDesc (d 0x7200001000000000) = .ok (.direct (.field .w16 1 0)) ∧ widthAllowed 4 .w16 = true ∧
      decodeDesc (d 0x7200001000000010) = .ok (.direct (.field .w16 1 16)) ∧
      (fFc (.const .w16 5)).bind.lookup 1 = some (.const .w16 5) ∧ fcBlk.field 1 = some ⟨.input, .w16, 0, false⟩ ∧
      fcBlk.field 9 = none ∧ obMain.field 1 = some ⟨.input, .w16, 0, false⟩ ∧ fOb.kind = .ob ∧
      fcBlk.field 3 = some ⟨.stat, .w16, 0, false⟩ ∧ (fFb false []).cls = .fblike ∧
      (onTop (fFb false [])).prog.hasDb (onTop (fFb false [])).regs.diReg = false :=
  ⟨fun _ _ => cycle_running _ _ _ _ rfl rfl, by decide, by decide, by decide, by decide, by decide, by decide, by decide, by decide,
    by decide, by decide, by decide⟩
/-- FC 3 on top of OB 1 with its field 1 bound. -/
def boundState (x : Binding) : State := cycle [fOb, fFc x] []

theorem boundTo (x : Binding) : (fFc x).BoundTo 1 ⟨.input, .w16, 0, false⟩ x := ⟨nofun, nofun, nofun, rfl, rfl, rfl⟩
/-- Bindings to a peripheral whose sum is the last bit address or one past it, to an address register and to a bit of STW. -/
theorem witness_FieldOthers_live :
    LiveOperand (.periph .w8 false 524280) .w16 7 (.periph .w16 false 524287) ∧
      (2 : Nat) ^ 19 ≤ (524280 : BitAddr).toNat + (8 : BitAddr).toNat ∧
      Prim.movable (.periph .w8 false 524280) = some 524280 ∧ Prim.movable (.flag .w16 524280) = some 524280 ∧
      LiveOperand (.ar .w32 .ar1) .w32 0 (.ar .w32 .ar1) ∧ LiveOperand (.stw .w1 .raw 5) .w1 0 (.stw .w1 .raw 5) ∧
      Prim.unmovable (.stw .w1 .raw 5) = true ∧
      (∃ v t, (boundState (.loc (.ar .w32 .ar1))).Gives (.ar .w32 .ar1) v t) ∧
      (∃ x t, (boundState (.loc (.ar .w32 .ar1))).Takes (.ar .w32 .ar1) x t) ∧
      (∃ t, (boundState (.loc (.periph .w8 false 8))).FetchRaises (.periph .w16 false 8) .peripheralFail t) ∧
      (boundState (.loc (.periph .w8 false 8))).StoreRaises (.periph .w16 false 8) 0 .readOnly (boundState (.loc (.periph .w8 false 8))) :=
  ⟨.inl ⟨.w8, false, 524280, rfl, by decide, by decide⟩, by decide, rfl, rfl, .inr ⟨rfl, rfl, rfl⟩, .inr ⟨rfl, rfl, rfl⟩, rfl,
    ⟨0, _, .inl ⟨.inr (.inr (.inr (.inr (.inl ⟨rfl, rfl⟩)))), rfl⟩⟩,
    ⟨0, _, .inr (.inr (.inr (.inl ⟨rfl, rfl⟩)))⟩,
    ⟨_, .inr ⟨rfl, .w16, 8, .inr (.inl rfl), rfl, by decide, nofun, rfl⟩⟩,
    .inl ⟨rfl, .inr (.inl ⟨rfl, .inr (.inr (.inr (.inr ⟨.w16, 8, .inr (.inl rfl), rfl⟩)))⟩)⟩⟩
/-- A bound data block that is absent and a bound frame that is gone, at the first index that is. -/
theorem witness_FieldOthers_absent :
    (boundState (.dbLoc 6 0)).prog.hasDb 6 = false ∧ (fFc (.dbLoc 6 0)).BoundTo 1 ⟨.input, .w16, 0, false⟩ (.dbLoc 6 0) ∧
      (boundState (.frameLocal 2 0)).cs.length ≤ 2 ∧ (fFc (.frameLocal 2 0)).BoundTo 1 ⟨.input, .w16, 0, false⟩ (.frameLocal 2 0) :=
  ⟨by decide, boundTo _, by decide, boundTo _⟩
/-- The aggregate of FB 2: a pointer that ends at the instance's end or past it, to block 0, to an absent block, and to a sum of `2^19`. -/
theorem witness_FieldOthers_aggregate :
    fbState.prog.hasDb fbState.regs.diReg = true ∧ fbBlk.field 5 = some ⟨.input, .w48, 64, true⟩ ∧
      rangeCheck (fbState.areaSize (.db fbState.regs.diReg)) (0 + 64) .w48 = none ∧
      rangeCheck (fbState.areaSize (.db fbState.regs.diReg)) (8 + 64) .w48 = some .outOfRange ∧
      (({ fbState with mem := [] } : State).readVal (.db 7) 64 .w48).extractLsb' 32 16 = 0 ∧
      fbState.prog.hasDb ((({ fbState with mem := [(655369, 6)] } : State).readVal (.db 7) 64 .w48).extractLsb' 32 16) = false ∧
      fbState.prog.hasDb ((fbState.readVal (.db 7) 64 .w48).extractLsb' 32 16) = true ∧
      2 ^ 19 ≤ ((fbState.readVal (.db 7) 64 .w48).extractLsb' 0 19).toNat + (524272 : BitAddr).toNat ∧
      ((fbState.readVal (.db 7) 64 .w48).extractLsb' 0 19).toNat + (524271 : BitAddr).toNat < 2 ^ 19 := by decide

/-- OB 1 with the pointer 2.0 in flag bytes 10 to 13 and an area-crossing pointer to the last flag bit in bytes 0 to 3. -/
def indState : State := { s0 with mem := [(131072, 0x83), (131075, 0x7F), (131085, 0x10)] }

theorem ind_running : indState.Running fOb obMain := ⟨nofun, rfl, rfl, rfl⟩

theorem witness_IndirectAccess :
    indState.Running fOb obMain ∧
      decodeDesc (d2 0x7A30000000000000 0x1B00000000000050) = .ok (.ind .w16 .flag 0 (.prim (.flag .w32 80))) ∧
      widthAllowed 4 .w16 = true ∧ (∃ v, fetchOperand (.prim (.flag .w32 80)) indState = .ok v indState ∧
        indState.PointerReaches .flag v .flags ∧ (v.extractLsb' 0 19).toNat + (0 : BitAddr).toNat < 2 ^ 19 ∧
        rangeCheck (indState.areaSize .flags) ((v.extractLsb' 0 19).toNat + (0 : BitAddr).toNat) .w16 = none ∧
        2 ^ 19 ≤ (v.extractLsb' 0 19).toNat + (524287 : BitAddr).toNat) ∧
      decodeDesc (d2 0x7A30000000000000 0x1A00000000000050) = .ok (.ind .w16 .flag 0 (.prim (.flag .w16 80))) ∧
      decodeDesc (d2 0x7A80000000000000 0x1A00000000000020) = .ok (.ind .w16 (.timer false) 0 (.prim (.flag .w16 32))) ∧
      (∃ v, fetchOperand (.prim (.flag .w16 32)) indState = .ok v indState ∧ (v.extractLsb' 0 16).toNat < indState.cfg.timerCount) :=
  ⟨ind_running, by decide, by decide, ⟨16, by rfl, .inr (.inr (.inl ⟨.inl rfl, rfl⟩)), by decide, by decide, by decide⟩, by decide, by decide,
    ⟨0, by rfl, by decide⟩⟩
theorem witness_IndirectAccess_crossing :
    ∃ v, fetchOperand (.prim (.flag .w32 0)) indState = .ok v indState ∧ indState.PointerReaches .crossing v .flags ∧
      rangeCheck (indState.areaSize .flags) ((v.extractLsb' 0 19).toNat + (0 : BitAddr).toNat) .w1 = none ∧
      rangeCheck (indState.areaSize .flags) ((v.extractLsb' 0 19).toNat + (1 : BitAddr).toNat) .w1 = some .outOfRange :=
  ⟨0x8300007F, by rfl, .inr (.inr (.inl ⟨.inr ⟨rfl, by decide⟩, rfl⟩)), by decide, by decide⟩
/-- Pointers to the last bit address and past it, of the right form and not; both sides of the peripheral area. -/
theorem witness_IndirectAccess_pointer :
    CrossingForm 0x8300007F ∧ ¬ CrossingForm 0x0300007F ∧ ¬ CrossingForm 0x83080000 ∧ ¬ CrossingForm 0x8B000000 ∧
      (524287 : Nat) + (0 : BitAddr).toNat < 2 ^ 19 ∧ 2 ^ 19 ≤ 524287 + (1 : BitAddr).toNat ∧
      PointerSelects .crossing 0x80000008 .fetch .w8 8 (.periph .w8 false 8) ∧
      PointerSelects .crossing 0x80000008 .store .w8 8 (.periph .w8 true 8) ∧
      PointerSelects (.periph true) 8 .store .w8 8 (.periph .w8 true 8) ∧
      fetchOperand (.prim (.flag .w32 0)) indState = .ok 0x8300007F indState :=
  ⟨by unfold CrossingForm; decide, by unfold CrossingForm; decide, by unfold CrossingForm; decide, by unfold CrossingForm; decide,
    by decide, by decide, .inr (.inr (.inr (.inr (.inr (.inr (.inr (.inr ⟨rfl, by decide, .inl ⟨rfl, rfl⟩⟩))))))),
    .inr (.inr (.inr (.inr (.inr (.inr (.inr (.inr ⟨rfl, by decide, .inr ⟨rfl, rfl⟩⟩))))))),
    .inr (.inr (.inr (.inr (.inr (.inr (.inr (.inl ⟨true, rfl, rfl⟩))))))), by rfl⟩
/-- A timer as BCD, the state of a counter and a block reference by a number; an inner operand of another width, and one that raises. -/
theorem witness_IndirectAccess_number :
    NumberSelects (.timer true) 3 .w16 (.timer .w16 true 3) ∧ NumberSelects (.counter false) 3 .w1 (.counter .w1 false 3) ∧
      NumberSelects (.blk .db) 7 .w16 (.blk .w16 .db 7) ∧ (∃ v t, indState.Gives (.timer .w16 true 3) v t) ∧
      (∃ v t, indState.Gives (.counter .w1 false 3) v t) ∧ indState.FetchRaises (.timer .w16 true 4) .missingTc indState ∧
      indState.StoreRaises (.timer .w16 true 3) 0 .readOnly indState ∧ Operand.width (.prim (.flag .w32 80)) ≠ .w16 ∧
      IndTarget.byPointer (.timer false) = false ∧ (∃ v, fetchOperand (.prim (.flag .w16 32)) indState = .ok v indState) ∧
      (∃ x, fetchOperand (.prim (.flag .w16 120)) indState = .err x indState) ∧
      ∃ x, fetchOperand (.prim (.flag .w32 104)) indState = .err x indState :=
  ⟨.inl ⟨true, rfl, by decide⟩, .inr (.inl ⟨false, rfl, by decide⟩), .inr (.inr ⟨.db, rfl, by decide⟩),
    ⟨_, _, .inl ⟨.inr (.inr (.inr (.inr (.inr (.inr (.inr
      ⟨.w16, true, 3, _, .inl ⟨rfl, by decide, rfl⟩, .inr (.inr ⟨rfl, rfl, rfl⟩)⟩)))))), rfl⟩⟩,
    ⟨_, _, .inl ⟨.inr (.inr (.inr (.inr (.inr (.inr (.inr
      ⟨.w1, false, 3, _, .inr ⟨rfl, by decide, rfl⟩, .inl ⟨rfl, rfl, rfl⟩⟩)))))), rfl⟩⟩,
    .inl ⟨rfl, .inr (.inl ⟨rfl, .w16, true, 4, .inl rfl, .inl ⟨by decide, rfl⟩⟩)⟩,
    .inl ⟨rfl, .inr (.inl ⟨rfl, .inl ⟨true, 3, .inl rfl⟩⟩)⟩, by decide, rfl, ⟨_, rfl⟩, ⟨_, rfl⟩, _, rfl⟩
theorem witness_AccessFrame :
    s0.Running fOb obMain ∧ s0.mem.wf (resetByte s0.prog) = true ∧
      (∃ t, exec (.fetch 4 (d 0x1A00000000000070)) s0 = .next t ∧ t.phase ≠ .idle) ∧
      ∃ t, exec (.store 4 (d 0x1A00000000000070)) s0 = .next t ∧ t.phase ≠ .idle :=
  ⟨s0_running, rfl, ⟨_, rfl, by decide⟩, _, rfl, by decide⟩
/-- The accesses that change no byte, or only a mirror: a STORE to STW, a FETCH of a peripheral, an indirect STORE. -/
theorem witness_AccessFrame_others :
    (∃ t, exec (.store 0 (d 0x5800000000000005)) s0 = .next t ∧ t.phase ≠ .idle) ∧
      (∃ t, exec (.fetch 0 (d 0x5200000000000000)) { s0 with env := { s0.env with periphReads := [some [0xAB, 0xCD]] } } = .next t ∧
        t.phase ≠ .idle) ∧
      ∃ t, exec (.store 0 (d2 0x7A30000000000000 0x1B00000000000050)) indState = .next t ∧ t.phase ≠ .idle :=
  ⟨⟨_, rfl, by decide⟩, ⟨_, rfl, by decide⟩, _, rfl, by decide⟩

theorem witness_CallFcPushesFrame :
    s0.Running fOb obMain ∧ decodeDesc (d 0x6A10003000000000) = .ok (.direct (.prim (.blk .w16 (.code .fc) 3))) ∧
      s0.prog.code .fc 3 = some fcBlk ∧ ParamsOk fcBlk [⟨1, d 0x1A00000000000020⟩] ∧
      bindParams fcBlk [⟨1, d 0x1A00000000000020⟩] s0 = .ok [(1, .loc (.flag .w16 32))] s0 ∧
      decodeDesc (d 0x6A40003000000000) = .ok (.direct (.prim (.blk .w16 (.code .sfc) 3))) ∧ s0.prog.code .sfc 3 = some fcBlk :=
  ⟨s0_running, by decide, by decide, ⟨by simp [bits, fcBlk, CodeBlock.field, Param.index, List.lookup], by decide⟩, rfl, by decide, by decide⟩
theorem witness_CallParameters :
    s0.Running fOb obMain ∧ bits 1 16 48 = 0 ∧ fcBlk.field (bits 1 0 16) = some ⟨.input, .w16, 0, false⟩ ∧
      DirectRow (.callFc 0 (d 0x6A10003000000000) [⟨1, d 0x1A00000000000020⟩]) .fc (d 0x6A10003000000000) [⟨1, d 0x1A00000000000020⟩] ∧
      decodeDesc (d 0x6A10003000000000) = .ok (.direct (.prim (.blk .w16 (.code .fc) 3))) ∧ s0.prog.code .fc 3 = some fcBlk ∧
      decodeDesc (d 0x8000000000000000) = .error .unknownTag ∧
      decodeDesc (d 0x1A00000000000020) = .ok (.direct (.prim (.flag .w16 32))) ∧
      s0.BindsActual ⟨.input, .w16, 0, false⟩ (.direct (.prim (.flag .w16 32))) (.loc (.flag .w16 32)) s0 :=
  ⟨s0_running, by decide, by decide, .inl ⟨rfl, rfl⟩, by decide, by decide, by decide, by decide,
    .inl ⟨_, _, .inl ⟨rfl, rfl⟩, .inl ⟨.inr (.inl ⟨.w16, 32, .inr (.inr rfl), rfl⟩), rfl⟩⟩⟩
/-- A qualified DB and DI actual, an indirect actual, and the area-crossing peripheral of an OUT parameter. -/
theorem witness_CallParameters_binds :
    s0.BindsActual ⟨.input, .w16, 0, false⟩ (.direct (.prim (.db .w16 (some 5) 16))) (.dbLoc 5 16)
        { s0 with regs := { s0.regs with dbReg := 5 } } ∧
      s0.BindsActual ⟨.input, .w16, 0, false⟩ (.direct (.prim (.di .w16 (some 5) 16))) (.dbLoc 5 16)
        { s0 with regs := { s0.regs with diReg := 5 } } ∧
      indState.BindsActual ⟨.input, .w16, 0, false⟩ (.ind .w16 .flag 0 (.prim (.flag .w32 80))) (.loc (.flag .w16 16)) indState ∧
      s0.BindsActual ⟨.output, .w16, 0, false⟩ (.ind .w16 .crossing 0 (.prim (.imm .w32 0x80000008))) (.loc (.periph .w16 true 8)) s0 :=
  ⟨.inl ⟨_, _, .inl ⟨rfl, rfl⟩, .inr ⟨5, 16, ⟨by decide, .w16, .inr (.inr (.inl ⟨rfl, rfl⟩))⟩, rfl⟩⟩,
    .inl ⟨_, _, .inl ⟨rfl, rfl⟩, .inr ⟨5, 16, ⟨by decide, .w16, .inr (.inr (.inr ⟨rfl, rfl⟩))⟩, rfl⟩⟩,
    .inl ⟨.flag .w16 16, indState, .inr ⟨_, _, _, _, 16, rfl, by rfl, .inl ⟨rfl, by decide, .inr (.inr (.inl ⟨.inl rfl, by decide⟩))⟩⟩,
      .inl ⟨.inr (.inl ⟨.w16, 16, .inr (.inr rfl), rfl⟩), rfl⟩⟩,
    .inl ⟨.periph .w16 true 8, s0, .inr ⟨_, _, _, _, 0x80000008, rfl, by rfl, .inl ⟨rfl, by decide,
      .inr (.inr (.inr (.inr (.inr (.inr (.inr (.inr ⟨rfl, by decide, .inr ⟨rfl, by decide⟩⟩)))))))⟩⟩,
      .inl ⟨.inr (.inr (.inl ⟨.w16, true, 8, rfl, rfl⟩)), rfl⟩⟩⟩
/-- Fields of the caller passed on: a place, a live operand moved to the last bit address, a constant. -/
theorem witness_CallParameters_passes :
    (boundState (.dbLoc 5 16)).BindsActual ⟨.input, .w16, 0, false⟩ (.direct (.field .w16 1 8)) (.dbLoc 5 24) (boundState (.dbLoc 5 16)) ∧
      (boundState (.loc (.flag .w16 524280))).BindsActual ⟨.inout, .w16, 0, false⟩ (.direct (.field .w1 1 7)) (.loc (.flag .w16 524287))
        (boundState (.loc (.flag .w16 524280))) ∧
      (boundState (.const .w16 5)).BindsActual ⟨.input, .w16, 0, false⟩ (.direct (.field .w16 1 0)) (.const .w16 5)
        (boundState (.const .w16 5)) ∧
      s0.BindsActual ⟨.input, .w16, 0, false⟩ (.direct (.field .w16 0 0)) (.frameLocal 0 16) s0 :=
  ⟨.inr ⟨_, _, _, fFc (.dbLoc 5 16), fcBlk, _, rfl, rfl, rfl, rfl, rfl,
      .inl ⟨5, 24, .inr (.inl ⟨nofun, nofun, rfl, nofun, rfl, .inl ⟨5, 16, rfl, by decide, rfl, rfl⟩⟩), rfl⟩⟩,
    .inr ⟨_, _, _, fFc (.loc (.flag .w16 524280)), fcBlk, _, rfl, rfl, rfl, rfl, rfl,
      .inr (.inr (.inl ⟨.flag .w16 524280, 524280, boundTo _, rfl, by decide, by decide⟩))⟩,
    .inr ⟨_, _, _, fFc (.const .w16 5), fcBlk, _, rfl, rfl, rfl, rfl, rfl, .inr (.inr (.inr (.inr ⟨.w16, 5, boundTo _, rfl, rfl⟩)))⟩,
    .inr ⟨_, _, _, fOb, obMain, _, rfl, rfl, rfl, rfl, rfl, .inr (.inl ⟨0, 16, .inl ⟨rfl, rfl, rfl⟩, rfl⟩)⟩⟩
/-- Actuals of a function that raise: a register that names no block, an absent block, no parent, no field, and a pointer out of range. -/
theorem witness_CallParameters_raises :
    s0.BindRaises ⟨.input, .w16, 0, false⟩ (.direct (.prim (.db .w16 none 0))) (.addr .missingDb) s0 ∧
      s0.BindRaises ⟨.input, .w16, 0, false⟩ (.direct (.prim (.di .w16 (some 6) 0))) (.addr .missingDb) s0 ∧
      s0.BindRaises ⟨.input, .w16, 0, false⟩ (.direct (.prim (.parentLoc .w16 0))) (.addr .missingParent) s0 ∧
      s0.BindRaises ⟨.input, .w16, 0, false⟩ (.direct (.field .w16 9 0)) (.addr .noField) s0 ∧
      s0.BindRaises ⟨.input, .w16, 0, false⟩ (.ind .w16 .flag 0 (.prim (.flag .w32 104))) (.addr .outOfRange) s0 :=
  ⟨.inr (.inr ⟨_, .inl ⟨rfl, rfl⟩, .inl ⟨⟨.w16, 0, .inl ⟨rfl, by decide⟩⟩, rfl⟩⟩),
    .inr (.inr ⟨_, .inl ⟨rfl, rfl⟩, .inl ⟨⟨.w16, 0, .inr (.inr ⟨6, .inr rfl, by decide⟩)⟩, rfl⟩⟩),
    .inr (.inr ⟨_, .inl ⟨rfl, rfl⟩, .inr ⟨by decide, rfl, .w16, 0, rfl⟩⟩),
    .inr (.inl ⟨.w16, 9, 0, _, rfl, rfl, rfl⟩), .inl ⟨_, rfl, rfl⟩⟩
/-- An OUT, an IN and an aggregate parameter of FB 2; the IN value at an instance's end and past it. -/
theorem witness_CallParameters_fb :
    fbState.Running (fFb false []) fbBlk ∧
      (bits 0 16 48 = 0 ∧ bits 1 16 48 = 0 ∧ bits 5 16 48 = 0) ∧ fbBlk.field (bits 0 0 16) = some ⟨.input, .w16, 0, false⟩ ∧
      fbBlk.field (bits 1 0 16) = some ⟨.output, .w16, 16, false⟩ ∧ fbBlk.field (bits 5 0 16) = some ⟨.input, .w48, 64, true⟩ ∧
      (∀ p : Param, DirectRow (.callFb 0 (d 0x6A20002000000000) (d 0x6A30007000000000) [p]) .fb (d 0x6A20002000000000) [p] ∧
        fbState.InstanceOf (.callFb 0 (d 0x6A20002000000000) (d 0x6A30007000000000) [p]) fbBlk (d 0x6A20002000000000) [p] 7 0 fbState) ∧
      decodeDesc (d 0x6A20002000000000) = .ok (.direct (.prim (.blk .w16 (.code .fb) 2))) ∧ fbState.prog.code .fb 2 = some fbBlk ∧
      decodeDesc (d 0x0200000000000055) = .ok (.direct (.prim (.imm .w16 0x55))) ∧
      fetchOp (.direct (.prim (.imm .w16 0x55))) fbState = .ok 0x55 fbState ∧
      (∃ x v, fetchOp (.direct (.prim (.flag .w16 120))) fbState = .err x v) ∧
      rangeCheck (fbState.areaSize (.db 7)) (0 + 0) .w16 = none ∧ rangeCheck (fbState.areaSize (.db 7)) (96 + 0) .w16 = none ∧
      rangeCheck (fbState.areaSize (.db 7)) (104 + 0) .w16 = some .outOfRange :=
  ⟨fb_running, by decide, by decide, by decide, by decide, fun p => ⟨.inr (.inr (.inl ⟨rfl, .inl ⟨_, rfl⟩⟩)),
    .inl ⟨d 0x6A30007000000000, .direct (.prim (.blk .w16 .db 7)), .w16, .inl rfl, by decide, rfl, by decide, rfl⟩⟩,
    by decide, by decide, by decide, rfl, ⟨_, _, rfl⟩, by decide, by decide, by decide⟩
/-- The aggregate by an open DI register, by a qualified DB and by a pointer, at the instance's end and past it; and by a block that is not
there. -/
theorem witness_CallParameters_aggregate :
    (fbState.ResolvesTo .fetch (.direct (.prim (.di .w16 none 16))) (.di .w16 none 16) fbState ∧
        fbState.NamesBlock (.di .w16 none 16) 7 16 fbState) ∧
      (fbState.ResolvesTo .fetch (.direct (.prim (.db .w16 (some 5) 16))) (.db .w16 (some 5) 16) fbState ∧
        fbState.NamesBlock (.db .w16 (some 5) 16) 5 16 { fbState with regs := { fbState.regs with dbReg := 5 } }) ∧
      (fbState.ResolvesTo .fetch (.ind .w16 .db 0 (.prim (.imm .w32 16))) (.db .w16 none 16) fbState ∧
        fbState.NamesBlock (.db .w16 none 16) 9 16 fbState) ∧
      rangeCheck (fbState.areaSize (.db 7)) (0 + 64) .w48 = none ∧ rangeCheck (fbState.areaSize (.db 7)) (8 + 64) .w48 = some .outOfRange ∧
      (fbState.ResolvesTo .fetch (.direct (.prim (.db .w16 (some 6) 0))) (.db .w16 (some 6) 0) fbState ∧
        fbState.LacksBlock (.db .w16 (some 6) 0)) ∧
      ∃ x v, resolveDesc .fetch (.ind .w16 .db 0 (.prim (.flag .w32 104))) fbState = .err x v :=
  ⟨⟨.inl ⟨rfl, rfl⟩, by decide, .w16, .inr (.inl ⟨rfl, rfl, rfl⟩)⟩,
    ⟨.inl ⟨rfl, rfl⟩, by decide, .w16, .inr (.inr (.inl ⟨rfl, rfl⟩))⟩,
    ⟨.inr ⟨_, _, _, _, 16, rfl, by rfl, .inl ⟨rfl, by decide, .inr (.inr (.inr (.inl ⟨.inl rfl, by decide⟩)))⟩⟩, by decide, .w16,
      .inl ⟨rfl, rfl, rfl⟩⟩,
    by decide, by decide, ⟨.inl ⟨rfl, rfl⟩, .w16, 0, .inr (.inr ⟨6, .inl rfl, by decide⟩)⟩, _, _, rfl⟩
theorem witness_CallFbPushesFrame :
    s0.Running fOb obMain ∧ decodeDesc (d 0x6A20002000000000) = .ok (.direct (.prim (.blk .w16 (.code .fb) 2))) ∧
      s0.prog.code .fb 2 = some fbBlk ∧ ParamsOk fbBlk [⟨0, d 0x0200000000000055⟩] ∧
      decodeDesc (d 0x6A30007000000000) = .ok (.direct (.prim (.blk .w16 .db 7))) ∧
      resolveDesc .fetch (.direct (.prim (.blk .w16 .db 7))) s0 = .ok (.prim (.blk .w16 .db 7)) s0 ∧ s0.prog.hasDb 7 = true ∧
      (∃ v, copyIn fbBlk 7 0 [⟨0, d 0x0200000000000055⟩] s0 = .ok () v) ∧
      decodeDesc (d 0x6A50002000000000) = .ok (.direct (.prim (.blk .w16 (.code .sfb) 2))) ∧ s0.prog.code .sfb 2 = some fbBlk :=
  ⟨s0_running, by decide, by decide, ⟨by simp [bits, fbBlk, CodeBlock.field, Param.index, List.lookup], by decide⟩, by decide, rfl, by decide,
    ⟨_, rfl⟩, by decide, by decide⟩

/-- OB 1 with DB 9 open as the instance block and AR2 at byte 8. -/
def miState : State := { s0 with regs := { regs49 with ar2 := 0x40 } }

theorem mi_running : miState.Running fOb obMain := ⟨nofun, rfl, rfl, rfl⟩

theorem witness_CallMiPushesFrame :
    miState.Running fOb obMain ∧ decodeDesc (d 0x6A20002000000000) = .ok (.direct (.prim (.blk .w16 (.code .fb) 2))) ∧
      miState.prog.code .fb 2 = some fbBlk ∧ ParamsOk fbBlk [] ∧ miState.prog.hasDb miState.regs.diReg = true ∧
      80 = (miState.regs.ar2.extractLsb' 0 19).toNat + 8 * (2 : BlockNum).toNat ∧ miState.cfg.miValidate ≠ true ∧
      copyIn fbBlk miState.regs.diReg 80 [] miState = .ok () miState :=
  ⟨mi_running, by decide, by decide, ⟨nofun, by decide⟩, by decide, by decide, by decide, rfl⟩
theorem witness_CallMiPushesFrame_validated :
    (∀ kf ∈ fbBlk.iface, kf.2.dir ≠ .temp → 16 + kf.2.off.toNat + (if kf.2.agg then 48 else kf.2.width.bits) ≤ 8 * 16) ∧
      miState.areaSize (.db miState.regs.diReg) = 16 := by decide
theorem witness_RawCalls :
    ({ s0 with mem := [(131075, 3)] } : State).Running fOb obMain ∧
      decodeDesc (d 0x1A00000000000010) = .ok (.direct (.prim (.flag .w16 16))) ∧
      (∃ v, fetchOp (.direct (.prim (.flag .w16 16))) { s0 with mem := [(131075, 3)] } = .ok v { s0 with mem := [(131075, 3)] } ∧
        s0.prog.code .fc (v.extractLsb' 0 16) = some fcBlk ∧ s0.prog.code .sfc (v.extractLsb' 0 16) = some fcBlk) ∧
      miState.Running fOb obMain ∧ decodeDesc (d 0x6A20002000000000) = .ok (.direct (.prim (.blk .w16 (.code .fb) 2))) ∧
      (∃ v, fetchOp (.direct (.prim (.blk .w16 (.code .fb) 2))) miState = .ok v miState ∧
        miState.prog.code .fb (v.extractLsb' 0 16) = some fbBlk ∧ miState.prog.code .sfb (v.extractLsb' 0 16) = some fbBlk) ∧
      miState.prog.hasDb miState.regs.diReg = true ∧ miState.cfg.miValidate ≠ true :=
  ⟨⟨nofun, rfl, rfl, rfl⟩, by decide, ⟨3, by rfl, by decide, by decide⟩, mi_running, by decide, ⟨2, by rfl, by decide, by decide⟩, by decide,
    by decide⟩
theorem witness_CallFaults :
    s0.Running fOb obMain ∧ decodeDesc (d 0x6A20009000000000) = .ok (.direct (.prim (.blk .w16 (.code .fb) 9))) ∧
      s0.prog.code .fb 9 = none ∧ decodeDesc (d 0x6A20002000000000) = .ok (.direct (.prim (.blk .w16 (.code .fb) 2))) ∧
      s0.prog.code .fb 2 = some fbBlk ∧ decodeDesc (d 0x6A10007000000000) = .ok (.direct (.prim (.blk .w16 (.code .fc) 7))) ∧
      s0.prog.hasDb s0.regs.diReg = false ∧ (1 : BitVec 16) ≠ 0 ∧ isCall (.rawMi 0 1 (d 0x6A20002000000000)) ∧
      ∃ t, exec (.rawMi 0 1 (d 0x6A20002000000000)) s0 = .next t ∧ t.phase = .idle :=
  ⟨s0_running, by decide, by decide, by decide, by decide, by decide, by decide, by decide,
    .inr (.inr ⟨0, 1, _, .inr (.inr (.inr (.inr (.inl rfl))))⟩), _, rfl, by decide⟩
theorem paramsOk_nil (b : CodeBlock) : ParamsOk b [] := ⟨nofun, List.nodup_nil⟩
theorem witness_CallFaults_header :
    NoOffsetRow (.callFc 1 (d 0) []) 1 ∧ NoOffsetRow (.rawFb 1 0 (d 0)) 1 ∧ DirectRow (.callFb 0 (d 0) (d 0) []) .fb (d 0) [] ∧
      RawRow (.rawMi 2 0 (d 0)) .fb (d 0) ∧ decodeDesc (d 0x8000000000000000) = .error .unknownTag ∧
      decodeDesc (d 0x6A40003000000000) = .ok (.direct (.prim (.blk .w16 (.code .sfc) 3))) ∧
      decodeDesc (d 0x1A00000000000070) = .ok (.direct (.prim (.flag .w16 112))) :=
  ⟨.inl ⟨_, _, .inl rfl⟩, .inr (.inr ⟨_, .inr (.inr (.inl rfl))⟩), .inr (.inr (.inl ⟨rfl, .inl ⟨_, rfl⟩⟩)),
    .inr (.inr (.inl ⟨rfl, .inr ⟨2, rfl⟩⟩)), by decide, by decide, by decide⟩
/-- Lists of FC 3 that fail at their first or second pair: a STAT field, no field, a repeated field, a reserved bit. -/
theorem witness_CallFaults_list :
    DirectRow (.callFc 0 (d 0x6A10003000000000) [⟨3, d 0⟩]) .fc (d 0x6A10003000000000) [⟨3, d 0⟩] ∧ s0.prog.code .fc 4 = none ∧
      s0.prog.code .fc 3 = some fcBlk ∧ fcBlk.field (Param.index ⟨3, d 0⟩) = some ⟨.stat, .w16, 0, false⟩ ∧
      fcBlk.field (Param.index ⟨9, d 0⟩) = none ∧ ParamsOk fcBlk [⟨1, d 0⟩] ∧ Param.index ⟨1, d 0⟩ ∈ [Param.index ⟨1, d 0⟩] ∧
      fcBlk.field (Param.index ⟨0x10001, d 0⟩) = some ⟨.input, .w16, 0, false⟩ ∧ bits (0x10001 : Word) 16 48 ≠ 0 ∧
      (∃ x u, bindParams fcBlk [⟨1, d 0x3200000000000000⟩] s0 = .err x u) :=
  ⟨.inl ⟨rfl, rfl⟩, by decide, by decide, by decide, by decide,
    ⟨by simp [bits, fcBlk, CodeBlock.field, Param.index, List.lookup], by decide⟩, by decide, by decide, by decide, _, _, rfl⟩
/-- OB 1 with DB 9 open, AR2 at byte 2, and the instance validated. -/
def validated : State := { s0 with regs := { regs49 with ar2 := 16 }, cfg := { Config.cfg0 with miValidate := true } }

/-- Instance operands that are no block, no data block or an absent one; no current DI block; one that is one byte too short, and one that
is just long enough. -/
theorem witness_CallFaults_instance :
    (∃ u, resolveDesc .fetch (.direct (.prim (.flag .w16 112))) s0 = .ok (.prim (.flag .w16 112)) u) ∧
      (∃ u, resolveDesc .fetch (.direct (.prim (.blk .w16 .db 6))) s0 = .ok (.prim (.blk .w16 .db 6)) u) ∧ s0.prog.hasDb 6 = false ∧
      ParamsOk fbBlk [] ∧ s0.prog.hasDb s0.regs.diReg = false ∧ validated.Running fOb obMain ∧ validated.cfg.miValidate = true ∧
      validated.prog.hasDb validated.regs.diReg = true ∧
      PastInstance fbBlk ((validated.regs.ar2.extractLsb' 0 19).toNat + 8 * (1 : BitVec 16).toNat)
        (validated.areaSize (.db validated.regs.diReg)) ∧
      validated.InstanceOf (.callMi 0 (d 0x6A20002000000000) []) fbBlk (d 0x6A20002000000000) [] 9 16 validated :=
  ⟨⟨_, rfl⟩, ⟨_, rfl⟩, by decide, paramsOk_nil _, by decide, ⟨nofun, rfl, rfl, rfl⟩, rfl, by decide, by unfold PastInstance; decide,
    .inr ⟨0, .inl rfl, rfl, rfl, by decide, by decide, fun _ => by unfold PastInstance; decide⟩⟩
theorem paramsOk_one : ∀ k ∈ [(0 : Word), 5], ∀ x : Descriptor, ParamsOk fbBlk [⟨k, x⟩] := by
  intro k hk x
  refine ⟨fun p hp => ?_, by simp⟩
  rw [List.mem_singleton.1 hp]
  simp only [List.mem_cons, List.not_mem_nil, or_false] at hk
  rcases hk with rfl | rfl
  · exact ⟨(by decide : bits (0 : Word) 16 48 = 0), _, rfl, .inl rfl⟩
  · exact ⟨(by decide : bits (5 : Word) 16 48 = 0), _, rfl, .inl rfl⟩
/-- Actuals of an FB: one of the wrong width, one that is no data block, and a field past the instance. -/
theorem witness_CallFaults_copyIn :
    (∀ x ∈ [(⟨0, d 0x0300000000000055⟩ : Param), ⟨5, d 0x1A00000000000070⟩], ∀ pl, pl = [x] →
      s0.InstanceOf (.callFb 0 (d 0x6A20002000000000) (d 0x6A30007000000000) pl) fbBlk (d 0x6A20002000000000) pl 7 0 s0) ∧
      copyIn fbBlk 7 0 [] s0 = .ok () s0 ∧ fbBlk.field 0 = some ⟨.input, .w16, 0, false⟩ ∧
      decodeDesc (d 0x0300000000000055) = .ok (.direct (.prim (.imm .w32 0x55))) ∧ Desc.width (.direct (.prim (.imm .w32 0x55))) ≠ .w16 ∧
      fbBlk.field 5 = some ⟨.input, .w48, 64, true⟩ ∧ decodeDesc (d 0x1A00000000000070) = .ok (.direct (.prim (.flag .w16 112))) ∧
      (∃ u, resolveDesc .fetch (.direct (.prim (.flag .w16 112))) s0 = .ok (.prim (.flag .w16 112)) u) ∧
      miState.InstanceOf (.callFb 0 (d 0x6A20002000000000) (d 0x6A30005000000000) [⟨5, d 0x3300005000000000⟩]) fbBlk
        (d 0x6A20002000000000) [⟨5, d 0x3300005000000000⟩] 5 0 miState ∧
      ∃ x v, copyIn fbBlk 5 0 [⟨5, d 0x3300005000000000⟩] miState = .err x v :=
  ⟨fun _ _ _ _ => .inl ⟨d 0x6A30007000000000, .direct (.prim (.blk .w16 .db 7)), .w16, .inl rfl, by decide, rfl, by decide, rfl⟩, rfl,
    by decide, by decide, by decide, by decide, by decide, ⟨_, rfl⟩,
    .inl ⟨d 0x6A30005000000000, .direct (.prim (.blk .w16 .db 5)), .w16, .inl rfl, by decide, rfl, by decide, rfl⟩, _, _, rfl⟩
/-- Raw targets: of another width, one that cannot be fetched, one that names no block, and the multi-instance form. -/
theorem witness_CallFaults_raw :
    RawRow (.rawFc 0 0 (d 0x1B00000000000050)) .fc (d 0x1B00000000000050) ∧
      decodeDesc (d 0x1B00000000000050) = .ok (.direct (.prim (.flag .w32 80))) ∧ Desc.width (.direct (.prim (.flag .w32 80))) ≠ .w16 ∧
      (∃ x u, fetchOp (.direct (.prim (.flag .w16 120))) s0 = .err x u) ∧
      (∃ v u, fetchOp (.direct (.prim (.flag .w16 16))) s0 = .ok v u ∧ s0.prog.code .fc (v.extractLsb' 0 16) = none) ∧
      (∃ v u, fetchOp (.direct (.prim (.blk .w16 (.code .fb) 2))) s0 = .ok v u ∧ s0.prog.code .fb (v.extractLsb' 0 16) = some fbBlk ∧
        s0.prog.hasDb u.regs.diReg = false) :=
  ⟨.inl ⟨rfl, rfl⟩, by decide, by decide, ⟨_, _, rfl⟩, ⟨_, _, rfl, by decide⟩, _, _, rfl, by decide, by decide⟩
theorem witness_CallReturn :
    s0.Running fOb obMain ∧ s0.step.e + 1 = s0.cs.length ∧ s0.body = some ⟨.script [], []⟩ ∧ (Insn.script []).next ([] ++ [0]) = none ∧
      (s0.stats.insnCount + 1).toNat % 64 ≠ 0 ∧ 0 ≤ (fOb.ip : Int) + s0.step.rj ∧
      decodeDesc (d 0x6A20002000000000) = .ok (.direct (.prim (.blk .w16 (.code .fb) 2))) ∧ s0.prog.code .fb 2 = some fbBlk ∧
      fbBlk.insns = [] ∧ decodeDesc (d 0x6A30007000000000) = .ok (.direct (.prim (.blk .w16 .db 7))) ∧ s0.prog.hasDb 7 = true :=
  ⟨s0_running, rfl, rfl, rfl, by decide, by decide, by decide, by decide, rfl, by decide, by decide⟩

theorem witness_StartupEffect :
    ∀ m ∈ [Mode.uninit, .started, .cycling, .timefault], (host m [] [5]).phase = .idle ∧ (host m [] [5]).mode ≠ .faulted ∧
      (host m [] [5]).mode ≠ .maint ∧ ((host m [] [5]).prog.code .ob 1).isSome = true ∧
      (host m [] [5]).mem.wf (resetByte (host m [] [5]).prog) = true ∧ (host m [] [5]).env.clock = [5] ∧
      (host m [] [5]).env.lastReading ≤ 5 ∧ (host m [] [5]).prog.dataBlock 5 = some ⟨4, [0, 0, 0xAB, 0xCD]⟩ ∧
      (host m [] [5]).prog.code .ob 100 = some ⟨[], [], [], 0⟩ ∧ (host m [] [5]).cfg.msWrapLead ≤ 2 ^ (host m [] [5]).cfg.msClockBits := by
  decide

/-- A core after STARTUP at reading 0, its clock byte at flag 15 and its next tick at this reading. -/
def ticking (nextTick : Nat) : State :=
  { host .started [] [100000000] with
    clock := ⟨0, 0, nextTick, true⟩, cfg := { Config.cfg0 with clockOffset := some 15 } }

theorem witness_RunCycleEffect :
    (∀ k ∈ [100000000, 100000001], (ticking k).phase = .idle ∧ (ticking k).mode = .started ∧ (ticking k).prog.code .ob 1 = some obMain ∧
      (ticking k).mem.wf (resetByte (ticking k).prog) = true ∧ (ticking k).env.clock = [100000000] ∧
      (ticking k).env.lastReading ≤ 100000000) ∧
    (ticking 100000000).clock.on = true ∧ (ticking 100000000).clock.next ≤ 100000000 ∧ ¬ (ticking 100000001).clock.next ≤ 100000000 := by
  decide
theorem witness_ResetToPowerOn :
    (ticking 1).phase = .idle ∧ ∀ o, (ticking 1).cfg.clockOffset = some o → o.toNat < (ticking 1).cfg.flagSize :=
  ⟨rfl, fun o h => by
    obtain rfl : (15 : BitVec 16) = o := Option.some.inj h
    decide⟩
theorem witness_ConfigSetEffect :
    (ticking 1).phase = .idle ∧ (ticking 1).mem.wf (resetByte (ticking 1).prog) = true ∧
      SizeSetting (ticking 1).cfg 0 4 { (ticking 1).cfg with accuCount := .four } ∧
      SizeSetting (ticking 1).cfg 3 15 { (ticking 1).cfg with flagSize := 15 } ∧
      SizeSetting (ticking 1).cfg 5 65536 { (ticking 1).cfg with counterCount := 65536 } ∧
      1 ≤ (1 : Data).toNat ∧ (0x800000000000 : Data).toNat = 2 ^ 47 ∧
      (15 : Data).toNat = (15 : BitVec 16).toNat ∧ (15 : BitVec 16).toNat < (ticking 1).cfg.flagSize ∧ (ticking 1).clock.on = true ∧
      (host .started []).clock.on = false :=
  ⟨rfl, rfl, .inr (.inl ⟨rfl, rfl, rfl⟩), .inr (.inr ⟨15, rfl, .inr (.inr (.inl ⟨rfl, rfl⟩))⟩),
    .inr (.inr ⟨65536, by decide, .inr (.inr (.inr (.inr ⟨rfl, rfl⟩)))⟩), by decide, by decide, by decide, by decide, rfl, rfl⟩
theorem witness_ImageAccess :
    (host .started []).phase = .idle ∧ (0 : BitVec 16).toNat + (2 : BitVec 16).toNat ≤ (host .started []).cfg.inputSize ∧
      (1 : BitVec 16).toNat + (1 : BitVec 16).toNat ≤ (host .started []).cfg.outputSize ∧
      (0 : BitVec 16).toNat + ([1, 2] : List Byte).length ≤ (host .started []).cfg.inputSize ∧
      (host .started []).mem.wf (resetByte (host .started []).prog) = true := by decide
theorem witness_HostRefusals :
    (host .faulted []).phase = .idle ∧ (host .faulted []).mode = .faulted ∧ (host .uninit []).mode = .uninit ∧
      ({ host .uninit [] with prog := Prog.empty } : State).built = false ∧ Prog.empty.code .ob 1 = none ∧
      10 ≤ (10 : BitVec 4).toNat ∧ 65536 < (65537 : Data).toNat ∧ 1 < (2 : Data).toNat ∧
      ((host .started []).cfg.flagSize : Nat) ≤ (16 : Data).toNat ∧
      ((host .started []).cfg.inputSize : Nat) < (1 : BitVec 16).toNat + (2 : BitVec 16).toNat := by decide

end Sys2Proof.Tests
end

/-! PROOFS. The invariant `State.Inv`: its two halves, what each shared operation keeps of them, and the step (10_state R30 to R58). -/

namespace Sys2Proof.Machine

open Sys2Proof

/-! The equations of `Instr.encodable`, built here once: six lemmas of Laws/PerInstr rewrite with them, and six threads that build them at
the same time are more than the memory limit of the check has room for. -/

example (m : BitVec 16) (t : Descriptor) (pl : List Param) :
    (Instr.callFc m t pl).encodable = (t.encodable && paramsEncodable pl) := by
  simp only [Instr.encodable]

/-! ## The invariant in two halves -/

/-- `s` with the core idle before its first build and nothing in progress: mode, phase, built flag, error record and instruction in
progress say nothing more. -/
def State.parked (s : State) : State :=
  { s with mode := .uninit, phase := .idle, built := false, err := ErrRec.none, body := none, step := StepRegs.zero }

/-- The half of the invariant that says what the buffers, the stacks, the registers, the clocks and the configuration hold: the whole of
it for the parked state. -/
def State.DataOk (s : State) : Prop := s.parked.Inv

/-- What the other half of the invariant ties to the stack and to the instruction in progress. -/
def State.control (s : State) : Phase × Mode × Bool × Prog × ErrRec := (s.phase, s.mode, s.built, s.prog, s.err)

theorem State.control_eq {s t : State} :
    t.control = s.control ↔ t.phase = s.phase ∧ t.mode = s.mode ∧ t.built = s.built ∧ t.prog = s.prog ∧ t.err = s.err := by
  simp only [State.control, Prod.mk.injEq]

theorem State.Inv.data {s : State} (h : s.Inv) : s.DataOk :=
  { h with
    frame := fun hp => absurd rfl hp
    runMode := fun hp => absurd rfl hp
    runBuilt := fun hp => absurd rfl hp
    cycleMode := fun hp => by cases hp
    modeBuilt := fun hm => absurd rfl hm
    builtMain := fun hb => by cases hb
    errKind := rfl
    body := fun hb => by cases hb }

/-- An idle state with no instruction in progress is legal when its data half is and mode, built flag and error record agree. -/
theorem State.DataOk.inv_idle {s : State} (h : s.DataOk) (hp : s.phase = .idle) (hbody : s.body = none)
    (hmb : s.mode ≠ .uninit → s.built = true) (hbm : s.built = true → (s.prog.code .ob Config.mainOb).isSome = true)
    (he : errKindOk s.mode .idle s.err.kind = true) : s.Inv :=
  { h with
    frame := fun hn => absurd hp hn
    runMode := fun hn => absurd hp hn
    runBuilt := fun hn => absurd hp hn
    cycleMode := fun hc => by rw [hp] at hc; cases hc
    modeBuilt := hmb
    builtMain := hbm
    errKind := by rw [hp]; exact he
    body := fun hb => by rw [hbody] at hb; cases hb }

/-! ## Frames and mapped bytes -/

/-- R45 asks of a frame's local data only how long it is. -/
theorem FrameOk.withLocals {p : Prog} {f : Frame} (h : FrameOk p f) {l : List Byte} (hl : l.length = f.locals.length) :
    FrameOk p { f with locals := l } :=
  { h with block := by rw [hl]; exact h.block }

/-- R45 asks nothing of a frame's instruction pointer. -/
theorem FrameOk.withIp {p : Prog} {f : Frame} (h : FrameOk p f) (n : Nat) : FrameOk p { f with ip := n } := { h with }

theorem FrameOk.withParen {p : Prog} {f : Frame} (h : FrameOk p f) {es : List (BitVec 16)} (he : es.length ≤ Config.parenMax) :
    FrameOk p { f with paren := es } := { h with paren := he }

/-- The top-level frame of an OB of the program (R473). -/
theorem frameOk_ob {p : Prog} {n : BlockNum} {b : CodeBlock} (hb : p.code .ob n = some b) (s : State) :
    FrameOk p (s.newFrame .ob n b.tempSize) where
  block := ⟨b, hb, s.length_newFrame .ob n b.tempSize⟩
  cls := rfl
  paren := Nat.zero_le _
  saved := fun r hr => by cases hr
  savedFb := ⟨fun hc => (by cases hc), fun hc => (by cases hc)⟩
  bare := fun hr => by cases hr
  bindFc := fun hc => by cases hc
  paramsFb := fun _ => rfl
  inst := .inl rfl

/-- Which bytes are mapped follows from the configuration and the program. -/
theorem State.Mapped.congr {s t : State} {a : Nat} (h : s.Mapped a) (hc : t.cfg = s.cfg) (hp : t.prog = s.prog) : t.Mapped a := by
  obtain ⟨x, b, hx, hb, ha⟩ := h
  refine ⟨x, b, hx, ?_, ha⟩
  cases x with
  | loc j => simp [Area.inMemory] at hx
  | db n => simpa only [State.areaSize, hp] using hb
  | _ => simpa only [State.areaSize, hc] using hb

/-- Which bytes of data blocks are mapped follows from the program alone. -/
theorem State.Mapped.of_dbBase {s t : State} {a : Nat} (h : s.Mapped a) (ha : dbBase ≤ a) (hp : t.prog = s.prog) : t.Mapped a := by
  obtain ⟨x, b, hx, hb, rfl⟩ := h
  have hle := s.areaSize_le x hx
  unfold dbBase at ha
  cases x with
  | db n => exact ⟨.db n, b, hx, by simpa only [State.areaSize, hp] using hb, rfl⟩
  | loc j => simp [Area.inMemory] at hx
  | _ => simp only [Area.addr] at ha; omega

/-! ## The data half under the shared operations -/

theorem State.Inv.body_idle {s : State} (h : s.Inv) (hp : s.phase = .idle) : s.body = none := by
  cases hb : s.body with
  | none => rfl
  | some r => exact absurd hp (h.body (by rw [hb]; rfl)).1

/-- Accesses of an idle state keep the invariant (R101, R230). -/
theorem State.Inv.keeps_idle {s t : State} (h : s.Inv) (hp : s.phase = .idle) (k : Keeps s t) : t.Inv where
  memWf := k.wf h.memWf
  memMapped := k.mapped h.memMapped
  timers := by rw [k.timers, k.cfg]; exact h.timers
  counters := by rw [k.counters, k.cfg]; exact h.counters
  mcr := by rw [k.mcr]; exact h.mcr
  frames := fun f hf => by
    obtain ⟨i, hi⟩ := List.mem_iff_getElem?.1 hf
    rcases k.getElem? i with ⟨-, hn⟩ | ⟨g, l, hg, hl, hlen⟩
    · rw [hn] at hi; cases hi
    · rw [hl] at hi; cases hi
      rw [k.prog]
      exact (h.frames g (List.mem_of_getElem? hg)).withLocals hlen
  dbReg := k.db h.dbReg
  diReg := k.di h.diReg
  accus := by rw [k.cfg, k.accus.1, k.accus.2]; exact h.accus
  clockByte := by rw [k.cfg]; exact h.clockByte
  cycleLimit := by rw [k.cfg]; exact h.cycleLimit
  lead := by rw [k.cfg]; exact h.lead
  now := by rw [k.time, k.lastReading]; exact h.now
  cycleStart := by rw [k.time]; exact h.cycleStart
  runStart := by rw [k.time]; exact h.runStart
  winStart := by rw [k.time, k.stats]; exact h.winStart
  msBase := by rw [k.time]; exact h.msBase
  frame := fun hn => absurd (k.phase.trans hp) hn
  runMode := fun hn => absurd (k.phase.trans hp) hn
  runBuilt := fun hn => absurd (k.phase.trans hp) hn
  cycleMode := by rw [k.phase, k.mode]; exact h.cycleMode
  modeBuilt := by rw [k.mode, k.built]; exact h.modeBuilt
  builtMain := by rw [k.built, k.prog]; exact h.builtMain
  errKind := by rw [k.mode, k.phase, k.err]; exact h.errKind
  body := fun hb => by rw [k.body, h.body_idle hp] at hb; cases hb

/-- Parking both states does not touch what an access keeps. -/
theorem Keeps.parked {s t : State} (k : Keeps s t) : Keeps s.parked t.parked :=
  ⟨congrArg State.parked k.rest, k.sizes, k.wf, k.mapped, k.db, k.di⟩

namespace State.DataOk

variable {s t : State}

/-- Operand accesses keep the data half (R101, R230). -/
theorem keeps (h : s.DataOk) (k : Keeps s t) : t.DataOk := State.Inv.keeps_idle h rfl k.parked

/-- A stack of legal frames for the one there is. -/
theorem withCs (h : s.DataOk) {l : List Frame} (hl : ∀ f ∈ l, FrameOk s.prog f) : ({ s with cs := l } : State).DataOk :=
  { h with
    memMapped := fun e he => (h.memMapped e he).congr rfl rfl
    frames := hl
    frame := fun hp => absurd rfl hp
    body := fun hb => by cases hb }

theorem push (h : s.DataOk) {f : Frame} (hf : FrameOk s.prog f) : (s.push f).DataOk :=
  have hl : ∀ g ∈ s.cs ++ [f], FrameOk s.prog g := by
    intro g hg
    rcases List.mem_append.1 hg with hg | hg
    · exact h.frames g hg
    · rw [List.mem_singleton.1 hg]; exact hf
  { h.withCs hl with }

theorem modifyExec (h : s.DataOk) {g : Frame → Frame} {f : Frame} (hf : s.cs[s.step.e]? = some f) (hg : FrameOk s.prog (g f)) :
    (s.modifyExec g).DataOk :=
  have hl : ∀ x ∈ s.cs.modify s.step.e g, FrameOk s.prog x := by
    rw [State.modifyExec_eq_set g hf]
    intro x hx
    rcases List.mem_or_eq_of_mem_set hx with hx | rfl
    · exact h.frames x hx
    · exact hg
  h.withCs hl

theorem dropLast (h : s.DataOk) : ({ s with cs := s.cs.dropLast } : State).DataOk :=
  h.withCs fun f hf => h.frames f (List.mem_of_mem_dropLast hf)

theorem setDbDi (h : s.DataOk) {db di : BlockNum} (hdb : s.prog.regValue db) (hdi : s.prog.regValue di) : (s.setDbDi db di).DataOk :=
  { h with dbReg := hdb, diReg := hdi }

/-- `resetRegisters()` with both stacks emptied (R470, R480, R481). -/
theorem cleared (h : s.DataOk) : (({ s with cs := [], mcr := [] } : State).resetRegisters).DataOk :=
  { h.withCs (l := []) (fun _ hf => absurd hf List.not_mem_nil) with
    mcr := Nat.zero_le _
    dbReg := .inl rfl
    diReg := .inl rfl
    accus := fun _ => ⟨rfl, rfl⟩ }

theorem takeFault (h : s.DataOk) (x : Raise) (l : Option Loc) : (s.takeFault x l).DataOk := { h with }

theorem resetDbs (h : s.DataOk) : ({ s with mem := s.mem.resetDbs } : State).DataOk :=
  { h with
    memWf := (Memory.resetDbs_spec h.memWf).1
    memMapped := fun e he => h.memMapped e (List.mem_filter.1 he).1 }

/-! ### Clocks -/

/-- A reading moves `NOW` forward only (R112). -/
theorem readClock (h : s.DataOk) : s.readClock.DataOk := by
  obtain ⟨hle, hnow⟩ := s.readClock_le
  have hup : s.time.now ≤ s.readClock.time.now := by rw [hnow]; exact h.now.trans hle
  exact { h with
    now := hnow.le
    cycleStart := h.cycleStart.trans hup
    runStart := h.runStart.trans hup
    winStart := h.winStart.trans hup
    msBase := h.msBase.trans (Int.ofNat_le.2 hup) }

theorem writeClockByte (h : s.DataOk) (v : BitVec 8) : (s.writeClockByte v).DataOk :=
  h.keeps (Effects.writeClockByte (rr := false) s v h.clockByte).keeps

theorem withClock (h : s.DataOk) (c : ClockMem) : ({ s with clock := c } : State).DataOk := { h with }

theorem clockTick (h : s.DataOk) : (clockTick s).DataOk := by
  unfold Machine.clockTick
  dsimp only
  split_ifs
  · exact h.withClock _
  · exact (h.withClock _).writeClockByte _

theorem clockInit (h : s.DataOk) : (clockInit s).DataOk := (h.withClock _).writeClockByte 0

/-- `MS_BASE` lies its width less the lead before the reading (R471). -/
theorem baselines (h : s.DataOk) : (baselines s).DataOk := by
  have hlead : (s.cfg.msWrapLead : Int) ≤ 2 ^ s.cfg.msClockBits := by exact_mod_cast h.lead
  exact { h with
    runStart := le_refl _
    winStart := le_refl _
    msBase := by
      show (s.time.now : Int) - (2 ^ s.cfg.msClockBits - s.cfg.msWrapLead) * 1000000 ≤ s.time.now
      nlinarith }

/-! ### Re-allocation -/

/-- Clearing the regions leaves bytes of data blocks, mapped whatever the region sizes (R504). -/
theorem mapped_clearRegions (h : s.DataOk) (hp : t.prog = s.prog) : ∀ e ∈ s.mem.clearRegions, t.Mapped e.1 := fun e he => by
  obtain ⟨hm, hd⟩ := List.mem_filter.1 he
  exact (h.memMapped e hm).of_dbBase (of_decide_eq_true hd) hp

end State.DataOk

theorem keptOffset_lt {c : Cfg} {o : BitVec 16} (h : keptOffset c = some o) : o.toNat < c.flagSize := by
  unfold keptOffset at h
  split at h
  · cases h
  · split_ifs at h with hge
    cases h
    exact Nat.lt_of_not_le hge

/-- `realloc()` under configuration `c` before the clock byte is written again (R504). -/
def State.reallocated (s : State) (c : Cfg) : State :=
  { s with
    mem := s.mem.clearRegions
    timers := List.replicate c.timerCount Config.tcmReset
    counters := List.replicate c.counterCount Config.tcmReset
    regs := Regs.zero
    cs := []
    mcr := []
    stats := { Stats.zero with winStart := s.time.now }
    clock := { s.clock with clk := 0, count := 0 }
    cfg := { c with clockOffset := keptOffset c } }

theorem realloc_eq (s : State) (c : Cfg) :
    realloc { s with cfg := c } = if s.clock.on then (s.reallocated c).writeClockByte 0 else s.reallocated c := rfl

/-- Re-allocation makes any configuration fit that has a cycle-time limit and a lead within its width (R504). -/
theorem State.DataOk.realloc {s : State} (h : s.DataOk) {c : Cfg} (hlim : 0 < c.cycleLimit) (hlead : c.msWrapLead ≤ 2 ^ c.msClockBits) :
    (realloc { s with cfg := c }).DataOk := by
  have alloc : (s.reallocated c).DataOk :=
    { h with
      memWf := (Memory.clearRegions_spec h.memWf).1
      memMapped := h.mapped_clearRegions rfl
      timers := List.length_replicate
      counters := List.length_replicate
      mcr := Nat.zero_le _
      frames := fun _ hf => absurd hf List.not_mem_nil
      dbReg := .inl rfl
      diReg := .inl rfl
      accus := fun _ => ⟨rfl, rfl⟩
      clockByte := fun _ ho => keptOffset_lt (c := c) ho
      cycleLimit := hlim
      lead := hlead
      winStart := le_refl _
      frame := fun hp => absurd rfl hp
      body := fun hb => by cases hb }
  rw [realloc_eq]
  split_ifs
  · exact alloc.writeClockByte 0
  · exact alloc

/-! ## The control half -/

/-- While the core runs the program has OB 1 (R470, R480). -/
theorem State.Inv.main_of_running {s : State} (h : s.Inv) (hp : s.phase ≠ .idle) : (s.prog.code .ob Config.mainOb).isSome = true :=
  h.builtMain (h.runBuilt hp)

/-- While the core runs the error record is empty (R470, R480). -/
theorem State.Inv.err_of_running {s : State} (h : s.Inv) (hp : s.phase ≠ .idle) : s.err.kind = 0 := by
  have he := h.errKind
  cases hph : s.phase with
  | idle => exact absurd hph hp
  | _ => rw [hph] at he; cases hm : s.mode <;> rw [hm] at he <;> exact eq_of_beq he

/-- A fault's mode and its error kind agree (R545). -/
theorem errKindOk_fault (c : Cause) : errKindOk c.modeAfter .idle c.kind = true := by cases c <;> rfl

/-- A fault of a built program leaves a legal state (R545). -/
theorem State.DataOk.takeFault_inv {t : State} (h : t.DataOk) (hb : t.built = true)
    (hm : (t.prog.code .ob Config.mainOb).isSome = true) (x : Raise) (l : Option Loc) : (t.takeFault x l).Inv :=
  (h.takeFault x l).inv_idle rfl rfl (fun _ => hb) (fun _ => hm) (errKindOk_fault x.cause)

theorem State.Inv.takeFault {s : State} (h : s.Inv) (hp : s.phase ≠ .idle) (x : Raise) (l : Option Loc) : (s.takeFault x l).Inv :=
  h.data.takeFault_inv (h.runBuilt hp) (h.main_of_running hp) x l

/-! Fields that the invariant does not read. -/

theorem State.Inv.refuse {s : State} (h : s.Inv) (r : HostReason) : (s.refuse r).Inv := { h with }
theorem State.Inv.complete {s : State} (h : s.Inv) (d : List Byte) : (s.complete d).Inv := { h with }
theorem State.Inv.emit {s : State} (h : s.Inv) (e : Event) : (s.emit e).Inv := { h with }
theorem State.Inv.withDin {s : State} (h : s.Inv) (v : Data) : ({ s with din := v } : State).Inv := { h with }
theorem State.Inv.withCommands {s : State} (h : s.Inv) (l : List (List Word)) :
    ({ s with env := { s.env with commands := l } } : State).Inv := { h with }
theorem State.Inv.answer {s : State} (h : s.Inv) (v : Data) : (s.answer v).Inv :=
  { h with body := fun hb => h.body (by rwa [State.answer_body, Option.isSome_map] at hb) }

/-! ## Micro-commands -/

/-- `t` is a legal continuation of the legal state `s` inside a micro-command: the data half holds, and the control fields stand as in
`s`, with one frame more exactly when the command has called (R380, R422). -/
def MicroAfter (s t : State) : Prop :=
  t.DataOk ∧ t.control = s.control ∧ t.body = s.body ∧ t.step.e = s.step.e ∧ t.cs.length = s.cs.length + t.step.called.toNat

theorem MicroAfter.inv {s t : State} (h : s.Inv) (hc : s.step.called = false) (k : MicroAfter s t) : t.Inv := by
  obtain ⟨hd, hcontrol, hbody, hexec, hdepth⟩ := k
  obtain ⟨hphase, hmode, hbuilt, hprog, herr⟩ := State.control_eq.1 hcontrol
  exact { hd with
    frame := fun hp => by
      have hs := List.length_pos_iff.2 (h.frame (by rwa [← hphase]))
      exact List.length_pos_iff.1 (by omega)
    runMode := by rw [hphase, hmode]; exact h.runMode
    runBuilt := by rw [hphase, hbuilt]; exact h.runBuilt
    cycleMode := by rw [hphase, hmode]; exact h.cycleMode
    modeBuilt := by rw [hmode, hbuilt]; exact h.modeBuilt
    builtMain := by rw [hbuilt, hprog]; exact h.builtMain
    errKind := by rw [hmode, hphase, herr]; exact h.errKind
    body := fun hb => by
      obtain ⟨hp, hl⟩ := h.body (by rwa [← hbody])
      refine ⟨by rwa [hphase], ?_⟩
      rw [hc] at hl
      rw [hdepth, hexec, hl]
      simp only [Bool.toNat_false, Nat.add_zero] }

theorem Keeps.control {s t : State} (k : Keeps s t) : t.control = s.control :=
  State.control_eq.2 ⟨k.phase, k.mode, k.built, k.prog, k.err⟩

theorem MicroAfter.of_keeps {s t : State} (h : s.DataOk) (hc : s.step.called = false) (k : Keeps s t) : MicroAfter s t :=
  ⟨h.keeps k, k.control, k.body, by rw [k.step], by rw [k.depth, k.step, hc]; rfl⟩

/-- A change of fields the control half does not read is a legal continuation when the data half survives it. -/
theorem MicroAfter.of_data {s t : State} (h : t.DataOk) (hcontrol : t.control = s.control) (hbody : t.body = s.body)
    (hstep : t.step.e = s.step.e ∧ t.step.called = false) (hcs : t.cs.length = s.cs.length) : MicroAfter s t :=
  ⟨h, hcontrol, hbody, hstep.1, by rw [hcs, hstep.2]; rfl⟩

theorem MicroAfter.refl {s : State} (h : s.DataOk) (hc : s.step.called = false) : MicroAfter s s :=
  .of_data h rfl rfl ⟨rfl, hc⟩ rfl

/-- A CALL leaves its operands' effects and, when it completes, one legal frame more (R380). -/
theorem MicroAfter.of_call {s : State} {r : Res Data} (h : s.DataOk) (hc : s.step.called = false) (hr : CallEnds s r) :
    MicroAfter s r.state := by
  cases r with
  | err x u => exact .of_keeps h hc (Effects.keeps hr)
  | ok v u =>
    obtain ⟨-, w, f, db, di, he, rfl, hlegal⟩ := hr
    have k := he.keeps
    have hw := h.keeps k
    obtain ⟨hf, hdb, hdi⟩ := hlegal hw.dbReg hw.diReg
    refine ⟨{ (hw.setDbDi hdb hdi).push hf with }, k.control, k.body, ?_, ?_⟩
    · show w.step.e = s.step.e
      rw [k.step]
    · show (w.cs ++ [f]).length = s.cs.length + 1
      rw [List.length_append, k.depth]; rfl

/-- A micro-command whose pieces are legal continuations keeps the invariant, whether it answers or faults. -/
theorem microCmd_inv {s t : State} {k : Frame → CodeBlock → State → Res Data} (h : s.Inv)
    (hk : ∀ f b, s.Running f b → MicroAfter s (k f b s).state) (hs : microCmd s k = .next t) : t.Inv := by
  rcases microCmd_next hs with ⟨-, rfl⟩ | ⟨hp, rfl⟩ | ⟨f, b, hr, ⟨v, u, hu, rfl⟩ | ⟨x, u, hu, rfl⟩⟩
  · exact h.refuse _
  · exact h.takeFault hp _ _
  · have ha := hk f b hr
    rw [hu] at ha
    exact (ha.inv h hr.noCall).answer v
  · have ha := hk f b hr
    rw [hu] at ha
    exact (ha.inv h hr.noCall).takeFault (by rw [(State.control_eq.1 ha.2.1).1]; exact hr.active) _ _

theorem microCmd_inv_of_effects {s t : State} {k : Frame → CodeBlock → State → Res Data} (h : s.Inv)
    (hk : ∀ f b, Effects true true s (k f b s).state) (hs : microCmd s k = .next t) : t.Inv :=
  microCmd_inv h (fun f b hr => .of_keeps h.data hr.noCall (hk f b).keeps) hs

theorem microCmd_inv_of_call {s t : State} {k : Frame → CodeBlock → State → Res Data} (h : s.Inv)
    (hk : ∀ f b, CallEnds s (k f b s)) (hs : microCmd s k = .next t) : t.Inv :=
  microCmd_inv h (fun f b hr => .of_call h.data hr.noCall (hk f b)) hs

/-! ### Operand accesses and register reads -/

theorem Effects.checkedDesc {wr rr : Bool} (m : BitVec 5) (d : Descriptor) (s : State) : Effects wr rr s (checkedDesc m d s).state := by
  refine Effects.bind (Effects.decodeArg d s) fun D t _ => ?_
  split_ifs <;> exact Effects.refl t

theorem Effects.readReg {wr rr : Bool} (r : BitVec 4) (ip : Nat) (s : State) : Effects wr rr s (readReg r ip s).state := by
  unfold Machine.readReg
  split <;> try exact Effects.refl s
  all_goals split_ifs <;> exact Effects.refl s

/-! ### Commands that write registers, cells and stacks -/

section Writers

variable {s : State} (h : s.DataOk) (hc : s.step.called = false)
include h hc

/-- ACCU3 and ACCU4 are written only where they exist (R35, R316). -/
theorem writeReg_after (r : BitVec 4) (v : Data) : MicroAfter s (writeReg r v s).state := by
  have same := MicroAfter.refl h hc
  have upper : ∀ {x y : BitVec 32}, s.fourAccus = true →
      MicroAfter s { s with regs := { s.regs with accu3 := x, accu4 := y } } := fun h4 =>
    .of_data { h with accus := fun h2 => absurd (h2.symm.trans (eq_of_beq h4)) (by decide) } rfl rfl ⟨rfl, hc⟩ rfl
  unfold writeReg
  split
  · exact .of_data { h with } rfl rfl ⟨rfl, hc⟩ rfl
  · exact .of_data { h with } rfl rfl ⟨rfl, hc⟩ rfl
  · split_ifs with h4
    · exact upper h4
    · exact same
  · split_ifs with h4
    · exact upper h4
    · exact same
  · exact .of_keeps h hc (Keeps.setAr s .ar1 (v.setWidth 32))
  · exact .of_keeps h hc (Keeps.setAr s .ar2 (v.setWidth 32))
  · exact .of_keeps h hc (Keeps.setStw s (v.setWidth 9))
  all_goals exact same

/-- OPEN_DB writes a register with a block of the program or with 0 (R320). -/
theorem openDb_after (sel : Bool) (n : BlockNum) :
    MicroAfter s (if n ≠ 0 ∧ s.prog.hasDb n = false then addrErr .missingDb s else Res.ok (0 : Data) (s.setBlockReg sel n)).state := by
  split_ifs with hn
  · exact .refl h hc
  · refine .of_keeps h hc (Keeps.setBlockReg s sel ?_)
    rwa [not_and, Bool.not_eq_false, ← or_iff_not_imp_left] at hn

theorem setCell_after (k : CellKind) (i : Nat) (c : Cell) : MicroAfter s (s.setCell k i c) := by
  cases k with
  | timer => exact .of_data { h with timers := List.length_set.trans h.timers } rfl rfl ⟨rfl, hc⟩ rfl
  | counter => exact .of_data { h with counters := List.length_set.trans h.counters } rfl rfl ⟨rfl, hc⟩ rfl

theorem setRj_after (d : Int) : MicroAfter s (s.setRj d) :=
  .of_data { h with } rfl rfl ⟨rfl, hc⟩ rfl

theorem setMcr_after {l : List Bool} (hl : l.length ≤ Config.mcrMax) : MicroAfter s { s with mcr := l } :=
  .of_data { h with mcr := hl } rfl rfl ⟨rfl, hc⟩ rfl

/-- The executing frame gets other parenthesis entries, at most seven (R440, R441). -/
theorem setParen_after {f : Frame} (hf : s.cs[s.step.e]? = some f) {es : Frame → List (BitVec 16)}
    (hes : (es f).length ≤ Config.parenMax) : MicroAfter s (s.modifyExec fun g => { g with paren := es g }) :=
  .of_data (h.modifyExec hf ((h.frames f (List.mem_of_getElem? hf)).withParen hes)) rfl rfl ⟨rfl, hc⟩ (List.length_modify _ _ _)

end Writers

theorem Res.state_bind_ok {α β : Type} (r : Res α) (b : β) : (r.bind fun _ s => .ok b s).state = r.state := by cases r <;> rfl

/-! ## Host commands -/

/-- Writing the clock byte changes the memory alone. -/
theorem State.writeClockByte_eq (s : State) (v : BitVec 8) : s.writeClockByte v = { s with mem := (s.writeClockByte v).mem } := by
  unfold State.writeClockByte
  split <;> rfl

theorem hostCmd_inv {s t : State} {k : State → State} (h : s.Inv) (hk : s.phase = .idle → (k s).Inv) (hs : hostCmd s k = .next t) :
    t.Inv := by
  rcases hostCmd_next s k with ⟨hp, he⟩ | ⟨hp, r, -, he⟩
  · rw [he] at hs; cases hs; exact hk hp
  · rw [he] at hs; cases hs; exact h.takeFault hp _ _

theorem pushOb_eq {s : State} {n : BlockNum} {b : CodeBlock} (hb : s.prog.code .ob n = some b) :
    pushOb n s = s.push (s.newFrame .ob n b.tempSize) := by
  unfold pushOb; rw [hb]

/-- The baselines of a top-level call (R470, R480). -/
def State.topLevelStart (s : State) : State :=
  { s with
    time := { s.time with cycleStart := s.time.now }
    stats := { s.stats with cycInsn0 := s.stats.insnCount } }

theorem beginTopLevel_eq {s : State} {n : BlockNum} {b : CodeBlock} (hb : s.prog.code .ob n = some b) (ph : Phase) :
    beginTopLevel n ph s =
      { s.topLevelStart.push (s.topLevelStart.newFrame .ob n b.tempSize) with phase := ph, body := none, reply := none } := by
  rw [← pushOb_eq (s := s.topLevelStart) hb]
  rfl

/-- A top-level call of an OB of a built program begins in a legal state (R470, R473, R480). -/
theorem State.DataOk.beginTopLevel_inv {s : State} (h : s.DataOk) {n : BlockNum} {ph : Phase}
    (hn : (s.prog.code .ob n).isSome = true) (hph : ph ≠ .idle) (hmode : s.mode ≠ .faulted ∧ s.mode ≠ .maint)
    (hcyc : ph = .cycle → s.mode ≠ .uninit) (hb : s.built = true) (hm : (s.prog.code .ob Config.mainOb).isSome = true)
    (he : s.err.kind = 0) : (beginTopLevel n ph s).Inv := by
  obtain ⟨b, hb'⟩ := Option.isSome_iff_exists.1 hn
  have started : s.topLevelStart.DataOk := { h with cycleStart := le_refl _ }
  rw [beginTopLevel_eq hb']
  have herr : errKindOk s.mode ph s.err.kind = true := by
    rw [he]
    cases ph with
    | idle => exact absurd rfl hph
    | _ => cases s.mode <;> rfl
  exact { started.push (frameOk_ob hb' s.topLevelStart) with
    frame := fun _ => List.append_ne_nil_of_right_ne_nil s.cs (List.cons_ne_nil _ _)
    runMode := fun _ => hmode
    runBuilt := fun _ => hb
    cycleMode := hcyc
    modeBuilt := fun _ => hb
    builtMain := fun _ => hm
    errKind := herr
    body := fun hbody => by cases hbody }

/-! ### STARTUP -/

/-- STARTUP after the build, up to the choice of its block (R470). -/
def State.startupReady (s : State) : State :=
  ({ clockInit (baselines ({ s with err := ErrRec.none }).readClock) with cs := [], mcr := [] } : State).resetRegisters

theorem startupRun_eq (s : State) :
    startupRun s =
      match entryOb s.startupReady with
      | none => { s.startupReady with mode := .started, phase := .idle, body := none, reply := some (HostReply.ok []) }
      | some n => beginTopLevel n .startupOb s.startupReady := rfl

/-- What that part of STARTUP writes, its memory apart (R470, R471, R481, R520). -/
theorem State.startupReady_eq (s : State) :
    s.startupReady = { s with
      err := ErrRec.none
      regs := Regs.zero
      cs := []
      mcr := []
      time := (baselines s.readClock).time
      stats := (baselines s.readClock).stats
      clock := ⟨0, 0, s.readClock.time.now + Config.clockTickNs, true⟩
      env := s.readClock.env
      mem := s.startupReady.mem } := by
  unfold State.startupReady clockInit
  dsimp only
  rw [State.writeClockByte_eq]
  rfl

theorem State.DataOk.startupReady {s : State} (h : s.DataOk) : s.startupReady.DataOk :=
  have unfaulted : (State.DataOk { s with err := ErrRec.none }) := { h with }
  unfaulted.readClock.baselines.clockInit.cleared

theorem entryOb_isSome {s : State} {n : BlockNum} (h : entryOb s = some n) : (s.prog.code .ob n).isSome = true := by
  unfold entryOb at h
  split_ifs at h with hcold hwarm
  · cases h; exact hcold.2
  · cases h; exact hwarm

theorem startupRun_inv {s : State} (h : s.DataOk) (hmode : s.mode ≠ .faulted ∧ s.mode ≠ .maint) (hb : s.built = true)
    (hm : (s.prog.code .ob Config.mainOb).isSome = true) : (startupRun s).Inv := by
  have hready := h.startupReady
  have hmode' : s.startupReady.mode = s.mode := by rw [State.startupReady_eq]
  have hbuilt : s.startupReady.built = s.built := by rw [State.startupReady_eq]
  have hprog : s.startupReady.prog = s.prog := by rw [State.startupReady_eq]
  have herr : s.startupReady.err = ErrRec.none := by rw [State.startupReady_eq]
  rw [startupRun_eq]
  split
  · refine State.DataOk.inv_idle { hready with } rfl rfl (fun _ => hbuilt.trans hb) (fun _ => ?_) ?_
    · show (s.startupReady.prog.code .ob Config.mainOb).isSome = true
      rwa [hprog]
    · show errKindOk .started .idle s.startupReady.err.kind = true
      rw [herr]; rfl
  · rename_i n hn
    exact hready.beginTopLevel_inv (entryOb_isSome hn) (by decide) (by rwa [hmode']) (fun hp => by cases hp) (hbuilt.trans hb)
      (by rwa [hprog]) (by rw [herr]; rfl)

theorem startupCmd_inv {s : State} (h : s.Inv) (hp : s.phase = .idle) : (startupCmd s).Inv := by
  unfold startupCmd
  split_ifs with hmode hbuilt hmain
  · exact h.refuse _
  · exact startupRun_inv h.data (not_or.1 hmode) hbuilt (h.builtMain hbuilt)
  · exact startupRun_inv { h.data.resetDbs with } (not_or.1 hmode) rfl hmain
  · have huninit : s.mode = .uninit := by
      by_contra hne
      exact hbuilt (h.modeBuilt hne)
    refine State.DataOk.inv_idle { h.data with } hp (h.body_idle hp) h.modeBuilt h.builtMain ?_
    show errKindOk s.mode .idle 5 = true
    rw [huninit]; rfl

/-! ### RUN_CYCLE, RESET -/

theorem runCycleCmd_inv {s : State} (h : s.Inv) : (runCycleCmd s).Inv := by
  unfold runCycleCmd
  split_ifs with huninit hmode
  · exact h.refuse _
  · exact h.refuse _
  · have unfaulted : (State.DataOk { s with err := ErrRec.none }) := { h.data with }
    have hd := unfaulted.cleared.readClock.clockTick
    obtain ⟨c, m, he⟩ := clockTick_rest (({ s with err := ErrRec.none, cs := [], mcr := [] } : State).resetRegisters).readClock
    have hb := h.modeBuilt huninit
    dsimp only
    rw [he] at hd ⊢
    exact hd.beginTopLevel_inv (h.builtMain hb) (by decide) (not_or.1 hmode) (fun _ => huninit) hb (h.builtMain hb) rfl

/-- Re-allocation writes nothing the control half reads but the stack. -/
theorem realloc_mem (s : State) (c : Cfg) :
    realloc { s with cfg := c } = { s.reallocated c with mem := (realloc { s with cfg := c }).mem } := by
  rw [realloc_eq]
  split_ifs
  · exact State.writeClockByte_eq _ _
  · rfl

/-- Re-allocation while idle leads to a legal state (R504). -/
theorem State.Inv.realloc {s : State} (h : s.Inv) (hp : s.phase = .idle) {c : Cfg} (hlim : 0 < c.cycleLimit)
    (hlead : c.msWrapLead ≤ 2 ^ c.msClockBits) : (realloc { s with cfg := c }).Inv := by
  have hd := h.data.realloc hlim hlead
  rw [realloc_mem] at hd ⊢
  exact hd.inv_idle hp (h.body_idle hp) h.modeBuilt h.builtMain (by rw [← hp]; exact h.errKind)

theorem resetCmd_inv {s : State} (h : s.Inv) (hp : s.phase = .idle) : (resetCmd s).Inv := by
  have hr : (realloc s).Inv := h.realloc hp (c := s.cfg) h.cycleLimit h.lead
  have zeroed : (State.DataOk { Machine.realloc s with
      mem := (Machine.realloc s).mem.resetDbs, stats := Stats.zero, time := TimeRegs.zero, clock := ClockMem.zero, err := ErrRec.none
      mode := .uninit, phase := .idle, body := none }) :=
    { hr.data.resetDbs with
      now := Nat.zero_le _
      cycleStart := le_refl _
      runStart := le_refl _
      winStart := le_refl _
      msBase := le_refl _ }
  exact (zeroed.inv_idle rfl rfl (fun hu => absurd rfl hu) hr.builtMain rfl).complete []

/-! ### CONFIG_SET, IMAGE_WRITE -/

/-- A valid setting keeps the cycle-time limit positive and the lead within its width (R501, R502). -/
theorem configSet_limits {c : Cfg} {p : BitVec 4} {v : Data} (hv : configValid c p v = true) (hlim : 0 < c.cycleLimit)
    (hlead : c.msWrapLead ≤ 2 ^ c.msClockBits) :
    0 < (configSet c p v).cycleLimit ∧ (configSet c p v).msWrapLead ≤ 2 ^ (configSet c p v).msClockBits := by
  unfold configSet
  split
  case h_7 hp =>
    simp only [configValid, hp, decide_eq_true_eq] at hv
    exact ⟨hv, hlead⟩
  all_goals exact ⟨hlim, hlead⟩

/-- The settings that re-allocate nothing: limits, clock offset and the unread `EXT_INSNS` (R502). -/
theorem State.DataOk.withSettings {s : State} (h : s.DataOk) {l : Nat} (r : Nat) {o : Option (BitVec 16)} (e : Bool) (hl : 0 < l)
    (ho : ∀ a, o = some a → a.toNat < s.cfg.flagSize) :
    ({ s with cfg := { s.cfg with cycleLimit := l, runLimit := r, clockOffset := o, extInsns := e } } : State).DataOk :=
  { h with clockByte := ho, cycleLimit := hl }

/-- A valid clock offset lies in the flag region (R501). -/
theorem clockOffset_of_valid {c : Cfg} {p : BitVec 4} {v : Data} (hp : p.toNat = 8) (hv : configValid c p v = true) (a : BitVec 16)
    (ha : (if v.getLsbD 47 then none else some (v.extractLsb' 0 16)) = some a) : a.toNat < c.flagSize := by
  simp only [configValid, hp] at hv
  split_ifs at ha hv with hnone
  cases ha
  exact of_decide_eq_true (Bool.and_eq_true_iff.1 hv).2

/-- A valid setting that re-allocates nothing keeps the data half (R501, R502). -/
theorem State.DataOk.configSet {s : State} (h : s.DataOk) {p : BitVec 4} {v : Data} (hp : ¬ p.toNat ≤ 5)
    (hv : configValid s.cfg p v = true) : ({ s with cfg := configSet s.cfg p v } : State).DataOk := by
  unfold Machine.configSet
  split
  case h_7 h6 =>
    simp only [configValid, h6, decide_eq_true_eq] at hv
    exact h.withSettings _ _ hv h.clockByte
  case h_8 => exact h.withSettings v.toNat _ h.cycleLimit h.clockByte
  case h_9 h8 => exact h.withSettings _ _ h.cycleLimit (clockOffset_of_valid h8 hv)
  case h_10 => exact h.withSettings _ (v.getLsbD 0) h.cycleLimit h.clockByte
  case h_11 => exact h
  all_goals omega

theorem keeps_clockRelocate {s : State} (h : s.Inv) : Keeps s (clockRelocate s) := by
  unfold clockRelocate
  split_ifs
  · exact (Effects.writeClockByte (rr := false) s _ h.clockByte).keeps
  · exact Keeps.refl s

theorem configSetCmd_inv {s : State} (h : s.Inv) (hp : s.phase = .idle) (p : BitVec 4) (v : Data) : (configSetCmd p v s).Inv := by
  have hset : ¬ p.toNat ≤ 5 → configValid s.cfg p v = true → ({ s with cfg := configSet s.cfg p v } : State).Inv := fun hsize hv =>
    (h.data.configSet hsize hv).inv_idle hp (h.body_idle hp) h.modeBuilt h.builtMain (by rw [← hp]; exact h.errKind)
  unfold configSetCmd
  split_ifs with hbad hv hsize hoff
  · exact h.refuse _
  · obtain ⟨hlim, hlead⟩ := configSet_limits hv h.cycleLimit h.lead
    exact (h.realloc hp hlim hlead).complete []
  · exact ((hset hsize hv).keeps_idle hp (keeps_clockRelocate (hset hsize hv))).complete []
  · exact (hset hsize hv).complete []
  · exact h.refuse _

theorem imageReadCmd_inv {s : State} (h : s.Inv) (sel : Bool) (off len : BitVec 16) : (imageReadCmd sel off len s).Inv := by
  unfold imageReadCmd
  dsimp only
  generalize (if sel then Area.outputs else Area.inputs) = a
  split_ifs
  · exact h.refuse _
  · exact h.complete _

theorem imageWriteCmd_inv {s : State} (h : s.Inv) (hp : s.phase = .idle) (sel : Bool) (off : BitVec 16) (data : List Byte) :
    (imageWriteCmd sel off data s).Inv := by
  unfold imageWriteCmd
  split_ifs with hsel hrange
  · exact h.refuse _
  · exact h.refuse _
  · exact (h.keeps_idle hp (Keeps.writeBytes data s off.toNat (Nat.not_lt.1 hrange))).complete []

/-! ### The commands -/

section Commands

variable {s t : State} (h : s.Inv)
include h

theorem execFetch_inv {m : BitVec 5} {d : Descriptor} (hs : execFetch m d s = .next t) : t.Inv := by
  unfold execFetch at hs
  exact microCmd_inv_of_effects h
    (fun _ _ => .withOpnd d (.bind (.checkedDesc m d s) fun D u _ => .fetchOp D u)) hs

theorem execStore_inv {m : BitVec 5} {d : Descriptor} (hs : execStore m d s = .next t) : t.Inv := by
  unfold execStore at hs
  exact microCmd_inv_of_effects h
    (fun _ _ => .bind (.withOpnd d (.bind (.checkedDesc m d s) fun D u _ => .storeOp D u.din u)) fun _ u _ => .refl u) hs

theorem execRegRead_inv {r : BitVec 4} (hs : execRegRead r s = .next t) : t.Inv := by
  unfold execRegRead at hs
  exact microCmd_inv_of_effects h (fun _ _ => .bind (.readReg r s.topIp s) fun _ u _ => .refl u) hs

theorem execRegWrite_inv {r : BitVec 4} (hs : execRegWrite r s = .next t) : t.Inv := by
  unfold execRegWrite at hs
  refine microCmd_inv h (fun f b hr => ?_) hs
  rw [Res.state_bind_ok]
  exact writeReg_after h.data hr.noCall r s.din

theorem execOpenDb_inv {sel : Bool} {n : BlockNum} (hs : execOpenDb sel n s = .next t) : t.Inv := by
  unfold execOpenDb at hs
  exact microCmd_inv h (fun _ _ hr => openDb_after h.data hr.noCall sel n) hs

theorem execStwWrite_inv {m v : BitVec 9} (hs : execStwWrite m v s = .next t) : t.Inv := by
  unfold execStwWrite at hs
  exact microCmd_inv_of_effects h (fun _ _ => .stw s _ rfl) hs

theorem execCcSet_inv {a1 a0 o : Bool} (hs : execCcSet a1 a0 o s = .next t) : t.Inv := by
  unfold execCcSet at hs
  exact microCmd_inv_of_effects h (fun _ _ => .stw s _ rfl) hs

theorem execTcOp_inv {sel : Bool} {i : BitVec 16} {op : BitVec 8} {a : BitVec 16} (hs : execTcOp sel i op a s = .next t) : t.Inv := by
  unfold execTcOp at hs
  refine microCmd_inv h (fun f b hr => ?_) hs
  dsimp only
  split_ifs
  · exact .refl h.data hr.noCall
  · exact setCell_after h.data hr.noCall _ _ _

theorem execJumpRel_inv {d : BitVec 32} (hs : execJumpRel d s = .next t) : t.Inv := by
  unfold execJumpRel at hs
  refine microCmd_inv h (fun f b hr => ?_) hs
  exact setRj_after h.data hr.noCall _

theorem execJumpLabel_inv {l : BitVec 32} (hs : execJumpLabel l s = .next t) : t.Inv := by
  unfold execJumpLabel at hs
  refine microCmd_inv h (fun f b hr => ?_) hs
  split
  · exact .refl h.data hr.noCall
  · exact setRj_after h.data hr.noCall _

theorem execBlockEnd_inv (hs : execBlockEnd s = .next t) : t.Inv := by
  unfold execBlockEnd at hs
  refine microCmd_inv h (fun f b hr => ?_) hs
  exact setRj_after h.data hr.noCall _

theorem execParenPush_inv {e : BitVec 16} (hs : execParenPush e s = .next t) : t.Inv := by
  unfold execParenPush at hs
  refine microCmd_inv h (fun f b hr => ?_) hs
  split_ifs with hlen
  · exact .refl h.data hr.noCall
  · exact setParen_after h.data hr.noCall hr.frame (es := fun g => g.paren ++ [e])
      (by rw [List.length_append]; exact Nat.lt_of_not_le hlen)

theorem execParenPop_inv (hs : execParenPop s = .next t) : t.Inv := by
  unfold execParenPop at hs
  refine microCmd_inv h (fun f b hr => ?_) hs
  have hle := (h.frames f (List.mem_of_getElem? hr.frame)).paren
  split
  · exact .refl h.data hr.noCall
  · exact setParen_after h.data hr.noCall hr.frame (es := fun g => g.paren.dropLast) (by rw [List.length_dropLast]; omega)

theorem execMcrPush_inv {v : Bool} (hs : execMcrPush v s = .next t) : t.Inv := by
  unfold execMcrPush at hs
  refine microCmd_inv h (fun f b hr => ?_) hs
  split_ifs with hlen
  · exact .refl h.data hr.noCall
  · exact setMcr_after h.data hr.noCall (by rw [List.length_append]; exact Nat.lt_of_not_le hlen)

theorem execMcrPop_inv (hs : execMcrPop s = .next t) : t.Inv := by
  unfold execMcrPop at hs
  refine microCmd_inv h (fun f b hr => ?_) hs
  have hle := h.mcr
  split
  · exact .refl h.data hr.noCall
  · exact setMcr_after h.data hr.noCall (by rw [List.length_dropLast]; omega)

theorem execMcrState_inv (hs : execMcrState s = .next t) : t.Inv := by
  unfold execMcrState at hs
  exact microCmd_inv_of_effects h (fun _ _ => .refl s) hs

/-- Every command leads from a legal state to a legal state. -/
theorem exec_inv {i : Instr} (hs : exec i s = .next t) : t.Inv := by
  cases i with
  | fetch m d => exact execFetch_inv h hs
  | store m d => exact execStore_inv h hs
  | regRead r => exact execRegRead_inv h hs
  | regWrite r => exact execRegWrite_inv h hs
  | openDb sel n => exact execOpenDb_inv h hs
  | stwWrite m v => exact execStwWrite_inv h hs
  | ccSet a1 a0 o => exact execCcSet_inv h hs
  | tcOp sel i op a => exact execTcOp_inv h hs
  | jumpRel d => exact execJumpRel_inv h hs
  | jumpLabel l => exact execJumpLabel_inv h hs
  | blockEnd => exact execBlockEnd_inv h hs
  | parenPush e => exact execParenPush_inv h hs
  | parenPop => exact execParenPop_inv h hs
  | mcrPush v => exact execMcrPush_inv h hs
  | mcrPop => exact execMcrPop_inv h hs
  | mcrState => exact execMcrState_inv h hs
  | callFc m t pl => exact microCmd_inv_of_call h (fun _ _ => callFcOp_ends false m t pl s) hs
  | callFcSys m t pl => exact microCmd_inv_of_call h (fun _ _ => callFcOp_ends true m t pl s) hs
  | callFb m t x pl => exact microCmd_inv_of_call h (fun _ _ => callFbOp_ends false m t x pl s) hs
  | callFbSys m t x pl => exact microCmd_inv_of_call h (fun _ _ => callFbOp_ends true m t x pl s) hs
  | callMi m t pl => exact microCmd_inv_of_call h (fun _ _ => callMiOp_ends false m t pl s) hs
  | callMiSys m t pl => exact microCmd_inv_of_call h (fun _ _ => callMiOp_ends true m t pl s) hs
  | rawFc m n t => exact microCmd_inv_of_call h (fun _ _ => rawFcOp_ends false m n t s) hs
  | rawFcSys m n t => exact microCmd_inv_of_call h (fun _ _ => rawFcOp_ends true m n t s) hs
  | rawFb m n t => exact microCmd_inv_of_call h (fun _ _ => rawFbOp_ends false m n t s) hs
  | rawFbSys m n t => exact microCmd_inv_of_call h (fun _ _ => rawFbOp_ends true m n t s) hs
  | rawMi m n t => exact microCmd_inv_of_call h (fun _ _ => rawMiOp_ends false m n t s) hs
  | rawMiSys m n t => exact microCmd_inv_of_call h (fun _ _ => rawMiOp_ends true m n t s) hs
  | startup => exact hostCmd_inv h (startupCmd_inv h) hs
  | runCycle => exact hostCmd_inv h (fun _ => runCycleCmd_inv h) hs
  | reset => exact hostCmd_inv h (resetCmd_inv h) hs
  | configSet p v => exact hostCmd_inv h (fun hp => configSetCmd_inv h hp p v) hs
  | imageRead sel off len => exact hostCmd_inv h (fun _ => imageReadCmd_inv h sel off len) hs
  | imageWrite sel off data => exact hostCmd_inv h (fun hp => imageWriteCmd_inv h hp sel off data) hs

end Commands

/-! ## The start and the end of an instruction -/

/-- Restoring a legal frame's saved registers is one of the changes `Keeps` allows (R391). -/
theorem keeps_restoreRegs {s : State} {f : Frame} (hf : FrameOk s.prog f) : Keeps s (restoreRegs f s) := by
  unfold restoreRegs
  split
  · rename_i db di _ hs
    obtain ⟨hdb, hdi⟩ := hf.saved _ hs
    exact ⟨rfl, rfl, id, id, fun _ => hdb, fun _ => hdi⟩
  · exact Keeps.refl s

/-- The statistics window starts at the reading or where it did (R486). -/
theorem statistics_winStart_le {t k now : Nat} {x : Stats} (h : x.winStart ≤ now) : (statistics t k now x).winStart ≤ now := by
  unfold statistics closeWindow
  split
  · exact le_refl now
  · exact h

/-- The end of a top-level call leaves the idle phase of a built program with no error (R484). -/
theorem State.DataOk.endTopLevel_inv {s : State} (h : s.DataOk) (hp : s.phase ≠ .idle) (hbody : s.body = none) (hb : s.built = true)
    (hm : (s.prog.code .ob Config.mainOb).isSome = true) (he : s.err.kind = 0) : (endTopLevel s).Inv := by
  unfold endTopLevel
  split
  · have hd := h.readClock.clockTick
    obtain ⟨c, m, ht⟩ := clockTick_rest s.readClock
    dsimp only
    rw [ht] at hd ⊢
    refine State.DataOk.inv_idle { hd with winStart := statistics_winStart_le hd.winStart } rfl hbody (fun _ => hb) (fun _ => hm) ?_
    show errKindOk .cycling .idle s.err.kind = true
    rw [he]; rfl
  · refine State.DataOk.inv_idle { h with } rfl hbody (fun _ => hb) (fun _ => hm) ?_
    show errKindOk .started .idle s.err.kind = true
    rw [he]; rfl
  · exact absurd ‹_› hp

/-- A running state whose control fields are left alone is legal again between instructions, as long as a frame is left. -/
theorem State.Inv.resume {s t : State} (h : s.Inv) (hd : t.DataOk) (hcontrol : t.control = s.control) (hbody : t.body = none)
    (hcs : t.cs ≠ []) : t.Inv := by
  obtain ⟨hphase, hmode, hbuilt, hprog, herr⟩ := State.control_eq.1 hcontrol
  exact { hd with
    frame := fun _ => hcs
    runMode := by rw [hphase, hmode]; exact h.runMode
    runBuilt := by rw [hphase, hbuilt]; exact h.runBuilt
    cycleMode := by rw [hphase, hmode]; exact h.cycleMode
    modeBuilt := by rw [hmode, hbuilt]; exact h.modeBuilt
    builtMain := by rw [hbuilt, hprog]; exact h.builtMain
    errKind := by rw [hmode, hphase, herr]; exact h.errKind
    body := fun hs => by rw [hbody] at hs; cases hs }

/-- A pop leads to the caller, to the end of the top-level call, or to the fault of the copy-back (R390, R484). -/
theorem popFrame_inv {s t : State} {f : Frame} {b : CodeBlock} (h : s.Inv) (hp : s.phase ≠ .idle) (hbody : s.body = none)
    (hf : f ∈ s.cs) (hs : popFrame f b s = .next t) : t.Inv := by
  have k : Keeps { s with cs := s.cs.dropLast } (copyBackIfDue f b (restoreRegs f { s with cs := s.cs.dropLast })).state :=
    (keeps_restoreRegs (s := { s with cs := s.cs.dropLast }) (h.frames f hf)).trans (Effects.copyBackIfDue f b _).keeps
  unfold popFrame at hs
  dsimp only at hs
  generalize copyBackIfDue f b (restoreRegs f { s with cs := s.cs.dropLast }) = r at k hs
  have hd : r.state.DataOk := h.data.dropLast.keeps k
  have hcontrol : r.state.control = s.control := k.control
  obtain ⟨hph, -, hb, hpr, he⟩ := State.control_eq.1 hcontrol
  have hbody' : r.state.body = none := k.body.trans hbody
  have hbuilt := hb.trans (h.runBuilt hp)
  have hm : (r.state.prog.code .ob Config.mainOb).isSome = true := by rw [hpr]; exact h.main_of_running hp
  cases r with
  | err x u => cases hs; exact hd.takeFault_inv hbuilt hm _ _
  | ok v u =>
    cases hs
    have emitted : (u.emit (.blockExit f.kind f.num)).DataOk := { hd with }
    split_ifs with hcs
    · exact emitted.endTopLevel_inv (fun hu => hp (hph.symm.trans hu)) hbody' hbuilt hm
        ((congrArg ErrRec.kind he).trans (h.err_of_running hp))
    · exact h.resume emitted hcontrol hbody' hcs

/-- The start of an instruction puts the top frame in execution (R421). -/
theorem beginInsn_inv {s t : State} (h : s.Inv) (hp : s.phase ≠ .idle) (hbody : s.body = none) (hs : beginInsn s = .next t) : t.Inv := by
  unfold beginInsn at hs
  split at hs
  · cases hs
  · rename_i f htop
    have hf : f ∈ s.cs := List.mem_of_getElem? htop
    split at hs
    · cases hs
    · split at hs
      · exact popFrame_inv h hp hbody hf hs
      · cases hs
        have hpos := List.length_pos_of_mem hf
        exact { h with
          body := fun _ => ⟨hp, by simp only [State.depth, Bool.toNat_false]; omega⟩ }

/-- What counting an instruction leaves before the refresh that may follow (R421). -/
def State.counted (s : State) : State := { s with body := none, stats := { s.stats with insnCount := s.stats.insnCount + 1 } }

theorem refresh_state (s : State) : (refresh s).state = clockTick s.readClock := by
  unfold refresh
  dsimp only
  split_ifs <;> rfl

theorem countInsn_state (s : State) : (countInsn s).state = s.counted ∨ (countInsn s).state = clockTick s.counted.readClock := by
  unfold countInsn
  dsimp only
  split_ifs
  · exact .inr (refresh_state s.counted)
  · exact .inl rfl

/-- Counting an instruction, refresh included, leads to a legal state between instructions (R421, R426). -/
theorem countInsn_inv {s : State} (h : s.Inv) (hp : s.phase ≠ .idle) :
    (countInsn s).state.Inv ∧ (countInsn s).state.phase ≠ .idle := by
  have counted : s.counted.DataOk := { h.data with }
  rcases countInsn_state s with he | he <;> rw [he]
  · exact ⟨h.resume counted rfl rfl (h.frame hp), hp⟩
  · have hd := counted.readClock.clockTick
    obtain ⟨c, m, ht⟩ := clockTick_rest s.counted.readClock
    rw [ht] at hd ⊢
    exact ⟨h.resume hd rfl rfl (h.frame hp), hp⟩

/-- Moving the instruction pointer of the executing frame keeps the invariant (R424). -/
theorem State.Inv.modifyIp {s : State} {f : Frame} (h : s.Inv) (hf : s.cs[s.step.e]? = some f) (n : Nat) :
    (s.modifyExec fun g => { g with ip := n }).Inv := by
  have hlen : (s.cs.modify s.step.e fun g => { g with ip := n }).length = s.cs.length := List.length_modify _ _ _
  exact { h with
    memMapped := fun e he => (h.memMapped e he).congr rfl rfl
    frames := (h.data.modifyExec hf ((h.frames f (List.mem_of_getElem? hf)).withIp n)).frames
    frame := fun hp => List.length_pos_iff.1 (hlen.symm ▸ List.length_pos_iff.2 (h.frame hp))
    body := fun hb => ⟨(h.body hb).1, hlen.trans (h.body hb).2⟩ }

/-- The advance moves the pointer or raises where it stands (R424). -/
theorem advance_inv {s : State} {r : Res Unit} (h : s.Inv) (hp : s.phase ≠ .idle) (hr : advance s = .ok r) :
    r.state.Inv ∧ r.state.phase ≠ .idle := by
  cases hf : s.cs[s.step.e]? with
  | none => unfold advance at hr; rw [hf] at hr; cases hr
  | some f =>
    rw [advance_frame hf] at hr
    split_ifs at hr <;> cases hr
    · exact ⟨h, hp⟩
    · exact ⟨h.modifyIp hf _, hp⟩

/-- The end of an instruction: the event, the advance, the count, and the fault that either may raise (R421). -/
theorem endInsn_inv {s t : State} (h : s.Inv) (hp : s.phase ≠ .idle) (hs : endInsn s = .next t) : t.Inv := by
  unfold endInsn at hs
  dsimp only at hs
  split at hs
  · cases hs
  · rename_i r hr
    obtain ⟨ha, hpa⟩ := advance_inv (h.emit _) hp hr
    have hc : (r.bind fun _ s => countInsn s).state.Inv ∧ (r.bind fun _ s => countInsn s).state.phase ≠ .idle := by
      cases r with
      | ok a u => exact countInsn_inv ha hpa
      | err x u => exact ⟨ha, hpa⟩
    split at hs
    · rename_i hu; cases hs; rw [hu] at hc; exact hc.1
    · rename_i hu; cases hs; rw [hu] at hc; exact hc.1.takeFault hc.2 _ _

/-- Words that are no command are a fault of the body (R167, R422). -/
theorem illegalMicro_inv {s : State} (h : s.Inv) (hp : s.phase ≠ .idle) (ws : List Word) : (illegalMicro ws s).Inv :=
  h.takeFault hp _ _

theorem idleStep_inv {s t : State} (h : s.Inv) (hs : idleStep s = .next t) : t.Inv := by
  unfold idleStep at hs
  split at hs
  · cases hs; exact h
  · rename_i ws r _
    have ht := h.withCommands r
    dsimp only at hs
    split at hs
    · exact exec_inv ht hs
    · cases hs; exact ht.refuse _

theorem bodyStep_inv {s t : State} {b : BodyRun} (h : s.Inv) (hp : s.phase ≠ .idle) (hs : bodyStep b s = .next t) : t.Inv := by
  unfold bodyStep at hs
  split at hs
  · exact endInsn_inv h hp hs
  · rename_i c _
    have ht := h.withDin c.din
    dsimp only at hs
    split at hs
    · exact exec_inv ht hs
    · cases hs; exact illegalMicro_inv ht hp _

/-- Settles O14: each kind of step keeps both halves of the invariant. -/
theorem invStep : Obligations.InvStep := by
  intro s t h hs
  unfold step at hs
  split at hs
  · exact idleStep_inv h hs
  · rename_i hp
    split at hs
    · rename_i hb
      exact beginInsn_inv h hp hb hs
    · exact bodyStep_inv h hp hs

end Sys2Proof.Machine

/-! PROOFS. The step's two ways to a command, REG_READ, and accesses of qualified and of indirect operands. -/

namespace Sys2Proof.Machine

open Sys2Proof

/-! ## Steps that run a command -/

theorem step_idle {s : State} {ws : List Word} {r : List (List Word)} {i : Instr} {rest : List Word} (hp : s.phase = .idle)
    (hc : s.env.commands = ws :: r) (hd : decode ws = .ok (i, rest)) :
    step s = exec i { s with env := { s.env with commands := r } } := by
  simp only [step, hp, ↓reduceIte, idleStep, hc, hd]

theorem step_body {s : State} {run : BodyRun} {c : BodyCmd} {i : Instr} {rest : List Word} (hp : s.phase ≠ .idle)
    (hb : s.body = some run) (hn : run.insn.next run.replies = some c) (hd : decode c.words = .ok (i, rest)) :
    step s = exec i { s with din := c.din } := by
  simp only [step, hp, ↓reduceIte, hb, bodyStep, hn, hd]

/-- Settles O6: the two places of `step` that reach `exec`. -/
theorem stepRunsDecoded : Obligations.StepRunsDecoded :=
  ⟨fun _ _ _ _ _ hp hc hd => step_idle hp hc hd, fun _ _ _ _ _ hp hb hn hd => step_body hp hb hn hd⟩

/-! ## REG_READ -/

section RegRead

variable {s : State} {f : Frame} {b : CodeBlock} (hr : s.Running f b)
include hr

/-- A register that can be read is answered in 48 bits (R315). -/
theorem exec_regRead_ok {r : BitVec 4} {v : Nat} (h : readReg r s.topIp s = .ok v s) :
    exec (.regRead r) s = .next (s.answer (BitVec.ofNat 48 v)) := by
  show execRegRead r s = _
  unfold execRegRead
  exact microCmd_ok hr (by rw [h]; rfl)

theorem exec_regRead_err {r : BitVec 4} {c : Cause} (h : readReg r s.topIp s = .err ⟨c, none⟩ s) :
    exec (.regRead r) s = .next (s.faultWith c none) := by
  show execRegRead r s = _
  unfold execRegRead
  exact microCmd_err hr (by rw [h]; rfl)

/-- A register of the machine is answered zero-extended (R315). -/
theorem exec_regRead_word {r : BitVec 4} {n : Nat} {x : BitVec n} (h : readReg r s.topIp s = .ok x.toNat s) :
    exec (.regRead r) s = .next (s.answer (x.setWidth 48)) := by
  rw [exec_regRead_ok hr h, BitVec.ofNat_toNat]

end RegRead

/-- The millisecond clock view over the integers (R52). -/
theorem State.msClock_eq {s : State} (h : s.time.msBase ≤ s.time.now) :
    ((s.time.now : Int) - s.time.msBase) / 1000000 % 2 ^ s.cfg.msClockBits = s.msClock := by
  obtain ⟨d, hd⟩ := Int.eq_ofNat_of_zero_le (Int.sub_nonneg.2 h)
  rw [State.msClock, hd]
  norm_cast

theorem readReg_reserved {r : BitVec 4} (h : 12 ≤ r.toNat) (ip : Nat) (s : State) : readReg r ip s = execErr .illegalCommand s := by
  unfold readReg
  split <;> first | omega | rfl

/-- Settles O31: one reading for each register code. -/
theorem regReadAnswers : Obligations.RegReadAnswers := by
  intro s f b hr
  refine ⟨exec_regRead_word hr rfl, exec_regRead_word hr rfl, fun h4 => ⟨exec_regRead_word hr ?_, exec_regRead_word hr ?_⟩,
    fun h2 => ⟨exec_regRead_err hr ?_, exec_regRead_err hr ?_⟩, exec_regRead_word hr rfl, exec_regRead_word hr rfl,
    exec_regRead_word hr rfl, exec_regRead_word hr rfl, exec_regRead_word hr rfl, fun hm => ?_, fun g hg => ?_,
    exec_regRead_ok hr rfl, fun r h12 => exec_regRead_err hr (readReg_reserved h12 _ s)⟩
  · simp [readReg, State.fourAccus, h4]
  · simp [readReg, State.fourAccus, h4]
  · simp [readReg, State.fourAccus, h2, addrErr, raise]
  · simp [readReg, State.fourAccus, h2, addrErr, raise]
  · rw [State.msClock_eq hm, BitVec.ofInt_natCast]
    exact exec_regRead_ok hr rfl
  · have htop : s.topIp = g.ip := by rw [State.topIp, hg]
    rw [← htop]
    exact exec_regRead_ok hr rfl

/-! ## Accesses that end at a buffer -/

section Access

variable {s u : State} {f : Frame} {b : CodeBlock} {m : BitVec 5} {d : Descriptor}

/-- An operand whose handlers are the memory primitive in `u` is read and written there, or raises what the range check raises
(R101 to R103). -/
theorem access_buffer {D : Desc} {x : Area} {a : Nat} {w : Width} (hr : s.Running f b) (hd : decodeDesc d = .ok D)
    (hw : widthAllowed m (Desc.width D) = true) (hf : fetchOp D s = memRead x a w u)
    (hst : storeOp D s.din s = memWrite x a w (truncTo w s.din) u) :
    (rangeCheck (u.areaSize x) a w = none →
      exec (.fetch m d) s = .next (u.answer (u.readVal x a w)) ∧
      exec (.store m d) s = .next ((u.writeVal x a w (BitVec.ofNat 48 (s.din.toNat % 2 ^ w.bits))).answer 0)) ∧
    ∀ r, rangeCheck (u.areaSize x) a w = some r → s.BothRaise u m d r := by
  refine ⟨fun hc => ⟨?_, ?_⟩, fun r hc => bothRaise_of hr hd hw (hf.trans (memRead_err hc)) (hst.trans (memWrite_err hc))⟩
  · rw [exec_fetch hr hd hw, hf, memRead_ok hc]
  · rw [exec_store hr hd hw, hst, memWrite_ok hc]; rfl

/-- A data-block operand that names a block is the memory primitive over it, in the state its opening leaves (R230 to R232). -/
theorem prim_names {q : Prim} {n : BlockNum} {ba : BitAddr} (h : s.NamesBlock q n ba u) :
    fetchPrim q s = memRead (.db n) ba.toNat (Prim.width q) u ∧
      ∀ v, storePrim q v s = memWrite (.db n) ba.toNat (Prim.width q) (truncTo (Prim.width q) v) u := by
  obtain ⟨w, di, x, rfl, hl⟩ := liveBlock_names h
  cases di <;> exact ⟨by simp [fetchPrim, hl, Res.bind, Prim.width], fun v => by simp [storePrim, hl, Res.bind, Prim.width]⟩

/-- A data-block operand of a block that is not there raises before anything changes (R230 to R232). -/
theorem prim_lacks {q : Prim} (h : s.LacksBlock q) :
    fetchPrim q s = addrErr .missingDb s ∧ ∀ v, storePrim q v s = addrErr .missingDb s := by
  obtain ⟨w, di, x, ba, rfl, hl⟩ := liveBlock_lacks h
  cases di <;> exact ⟨by simp [fetchPrim, hl, Res.bind, addrErr, raise], fun v => by simp [storePrim, hl, Res.bind, addrErr, raise]⟩

end Access

theorem fetchOp_prim (p : Prim) (s : State) : fetchOp (.direct (.prim p)) s = fetchPrim p s := rfl

theorem storeOp_prim (p : Prim) (v : Data) (s : State) : storeOp (.direct (.prim p)) v s = storePrim p v s := rfl

/-- Settles O38: the block that a qualified operand opens, the block that is not there, and the parent that is not there. -/
theorem qualifiedOpen : Obligations.QualifiedOpen := by
  intro s f b m d w ba p hr hd hw
  refine ⟨fun n u hn hq => ?_, fun hq => ?_, fun hcs hq => ?_⟩
  · have hnames : s.NamesBlock p n ba u := ⟨hn, w, .inr (.inr hq)⟩
    have hwidth : Prim.width p = w := by rcases hq with ⟨rfl, -⟩ | ⟨rfl, -⟩ <;> rfl
    have hsize : u.areaSize (.db n) = s.areaSize (.db n) := by rcases hq with ⟨-, rfl⟩ | ⟨-, rfl⟩ <;> rfl
    have hval : u.readVal (.db n) ba.toNat w = s.readVal (.db n) ba.toNat w := by rcases hq with ⟨-, rfl⟩ | ⟨-, rfl⟩ <;> rfl
    obtain ⟨hfetch, hstore⟩ := prim_names hnames
    rw [hwidth] at hfetch hstore
    have hacc := access_buffer hr hd (by rwa [Desc.width, Operand.width, hwidth]) ((fetchOp_prim p s).trans hfetch)
      ((storeOp_prim p s.din s).trans (hstore s.din))
    rwa [hsize, hval] at hacc
  · have hlacks : s.LacksBlock p := by
      rcases hq with ⟨n, hn, hq⟩ | ⟨hn, hq⟩ | ⟨hn, hq⟩
      · exact ⟨w, ba, .inr (.inr ⟨n, hq, hn⟩)⟩
      · exact ⟨w, ba, .inl ⟨hq, hn⟩⟩
      · exact ⟨w, ba, .inr (.inl ⟨hq, hn⟩)⟩
    have hwidth : Prim.width p = w := by rcases hq with ⟨n, -, rfl | rfl⟩ | ⟨-, rfl⟩ | ⟨-, rfl⟩ <;> rfl
    exact bothRaise_of hr hd (by rwa [Desc.width, Operand.width, hwidth]) (prim_lacks hlacks).1 ((prim_lacks hlacks).2 s.din)
  · subst hq
    have hraises : s.PlaceRaises (.parentLoc w ba) .missingParent := .inr (.inr (.inl ⟨rfl, hcs, w, ba, rfl⟩))
    exact bothRaise_of hr hd hw (prim_placeRaises hraises).1 ((prim_placeRaises hraises).2 s.din)

/-! ## Indirect accesses -/

section Indirect

variable {s u : State} {tgt : IndTarget} {inner : Operand} {w : Width} {disp : BitAddr} {v : Data}

/-- A target that takes a pointer resolves through one; only the area-crossing target asks for a form (R250, R252). -/
theorem resolveInd_byPointer (h : IndTarget.byPointer tgt = true) (dir : AccessDir) :
    ∃ (form : BitVec 32 → Bool) (mk : BitVec 32 → BitAddr → Prim),
      (∀ s, resolveInd dir w tgt disp inner s = resolvePointer inner disp form mk s) ∧
      ∀ p, form p = true ↔ (tgt = .crossing → crossingOk p = true) := by
  cases tgt with
  | crossing => exact ⟨crossingOk, fun p ba => crossingPrim dir p w ba, fun _ => rfl, fun p => by simp⟩
  | timer _ | counter _ | blk _ => cases h
  | _ => simp only [resolveInd]; exact ⟨fun _ => true, _, fun _ => rfl, fun p => by simp⟩

/-- Any other target resolves through a number (R250). -/
theorem resolveInd_byNumber (h : IndTarget.byPointer tgt = false) (dir : AccessDir) :
    ∃ mk : BitVec 16 → Prim, ∀ s, resolveInd dir w tgt disp inner s = resolveNumber inner mk s := by
  cases tgt with
  | timer _ | counter _ | blk _ => simp only [resolveInd]; exact ⟨_, fun _ => rfl⟩
  | _ => cases h

/-- The width an inner operand must have (R250). -/
def IndTarget.innerWidth (tgt : IndTarget) : Width := if IndTarget.byPointer tgt then .w32 else .w16

theorem IndTarget.innerWidth_pointer (h : IndTarget.byPointer tgt = true) : IndTarget.innerWidth tgt = .w32 := if_pos h

theorem IndTarget.innerWidth_number (h : IndTarget.byPointer tgt = false) : IndTarget.innerWidth tgt = .w16 :=
  if_neg (Bool.not_eq_true _ ▸ h)

/-- An inner operand of another width is refused before it is fetched (R250). -/
theorem resolveInd_badWidth (hw : Operand.width inner ≠ IndTarget.innerWidth tgt) (dir : AccessDir) :
    resolveInd dir w tgt disp inner s = addrErr .badIndirect s := by
  cases hp : IndTarget.byPointer tgt with
  | true =>
    obtain ⟨form, mk, he, -⟩ := resolveInd_byPointer (w := w) (disp := disp) (inner := inner) hp dir
    rw [IndTarget.innerWidth_pointer hp] at hw
    rw [he, resolvePointer, if_pos hw]
  | false =>
    obtain ⟨mk, he⟩ := resolveInd_byNumber (w := w) (disp := disp) (inner := inner) hp dir
    rw [IndTarget.innerWidth_number hp] at hw
    rw [he, resolveNumber, if_pos hw]

/-- A raise of the inner fetch is the resolution's (R250). -/
theorem resolveInd_innerRaise {x : Raise} (hw : Operand.width inner = IndTarget.innerWidth tgt) (hf : fetchOperand inner s = .err x u)
    (dir : AccessDir) : resolveInd dir w tgt disp inner s = .err x u := by
  cases hp : IndTarget.byPointer tgt with
  | true =>
    obtain ⟨form, mk, he, -⟩ := resolveInd_byPointer (w := w) (disp := disp) (inner := inner) hp dir
    rw [IndTarget.innerWidth_pointer hp] at hw
    rw [he, resolvePointer, if_neg (not_not.2 hw), hf, Res.bind]
  | false =>
    obtain ⟨mk, he⟩ := resolveInd_byNumber (w := w) (disp := disp) (inner := inner) hp dir
    rw [IndTarget.innerWidth_number hp] at hw
    rw [he, resolveNumber, if_neg (not_not.2 hw), hf, Res.bind]

/-- A pointer of the wrong form, or one whose sum with the displacement leaves the address space (R251, R252). -/
theorem resolveInd_badPointer (hp : IndTarget.byPointer tgt = true) (hw : Operand.width inner = .w32)
    (hf : fetchOperand inner s = .ok v u)
    (h : ¬ ((tgt = .crossing → CrossingForm v) ∧ (v.extractLsb' 0 19).toNat + disp.toNat < 2 ^ 19)) (dir : AccessDir) :
    resolveInd dir w tgt disp inner s = addrErr .badPointer u := by
  obtain ⟨form, mk, he, hform⟩ := resolveInd_byPointer (w := w) (disp := disp) (inner := inner) hp dir
  rw [he, resolvePointer_ok hw hf]
  split_ifs with h1 h2
  · exact absurd ⟨fun ht => (crossingOk_iff v).1 ((hform _).1 h1 ht), h2⟩ h
  · rfl
  · rfl

/-- The buffer a pointer reaches is that of the operand it selects, in either direction (R252). -/
theorem pointerReaches_selects {x : Area} (h : u.PointerReaches tgt v x) (dir : AccessDir) (w : Width) (ba : BitAddr) :
    ∃ q, PointerSelects tgt v dir w ba q ∧ u.Reaches q x w ba := by
  unfold PointerSelects State.Reaches
  rcases h with ⟨ht, rfl⟩ | ⟨ht, rfl⟩ | ⟨ht, rfl⟩ | ⟨ht, hdb, rfl⟩ | ⟨ht, hdi, rfl⟩ | ⟨ht, rfl⟩ | ⟨ht, hcs, rfl⟩
  · exact ⟨.input w ba, .inl ⟨ht, rfl⟩, .inl ⟨rfl, rfl⟩⟩
  · exact ⟨.output w ba, .inr (.inl ⟨ht, rfl⟩), .inr (.inl ⟨rfl, rfl⟩)⟩
  · exact ⟨.flag w ba, .inr (.inr (.inl ⟨ht, rfl⟩)), .inr (.inr (.inl ⟨rfl, rfl⟩))⟩
  · exact ⟨.db w none ba, .inr (.inr (.inr (.inl ⟨ht, rfl⟩))), .inr (.inr (.inr (.inr (.inr (.inl ⟨rfl, hdb, rfl⟩)))))⟩
  · exact ⟨.di w none ba, .inr (.inr (.inr (.inr (.inl ⟨ht, rfl⟩)))), .inr (.inr (.inr (.inr (.inr (.inr ⟨rfl, hdi, rfl⟩)))))⟩
  · exact ⟨.loc w ba, .inr (.inr (.inr (.inr (.inr (.inl ⟨ht, rfl⟩))))), .inr (.inr (.inr (.inl ⟨rfl, rfl⟩)))⟩
  · exact ⟨.parentLoc w ba, .inr (.inr (.inr (.inr (.inr (.inr (.inl ⟨ht, rfl⟩)))))),
      .inr (.inr (.inr (.inr (.inl ⟨rfl, hcs, rfl⟩))))⟩

/-- A pointer reaches a buffer only for a target that takes one, in the form that target asks for (R252). -/
theorem pointerReaches_form {x : Area} (h : u.PointerReaches tgt v x) :
    IndTarget.byPointer tgt = true ∧ (tgt = .crossing → CrossingForm v) := by
  have area : ∀ (c : BitVec 3) {own : IndTarget}, IndTarget.byPointer own = true → own ≠ .crossing →
      (tgt = own ∨ (tgt = .crossing ∧ v.extractLsb' 19 13 = (0x1000#13 ||| (c.setWidth 13 <<< 5)))) →
      IndTarget.byPointer tgt = true ∧ (tgt = .crossing → CrossingForm v) := by
    rintro c own hown hne (rfl | ⟨rfl, hc⟩)
    · exact ⟨hown, fun ht => absurd ht hne⟩
    · exact ⟨rfl, fun _ => (crossing_code v c hc).1⟩
  rcases h with ⟨ht, -⟩ | ⟨ht, -⟩ | ⟨ht, -⟩ | ⟨ht, -⟩ | ⟨ht, -⟩ | ⟨ht, -⟩ | ⟨ht, -⟩
  · exact area 1 rfl (by decide) ht
  · exact area 2 rfl (by decide) ht
  · exact area 3 rfl (by decide) ht
  · exact area 4 rfl (by decide) ht
  · exact area 5 rfl (by decide) ht
  · exact area 6 rfl (by decide) ht
  · exact area 7 rfl (by decide) ht

end Indirect

section IndirectAccess

variable {s u : State} {f : Frame} {b : CodeBlock} {m : BitVec 5} {d : Descriptor} {tgt : IndTarget} {inner : Operand} {w : Width}
  {disp : BitAddr} {v : Data} (hr : s.Running f b) (hd : decodeDesc d = .ok (.ind w tgt disp inner)) (hw : widthAllowed m w = true)
include hr hd hw

/-- A resolution that raises in both directions is a raise of FETCH and STORE. -/
theorem ind_raises {x : Raise} (h : ∀ dir, resolveInd dir w tgt disp inner s = .err x u) :
    exec (.fetch m d) s = .next (u.faultWith x.cause (some d)) ∧ exec (.store m d) s = .next (u.faultWith x.cause (some d)) := by
  refine ⟨?_, ?_⟩
  · rw [exec_fetch hr hd hw, fetchOp_ind_err (h .fetch)]; rfl
  · rw [exec_store hr hd hw, storeOp_ind_err (h .store)]; rfl

theorem ind_bothRaise {r : AddrReason} (h : ∀ dir, resolveInd dir w tgt disp inner s = addrErr r u) : s.BothRaise u m d r :=
  ind_raises hr hd hw h

/-- A resolution to `q` makes the access one of `q`. -/
theorem ind_fetchesAs {q : Prim} (h : resolveInd .fetch w tgt disp inner s = .ok q u) : s.FetchesAs u m d q :=
  fetchesAs_of hr hd hw (fetchOp_ind h)

theorem ind_storesAs {q : Prim} (h : resolveInd .store w tgt disp inner s = .ok q u) : s.StoresAs u m d q :=
  storesAs_of hr hd hw (storeOp_ind h)

end IndirectAccess

/-- Settles O46: the pointer's buffer, the refusals before the fetch, the operands that pointers and numbers select, and the raise of the
inner fetch. -/
theorem indirectAccess : Obligations.IndirectAccess := by
  intro s f b m d w tgt disp inner hr hd hw
  have overflow : ∀ {v : Data} {u : State}, IndTarget.byPointer tgt = true → Operand.width inner = .w32 →
      fetchOperand inner s = .ok v u →
      ¬ ((tgt = .crossing → CrossingForm v) ∧ (v.extractLsb' 0 19).toNat + disp.toNat < 2 ^ 19) → s.BothRaise u m d .badPointer :=
    fun hp hwi hf h => ind_bothRaise hr hd hw (resolveInd_badPointer hp hwi hf h)
  refine ⟨fun v u x hwi hf hx => ⟨fun hlt => ?_, fun hge => ?_⟩, fun hwi ht => ?_,
    fun v u hwi hf hp => ⟨fun ht hc => ?_, fun hc hge => ?_, fun hlt q => ⟨fun hq => ?_, fun hq => ?_⟩⟩, fun hwi hp => ?_,
    fun v u q hwi hf hq => ⟨?_, ?_⟩, fun x u hwi hf => ?_⟩
  · obtain ⟨q, hq, hreach⟩ := pointerReaches_selects hx .fetch w (BitVec.ofNat 19 ((v.extractLsb' 0 19).toNat + disp.toNat))
    obtain ⟨q', hq', hreach'⟩ := pointerReaches_selects hx .store w (BitVec.ofNat 19 ((v.extractLsb' 0 19).toNat + disp.toNat))
    have hacc := access_buffer (D := .ind w tgt disp inner) hr hd hw
      ((fetchOp_ind (resolveInd_selects hwi hf hlt rfl hq)).trans (prim_reaches hreach).2.1)
      ((storeOp_ind (resolveInd_selects hwi hf hlt rfl hq')).trans ((prim_reaches hreach').2.2 s.din))
    rwa [BitVec.toNat_ofNat, Nat.mod_eq_of_lt hlt] at hacc
  · exact overflow (pointerReaches_form hx).1 hwi hf fun h => absurd h.2 (Nat.not_lt.2 hge)
  · have hp : IndTarget.byPointer tgt = true := by
      rcases ht with rfl | rfl | rfl | rfl | rfl | rfl | rfl | rfl | ⟨o, rfl⟩ <;> rfl
    exact ind_bothRaise hr hd hw (resolveInd_badWidth (by rwa [IndTarget.innerWidth_pointer hp]))
  · exact overflow hp hwi hf fun h => hc (h.1 ht)
  · exact overflow hp hwi hf fun h => absurd h.2 (Nat.not_lt.2 hge)
  · exact ind_fetchesAs hr hd hw (resolveInd_selects hwi hf hlt rfl hq)
  · exact ind_storesAs hr hd hw (resolveInd_selects hwi hf hlt rfl hq)
  · exact ind_bothRaise hr hd hw (resolveInd_badWidth (by rwa [IndTarget.innerWidth_number hp]))
  · exact ind_fetchesAs hr hd hw (resolveInd_number hwi hf hq)
  · exact ind_storesAs hr hd hw (resolveInd_number hwi hf hq)
  · exact ind_raises hr hd hw (resolveInd_innerRaise hwi hf)

end Sys2Proof.Machine

/-! PROOFS. STARTUP: the first build, the bytes of the buffers, the startup block (44_scheduler R470 to R474). -/

namespace Sys2Proof.Machine

open Sys2Proof

/-! ## Bytes of the buffers under STARTUP -/

/-- A byte of a region or a data block is read from the memory over the program's reset contents. -/
theorem State.byteAt_congr {s t : State} {y : Area} (hy : y.inMemory = true) (c : Nat) (hm : t.mem = s.mem) (hp : t.prog = s.prog) :
    t.byteAt y c = s.byteAt y c := by
  rw [State.byteAt_mem _ c hy, State.byteAt_mem _ c hy, hm, hp]

/-- The clock byte written, and every other byte of the buffers as before (R520, R521). -/
theorem State.byteAt_writeClockByte (s : State) (v : BitVec 8) (hwf : s.mem.wf (resetByte s.prog) = true) {y : Area} {c : Nat}
    (hy : y.inMemory = true) (hc : c < 65536) :
    (s.writeClockByte v).byteAt y c =
      if y = .flags ∧ s.cfg.clockOffset.map BitVec.toNat = some c then v else s.byteAt y c := by
  unfold State.writeClockByte
  split
  · rename_i ho
    rw [ho, if_neg (by simp)]
  · rename_i o ho
    rw [ho, State.byteAt_setByte_window s v hwf rfl hy o.isLt hc]
    simp only [Option.map_some, Option.some.injEq, eq_comm (a := c)]

/-- An unlisted byte of a data block reads as the program's initial contents (R42). -/
theorem resetByte_db {p : Prog} {n : BlockNum} {d : DataBlock} {c : Nat} (hd : p.dataBlock n = some d) (hc : c < 65536) :
    resetByte p ((Area.db n).addr c) = d.init.getD c 0 := by
  have hlow : ¬ (Area.db n).addr c < dbBase := by simp only [Area.addr, dbBase]; omega
  have hnum : BitVec.ofNat 16 ((Area.db n).addr c / 65536 - 3) = n := by
    rw [show (Area.db n).addr c / 65536 - 3 = n.toNat by simp only [Area.addr]; omega, BitVec.ofNat_toNat, BitVec.setWidth_eq]
  have hoff : (Area.db n).addr c % 65536 = c := by simp only [Area.addr]; omega
  rw [resetByte, if_neg hlow, hnum, hd, hoff]

/-! ## STARTUP -/

/-- The state the first STARTUP of a program runs from: built, its data blocks at their initial contents (R470, R474). -/
def State.firstBuild (s : State) : State := if s.built then s else { s with mem := s.mem.resetDbs, built := true }

theorem State.firstBuild_eq (s : State) : s.firstBuild = { s with mem := s.firstBuild.mem, built := true } := by
  unfold State.firstBuild
  split_ifs with hb
  · rw [← hb]
  · rfl

theorem State.firstBuild_wf {s : State} (h : s.mem.wf (resetByte s.prog) = true) : s.firstBuild.mem.wf (resetByte s.prog) = true := by
  unfold State.firstBuild
  split_ifs
  · exact h
  · exact (Memory.resetDbs_spec h).1

/-- Re-initialising the data blocks leaves the regions' bytes and puts the others at their reset contents (R474). -/
theorem State.byteAt_resetDbs {s t : State} (h : s.mem.wf (resetByte s.prog) = true) (hm : t.mem = s.mem.resetDbs) (hp : t.prog = s.prog)
    {y : Area} (hy : y.inMemory = true) (c : Nat) :
    t.byteAt y c = if y.addr c < dbBase then s.byteAt y c else resetByte s.prog (y.addr c) := by
  rw [State.byteAt_mem _ c hy, State.byteAt_mem _ c hy, hm, hp, (Memory.resetDbs_spec h).2]

theorem State.firstBuild_region {s : State} (h : s.mem.wf (resetByte s.prog) = true) {y : Area} (hy : y.inMemory = true) {c : Nat}
    (hlow : y.addr c < dbBase) : s.firstBuild.byteAt y c = s.byteAt y c := by
  unfold State.firstBuild
  split
  · rfl
  · have hb := State.byteAt_resetDbs (t := { s with mem := s.mem.resetDbs, built := true }) h rfl rfl hy c
    rwa [if_pos hlow] at hb

theorem State.firstBuild_db {s : State} (h : s.mem.wf (resetByte s.prog) = true) {n : BlockNum} {d : DataBlock} {c : Nat}
    (hd : s.prog.dataBlock n = some d) (hc : c < 65536) :
    s.firstBuild.byteAt (.db n) c = if s.built then s.byteAt (.db n) c else d.init.getD c 0 := by
  have hhigh : ¬ (Area.db n).addr c < dbBase := by simp only [Area.addr, dbBase]; omega
  unfold State.firstBuild
  split
  · rfl
  · have hb := State.byteAt_resetDbs (t := { s with mem := s.mem.resetDbs, built := true }) h rfl rfl (y := .db n) rfl c
    rwa [if_neg hhigh, resetByte_db hd hc] at hb

theorem exec_startup {s : State} (hp : s.phase = .idle) (hf : s.mode ≠ .faulted) (hm : s.mode ≠ .maint)
    (hmain : (s.prog.code .ob Config.mainOb).isSome = true) : exec .startup s = .next (startupRun s.firstBuild) := by
  show execStartup s = .next (startupRun s.firstBuild)
  simp only [execStartup, hostCmd, hp, ↓reduceIte, startupCmd, hf, hm, or_self, hmain, State.firstBuild]
  split_ifs <;> rfl

/-- The block STARTUP selects (R472). -/
def State.entryNum (s : State) : BlockNum :=
  if s.cfg.accuCount = .four ∧ (s.prog.code .ob Config.coldOb).isSome then Config.coldOb else Config.warmOb

theorem entryOb_eq (s : State) : entryOb s = if (s.prog.code .ob s.entryNum).isSome then some s.entryNum else none := by
  unfold entryOb State.entryNum
  by_cases hcold : s.cfg.accuCount = .four ∧ (s.prog.code .ob Config.coldOb).isSome = true
  · rw [if_pos hcold, if_pos hcold, if_pos hcold.2]
  · rw [if_neg hcold, if_neg hcold]

/-- What STARTUP after the build writes; mode, phase, stack and reply depend on the block it selects, the memory on the clock byte
(R470, R471, R481, R520). -/
theorem startupRun_writes (s : State) :
    startupRun s = { s with
      err := ErrRec.none
      regs := Regs.zero
      mcr := []
      body := none
      clock := ⟨0, 0, s.readClock.time.now + Config.clockTickNs, true⟩
      time := { (baselines s.readClock).time with cycleStart := (startupRun s).time.cycleStart }
      stats := { (baselines s.readClock).stats with cycInsn0 := (startupRun s).stats.cycInsn0 }
      mem := s.startupReady.mem
      cs := (startupRun s).cs
      mode := (startupRun s).mode
      phase := (startupRun s).phase
      reply := (startupRun s).reply
      env := (startupRun s).env } := by
  rw [startupRun_eq]
  split
  · rw [s.startupReady_eq]
  · rename_i n hn
    obtain ⟨b, hb⟩ := Option.isSome_iff_exists.1 (entryOb_isSome hn)
    rw [beginTopLevel_eq hb, State.topLevelStart, State.push, s.startupReady_eq]

/-- STARTUP with no startup block of the program is done at once (R472). -/
theorem startupRun_done {s : State} (h : (s.prog.code .ob s.entryNum).isSome = false) :
    (startupRun s).mode = .started ∧ (startupRun s).phase = .idle ∧ (startupRun s).cs = [] ∧
      (startupRun s).reply = some (.ok []) := by
  have hentry : entryOb s.startupReady = none := by
    rw [entryOb_eq, s.startupReady_eq]
    exact if_neg (by rw [Bool.not_eq_true]; exact h)
  rw [startupRun_eq, hentry]
  exact ⟨rfl, rfl, by rw [s.startupReady_eq], rfl⟩

/-- STARTUP with a startup block begins it as a top-level call (R470, R472, R473). -/
theorem startupRun_begins {s : State} {b : CodeBlock} (h : s.prog.code .ob s.entryNum = some b) :
    startupRun s =
      { s.startupReady.topLevelStart.push (s.startupReady.topLevelStart.newFrame .ob s.entryNum b.tempSize) with
        phase := .startupOb, body := none, reply := none } := by
  have hprog : s.startupReady.prog = s.prog := by rw [s.startupReady_eq]
  have hentry : entryOb s.startupReady = some s.entryNum := by
    rw [entryOb_eq, s.startupReady_eq]
    exact if_pos (by rw [Option.isSome_iff_exists]; exact ⟨b, h⟩)
  rw [startupRun_eq, hentry]
  exact beginTopLevel_eq (by rw [hprog]; exact h) _

/-- The bytes of the buffers after the clock memory is started (R520). -/
theorem State.byteAt_clockInit {s : State} (h : s.mem.wf (resetByte s.prog) = true) {y : Area} {c : Nat} (hy : y.inMemory = true)
    (hc : c < 65536) :
    (clockInit s).byteAt y c = if y = .flags ∧ s.cfg.clockOffset.map BitVec.toNat = some c then 0 else s.byteAt y c := by
  refine (State.byteAt_writeClockByte { s with clock := ⟨0, 0, s.time.now + Config.clockTickNs, true⟩ } 0 h hy hc).trans ?_
  split_ifs
  · rfl
  · exact State.byteAt_congr hy c rfl rfl

theorem State.byteAt_startupReady {s : State} (h : s.mem.wf (resetByte s.prog) = true) {y : Area} {c : Nat} (hy : y.inMemory = true)
    (hc : c < 65536) :
    s.startupReady.byteAt y c = if y = .flags ∧ s.cfg.clockOffset.map BitVec.toNat = some c then 0 else s.byteAt y c := by
  have hbase : (baselines ({ s with err := ErrRec.none } : State).readClock).byteAt y c = s.byteAt y c :=
    State.byteAt_congr hy c rfl rfl
  have hinit := State.byteAt_clockInit (s := baselines ({ s with err := ErrRec.none } : State).readClock) h hy hc
  rw [hbase] at hinit
  refine Eq.trans ?_ hinit
  exact State.byteAt_congr hy c rfl rfl

/-- After the baselines the millisecond clock stands its lead before its wrap (R52, R471). -/
theorem State.msClock_baseline {s : State} (hlead : s.cfg.msWrapLead ≤ 2 ^ s.cfg.msClockBits)
    (hbase : s.time.msBase = (s.time.now : Int) - ((2 : Int) ^ s.cfg.msClockBits - s.cfg.msWrapLead) * 1000000) :
    s.msClock = (2 ^ s.cfg.msClockBits - s.cfg.msWrapLead) % 2 ^ s.cfg.msClockBits := by
  have helapsed : (s.time.now : Int) - s.time.msBase = ((2 ^ s.cfg.msClockBits - s.cfg.msWrapLead : Nat) * 1000000 : Nat) := by
    rw [hbase]; push_cast [Nat.cast_sub hlead]; ring
  rw [State.msClock, helapsed, Int.toNat_natCast, Nat.mul_div_cancel _ (by decide)]

/-- What STARTUP writes of the state it finds, at reading `n` (R470, R471, R481, R520). -/
theorem startup_writes {s : State} {n : Nat} {r : List Nat} (hclock : s.env.clock = n :: r) (hlast : s.env.lastReading ≤ n) :
    startupRun s.firstBuild = { s with
      built := true
      err := ErrRec.none
      regs := Regs.zero
      mcr := []
      body := none
      clock := ⟨0, 0, n + Config.clockTickNs, true⟩
      time := ⟨n, (startupRun s.firstBuild).time.cycleStart, n,
        (n : Int) - ((2 : Int) ^ s.cfg.msClockBits - s.cfg.msWrapLead) * 1000000⟩
      stats := { s.stats with
        winStart := n, winCycles := 0, winInsns := 0, winTime := 0, cycInsn0 := (startupRun s.firstBuild).stats.cycInsn0 }
      mem := s.firstBuild.startupReady.mem
      cs := (startupRun s.firstBuild).cs
      mode := (startupRun s.firstBuild).mode
      phase := (startupRun s.firstBuild).phase
      reply := (startupRun s.firstBuild).reply
      env := (startupRun s.firstBuild).env } := by
  have hw := startupRun_writes s.firstBuild
  rw [State.readClock_eq (s := s.firstBuild) (by rw [s.firstBuild_eq]; exact hclock) (by rw [s.firstBuild_eq]; exact hlast)] at hw
  refine hw.trans ?_
  rw [s.firstBuild_eq]
  rfl

/-- The bytes of the buffers after STARTUP: the clock byte 0, the others as the build leaves them (R474, R520). -/
theorem byteAt_startup {s : State} (h : s.mem.wf (resetByte s.prog) = true) {y : Area} {c : Nat} (hy : y.inMemory = true)
    (hc : c < 65536) :
    (startupRun s.firstBuild).byteAt y c =
      if y = .flags ∧ s.cfg.clockOffset.map BitVec.toNat = some c then 0 else s.firstBuild.byteAt y c := by
  have hprog : s.firstBuild.prog = s.prog := by rw [s.firstBuild_eq]
  have hcfg : s.firstBuild.cfg = s.cfg := by rw [s.firstBuild_eq]
  have hready := State.byteAt_startupReady (s := s.firstBuild) (by rw [hprog]; exact State.firstBuild_wf h) hy hc
  rw [hcfg] at hready
  rw [← hready]
  refine State.byteAt_congr hy c ?_ ?_
  · rw [startupRun_writes]
  · rw [startupRun_writes, s.firstBuild.startupReady_eq]

theorem State.entryNum_firstBuild (s : State) : s.firstBuild.entryNum = s.entryNum := by rw [s.firstBuild_eq]; rfl

/-- The startup block begins in a fresh top-level frame, its baselines at reading `n` (R470, R473). -/
theorem startup_begins {s : State} {n : Nat} {r : List Nat} {b : CodeBlock} (hclock : s.env.clock = n :: r)
    (hlast : s.env.lastReading ≤ n) (hb : s.prog.code .ob s.entryNum = some b) :
    let t := startupRun s.firstBuild
    t.mode = s.mode ∧ t.phase = .startupOb ∧ t.reply = none ∧ t.time.cycleStart = n ∧ t.stats.cycInsn0 = s.stats.insnCount ∧
      ∃ locals : List Byte, locals.length = b.tempSize ∧
        t.cs = [⟨.ob, s.entryNum, 0, locals, [], [], [], false, .fclike, 0, 0, none⟩] := by
  have hb' : s.firstBuild.prog.code .ob s.firstBuild.entryNum = some b := by rw [s.entryNum_firstBuild, s.firstBuild_eq]; exact hb
  have hread := State.readClock_eq (s := s.firstBuild) (by rw [s.firstBuild_eq]; exact hclock) (by rw [s.firstBuild_eq]; exact hlast)
  have hnow : s.firstBuild.startupReady.time.now = n := by rw [s.firstBuild.startupReady_eq, hread]; rfl
  have hcount : s.firstBuild.startupReady.stats.insnCount = s.stats.insnCount := by
    rw [s.firstBuild.startupReady_eq, s.firstBuild_eq]; rfl
  have hmode : s.firstBuild.startupReady.mode = s.mode := by rw [s.firstBuild.startupReady_eq, s.firstBuild_eq]
  have hcs : s.firstBuild.startupReady.cs = [] := by rw [s.firstBuild.startupReady_eq]
  dsimp only
  rw [startupRun_begins hb', s.entryNum_firstBuild]
  refine ⟨hmode, rfl, rfl, hnow, hcount, _, State.length_newFrame s.firstBuild.startupReady.topLevelStart .ob s.entryNum b.tempSize, ?_⟩
  show s.firstBuild.startupReady.cs ++ _ = _
  rw [hcs]
  rfl

/-- Settles O55: what STARTUP writes in every case, the bytes it leaves, and the two ways it goes on. -/
theorem startupEffect : Obligations.StartupEffect := by
  intro s n r hp hf hm hmain hwf hclock hlast
  have hw := startup_writes hclock hlast
  refine ⟨startupRun s.firstBuild, exec_startup hp hf hm hmain, by rw [hw], by rw [hw]; rfl, by rw [hw]; rfl, by rw [hw], by rw [hw],
    by rw [hw], by rw [hw], by rw [hw], by rw [hw], by rw [hw], by rw [hw], by rw [hw], fun hlead => ?_, by rw [hw]; rfl, by rw [hw],
    fun k d c hd hc => ?_, fun c hc => ⟨?_, ?_, ?_⟩, fun e he => ⟨fun hnone => ?_, fun cb hcb => ?_⟩⟩
  · rw [hw]
    exact State.msClock_baseline hlead rfl
  · rw [byteAt_startup hwf rfl hc, if_neg (by simp), State.firstBuild_db hwf hd hc]
  · rw [byteAt_startup hwf rfl hc, if_neg (by simp), State.firstBuild_region hwf rfl (by simp only [Area.addr, dbBase]; omega)]
  · rw [byteAt_startup hwf rfl hc, if_neg (by simp), State.firstBuild_region hwf rfl (by simp only [Area.addr, dbBase]; omega)]
  · rw [byteAt_startup hwf rfl hc, State.firstBuild_region hwf rfl (by simp only [Area.addr, dbBase]; omega)]
    simp only [true_and]
  · have hentry : e = s.entryNum := he
    subst hentry
    refine startupRun_done ?_
    rw [s.entryNum_firstBuild, s.firstBuild_eq]
    exact hnone
  · have hentry : e = s.entryNum := he
    subst hentry
    exact startup_begins hclock hlast hcb

end Sys2Proof.Machine

/-! PROOFS. The memory primitives: the range check, the round trip, the bytes of a write; and accesses of the buffers (20_memory R100 to
R105). -/

namespace Sys2Proof.Machine

open Sys2Proof

/-! ## The range check -/

theorem rangeCheck_bit {size ba : Nat} (h : 8 * size ≤ ba) : rangeCheck size ba .w1 = some .outOfRange := by
  rw [rangeCheck, if_pos rfl, if_pos h]

theorem rangeCheck_misaligned {size ba : Nat} {w : Width} (hw : w ≠ .w1) (h : ba % 8 ≠ 0) :
    rangeCheck size ba w = some .misaligned := by
  rw [rangeCheck, if_neg hw, if_pos h]

theorem rangeCheck_past {size ba : Nat} {w : Width} (hw : w ≠ .w1) (ha : ba % 8 = 0) (h : size < ba / 8 + w.bytes) :
    rangeCheck size ba w = some .outOfRange := by
  rw [rangeCheck, if_neg hw, if_neg (not_not.2 ha), if_pos h]

/-- Settles O26: the branches of the range check, in their order. -/
theorem memRangeCheck : Obligations.MemRangeCheck := by
  intro s x ba w v
  have refused : ∀ {r}, rangeCheck (s.areaSize x) ba w = some r → memRead x ba w s = addrErr r s ∧ memWrite x ba w v s = addrErr r s :=
    fun h => ⟨memRead_err h, memWrite_err h⟩
  refine ⟨fun hw h => refused (hw ▸ rangeCheck_bit h), fun hw h => refused (rangeCheck_misaligned hw h),
    fun hw ha h => refused (rangeCheck_past hw ha h), fun h => ?_⟩
  have inRange : rangeCheck (s.areaSize x) ba w = none := by
    rw [rangeCheck_none]
    rcases h with ⟨hw, h⟩ | ⟨hw, h⟩
    · rwa [if_pos hw]
    · rwa [if_neg hw]
  exact ⟨⟨_, memRead_ok inRange⟩, _, memWrite_ok inRange⟩

/-! ## What a write leaves -/

theorem State.areaSize_writeVal (s : State) (x y : Area) (ba : Nat) (w : Width) (v : Data) :
    (s.writeVal x ba w v).areaSize y = s.areaSize y := by
  rw [State.writeVal_eq, State.areaSize_writeBytes]

/-- Settles O24: the range check passes again after the write, and the value comes back. -/
theorem memRoundTrip : Obligations.MemRoundTrip := by
  intro s x ba w v hwf hr
  refine ⟨s.writeVal x ba w v, memWrite_ok hr, ?_⟩
  rw [memRead_ok (by rw [State.areaSize_writeVal]; exact hr), State.readVal_writeVal s v hwf hr]
  rfl

/-- A write that completes was in range (R101). -/
theorem memWrite_inRange {s u : State} {x : Area} {ba : Nat} {w : Width} {v : Data} (h : memWrite x ba w v s = .ok () u) :
    rangeCheck (s.areaSize x) ba w = none ∧ u = s.writeVal x ba w v := by
  cases hr : rangeCheck (s.areaSize x) ba w with
  | some r => rw [memWrite_err hr] at h; cases h
  | none => rw [memWrite_ok hr] at h; cases h; exact ⟨rfl, rfl⟩

theorem setBit_getLsbD_ne (v : Byte) {i j : Nat} (b : Bool) (hj : j < 8) (hne : j ≠ i) :
    (setBit v i b).getLsbD j = v.getLsbD j := by
  have hbit : (BitVec.ofNat 8 (2 ^ i)).getLsbD j = false := by
    rw [BitVec.getLsbD_ofNat, Nat.testBit_two_pow_of_ne hne.symm, Bool.and_false]
  have hset : (if b then BitVec.ofNat 8 (2 ^ i) else 0).getLsbD j = false := by
    cases b
    · exact BitVec.getLsbD_zero
    · exact hbit
  rw [setBit, BitVec.getLsbD_or, BitVec.getLsbD_and, BitVec.getLsbD_not, hbit, hset, Bool.or_false, Bool.not_false, decide_eq_true hj,
    Bool.and_self, Bool.and_true]

/-- A one-bit write leaves a byte with its bit set and the other seven as they were (R103). -/
theorem setBit_bits (v : Byte) {i j : Nat} (b : Bool) (hi : i < 8) (hj : j < 8) :
    (setBit v i b).getLsbD j = if j = i then b else v.getLsbD j := by
  by_cases hji : j = i
  · rw [if_pos hji, hji, setBit_getLsbD v i b hi]
  · rw [if_neg hji, setBit_getLsbD_ne v b hj hji]

/-- Byte `i` of the big-endian bytes of a value (R102). -/
theorem beBytes_getD (n : Nat) (v : Data) {i : Nat} (hi : i < n) : (beBytes n v).getD i 0 = v.extractLsb' (8 * (n - 1 - i)) 8 := by
  simp [beBytes, hi]

/-- The bytes of a write at its own place (R102, R103). -/
theorem State.byteAt_writeVal_own (s : State) {x : Area} {ba i : Nat} {w : Width} (v : Data) (hwf : s.mem.wf (resetByte s.prog) = true)
    (hr : rangeCheck (s.areaSize x) ba w = none) (hi : i < w.span) :
    (s.writeVal x ba w v).byteAt x (ba / 8 + i) = (writtenBytes s x ba w v).getD i 0 := by
  have hspan := span_le hr
  rw [State.byteAt_writeVal s v hwf hr (by omega), if_pos ⟨rfl, by omega, by omega⟩, Nat.add_sub_cancel_left]

/-- The number of a byte sequence as a sum over its bytes (R102). -/
theorem beNat_eq_sum (g : Nat → Byte) (n : Nat) :
    beNat ((List.range n).map g) = ∑ i ∈ Finset.range n, (g i).toNat * 2 ^ (8 * (n - 1 - i)) := by
  induction n with
  | zero => rfl
  | succ n ih =>
    have shift : ∀ i ∈ Finset.range n, (g i).toNat * 2 ^ (8 * (n + 1 - 1 - i)) = (g i).toNat * 2 ^ (8 * (n - 1 - i)) * 256 := by
      intro i hi
      have hi := Finset.mem_range.1 hi
      rw [show 8 * (n + 1 - 1 - i) = 8 * (n - 1 - i) + 8 by omega, pow_add, ← mul_assoc]; rfl
    rw [List.range_succ, List.map_append, beNat_append, ih, Finset.sum_range_succ, Finset.sum_congr rfl shift, ← Finset.sum_mul]
    simp [beNat]

/-- Settles O25: the byte a write puts at each place, and what a read makes of the bytes. -/
theorem memBytes : Obligations.MemBytes := by
  intro s u x ba w v hwf h
  obtain ⟨hr, rfl⟩ := memWrite_inRange h
  refine ⟨fun hw i hi => ?_, fun hw j hj => ?_, fun y c hc hout => ?_, fun hw => ?_, fun hw => ?_⟩
  · rw [State.byteAt_writeVal_own s v hwf hr (by rwa [Width.span, if_neg hw]), writtenBytes, if_neg hw, beBytes_getD _ v hi]
  · have own := State.byteAt_writeVal_own (i := 0) s v hwf hr (by rw [Width.span, if_pos hw]; exact Nat.one_pos)
    rw [Nat.add_zero, writtenBytes, if_pos hw] at own
    rw [own]
    exact setBit_bits _ _ (Nat.mod_lt _ (by decide)) hj
  · rw [State.byteAt_writeVal s v hwf hr hc, if_neg hout]
  · rw [memRead_ok hr, State.readVal, if_neg hw, State.readBytes, beNat_eq_sum]
  · rw [memRead_ok hr, State.readVal, if_pos hw]

/-! ## FETCH and STORE of a buffer -/

/-- Settles O37: the operand's handlers are the memory primitive over the buffer it reaches. -/
theorem accessBuffers : Obligations.AccessBuffers := by
  intro s f b m d p x w ba hr hd hw hx
  obtain ⟨hwidth, hfetch, hstore⟩ := prim_reaches hx
  exact access_buffer hr hd (by rwa [Desc.width, Operand.width, hwidth]) ((fetchOp_prim p s).trans hfetch)
    ((storeOp_prim p s.din s).trans (hstore s.din))

end Sys2Proof.Machine

/-! PROOFS. What every step leaves: the program, the past events and the configuration fields without a setter (20_memory R117,
44_scheduler R502, 60_exceptions R566). -/

namespace Sys2Proof.Machine

open Sys2Proof

/-- The program and the configuration fields that no setter names (R117, R502). -/
def State.fixedParts (s : State) : Prog × Nat × Nat × Bool := (s.prog, s.cfg.msClockBits, s.cfg.msWrapLead, s.cfg.miValidate)

/-- `t` comes after `s`: the fixed parts are the same, and the events of `s` are the first ones of `t`. -/
structure Extends (s t : State) : Prop where
  fixed : t.fixedParts = s.fixedParts
  trace : s.trace <+: t.trace

namespace Extends

variable {s t u : State}

theorem refl (s : State) : Extends s s := ⟨rfl, ⟨[], List.append_nil _⟩⟩

theorem trans (h : Extends s t) (k : Extends t u) : Extends s u := ⟨k.fixed.trans h.fixed, h.trace.trans k.trace⟩

/-- A change of other fields. -/
theorem of_eq (hf : t.fixedParts = s.fixedParts) (ht : t.trace = s.trace) : Extends s t := ⟨hf, by rw [ht]⟩

theorem of_keeps (k : Keeps s t) : Extends s t := .of_eq (by rw [State.fixedParts, k.prog, k.cfg]; rfl) k.trace

theorem of_effects {w r : Bool} (h : Effects w r s t) : Extends s t := .of_keeps h.keeps

theorem emit (s : State) (e : Event) : Extends s (s.emit e) := ⟨rfl, ⟨_, rfl⟩⟩

theorem takeFault (h : Extends s t) (x : Raise) (l : Option Loc) : Extends s (t.takeFault x l) := h.trans (.of_eq rfl rfl)

theorem clockTick (s : State) : Extends s (clockTick s) := by
  obtain ⟨c, m, h⟩ := clockTick_rest s
  rw [h]
  exact .of_eq rfl rfl

theorem readClock (s : State) : Extends s s.readClock := .of_eq rfl rfl

theorem writeClockByte (s : State) (v : BitVec 8) : Extends s (s.writeClockByte v) := by
  rw [State.writeClockByte_eq]
  exact .of_eq rfl rfl

/-! ## The two classes of command -/

theorem of_call {r : Res Data} (h : CallEnds s r) : Extends s r.state := by
  cases r with
  | err x u => exact .of_effects h
  | ok v u =>
    obtain ⟨-, w, f, db, di, he, rfl, -⟩ := h
    exact (Extends.of_effects he).trans (.of_eq rfl rfl)

/-- A micro-command is refused, faults at once, or leaves what its effect leaves (R422). -/
theorem microCmd {k : Frame → CodeBlock → State → Res Data} (h : microCmd s k = .next t) (hk : ∀ f b, Extends s (k f b s).state) :
    Extends s t := by
  rcases microCmd_next h with ⟨-, rfl⟩ | ⟨-, rfl⟩ | ⟨f, b, -, ⟨v, u, hu, rfl⟩ | ⟨x, u, hu, rfl⟩⟩
  · exact .of_eq rfl rfl
  · exact .of_eq rfl rfl
  all_goals
    have hs := hk f b
    rw [hu] at hs
    exact hs.trans (.of_eq rfl rfl)

theorem microCmd_effects {k : Frame → CodeBlock → State → Res Data} (h : Machine.microCmd s k = .next t)
    (hk : ∀ f b, Effects true true s (k f b s).state) : Extends s t := microCmd h fun f b => .of_effects (hk f b)

theorem microCmd_call {k : Frame → CodeBlock → State → Res Data} (h : Machine.microCmd s k = .next t)
    (hk : ∀ f b, CallEnds s (k f b s)) : Extends s t := microCmd h fun f b => .of_call (hk f b)

theorem hostCmd {k : State → State} (hk : Extends s (k s)) (h : hostCmd s k = .next t) : Extends s t := by
  rcases hostCmd_next s k with ⟨-, he⟩ | ⟨-, r, -, he⟩ <;> rw [he] at h <;> cases h
  · exact hk
  · exact .of_eq rfl rfl

/-! ## Operand accesses and register reads -/

theorem execFetch {m : BitVec 5} {d : Descriptor} (h : execFetch m d s = .next t) : Extends s t :=
  microCmd_effects h fun _ _ => .withOpnd d (.bind (.checkedDesc m d s) fun D u _ => .fetchOp D u)

theorem execStore {m : BitVec 5} {d : Descriptor} (h : execStore m d s = .next t) : Extends s t :=
  microCmd_effects h fun _ _ =>
    .bind (.withOpnd d (.bind (.checkedDesc m d s) fun D u _ => .storeOp D u.din u)) fun _ u _ => .refl u

theorem execRegRead {r : BitVec 4} (h : execRegRead r s = .next t) : Extends s t :=
  microCmd_effects h fun _ _ => .bind (.readReg r s.topIp s) fun _ u _ => .refl u

/-! ## Commands that write registers, cells and stacks -/

theorem writeReg (r : BitVec 4) (v : Data) (s : State) : Extends s (writeReg r v s).state := by
  unfold Machine.writeReg
  split
  case h_3 => split_ifs <;> exact .of_eq rfl rfl
  case h_4 => split_ifs <;> exact .of_eq rfl rfl
  all_goals exact .of_eq rfl rfl

theorem setBlockReg (s : State) (di : Bool) (n : BlockNum) : Extends s (s.setBlockReg di n) := by
  cases di <;> exact .of_eq rfl rfl

theorem setCell (s : State) (k : CellKind) (i : Nat) (c : Cell) : Extends s (s.setCell k i c) := by
  cases k <;> exact .of_eq rfl rfl

theorem execRegWrite {r : BitVec 4} (h : execRegWrite r s = .next t) : Extends s t := by
  refine microCmd h fun _ _ => ?_
  rw [Res.state_bind_ok]
  exact writeReg r s.din s

theorem execOpenDb {sel : Bool} {n : BlockNum} (h : execOpenDb sel n s = .next t) : Extends s t := by
  refine microCmd h fun _ _ => ?_
  split_ifs
  · exact refl s
  · exact setBlockReg s sel n

theorem execStwWrite {m v : BitVec 9} (h : execStwWrite m v s = .next t) : Extends s t :=
  microCmd h fun _ _ => .of_eq rfl rfl

theorem execCcSet {a1 a0 o : Bool} (h : execCcSet a1 a0 o s = .next t) : Extends s t :=
  microCmd h fun _ _ => .of_eq rfl rfl

theorem execTcOp {sel : Bool} {i : BitVec 16} {op : BitVec 8} {a : BitVec 16} (h : execTcOp sel i op a s = .next t) : Extends s t := by
  refine microCmd h fun _ _ => ?_
  dsimp only
  split_ifs
  · exact refl s
  · exact setCell s _ _ _

theorem execJumpRel {d : BitVec 32} (h : execJumpRel d s = .next t) : Extends s t :=
  microCmd h fun _ _ => .of_eq rfl rfl

theorem execJumpLabel {l : BitVec 32} (h : execJumpLabel l s = .next t) : Extends s t := by
  refine microCmd h fun f b => ?_
  split <;> exact .of_eq rfl rfl

theorem execBlockEnd (h : execBlockEnd s = .next t) : Extends s t :=
  microCmd h fun _ _ => .of_eq rfl rfl

theorem execParenPush {e : BitVec 16} (h : execParenPush e s = .next t) : Extends s t := by
  refine microCmd h fun f b => ?_
  split_ifs <;> exact .of_eq rfl rfl

theorem execParenPop (h : execParenPop s = .next t) : Extends s t := by
  refine microCmd h fun f b => ?_
  split <;> exact .of_eq rfl rfl

theorem execMcrPush {v : Bool} (h : execMcrPush v s = .next t) : Extends s t := by
  refine microCmd h fun f b => ?_
  split_ifs <;> exact .of_eq rfl rfl

theorem execMcrPop (h : execMcrPop s = .next t) : Extends s t := by
  refine microCmd h fun f b => ?_
  split <;> exact .of_eq rfl rfl

theorem execMcrState (h : execMcrState s = .next t) : Extends s t :=
  microCmd h fun _ _ => refl s

/-! ## Host commands -/

theorem startupRun (s : State) : Extends s (startupRun s) := by
  rw [startupRun_writes]
  exact .of_eq rfl rfl

theorem startupCmd (s : State) : Extends s (startupCmd s) := by
  unfold Machine.startupCmd
  split_ifs
  · exact .of_eq rfl rfl
  · exact startupRun s
  · have built : Extends s { s with mem := s.mem.resetDbs, built := true } := .of_eq rfl rfl
    exact built.trans (startupRun _)
  · exact .of_eq rfl rfl

theorem beginTopLevel (n : BlockNum) (ph : Phase) (s : State) : Extends s (beginTopLevel n ph s) := .of_eq rfl rfl

theorem runCycleCmd (s : State) : Extends s (runCycleCmd s) := by
  unfold Machine.runCycleCmd
  split_ifs
  · exact .of_eq rfl rfl
  · exact .of_eq rfl rfl
  · have cleared : Extends s ({ s with err := ErrRec.none, cs := [], mcr := [] } : State).resetRegisters := .of_eq rfl rfl
    exact ((cleared.trans (readClock _)).trans (clockTick _)).trans (beginTopLevel _ _ _)

/-- Re-allocation under a new configuration with the same fixed fields (R504). -/
theorem realloc {c : Cfg} (hc : ({ s with cfg := c } : State).fixedParts = s.fixedParts) : Extends s (realloc { s with cfg := c }) := by
  rw [realloc_mem]
  exact .of_eq hc rfl

theorem resetCmd (s : State) : Extends s (resetCmd s) := (realloc (s := s) (c := s.cfg) rfl).trans (.of_eq rfl rfl)

/-- No setting names a fixed field (R502). -/
theorem configSet (s : State) (p : BitVec 4) (v : Data) : Extends s { s with cfg := configSet s.cfg p v } := by
  refine .of_eq ?_ rfl
  unfold Machine.configSet
  split <;> rfl

theorem clockRelocate (s : State) : Extends s (clockRelocate s) := by
  unfold Machine.clockRelocate
  split_ifs
  · exact writeClockByte s _
  · exact refl s

theorem configSetCmd (p : BitVec 4) (v : Data) (s : State) : Extends s (configSetCmd p v s) := by
  have hset := configSet s p v
  have completed : ∀ {u : State} (bs : List Byte), Extends s u → Extends s (u.complete bs) := fun _ h => h.trans (.of_eq rfl rfl)
  unfold Machine.configSetCmd
  dsimp only
  split_ifs
  · exact .of_eq rfl rfl
  · exact completed [] (realloc hset.fixed)
  · exact completed [] (hset.trans (clockRelocate _))
  · exact completed [] hset
  · exact .of_eq rfl rfl

theorem imageReadCmd (sel : Bool) (off len : BitVec 16) (s : State) : Extends s (imageReadCmd sel off len s) := by
  unfold Machine.imageReadCmd
  dsimp only
  split_ifs <;> exact .of_eq rfl rfl

theorem imageWriteCmd (sel : Bool) (off : BitVec 16) (data : List Byte) (s : State) : Extends s (imageWriteCmd sel off data s) := by
  unfold Machine.imageWriteCmd
  split_ifs with hsel hrange
  · exact .of_eq rfl rfl
  · exact .of_eq rfl rfl
  · exact (Extends.of_keeps (Keeps.writeBytes data s off.toNat (Nat.not_lt.1 hrange))).trans (.of_eq rfl rfl)

/-! ## The commands -/

theorem exec {i : Instr} (h : exec i s = .next t) : Extends s t := by
  cases i with
  | fetch m d => exact execFetch h
  | store m d => exact execStore h
  | regRead r => exact execRegRead h
  | regWrite r => exact execRegWrite h
  | openDb sel n => exact execOpenDb h
  | stwWrite m v => exact execStwWrite h
  | ccSet a1 a0 o => exact execCcSet h
  | tcOp sel i op a => exact execTcOp h
  | jumpRel d => exact execJumpRel h
  | jumpLabel l => exact execJumpLabel h
  | blockEnd => exact execBlockEnd h
  | parenPush e => exact execParenPush h
  | parenPop => exact execParenPop h
  | mcrPush v => exact execMcrPush h
  | mcrPop => exact execMcrPop h
  | mcrState => exact execMcrState h
  | callFc m d pl => exact microCmd_call h fun _ _ => callFcOp_ends false m d pl s
  | callFcSys m d pl => exact microCmd_call h fun _ _ => callFcOp_ends true m d pl s
  | callFb m d x pl => exact microCmd_call h fun _ _ => callFbOp_ends false m d x pl s
  | callFbSys m d x pl => exact microCmd_call h fun _ _ => callFbOp_ends true m d x pl s
  | callMi m d pl => exact microCmd_call h fun _ _ => callMiOp_ends false m d pl s
  | callMiSys m d pl => exact microCmd_call h fun _ _ => callMiOp_ends true m d pl s
  | rawFc m n d => exact microCmd_call h fun _ _ => rawFcOp_ends false m n d s
  | rawFcSys m n d => exact microCmd_call h fun _ _ => rawFcOp_ends true m n d s
  | rawFb m n d => exact microCmd_call h fun _ _ => rawFbOp_ends false m n d s
  | rawFbSys m n d => exact microCmd_call h fun _ _ => rawFbOp_ends true m n d s
  | rawMi m n d => exact microCmd_call h fun _ _ => rawMiOp_ends false m n d s
  | rawMiSys m n d => exact microCmd_call h fun _ _ => rawMiOp_ends true m n d s
  | startup => exact hostCmd (startupCmd s) h
  | runCycle => exact hostCmd (runCycleCmd s) h
  | reset => exact hostCmd (resetCmd s) h
  | configSet p v => exact hostCmd (configSetCmd p v s) h
  | imageRead sel off len => exact hostCmd (imageReadCmd sel off len s) h
  | imageWrite sel off data => exact hostCmd (imageWriteCmd sel off data s) h

/-! ## The start and the end of an instruction, and the pop -/

theorem restoreRegs (f : Frame) (s : State) : Extends s (restoreRegs f s) := by
  unfold Machine.restoreRegs
  split
  · exact .of_eq rfl rfl
  · exact refl s

theorem endTopLevel (s : State) : Extends s (endTopLevel s) := by
  unfold Machine.endTopLevel
  split
  · dsimp only
    have ticked := (readClock s).trans (clockTick _)
    exact ⟨ticked.fixed, ticked.trace.trans (⟨_, rfl⟩)⟩
  · exact .of_eq rfl rfl
  · exact refl s

theorem popFrame {f : Frame} {b : CodeBlock} (h : popFrame f b s = .next t) : Extends s t := by
  have popped : Extends s { s with cs := s.cs.dropLast } := .of_eq rfl rfl
  have hr := (popped.trans (restoreRegs f _)).trans (.of_effects (Effects.copyBackIfDue f b _))
  unfold Machine.popFrame at h
  dsimp only at h
  generalize copyBackIfDue f b (Machine.restoreRegs f { s with cs := s.cs.dropLast }) = r at hr h
  cases r with
  | err x u => cases h; exact hr.takeFault _ _
  | ok v u =>
    cases h
    have exited := hr.trans (emit u (.blockExit f.kind f.num))
    split_ifs
    · exact exited.trans (endTopLevel _)
    · exact exited

theorem beginInsn (h : beginInsn s = .next t) : Extends s t := by
  unfold Machine.beginInsn at h
  split at h
  · cases h
  · split at h
    · cases h
    · split at h
      · exact popFrame h
      · cases h; exact .of_eq rfl rfl

theorem advance {r : Res Unit} (h : advance s = .ok r) : Extends s r.state := by
  cases hf : s.cs[s.step.e]? with
  | none => unfold Machine.advance at h; rw [hf] at h; cases h
  | some f =>
    rw [advance_frame hf] at h
    split_ifs at h <;> cases h <;> exact .of_eq rfl rfl

theorem countInsn (s : State) : Extends s (countInsn s).state := by
  have counted : Extends s s.counted := .of_eq rfl rfl
  rcases countInsn_state s with he | he <;> rw [he]
  · exact counted
  · exact (counted.trans (readClock _)).trans (clockTick _)

theorem endInsn (h : endInsn s = .next t) : Extends s t := by
  unfold Machine.endInsn at h
  dsimp only at h
  split at h
  · cases h
  · rename_i r hr
    have hc : Extends s (r.bind fun _ s => Machine.countInsn s).state := by
      have ha := (emit s _).trans (advance hr)
      cases r with
      | ok a u => exact ha.trans (countInsn u)
      | err x u => exact ha
    split at h <;> rename_i hu <;> cases h <;> rw [hu] at hc
    · exact hc
    · exact hc.takeFault _ _

theorem idleStep (h : idleStep s = .next t) : Extends s t := by
  unfold Machine.idleStep at h
  split at h
  · cases h; exact refl s
  · rename_i ws r _
    have taken : Extends s { s with env := { s.env with commands := r } } := .of_eq rfl rfl
    dsimp only at h
    split at h
    · exact taken.trans (exec h)
    · cases h; exact .of_eq rfl rfl

theorem bodyStep {b : BodyRun} (h : bodyStep b s = .next t) : Extends s t := by
  unfold Machine.bodyStep at h
  split at h
  · exact endInsn h
  · rename_i c _
    have given : Extends s { s with din := c.din } := .of_eq rfl rfl
    dsimp only at h
    split at h
    · exact given.trans (exec h)
    · cases h; exact .of_eq rfl rfl

theorem step (h : step s = .next t) : Extends s t := by
  unfold Machine.step at h
  split at h
  · exact idleStep h
  · split at h
    · exact beginInsn h
    · exact bodyStep h

end Extends

/-- Settles O16: each kind of step extends the state it starts from. -/
theorem fixedParts : Obligations.FixedParts := by
  intro s t h
  obtain ⟨hf, htrace⟩ := Extends.step h
  simp only [State.fixedParts, Prod.mk.injEq] at hf
  obtain ⟨hprog, hbits, hlead, hvalidate⟩ := hf
  exact ⟨hprog, htrace, hbits, hlead, hvalidate⟩

end Sys2Proof.Machine

/-! PROOFS. The frame of FETCH and STORE: which bytes, which data-block registers and whether the host's side may change, for each handler,
each operand and each descriptor (20_memory R110, 40_dispatcher R200 to R270). -/

namespace Sys2Proof.Machine

open Sys2Proof

/-! ## Bytes outside a write -/

/-- One byte written leaves every other byte of every buffer, whatever the size of the buffer looked at. -/
theorem State.byteAt_setByte_ne (s : State) {x y : Area} {b c : Nat} (v : Byte) (hwf : s.mem.wf (resetByte s.prog) = true)
    (hb : b < s.areaSize x) (hc : c < 65536) (hne : ¬ (y = x ∧ c = b)) : (s.setByte x b v).byteAt y c = s.byteAt y c := by
  by_cases hy : y.inMemory = true
  · by_cases hx : x.inMemory = true
    · rw [State.byteAt_setByte_window s v hwf hx hy (Nat.lt_of_lt_of_le hb (s.areaSize_le x hx)) hc, if_neg hne]
    · cases x with
      | loc i =>
        cases y with
        | loc j => cases hy
        | _ => rfl
      | _ => exact absurd rfl hx
  · cases y with
    | loc j =>
      cases x with
      | loc i =>
        simp only [State.byteAt, State.setByte_loc_cs, List.getElem?_modify]
        by_cases hij : i = j
        · have hcb : b ≠ c := fun h => hne ⟨by rw [hij], h.symm⟩
          cases s.cs[j]? <;> simp [hij, hcb]
        · simp [hij]
      | _ => rfl
    | _ => exact absurd rfl hy

theorem State.byteAt_writeBytes_outside {x y : Area} {c : Nat} (bs : List Byte) (hc : c < 65536) :
    ∀ (s : State) (b : Nat), s.mem.wf (resetByte s.prog) = true → b + bs.length ≤ s.areaSize x →
      ¬ (y = x ∧ b ≤ c ∧ c < b + bs.length) → (s.writeBytes x b bs).byteAt y c = s.byteAt y c := by
  induction bs with
  | nil => intro s b _ _ _; rfl
  | cons v r ih =>
    intro s b hwf hb hout
    rw [List.length_cons] at hb hout
    rw [State.writeBytes,
      ih (s.setByte x b v) (b + 1) (s.setByte_wf x b v hwf) (by rw [State.areaSize_setByte]; omega) (fun h => hout ⟨h.1, by omega, by omega⟩),
      State.byteAt_setByte_ne s v hwf (by omega) hc (fun h => hout ⟨h.1, by omega, by omega⟩)]

/-! ## The footprint of an access -/

/-- From `s` to `t` no byte outside `B`, no data-block register outside `R` and, unless `P` holds, nothing of the host's side changed. -/
structure Confined (B : Area → Nat → Prop) (R : Bool → Prop) (P : Prop) (s t : State) : Prop where
  bytes : ∀ y c, c < 65536 → ¬ B y c → t.byteAt y c = s.byteAt y c
  blockReg : ∀ di, ¬ R di → t.blockReg di = s.blockReg di
  env : ¬ P → t.env = s.env

namespace Confined

variable {B : Area → Nat → Prop} {R : Bool → Prop} {P : Prop} {s t u : State}

theorem refl (s : State) : Confined B R P s s := ⟨fun _ _ _ _ => rfl, fun _ _ => rfl, fun _ => rfl⟩

theorem of_eq (h : t = s) : Confined B R P s t := by
  rw [h]; exact refl s

theorem trans (h : Confined B R P s t) (k : Confined B R P t u) : Confined B R P s u where
  bytes y c hc hB := (k.bytes y c hc hB).trans (h.bytes y c hc hB)
  blockReg di hR := (k.blockReg di hR).trans (h.blockReg di hR)
  env hP := (k.env hP).trans (h.env hP)

theorem mono {B' : Area → Nat → Prop} {R' : Bool → Prop} {P' : Prop} (h : Confined B R P s t) (hB : ∀ y c, B y c → B' y c)
    (hR : ∀ di, R di → R' di) (hP : P → P') : Confined B' R' P' s t where
  bytes y c hc hn := h.bytes y c hc fun hb => hn (hB y c hb)
  blockReg di hn := h.blockReg di fun hr => hn (hR di hr)
  env hn := h.env fun hp => hn (hP hp)

theorem bind {α β : Type} {r : Res α} {k : α → State → Res β} (h : Confined B R P s r.state)
    (hk : ∀ a t, r = .ok a t → Confined B R P t (k a t).state) : Confined B R P s (r.bind k).state := by
  cases r with
  | ok a t => exact h.trans (hk a t rfl)
  | err x t => exact h

/-! ### The effects -/

theorem setBlockReg {di : Bool} (hR : R di) (s : State) (n : BlockNum) : Confined B R P s (s.setBlockReg di n) where
  bytes y c _ _ := by cases di <;> cases y <;> rfl
  blockReg e he := by
    have hne : e ≠ di := fun h => he (h ▸ hR)
    cases di <;> cases e <;> first | rfl | exact absurd rfl hne
  env _ := by cases di <;> rfl

/-- Only the host's side changes. -/
theorem host (hP : P) (s : State) (e : Env) : Confined B R P s { s with env := e } :=
  ⟨fun y _ _ _ => by cases y <;> rfl, fun _ _ => rfl, fun hn => absurd hP hn⟩

/-- A change of the other registers. -/
theorem withRegs (s : State) {r : Regs} (hdb : r.dbReg = s.regs.dbReg) (hdi : r.diReg = s.regs.diReg) :
    Confined B R P s { s with regs := r } where
  bytes y _ _ _ := by cases y <;> rfl
  blockReg di _ := by
    cases di
    · exact hdb
    · exact hdi
  env _ := rfl

theorem setAr (s : State) (n : ArSel) (v : BitVec 32) : Confined B R P s (s.setAr n v) := by
  cases n <;> exact withRegs s rfl rfl

theorem writeBytes {x : Area} {b : Nat} {bs : List Byte} (hwf : s.mem.wf (resetByte s.prog) = true)
    (hr : b + bs.length ≤ s.areaSize x) (hB : ∀ c, b ≤ c → c < b + bs.length → B x c) : Confined B R P s (s.writeBytes x b bs) where
  bytes y c hc hn := State.byteAt_writeBytes_outside bs hc s b hwf hr fun ⟨hy, hl, hu⟩ => hn (hy ▸ hB c hl hu)
  blockReg di _ := by rw [State.blockReg, State.blockReg, State.writeBytes_regs]
  env _ := State.writeBytes_env x bs s b

theorem memWrite {x : Area} {ba : Nat} {w : Width} (hwf : s.mem.wf (resetByte s.prog) = true)
    (hB : ∀ c, ba / 8 ≤ c → c < ba / 8 + w.span → B x c) (v : Data) : Confined B R P s (memWrite x ba w v s).state := by
  cases hr : rangeCheck (s.areaSize x) ba w with
  | some r => rw [memWrite_err hr]; exact refl s
  | none =>
    rw [memWrite_ok hr, Res.state_ok, State.writeVal_eq]
    have hlen := writtenBytes_length s x ba w v
    exact writeBytes hwf (by rw [hlen]; exact span_le hr) (by rw [hlen]; exact hB)

end Confined

/-! ## Pieces that change no state -/

theorem Res.bind_state {α β : Type} {s : State} {r : Res α} {k : α → State → Res β} (h : r.state = s)
    (hk : ∀ a, (k a s).state = s) : (r.bind k).state = s := by
  cases r with
  | ok a t => cases h; exact hk a
  | err x t => exact h

theorem memRead_state (x : Area) (ba : Nat) (w : Width) (s : State) : (memRead x ba w s).state = s := by
  unfold memRead; split <;> rfl

theorem parentArea_state (s : State) : (parentArea s).state = s := by
  unfold parentArea; split_ifs <;> rfl

theorem fetchCell_state (k : CellKind) (w : Width) (bcd : Bool) (i : BitVec 16) (s : State) : (fetchCell k w bcd i s).state = s := by
  unfold fetchCell; split_ifs <;> rfl

theorem storeCell_state (w : Width) (bcd : Bool) (s : State) : (storeCell w bcd s).state = s := by
  unfold storeCell; split_ifs <;> rfl

theorem fetchStw_state (w : Width) (v : StwView) (b : Fin 9) (s : State) : (fetchStw w v b s).state = s := by
  unfold fetchStw; split_ifs <;> rfl

theorem shiftAddr_state (ba : BitAddr) (off : Nat) (s : State) : (shiftAddr ba off s).state = s := by
  unfold shiftAddr; split_ifs <;> rfl

theorem bindingPrim_state (p : Prim) (off : Nat) (s : State) : (bindingPrim p off s).state = s := by
  cases p with
  | input w ba | output w ba | flag w ba | periph w o ba => exact Res.bind_state (shiftAddr_state _ _ s) fun _ => rfl
  | _ => simp only [bindingPrim]; split_ifs <;> rfl

theorem bindingLoc_state (b : Binding) (off : Nat) (s : State) : (bindingLoc b off s).state = s := by
  cases b with
  | loc p => exact bindingPrim_state p off s
  | _ => simp only [bindingLoc]; split_ifs <;> rfl

theorem fcField_state (f : Frame) (k : BitVec 16) (fd : Field) (off : Nat) (s : State) : (fcField f k fd off s).state = s := by
  unfold fcField
  split_ifs
  · rfl
  · rfl
  · split
    · rfl
    · exact bindingLoc_state _ off s

theorem fbAggregate_state (f : Frame) (fd : Field) (off : Nat) (n : BlockNum) (s : State) : (fbAggregate f fd off n s).state = s := by
  refine Res.bind_state (memRead_state _ _ _ s) fun ptr => ?_
  dsimp only
  split_ifs <;> rfl

theorem fbField_state (f : Frame) (fd : Field) (off : Nat) (s : State) : (fbField f fd off s).state = s := by
  unfold fbField
  dsimp only
  split_ifs
  · exact fbAggregate_state f fd off _ s
  · rfl
  · rfl

/-- Resolving a named field changes no state: it reads the frame, the block's interface and, for an aggregate, the stored pointer
(R260 to R264). -/
theorem resolveField_state (k : BitVec 16) (sub : BitAddr) (s : State) : (resolveField k sub s).state = s := by
  unfold resolveField
  split
  · rfl
  · split
    · rfl
    · split_ifs
      · rfl
      · rfl
      · split
        · exact fcField_state _ k _ _ s
        · exact fbField_state _ _ _ s

/-! ## Handlers -/

/-- A data-block operand names the block it is qualified with, else the open one (R230 to R232). -/
theorem liveBlock_ok {di : Bool} {q : Option BlockNum} {s u : State} {n : BlockNum} (h : liveBlock di q s = .ok n u) :
    n = q.getD (s.blockReg di) := by
  unfold liveBlock at h
  obtain ⟨a, t, ht, h⟩ := Res.bind_ok h
  split_ifs at h <;> cases h
  cases q with
  | none => cases ht; rfl
  | some m =>
    simp only [openBlock] at ht
    split_ifs at ht <;> cases ht
    cases di <;> rfl

section Handlers

variable {B : Area → Nat → Prop} {R : Bool → Prop} {P : Prop} {s : State}

theorem Confined.liveBlock {di : Bool} {q : Option BlockNum} (hR : ∀ n, q = some n → R di) (s : State) :
    Confined B R P s (liveBlock di q s).state := by
  unfold Machine.liveBlock
  refine Confined.bind ?_ fun _ t _ => .of_eq (by split_ifs <;> rfl)
  cases q with
  | none => exact .refl s
  | some n =>
    simp only [openBlock]
    split_ifs
    · exact .setBlockReg (hR n rfl) s n
    · exact .refl s

/-- A STORE to a data-block operand writes its place in the block the operand names. -/
theorem Confined.storeDb {di : Bool} {q : Option BlockNum} {ba : Nat} {w : Width} (hwf : s.mem.wf (resetByte s.prog) = true)
    (hR : ∀ n, q = some n → R di) (hB : ∀ c, ba / 8 ≤ c → c < ba / 8 + w.span → B (.db (q.getD (s.blockReg di))) c) (v : Data) :
    Confined B R P s ((Machine.liveBlock di q s).bind fun n s => Machine.memWrite (.db n) ba w v s).state := by
  refine .bind (.liveBlock hR s) fun n u hu => ?_
  have hwf' := (Effects.liveBlock (wr := false) (rr := false) di q s).keeps.wf hwf
  rw [hu] at hwf'
  rw [liveBlock_ok hu]
  exact .memWrite hwf' hB v

/-- A peripheral fetch mirrors its bytes in the input region (R241). -/
theorem Confined.fetchPeriph {w : Width} {out : Bool} {ba : BitAddr} (hwf : s.mem.wf (resetByte s.prog) = true) (hP : P)
    (hB : out = false → ∀ c, ba.toNat / 8 ≤ c → c < ba.toNat / 8 + w.bytes → B .inputs c) :
    Confined B R P s (fetchPeriph w out ba s).state := by
  have asked : Confined B R P s (s.periphRead w.bits (ba.toNat / 8)).2 := .host hP s _
  unfold Machine.fetchPeriph
  split_ifs with hw hout ha
  · exact .refl s
  · exact .refl s
  · exact .refl s
  · dsimp only
    split
    · exact asked
    · split_ifs with hlen hfit
      · exact asked
      · rw [← not_not.1 hlen] at hB hfit
        exact asked.trans (.writeBytes hwf hfit (hB (Bool.not_eq_true _ ▸ hout)))
      · exact asked

theorem periphWidth_iff {w : Width} : PeriphWidth w ↔ periphWidthOk w = true := by
  cases w <;> simp [PeriphWidth, periphWidthOk]

theorem PeriphWidth.span_eq {w : Width} (h : PeriphWidth w) : w.span = w.bytes := by
  rcases h with rfl | rfl | rfl <;> rfl

/-- A peripheral store raises at once, or mirrors its bytes in the output region and calls the host, whatever it answers (R242). -/
theorem storePeriph_state (w : Width) (out : Bool) (ba : BitAddr) (v : Data) (s : State) :
    (storePeriph w out ba v s).state = s ∨
      PeriphWidth w ∧ (storePeriph w out ba v s).state = s.calledWrite w ba (beBytes w.bytes v) := by
  by_cases h : PeriphWidth w ∧ out = true ∧ ba.toNat % 8 = 0
  · obtain ⟨hw, rfl, ha⟩ := h
    rw [storePeriph_called hw ha]
    exact .inr ⟨hw, by split_ifs <;> rfl⟩
  · refine .inl ?_
    rw [periphWidth_iff] at h
    unfold storePeriph
    split_ifs with hw hout ha
    · rfl
    · rfl
    · rfl
    all_goals exact absurd ⟨by simpa using hw, by simpa using hout, not_not.1 ha⟩ h

theorem Confined.calledWrite {w : Width} {ba : BitAddr} {bs : List Byte} (hwf : s.mem.wf (resetByte s.prog) = true) (hP : P)
    (hlen : bs.length = w.bytes) (hB : ∀ c, ba.toNat / 8 ≤ c → c < ba.toNat / 8 + w.bytes → B .outputs c) :
    Confined B R P s (s.calledWrite w ba bs) := by
  refine Confined.trans (t := if ba.toNat / 8 + w.bytes ≤ s.cfg.outputSize then s.writeBytes .outputs (ba.toNat / 8) bs else s) ?_
    (.host hP _ _)
  split_ifs with hfit
  · exact .writeBytes hwf (by rw [hlen]; exact hfit) (by rw [hlen]; exact hB)
  · exact .refl s

theorem Confined.storePeriph {w : Width} {out : Bool} {ba : BitAddr} (hwf : s.mem.wf (resetByte s.prog) = true) (hP : P)
    (hB : ∀ c, ba.toNat / 8 ≤ c → c < ba.toNat / 8 + w.span → B .outputs c) (v : Data) :
    Confined B R P s (storePeriph w out ba v s).state := by
  rcases storePeriph_state w out ba v s with h | ⟨hw, h⟩ <;> rw [h]
  · exact .refl s
  · rw [hw.span_eq] at hB
    exact .calledWrite hwf hP (beBytes_length _ v) hB

/-- The handler of an operand that is not indirect and no field, in its fetch direction. -/
theorem Confined.fetchPrim {o : Operand} {p : Prim} (hwf : s.mem.wf (resetByte s.prog) = true) (ho : s.finalPrim o = some p) :
    Confined (s.Mirrored o) (s.Opens o) (s.Peripheral o) s (fetchPrim p s).state := by
  cases p with
  | imm w v => exact .refl s
  | input w ba | output w ba | flag w ba | loc w ba => exact .of_eq (memRead_state _ _ _ s)
  | parentLoc w ba => exact .of_eq (Res.bind_state (parentArea_state s) fun _ => memRead_state _ _ _ s)
  | db w q ba => exact .bind (.liveBlock (fun n hq => ⟨w, n, ba, hq ▸ ho⟩) s) fun _ _ _ => .of_eq (memRead_state _ _ _ _)
  | di w q ba => exact .bind (.liveBlock (fun n hq => ⟨w, n, ba, hq ▸ ho⟩) s) fun _ _ _ => .of_eq (memRead_state _ _ _ _)
  | timer w bcd i | counter w bcd i => exact .of_eq (fetchCell_state _ _ _ _ s)
  | periph w out ba => exact .fetchPeriph hwf ⟨w, out, ba, ho⟩ fun hout c hl hu => ⟨w, ba, hout ▸ ho, rfl, hl, hu⟩
  | stw w v b => exact .of_eq (fetchStw_state _ _ _ s)
  | ar w n | blk w k n => simp only [Machine.fetchPrim]; split_ifs <;> exact .refl s

/-- The handler of such an operand in its store direction. -/
theorem Confined.storePrim {o : Operand} {p : Prim} (hwf : s.mem.wf (resetByte s.prog) = true) (ho : s.finalPrim o = some p)
    (hplace : s.storedPlace o = s.primPlace p) (v : Data) :
    Confined (s.Stored o) (s.Opens o) (s.Peripheral o) s (storePrim p v s).state := by
  have stored : ∀ {x : Area} {a : Nat} {w : Width}, s.primPlace p = some (x, a, w) →
      ∀ c, a / 8 ≤ c → c < a / 8 + w.span → s.Stored o x c := fun hp c hl hu => ⟨_, _, hplace.trans hp, hl, hu⟩
  cases p with
  | imm w x => exact .refl s
  | input w ba | output w ba | flag w ba | loc w ba => exact .memWrite hwf (stored rfl) _
  | parentLoc w ba =>
    simp only [Machine.storePrim, Machine.parentArea]
    split_ifs
    · exact .refl s
    · exact .memWrite hwf (stored rfl) _
  | db w q ba => exact .storeDb hwf (fun n hq => ⟨w, n, ba, hq ▸ ho⟩) (stored rfl) _
  | di w q ba => exact .storeDb hwf (fun n hq => ⟨w, n, ba, hq ▸ ho⟩) (stored rfl) _
  | timer w bcd i | counter w bcd i => exact .of_eq (storeCell_state _ _ s)
  | periph w out ba => exact .storePeriph hwf ⟨w, out, ba, ho⟩ (stored rfl) _
  | stw w x b =>
    simp only [Machine.storePrim, storeStw]
    split_ifs
    · exact .withRegs s rfl rfl
    · exact .withRegs s rfl rfl
    all_goals exact .refl s
  | ar w n =>
    simp only [Machine.storePrim]
    split_ifs
    · exact .setAr s n _
    · exact .refl s
  | blk w k n => simp only [Machine.storePrim]; split_ifs <;> exact .refl s

end Handlers

/-! ## The status and address registers under a STORE -/

theorem State.calledWrite_regs (s : State) (w : Width) (ba : BitAddr) (bs : List Byte) : (s.calledWrite w ba bs).regs = s.regs := by
  unfold State.calledWrite
  split_ifs
  · exact State.writeBytes_regs _ _ s _
  · rfl

theorem storePeriph_regs (w : Width) (out : Bool) (ba : BitAddr) (v : Data) (s : State) : (storePeriph w out ba v s).state.regs = s.regs := by
  rcases storePeriph_state w out ba v s with h | ⟨-, h⟩ <;> rw [h]
  exact s.calledWrite_regs w ba _

/-- A STORE to an operand that is neither the status register nor an address register writes at most the data-block registers. -/
theorem storePrim_regs {p : Prim} (hstw : ∀ w k i, p ≠ .stw w k i) (har : ∀ w n, p ≠ .ar w n) (v : Data) (s : State) :
    (storePrim p v s).state.regs =
      { s.regs with dbReg := (storePrim p v s).state.regs.dbReg, diReg := (storePrim p v s).state.regs.diReg } := by
  cases p with
  | stw w k i => exact absurd rfl (hstw w k i)
  | ar w n => exact absurd rfl (har w n)
  | periph w out ba => simp only [storePrim, storePeriph_regs]
  | imm w x => rfl
  | input w ba | output w ba | flag w ba | loc w ba => exact (Effects.memWrite (rr := false) _ _ _ _ s).regs
  | parentLoc w ba => exact (Effects.bind (Effects.parentArea s) fun a t _ => Effects.memWrite (rr := false) _ _ _ _ t).regs
  | db w q ba => exact (Effects.bind (Effects.liveBlock _ _ s) fun n t _ => Effects.memWrite (rr := false) _ _ _ _ t).regs
  | di w q ba => exact (Effects.bind (Effects.liveBlock _ _ s) fun n t _ => Effects.memWrite (rr := false) _ _ _ _ t).regs
  | timer w bcd i | counter w bcd i => simp only [storePrim, storeCell_state]
  | blk w k n => simp only [storePrim]; split_ifs <;> rfl

/-- A STORE to an address register writes that register alone (R246). -/
theorem storePrim_ar (w : Width) (n : ArSel) (v : Data) (s : State) :
    (storePrim (.ar w n) v s).state.regs.stw = s.regs.stw ∧ ∀ m, m ≠ n → (storePrim (.ar w n) v s).state.ar m = s.ar m := by
  simp only [storePrim]
  split_ifs
  · refine ⟨by cases n <;> rfl, fun m hm => ?_⟩
    cases n <;> cases m <;> first | rfl | exact absurd rfl hm
  · exact ⟨rfl, fun _ _ => rfl⟩

/-- A STORE to a status-register operand leaves the address registers (R245). -/
theorem storePrim_stw_ar (w : Width) (k : StwView) (i : Fin 9) (v : Data) (s : State) (n : ArSel) :
    (storePrim (.stw w k i) v s).state.ar n = s.ar n := by
  simp only [storePrim, storeStw]
  split_ifs <;> cases n <;> rfl

/-! ## Operands -/

/-- FETCH of a one-word operand runs the handler of its final operand, or changes nothing (R205, R260). -/
theorem fetchOperand_cases (o : Operand) (s : State) :
    (∃ p, s.finalPrim o = some p ∧ fetchOperand o s = fetchPrim p s) ∨ (fetchOperand o s).state = s := by
  cases o with
  | prim p => exact .inl ⟨p, rfl, rfl⟩
  | field w k sub =>
    have hs := resolveField_state k sub s
    simp only [State.finalPrim, fetchOperand]
    cases hr : resolveField k sub s with
    | err x t => rw [hr] at hs; exact .inr hs
    | ok pl t =>
      rw [hr, Res.state_ok] at hs
      subst hs
      cases pl with
      | opnd p => exact .inl ⟨_, rfl, rfl⟩
      | dbAt n ba => exact .inr (memRead_state _ _ _ t)
      | localAt j ba => exact .inr (memRead_state _ _ _ t)
      | const c v => exact .inr rfl

/-- STORE to a one-word operand runs the handler of its final operand, or writes the place of a field, or changes nothing
(R206, R260). -/
theorem storeOperand_cases (o : Operand) (v : Data) (s : State) :
    (∃ p, s.finalPrim o = some p ∧ s.storedPlace o = s.primPlace p ∧ storeOperand o v s = storePrim p v s) ∨
    (∃ x ba w y, s.storedPlace o = some (x, ba, w) ∧ storeOperand o v s = memWrite x ba w y s) ∨
    (storeOperand o v s).state = s := by
  cases o with
  | prim p => exact .inl ⟨p, rfl, rfl, rfl⟩
  | field w k sub =>
    have hs := resolveField_state k sub s
    simp only [State.finalPrim, State.storedPlace, storeOperand]
    cases hr : resolveField k sub s with
    | err x t => rw [hr] at hs; exact .inr (.inr hs)
    | ok pl t =>
      rw [hr, Res.state_ok] at hs
      subst hs
      cases pl with
      | opnd p => exact .inl ⟨_, rfl, rfl, rfl⟩
      | dbAt n ba => exact .inr (.inl ⟨_, _, _, _, rfl, rfl⟩)
      | localAt j ba => exact .inr (.inl ⟨_, _, _, _, rfl, rfl⟩)
      | const c x => exact .inr (.inr rfl)

theorem Confined.fetchOperand {s : State} (hwf : s.mem.wf (resetByte s.prog) = true) (o : Operand) :
    Confined (s.Mirrored o) (s.Opens o) (s.Peripheral o) s (fetchOperand o s).state := by
  rcases fetchOperand_cases o s with ⟨p, ho, h⟩ | h
  · rw [h]; exact .fetchPrim hwf ho
  · exact .of_eq h

theorem Confined.storeOperand {s : State} (hwf : s.mem.wf (resetByte s.prog) = true) (o : Operand) (v : Data) :
    Confined (s.Stored o) (s.Opens o) (s.Peripheral o) s (storeOperand o v s).state := by
  rcases storeOperand_cases o v s with ⟨p, ho, hplace, h⟩ | ⟨x, ba, w, y, hplace, h⟩ | h
  · rw [h]; exact .storePrim hwf ho hplace v
  · rw [h]; exact .memWrite hwf (fun c hl hu => ⟨ba, w, hplace, hl, hu⟩) y
  · exact .of_eq h

theorem storeOperand_stw {o : Operand} {s : State} (ho : ∀ w k i, s.finalPrim o ≠ some (.stw w k i)) (v : Data) :
    (storeOperand o v s).state.regs.stw = s.regs.stw := by
  rcases storeOperand_cases o v s with ⟨p, hp, -, h⟩ | ⟨x, ba, w, y, -, h⟩ | h <;> rw [h]
  · have hstw : ∀ w k i, p ≠ .stw w k i := fun w k i he => ho w k i (he ▸ hp)
    by_cases har : ∃ w n, p = .ar w n
    · obtain ⟨w, n, rfl⟩ := har
      exact (storePrim_ar w n v s).1
    · rw [storePrim_regs hstw (fun w n he => har ⟨w, n, he⟩)]
  · rw [(Effects.memWrite (rr := false) x ba w y s).regs]

theorem storeOperand_ar {o : Operand} {s : State} {n : ArSel} (ho : ∀ w, s.finalPrim o ≠ some (.ar w n)) (v : Data) :
    (storeOperand o v s).state.ar n = s.ar n := by
  have of_regs : ∀ {t : State}, t.regs = { s.regs with dbReg := t.regs.dbReg, diReg := t.regs.diReg } → t.ar n = s.ar n := by
    intro t ht
    cases n <;> simp only [State.ar] <;> rw [ht]
  rcases storeOperand_cases o v s with ⟨p, hp, -, h⟩ | ⟨x, ba, w, y, -, h⟩ | h <;> rw [h]
  · by_cases hstw : ∃ w k i, p = .stw w k i
    · obtain ⟨w, k, i, rfl⟩ := hstw
      exact storePrim_stw_ar w k i v s n
    · by_cases har : ∃ w m, p = .ar w m
      · obtain ⟨w, m, rfl⟩ := har
        exact (storePrim_ar w m v s).2 n fun hn => ho w (hn ▸ hp)
      · exact of_regs (storePrim_regs (fun w k i he => hstw ⟨w, k, i, he⟩) (fun w m he => har ⟨w, m, he⟩) v s)
  · exact of_regs (Effects.memWrite (rr := false) x ba w y s).regs

/-! ## Descriptors -/

theorem resolvePointer_state (inner : Operand) (disp : BitAddr) (form : BitVec 32 → Bool) (mk : BitVec 32 → BitAddr → Prim) (s : State) :
    (resolvePointer inner disp form mk s).state = s ∨ (resolvePointer inner disp form mk s).state = (fetchOperand inner s).state := by
  unfold resolvePointer
  split_ifs
  · exact .inl rfl
  · refine .inr ?_
    cases fetchOperand inner s with
    | err x t => rfl
    | ok v t =>
      simp only [Res.bind]
      split_ifs
      · exact Res.bind_state (shiftAddr_state _ _ t) fun _ => rfl
      · rfl

theorem resolveNumber_state (inner : Operand) (mk : BitVec 16 → Prim) (s : State) :
    (resolveNumber inner mk s).state = s ∨ (resolveNumber inner mk s).state = (fetchOperand inner s).state := by
  unfold resolveNumber
  split_ifs
  · exact .inl rfl
  · cases fetchOperand inner s <;> exact .inr rfl

/-- Resolving an indirect operand changes what the FETCH of its inner operand changes (R250). -/
theorem resolveInd_state (dir : AccessDir) (w : Width) (tgt : IndTarget) (disp : BitAddr) (inner : Operand) (s : State) :
    (resolveInd dir w tgt disp inner s).state = s ∨
      (resolveInd dir w tgt disp inner s).state = (fetchOperand inner s).state := by
  cases hp : IndTarget.byPointer tgt
  · obtain ⟨mk, h⟩ := resolveInd_byNumber hp dir
    rw [h]
    exact resolveNumber_state inner mk s
  · obtain ⟨form, mk, h, -⟩ := resolveInd_byPointer hp dir
    rw [h]
    exact resolvePointer_state inner disp form mk s

theorem Confined.resolveDesc {s : State} (hwf : s.mem.wf (resetByte s.prog) = true) (dir : AccessDir) (D : Desc) :
    Confined (fun y c => ∃ i, Desc.inner D = some i ∧ s.Mirrored i y c) (fun di => ∃ i, Desc.inner D = some i ∧ s.Opens i di)
      (∃ i, Desc.inner D = some i ∧ s.Peripheral i) s (resolveDesc dir D s).state := by
  cases D with
  | direct o => exact .refl s
  | ind w tgt disp inner =>
    have hstate : (Machine.resolveDesc dir (.ind w tgt disp inner) s).state = (resolveInd dir w tgt disp inner s).state :=
      by simp only [Machine.resolveDesc]; cases resolveInd dir w tgt disp inner s <;> rfl
    rw [hstate]
    rcases resolveInd_state dir w tgt disp inner s with h | h <;> rw [h]
    · exact .refl s
    · exact (Confined.fetchOperand hwf inner).mono (fun y c hm => ⟨inner, rfl, hm⟩) (fun di ho => ⟨inner, rfl, ho⟩)
        (fun hp => ⟨inner, rfl, hp⟩)

/-- What resolving a descriptor and then accessing the resolved operand leave alone, in the words of the descriptor's inner operand and of
the resolved one. -/
structure AccessFramed (s : State) (D : Desc) (u : State) (B : Area → Nat → Prop) (o : Operand) (t : State) : Prop where
  bytes : ∀ y c, c < 65536 → (∀ i, Desc.inner D = some i → ¬ s.Mirrored i y c) → ¬ B y c → t.byteAt y c = s.byteAt y c
  blockReg : ∀ di, (∀ i, Desc.inner D = some i → ¬ s.Opens i di) → ¬ u.Opens o di → t.blockReg di = s.blockReg di
  env : (∀ i, Desc.inner D = some i → ¬ s.Peripheral i) → ¬ u.Peripheral o → t.env = s.env

theorem accessFramed_of {s u t : State} {dir : AccessDir} {D : Desc} {o : Operand} {B : Area → Nat → Prop}
    (hwf : s.mem.wf (resetByte s.prog) = true) (hres : resolveDesc dir D s = .ok o u)
    (h : Confined B (u.Opens o) (u.Peripheral o) u t) : AccessFramed s D u B o t := by
  have hd := Confined.resolveDesc hwf dir D
  rw [hres, Res.state_ok] at hd
  exact {
    bytes := fun y c hc hi hB => (h.bytes y c hc hB).trans (hd.bytes y c hc fun ⟨i, hin, hm⟩ => hi i hin hm)
    blockReg := fun di hi ho => (h.blockReg di ho).trans (hd.blockReg di fun ⟨i, hin, hm⟩ => hi i hin hm)
    env := fun hi ho => (h.env ho).trans (hd.env fun ⟨i, hin, hm⟩ => hi i hin hm) }

/-! ## The commands -/

/-- A micro-command that does not end the run has answered (R422, R545). -/
theorem microCmd_completes {s t : State} {f : Frame} {b : CodeBlock} {k : Frame → CodeBlock → State → Res Data} (hr : s.Running f b)
    (ht : t.phase ≠ .idle) (h : microCmd s k = .next t) : ∃ v u, k f b s = .ok v u ∧ t = u.answer v := by
  rw [microCmd_running hr k] at h
  cases hk : k f b s <;> rw [hk] at h <;> cases h
  · exact ⟨_, _, rfl, rfl⟩
  · exact absurd rfl ht

/-- The checks before a handler pass a decoded descriptor on and change nothing (R203). -/
theorem checkedDesc_inv {m : BitVec 5} {d : Descriptor} {D : Desc} {s u : State} (h : checkedDesc m d s = .ok D u) :
    decodeDesc d = .ok D ∧ u = s := by
  obtain ⟨E, t, hE, h⟩ := Res.bind_ok h
  unfold decodeArg at hE
  split at hE <;> cases hE
  split_ifs at h <;> cases h
  exact ⟨‹_›, rfl⟩

section Commands

variable {s t : State} {f : Frame} {b : CodeBlock} {m : BitVec 5} {d : Descriptor} (hr : s.Running f b) (ht : t.phase ≠ .idle)
include hr ht

theorem exec_fetch_completes (h : exec (.fetch m d) s = .next t) :
    ∃ D v u, decodeDesc d = .ok D ∧ fetchOp D s = .ok v u ∧ t = u.answer v := by
  have h : execFetch m d s = .next t := h
  obtain ⟨v, u, hk, rfl⟩ := microCmd_completes hr ht h
  obtain ⟨D, _, hD, hf⟩ := Res.bind_ok (Res.withOpnd_ok hk)
  obtain ⟨hdec, rfl⟩ := checkedDesc_inv hD
  exact ⟨D, v, u, hdec, hf, rfl⟩

theorem exec_store_completes (h : exec (.store m d) s = .next t) :
    ∃ D u, decodeDesc d = .ok D ∧ storeOp D s.din s = .ok () u ∧ t = u.answer 0 := by
  have h : execStore m d s = .next t := h
  obtain ⟨v, u, hk, rfl⟩ := microCmd_completes hr ht h
  obtain ⟨_, _, hanswered, hu⟩ := Res.bind_ok hk
  cases hu
  obtain ⟨D, _, hD, hs⟩ := Res.bind_ok (Res.withOpnd_ok hanswered)
  obtain ⟨hdec, rfl⟩ := checkedDesc_inv hD
  exact ⟨D, u, hdec, hs, rfl⟩

end Commands

/-- An answer changes no byte, no register and nothing of the host's side. -/
theorem AccessFramed.answer {s u t : State} {D : Desc} {B : Area → Nat → Prop} {o : Operand} (h : AccessFramed s D u B o t) (v : Data) :
    AccessFramed s D u B o (t.answer v) where
  bytes y c hc hi hB := by
    rw [← h.bytes y c hc hi hB]
    cases y <;> rfl
  blockReg := h.blockReg
  env := h.env

/-- What a FETCH of a decoded operand leaves alone (R205). -/
theorem fetchOp_frame {s t : State} {D : Desc} {v : Data} (hwf : s.mem.wf (resetByte s.prog) = true) (h : fetchOp D s = .ok v t) :
    ∃ o u, resolveDesc .fetch D s = .ok o u ∧ AccessFramed s D u (u.Mirrored o) o t ∧ t.fetchRest = s.fetchRest ∧ t.body = s.body := by
  have he := Effects.fetchOp (wr := false) (rr := false) D s
  rw [h] at he
  obtain ⟨o, u, hres, hf⟩ := Res.bind_ok h
  have hwf' := (Effects.resolveDesc (wr := false) (rr := false) .fetch D s).keeps.wf hwf
  rw [hres] at hwf'
  have hc := Confined.fetchOperand hwf' o
  rw [Res.state_ok, hf] at hc
  exact ⟨o, u, hres, accessFramed_of hwf hres hc, he.fetch.1, he.keeps.body⟩

/-- What a STORE to a decoded operand leaves alone (R206). -/
theorem storeOp_frame {s t : State} {D : Desc} {v : Data} (hwf : s.mem.wf (resetByte s.prog) = true) (h : storeOp D v s = .ok () t) :
    ∃ o u, resolveDesc .store D s = .ok o u ∧ AccessFramed s D u (u.Stored o) o t ∧ Keeps s t ∧
      ((∀ w k i, u.finalPrim o ≠ some (.stw w k i)) → t.regs.stw = s.regs.stw) ∧
      ∀ n, (∀ w, u.finalPrim o ≠ some (.ar w n)) → t.ar n = s.ar n := by
  have he := Effects.storeOp D v s
  rw [h] at he
  obtain ⟨o, u, hres, hs⟩ := Res.bind_ok h
  have hd := Effects.resolveDesc (wr := false) (rr := false) .store D s
  rw [hres] at hd
  have hregs : u.regs = { s.regs with dbReg := u.regs.dbReg, diReg := u.regs.diReg } := hd.regs
  have hc := Confined.storeOperand (hd.keeps.wf hwf) o v
  rw [Res.state_ok, hs] at hc
  refine ⟨o, u, hres, accessFramed_of hwf hres hc, he.keeps, fun ho => ?_, fun n ho => ?_⟩
  · have hstw := storeOperand_stw ho v
    rw [hs] at hstw
    exact hstw.trans (by rw [hregs])
  · have har := storeOperand_ar ho v
    rw [hs] at har
    refine har.trans ?_
    cases n <;> simp only [State.ar] <;> rw [hregs]

/-- Settles O47: resolving changes what the inner operand's FETCH may, the access what the resolved operand names. -/
theorem accessFrame : Obligations.AccessFrame := by
  intro s t f b m d hr hwf ht
  refine ⟨fun h => ?_, fun h => ?_⟩
  · obtain ⟨D, v, w, hD, hf, rfl⟩ := exec_fetch_completes hr ht h
    obtain ⟨o, u, hres, hframe, hrest, hbody⟩ := fetchOp_frame hwf hf
    obtain ⟨hbytes, hreg, henv⟩ := hframe.answer v
    refine ⟨D, o, u, hD, hres, ⟨v, by rw [State.answer_body, hbody]⟩, ?_, hbytes, hreg, henv⟩
    exact congrArg (fun x : State => { x with body := (w.answer v).body }) hrest
  · obtain ⟨D, w, hD, hs, rfl⟩ := exec_store_completes hr ht h
    obtain ⟨o, u, hres, hframe, hkeeps, hstw, har⟩ := storeOp_frame hwf hs
    obtain ⟨hbytes, hreg, henv⟩ := hframe.answer 0
    refine ⟨D, o, u, hD, hres, by rw [State.answer_body, hkeeps.body], ?_, hkeeps.sizes, hbytes, hreg, hstw, har, henv⟩
    exact congrArg (fun x : State => { x with body := (w.answer 0).body }) hkeeps.rest

end Sys2Proof.Machine

/-! PROOFS. The codec of commands (30_encoding R151 to R154, R156, R352, 44_scheduler R531): the fields of a word, the formats of a header, the
words of descriptors, parameter pairs and image data, each as an equivalence that serves the decoder and the encoder. -/

namespace Sys2Proof

/-! ## Fields of a word -/

theorem bits_toNat (w : Word) (lo n : Nat) : (bits w lo n).toNat = w.toNat / 2 ^ lo % 2 ^ n := by
  rw [bits, BitVec.extractLsb'_toNat, Nat.shiftRight_eq_div_pow]

theorem bits_eq_iff {w : Word} {lo n : Nat} {x : BitVec n} : bits w lo n = x ↔ w.toNat / 2 ^ lo % 2 ^ n = x.toNat := by
  rw [← BitVec.toNat_inj, bits_toNat]

/-- A one-bit field read as a Boolean. -/
theorem bits_one_eq_iff {w : Word} {lo : Nat} {b : Bool} : (bits w lo 1 == 1) = b ↔ w.toNat / 2 ^ lo % 2 = b.toNat := by
  have h : (bits w lo 1 == 1) = decide (w.toNat / 2 ^ lo % 2 = 1) := by
    rw [Bool.eq_iff_iff, beq_iff_eq, decide_eq_true_iff, bits_eq_iff]; rfl
  rw [h]
  cases b <;> simp

theorem zeros_nil (h : Word) : zeros h [] = true := rfl

theorem zeros_cons {h : Word} {lo n : Nat} {rs : List (Nat × Nat)} :
    zeros h ((lo, n) :: rs) = true ↔ h.toNat / 2 ^ lo % 2 ^ n = 0 ∧ zeros h rs = true := by
  simp [zeros]

/-- A header is its opcode and the 56 bits below it (R151). -/
theorem eq_header_iff {h : Word} {opc f : Nat} (ho : opc < 2 ^ 8) (hf : f < 2 ^ 56) :
    h = header opc f ↔ opcode h = opc ∧ h.toNat % 2 ^ 56 = f := by
  rw [← BitVec.toNat_inj, header, BitVec.toNat_ofNat, opcode, bits_toNat]
  have := h.isLt
  omega

/-! ## The formats of a header

A word is the header the encoder writes exactly when it has the opcode, its reserved bits are 0 and its fields are the command's (R154). -/

section Formats

variable {h : Word} {opc : Nat} (ho : opc < 2 ^ 8)
include ho

theorem bareHeader_iff : h = header opc 0 ↔ opcode h = opc ∧ zeros h [(0, 56)] = true := by
  rw [eq_header_iff ho (by decide)]
  simp only [zeros_cons, zeros_nil, Nat.pow_zero, Nat.div_one, and_true]

theorem accessHeader_iff {m : BitVec 5} : h = header opc (m.toNat * 2 ^ 40) ↔
    opcode h = opc ∧ zeros h [(45, 11), (0, 40)] = true ∧ bits h 40 5 = m := by
  have := m.isLt
  rw [eq_header_iff ho (by omega)]
  simp only [zeros_cons, zeros_nil, bits_eq_iff, Nat.pow_zero, Nat.div_one, and_true]
  omega

theorem regHeader_iff {x : BitVec 4} : h = header opc (x.toNat * 2 ^ 48) ↔
    opcode h = opc ∧ zeros h [(52, 4), (0, 48)] = true ∧ bits h 48 4 = x := by
  have := x.isLt
  rw [eq_header_iff ho (by omega)]
  simp only [zeros_cons, zeros_nil, bits_eq_iff, Nat.pow_zero, Nat.div_one, and_true]
  omega

theorem openDbHeader_iff {sel : Bool} {n : BlockNum} : h = header opc (sel.toNat * 2 ^ 48 + n.toNat * 2 ^ 32) ↔
    opcode h = opc ∧ zeros h [(49, 7), (0, 32)] = true ∧ (bits h 48 1 == 1) = sel ∧ bits h 32 16 = n := by
  have := sel.toNat_lt; have := n.isLt
  rw [eq_header_iff ho (by omega)]
  simp only [zeros_cons, zeros_nil, bits_eq_iff, bits_one_eq_iff, Nat.pow_zero, Nat.div_one, and_true]
  omega

theorem stwHeader_iff {m v : BitVec 9} : h = header opc (m.toNat * 2 ^ 32 + v.toNat) ↔
    opcode h = opc ∧ zeros h [(41, 15), (9, 23)] = true ∧ bits h 32 9 = m ∧ bits h 0 9 = v := by
  have := m.isLt; have := v.isLt
  rw [eq_header_iff ho (by omega)]
  simp only [zeros_cons, zeros_nil, bits_eq_iff, Nat.pow_zero, Nat.div_one, and_true]
  omega

theorem ccHeader_iff {a1 a0 ovf : Bool} : h = header opc (a1.toNat * 4 + a0.toNat * 2 + ovf.toNat) ↔
    opcode h = opc ∧ zeros h [(3, 53)] = true ∧ (bits h 2 1 == 1) = a1 ∧ (bits h 1 1 == 1) = a0 ∧ (bits h 0 1 == 1) = ovf := by
  have := a1.toNat_lt; have := a0.toNat_lt; have := ovf.toNat_lt
  rw [eq_header_iff ho (by omega)]
  simp only [zeros_cons, zeros_nil, bits_one_eq_iff, Nat.pow_zero, Nat.div_one, and_true]
  omega

theorem tcHeader_iff {sel : Bool} {i arg : BitVec 16} {op : BitVec 8} :
    h = header opc (sel.toNat * 2 ^ 48 + i.toNat * 2 ^ 32 + op.toNat * 2 ^ 24 + arg.toNat) ↔
      opcode h = opc ∧ zeros h [(49, 7), (16, 8)] = true ∧ (bits h 48 1 == 1) = sel ∧ bits h 32 16 = i ∧ bits h 24 8 = op ∧
        bits h 0 16 = arg := by
  have := sel.toNat_lt; have := i.isLt; have := op.isLt; have := arg.isLt
  rw [eq_header_iff ho (by omega)]
  simp only [zeros_cons, zeros_nil, bits_eq_iff, bits_one_eq_iff, Nat.pow_zero, Nat.div_one, and_true]
  omega

theorem jumpHeader_iff {x : BitVec 32} : h = header opc x.toNat ↔
    opcode h = opc ∧ zeros h [(32, 24)] = true ∧ bits h 0 32 = x := by
  have := x.isLt
  rw [eq_header_iff ho (by omega)]
  simp only [zeros_cons, zeros_nil, bits_eq_iff, Nat.pow_zero, Nat.div_one, and_true]
  omega

theorem parenHeader_iff {x : BitVec 16} : h = header opc x.toNat ↔
    opcode h = opc ∧ zeros h [(16, 40)] = true ∧ bits h 0 16 = x := by
  have := x.isLt
  rw [eq_header_iff ho (by omega)]
  simp only [zeros_cons, zeros_nil, bits_eq_iff, Nat.pow_zero, Nat.div_one, and_true]
  omega

theorem mcrHeader_iff {b : Bool} : h = header opc b.toNat ↔
    opcode h = opc ∧ zeros h [(1, 55)] = true ∧ (bits h 0 1 == 1) = b := by
  have := b.toNat_lt
  rw [eq_header_iff ho (by omega)]
  simp only [zeros_cons, zeros_nil, bits_one_eq_iff, Nat.pow_zero, Nat.div_one, and_true]
  omega

theorem configHeader_iff {p : BitVec 4} {v : Data} : h = header opc (p.toNat * 2 ^ 48 + v.toNat) ↔
    opcode h = opc ∧ zeros h [(52, 4)] = true ∧ bits h 48 4 = p ∧ bits h 0 48 = v := by
  have := p.isLt; have := v.isLt
  rw [eq_header_iff ho (by omega)]
  simp only [zeros_cons, zeros_nil, bits_eq_iff, Nat.pow_zero, Nat.div_one, and_true]
  omega

/-- The last field counts bytes (R530, R531). -/
theorem imageHeader_iff {sel : Bool} {off : BitVec 16} {n : Nat} (hn : n < 2 ^ 16) :
    h = header opc (sel.toNat * 2 ^ 48 + off.toNat * 2 ^ 32 + n) ↔
      opcode h = opc ∧ zeros h [(49, 7), (16, 16)] = true ∧ (bits h 48 1 == 1) = sel ∧ bits h 32 16 = off ∧
        (bits h 0 16).toNat = n := by
  have := sel.toNat_lt; have := off.isLt
  rw [eq_header_iff ho (by omega)]
  simp only [zeros_cons, zeros_nil, bits_eq_iff, bits_one_eq_iff, bits_toNat, Nat.pow_zero, Nat.div_one, and_true]
  omega

end Formats

theorem callHeader_iff {h : Word} {row n : Nat} {m : BitVec 16} (hr : row < 2 ^ 4) (hn : n < 2 ^ 16) :
    h = callHeader row m.toNat n ↔ opcode h = 0x30 ∧ zeros h [(48, 4), (16, 16)] = true ∧ (bits h 52 4).toNat = row ∧
      bits h 32 16 = m ∧ (bits h 0 16).toNat = n := by
  have := m.isLt
  rw [callHeader, eq_header_iff (by decide) (by omega)]
  simp only [zeros_cons, zeros_nil, bits_eq_iff, bits_toNat, Nat.pow_zero, Nat.div_one, and_true]
  omega

/-! ## The words after a header -/

theorem takeDesc_descWords {d : Descriptor} (hd : d.encodable = true) (r : List Word) :
    takeDesc (descWords d ++ r) = some (d, r) := by
  obtain ⟨w, _ | w1⟩ := d
  · have hw : isInd w = false := by simpa [Descriptor.encodable] using hd
    simp [takeDesc, descWords, hw]
  · have hw : isInd w = true := by simpa [Descriptor.encodable] using hd
    simp [takeDesc, descWords, hw]

/-- A descriptor is read exactly where its words stand (R152). -/
theorem takeDesc_eq_some {ws r : List Word} {d : Descriptor} :
    takeDesc ws = some (d, r) ↔ d.encodable = true ∧ ws = descWords d ++ r := by
  constructor
  · intro h
    unfold takeDesc at h
    split at h
    · cases h
    · split_ifs at h with hw
      · split at h <;> cases h
        exact ⟨by simp [Descriptor.encodable, hw], rfl⟩
      · cases h
        exact ⟨by simp [Descriptor.encodable, hw], rfl⟩
  · rintro ⟨hd, rfl⟩
    exact takeDesc_descWords hd r

theorem paramWords_cons (p : Param) (pl : List Param) : paramWords (p :: pl) = p.word :: (descWords p.d ++ paramWords pl) := rfl

/-- What reading one more parameter pair takes. -/
theorem takeParams_succ_eq_some {n : Nat} {ws r : List Word} {pl : List Param} (h : takeParams (n + 1) ws = some (pl, r)) :
    ∃ w d ws' r' pl', ws = w :: ws' ∧ takeDesc ws' = some (d, r') ∧ takeParams n r' = some (pl', r) ∧ pl = ⟨w, d⟩ :: pl' := by
  unfold takeParams at h
  split at h
  case h_1 => contradiction
  case h_2 => cases h
  case h_3 n' w ws' heq =>
    cases heq
    split at h
    case h_1 => cases h
    case h_2 d r' hd =>
      split at h
      case h_1 => cases h
      case h_2 pl' r'' hp =>
        cases h
        exact ⟨w, d, ws', r', pl', rfl, hd, hp, rfl⟩

/-- `n` parameter pairs are read exactly where the words of `n` pairs stand (R352). -/
theorem takeParams_eq_some {n : Nat} {ws r : List Word} {pl : List Param} :
    takeParams n ws = some (pl, r) ↔
      pl.length = n ∧ (pl.all fun p => p.d.encodable) = true ∧ ws = paramWords pl ++ r := by
  induction n generalizing ws pl with
  | zero =>
    rw [List.length_eq_zero_iff]
    constructor
    · rintro ⟨⟩
      exact ⟨rfl, rfl, rfl⟩
    · rintro ⟨rfl, -, rfl⟩
      rfl
  | succ n ih =>
    constructor
    · intro h
      obtain ⟨w, d, ws', r', pl', rfl, hd, hp, rfl⟩ := takeParams_succ_eq_some h
      obtain ⟨hde, rfl⟩ := takeDesc_eq_some.1 hd
      obtain ⟨hl, hpe, rfl⟩ := ih.1 hp
      refine ⟨congrArg (· + 1) hl, ?_, ?_⟩
      · rw [List.all_cons, hde, hpe, Bool.and_self]
      · rw [paramWords_cons, List.cons_append, List.append_assoc]
    · rintro ⟨hl, he, rfl⟩
      obtain ⟨p, pl, rfl⟩ := List.exists_cons_of_length_eq_add_one hl
      rw [List.all_cons, Bool.and_eq_true] at he
      have hp := ih.2 ⟨Nat.succ.inj hl, he.2, rfl⟩
      rw [paramWords_cons, List.cons_append, List.append_assoc, takeParams, takeDesc_descWords he.1]
      simp only [hp]

theorem takeParams_paramWords {n : Nat} {pl : List Param} {r : List Word} (hp : paramsEncodable pl = true) (hn : n = pl.length) :
    takeParams n (paramWords pl ++ r) = some (pl, r) := by
  rw [paramsEncodable, Bool.and_eq_true] at hp
  exact takeParams_eq_some.2 ⟨hn.symm, hp.1, rfl⟩

/-- The parameter pairs read for a 16-bit count are encodable. -/
theorem takeParams_encodable {n : BitVec 16} {ws r : List Word} {pl : List Param} (h : takeParams n.toNat ws = some (pl, r)) :
    pl.length = n.toNat ∧ paramsEncodable pl = true ∧ ws = paramWords pl ++ r := by
  obtain ⟨hl, he, hw⟩ := takeParams_eq_some.1 h
  refine ⟨hl, ?_, hw⟩
  rw [paramsEncodable, he, hl]
  exact decide_eq_true n.isLt

/-! ### Image data -/

/-- The bytes of a word are the bytes it is packed from (R531). -/
theorem eq_packWord_iff {w : Word} {bs : List Byte} (hl : bs.length ≤ 8) :
    w = packWord bs ↔ wordBytes w = bs ++ List.replicate (8 - bs.length) 0 := by
  have hlen : (bs ++ List.replicate (8 - bs.length) (0 : Byte)).length = 8 := by simp; omega
  rw [packWord]
  generalize bs ++ List.replicate (8 - bs.length) (0 : Byte) = cs at hlen ⊢
  match cs, hlen with
  | [b0, b1, b2, b3, b4, b5, b6, b7], _ =>
    have := b0.isLt; have := b1.isLt; have := b2.isLt; have := b3.isLt
    have := b4.isLt; have := b5.isLt; have := b6.isLt; have := b7.isLt
    have := w.isLt
    rw [← BitVec.toNat_inj, BitVec.toNat_ofNat]
    simp only [wordBytes, List.foldl, List.cons.injEq, bits_eq_iff, Nat.pow_zero, Nat.div_one, and_true]
    omega

theorem dataWords_nil : dataWords [] = [] := rfl

theorem dataWords_of_ne_nil {bs : List Byte} (h : bs ≠ []) : dataWords bs = packWord (bs.take 8) :: dataWords (bs.drop 8) := by
  have hn : (bs.length + 7) / 8 = ((bs.drop 8).length + 7) / 8 + 1 := by
    have := List.length_pos_iff.2 h
    rw [List.length_drop]
    omega
  rw [dataWords, dataWords, hn, List.range_succ_eq_map, List.map_cons, List.map_map]
  simp [Function.comp_def, List.drop_drop, Nat.mul_add, Nat.add_comm]

theorem wordBytes_length (w : Word) : (wordBytes w).length = 8 := rfl

/-- A whole data word and the bytes it holds (R531). -/
theorem takeData_full {n : Nat} {w : Word} {ws r : List Word} {bs : List Byte} (hn : 8 ≤ n + 1) :
    takeData (n + 1) (w :: ws) = .ok (bs, r) ↔
      bs.take 8 = wordBytes w ∧ takeData (n + 1 - 8) ws = .ok (bs.drop 8, r) := by
  rw [takeData, if_pos hn]
  constructor
  · intro h
    split at h <;> cases h
    case h_2 bs' r' hd =>
      exact ⟨List.take_left' (wordBytes_length w), by rw [List.drop_left' (wordBytes_length w), hd]⟩
  · rintro ⟨hw, hd⟩
    simp only [hd, ← hw, List.take_append_drop]

/-- The last data word, and the bytes of it that are data (R531). -/
theorem takeData_last {n : Nat} {w : Word} {ws r : List Word} {bs : List Byte} (hn : ¬8 ≤ n + 1) :
    takeData (n + 1) (w :: ws) = .ok (bs, r) ↔
      bs.length = n + 1 ∧ wordBytes w = bs ++ List.replicate (8 - bs.length) 0 ∧ ws = r := by
  have hlen : ((wordBytes w).take (n + 1)).length = n + 1 := by
    rw [List.length_take, wordBytes_length]
    omega
  rw [takeData, if_neg hn]
  constructor
  · intro h
    split_ifs at h with hz
    cases h
    refine ⟨hlen, ?_, rfl⟩
    have h8 : 8 - (n + 1) = 7 - n := by omega
    rw [hlen, h8, ← hz, List.take_append_drop]
  · rintro ⟨hl, hw, rfl⟩
    have h8 : 8 - (n + 1) = 7 - n := by omega
    rw [hl, h8] at hw
    rw [hw, List.drop_left' hl, List.take_left' hl, if_pos rfl]

/-- `n` data bytes are read exactly where their words stand, unused bytes 0 (R531). -/
theorem takeData_eq_ok {n : Nat} {ws r : List Word} {bs : List Byte} :
    takeData n ws = .ok (bs, r) ↔ bs.length = n ∧ ws = dataWords bs ++ r := by
  induction n using Nat.strong_induction_on generalizing ws bs with
  | h n ih =>
    rcases n with _ | n
    · rw [List.length_eq_zero_iff]
      constructor
      · intro h
        unfold takeData at h
        cases h
        exact ⟨rfl, rfl⟩
      · rintro ⟨rfl, rfl⟩
        unfold takeData
        rfl
    have hcons : bs.length = n + 1 → dataWords bs = packWord (bs.take 8) :: dataWords (bs.drop 8) := fun hl =>
      dataWords_of_ne_nil (List.ne_nil_of_length_eq_add_one hl)
    rcases ws with _ | ⟨w, ws⟩
    · constructor
      · intro h
        unfold takeData at h
        cases h
      · rintro ⟨hl, h⟩
        rw [hcons hl] at h
        cases h
    by_cases h8 : 8 ≤ n + 1
    · rw [takeData_full h8, ih _ (by omega), List.length_drop]
      constructor
      · rintro ⟨hw, hl, rfl⟩
        have hw8 := congrArg List.length hw
        rw [List.length_take, wordBytes_length] at hw8
        have hl8 : bs.length = n + 1 := by omega
        have hp := (eq_packWord_iff (w := w) (bs := bs.take 8) (by simp)).2 (by simp [hw, wordBytes_length])
        exact ⟨hl8, by rw [hcons hl8, ← hp, List.cons_append]⟩
      · rintro ⟨hl, hw⟩
        rw [hcons hl, List.cons_append, List.cons.injEq] at hw
        have ht : (bs.take 8).length = 8 := by rw [List.length_take]; omega
        have hp := (eq_packWord_iff ht.le).1 hw.1
        rw [ht, Nat.sub_self, List.replicate_zero, List.append_nil] at hp
        exact ⟨hp.symm, by omega, hw.2⟩
    · rw [takeData_last h8]
      constructor
      · rintro ⟨hl, hw, rfl⟩
        have hs : bs.length ≤ 8 := by omega
        rw [hcons hl, List.take_of_length_le hs, List.drop_of_length_le hs, ← (eq_packWord_iff hs).2 hw]
        exact ⟨hl, rfl⟩
      · rintro ⟨hl, hw⟩
        have hs : bs.length ≤ 8 := by omega
        rw [hcons hl, List.take_of_length_le hs, List.drop_of_length_le hs, dataWords_nil, List.cons_append, List.cons.injEq] at hw
        exact ⟨hl, (eq_packWord_iff hs).1 hw.1, hw.2⟩

/-! ## Encoding and then decoding -/

/-- The decoder gives back a command whose header and following words it reads as that command. -/
theorem decode_header_words {i : Instr} {w : Word} {ws rest : List Word} (he : encode i = w :: ws)
    (hd : ∀ h, h = w → decodeHeader h (ws ++ rest) = .ok (i, rest)) : decode (encode i ++ rest) = .ok (i, rest) := by
  rw [he]
  exact hd w rfl

/-- A CALL of row `row` decodes to what the decoder of its row reads (R351, R352). -/
theorem decode_callHeader_words {i : Instr} {row n : Nat} {m : BitVec 16} {ws rest : List Word} (hr : row < 2 ^ 4)
    (hn : n < 2 ^ 16) (he : encode i = callHeader row m.toNat n :: ws)
    (hd : ∀ h, zeros h [(48, 4), (16, 16)] = true → (bits h 52 4).toNat = row → bits h 32 16 = m → (bits h 0 16).toNat = n →
      decodeCallRow h (ws ++ rest) = .ok (i, rest)) :
    decode (encode i ++ rest) = .ok (i, rest) := by
  refine decode_header_words he fun h hh => ?_
  obtain ⟨ho, hz, hrow, hm, hc⟩ := (callHeader_iff hr hn).1 hh
  rw [← hd h hz hrow hm hc]
  simp [decodeHeader, ho]

section Calls

variable {row : Nat} {m : BitVec 16} {t x : Descriptor} {pl : List Param} {rest : List Word} (hr : row < 2 ^ 4)
include hr

theorem decode_encode_raw {mk : BitVec 16 → BitVec 16 → Descriptor → Instr} {n : BitVec 16}
    (he : encode (mk m n t) = callHeader row m.toNat n.toNat :: descWords t) (ht : t.encodable = true)
    (hd : ∀ {h r}, zeros h [(48, 4), (16, 16)] = true → (bits h 52 4).toNat = row → decodeCallRow h r = decodeRaw mk h r) :
    decode (encode (mk m n t) ++ rest) = .ok (mk m n t, rest) := by
  refine decode_callHeader_words hr n.isLt he fun h hz hrow hm hn => ?_
  simp only [hd hz hrow, decodeRaw, takeDesc_descWords ht, hm, BitVec.toNat_inj.1 hn]

theorem decode_encode_call {mk : BitVec 16 → Descriptor → List Param → Instr}
    (he : encode (mk m t pl) = callHeader row m.toNat pl.length :: (descWords t ++ paramWords pl))
    (hi : (t.encodable && paramsEncodable pl) = true)
    (hd : ∀ {h r}, zeros h [(48, 4), (16, 16)] = true → (bits h 52 4).toNat = row → decodeCallRow h r = decodeCall mk h r) :
    decode (encode (mk m t pl) ++ rest) = .ok (mk m t pl, rest) := by
  obtain ⟨ht, hp⟩ := Bool.and_eq_true_iff.1 hi
  refine decode_callHeader_words hr (Laws.Encoding.params_length hp) he fun h hz hrow hm hn => ?_
  simp only [hd hz hrow, decodeCall, List.append_assoc, takeDesc_descWords ht, takeParams_paramWords hp hn, hm]

theorem decode_encode_callFb {mk : BitVec 16 → Descriptor → Descriptor → List Param → Instr}
    (he : encode (mk m t x pl) = callHeader row m.toNat pl.length :: (descWords t ++ descWords x ++ paramWords pl))
    (hi : (t.encodable && x.encodable && paramsEncodable pl) = true)
    (hd : ∀ {h r}, zeros h [(48, 4), (16, 16)] = true → (bits h 52 4).toNat = row → decodeCallRow h r = decodeCallFb mk h r) :
    decode (encode (mk m t x pl) ++ rest) = .ok (mk m t x pl, rest) := by
  obtain ⟨htx, hp⟩ := Bool.and_eq_true_iff.1 hi
  obtain ⟨ht, hx⟩ := Bool.and_eq_true_iff.1 htx
  refine decode_callHeader_words hr (Laws.Encoding.params_length hp) he fun h hz hrow hm hn => ?_
  simp only [hd hz hrow, decodeCallFb, List.append_assoc, takeDesc_descWords ht, takeDesc_descWords hx,
    takeParams_paramWords hp hn, hm]

end Calls

/-- Settles O1: the header of each command fixes its opcode, its reserved bits and its fields; the words after it are read back. -/
theorem decodeEncode : Obligations.DecodeEncode := by
  intro i rest he
  cases i with
  | fetch m d =>
    refine decode_header_words rfl fun h hh => ?_
    obtain ⟨ho, hz, rfl⟩ := (accessHeader_iff (by decide)).1 hh
    simp [decodeHeader, ho, decodeAccess, hz, takeDesc_descWords (d := d) he]
  | store m d =>
    refine decode_header_words rfl fun h hh => ?_
    obtain ⟨ho, hz, rfl⟩ := (accessHeader_iff (by decide)).1 hh
    simp [decodeHeader, ho, decodeAccess, hz, takeDesc_descWords (d := d) he]
  | regRead x =>
    refine decode_header_words rfl fun h hh => ?_
    obtain ⟨ho, hz, rfl⟩ := (regHeader_iff (by decide)).1 hh
    simp [decodeHeader, ho, headerOnly, hz]
  | regWrite x =>
    refine decode_header_words rfl fun h hh => ?_
    obtain ⟨ho, hz, rfl⟩ := (regHeader_iff (by decide)).1 hh
    simp [decodeHeader, ho, headerOnly, hz]
  | openDb sel n =>
    refine decode_header_words rfl fun h hh => ?_
    obtain ⟨ho, hz, rfl, rfl⟩ := (openDbHeader_iff (by decide)).1 hh
    simp [decodeHeader, ho, headerOnly, hz]
  | stwWrite m v =>
    refine decode_header_words rfl fun h hh => ?_
    obtain ⟨ho, hz, rfl, rfl⟩ := (stwHeader_iff (by decide)).1 hh
    simp [decodeHeader, ho, headerOnly, hz]
  | ccSet a1 a0 ovf =>
    refine decode_header_words rfl fun h hh => ?_
    obtain ⟨ho, hz, rfl, rfl, rfl⟩ := (ccHeader_iff (by decide)).1 hh
    simp [decodeHeader, ho, headerOnly, hz]
  | tcOp sel idx op arg =>
    refine decode_header_words rfl fun h hh => ?_
    obtain ⟨ho, hz, rfl, rfl, rfl, rfl⟩ := (tcHeader_iff (by decide)).1 hh
    simp [decodeHeader, ho, headerOnly, hz]
  | jumpRel x =>
    refine decode_header_words rfl fun h hh => ?_
    obtain ⟨ho, hz, rfl⟩ := (jumpHeader_iff (by decide)).1 hh
    simp [decodeHeader, ho, headerOnly, hz]
  | jumpLabel x =>
    refine decode_header_words rfl fun h hh => ?_
    obtain ⟨ho, hz, rfl⟩ := (jumpHeader_iff (by decide)).1 hh
    simp [decodeHeader, ho, headerOnly, hz]
  | blockEnd =>
    refine decode_header_words rfl fun h hh => ?_
    obtain ⟨ho, hz⟩ := (bareHeader_iff (by decide)).1 hh
    simp [decodeHeader, ho, headerOnly, hz]
  | parenPush x =>
    refine decode_header_words rfl fun h hh => ?_
    obtain ⟨ho, hz, rfl⟩ := (parenHeader_iff (by decide)).1 hh
    simp [decodeHeader, ho, headerOnly, hz]
  | parenPop =>
    refine decode_header_words rfl fun h hh => ?_
    obtain ⟨ho, hz⟩ := (bareHeader_iff (by decide)).1 hh
    simp [decodeHeader, ho, headerOnly, hz]
  | mcrPush b =>
    refine decode_header_words rfl fun h hh => ?_
    obtain ⟨ho, hz, rfl⟩ := (mcrHeader_iff (by decide)).1 hh
    simp [decodeHeader, ho, headerOnly, hz]
  | mcrPop =>
    refine decode_header_words rfl fun h hh => ?_
    obtain ⟨ho, hz⟩ := (bareHeader_iff (by decide)).1 hh
    simp [decodeHeader, ho, headerOnly, hz]
  | mcrState =>
    refine decode_header_words rfl fun h hh => ?_
    obtain ⟨ho, hz⟩ := (bareHeader_iff (by decide)).1 hh
    simp [decodeHeader, ho, headerOnly, hz]
  | callFc m t pl => exact decode_encode_call (row := 0) (by decide) rfl he fun hz hr => by simp [decodeCallRow, hz, hr]
  | callFcSys m t pl => exact decode_encode_call (row := 1) (by decide) rfl he fun hz hr => by simp [decodeCallRow, hz, hr]
  | callFb m t x pl => exact decode_encode_callFb (row := 2) (by decide) rfl he fun hz hr => by simp [decodeCallRow, hz, hr]
  | callFbSys m t x pl => exact decode_encode_callFb (row := 3) (by decide) rfl he fun hz hr => by simp [decodeCallRow, hz, hr]
  | callMi m t pl => exact decode_encode_call (row := 4) (by decide) rfl he fun hz hr => by simp [decodeCallRow, hz, hr]
  | callMiSys m t pl => exact decode_encode_call (row := 5) (by decide) rfl he fun hz hr => by simp [decodeCallRow, hz, hr]
  | rawFc m n t => exact decode_encode_raw (row := 6) (by decide) rfl he fun hz hr => by simp [decodeCallRow, hz, hr]
  | rawFcSys m n t => exact decode_encode_raw (row := 7) (by decide) rfl he fun hz hr => by simp [decodeCallRow, hz, hr]
  | rawFb m n t => exact decode_encode_raw (row := 8) (by decide) rfl he fun hz hr => by simp [decodeCallRow, hz, hr]
  | rawFbSys m n t => exact decode_encode_raw (row := 9) (by decide) rfl he fun hz hr => by simp [decodeCallRow, hz, hr]
  | rawMi m n t => exact decode_encode_raw (row := 10) (by decide) rfl he fun hz hr => by simp [decodeCallRow, hz, hr]
  | rawMiSys m n t => exact decode_encode_raw (row := 11) (by decide) rfl he fun hz hr => by simp [decodeCallRow, hz, hr]
  | startup =>
    refine decode_header_words rfl fun h hh => ?_
    obtain ⟨ho, hz⟩ := (bareHeader_iff (by decide)).1 hh
    simp [decodeHeader, ho, headerOnly, hz]
  | runCycle =>
    refine decode_header_words rfl fun h hh => ?_
    obtain ⟨ho, hz⟩ := (bareHeader_iff (by decide)).1 hh
    simp [decodeHeader, ho, headerOnly, hz]
  | reset =>
    refine decode_header_words rfl fun h hh => ?_
    obtain ⟨ho, hz⟩ := (bareHeader_iff (by decide)).1 hh
    simp [decodeHeader, ho, headerOnly, hz]
  | configSet p v =>
    refine decode_header_words rfl fun h hh => ?_
    obtain ⟨ho, hz, rfl, rfl⟩ := (configHeader_iff (by decide)).1 hh
    simp [decodeHeader, ho, headerOnly, hz]
  | imageRead sel off len =>
    refine decode_header_words rfl fun h hh => ?_
    obtain ⟨ho, hz, rfl, rfl, hn⟩ := (imageHeader_iff (by decide) len.isLt).1 hh
    simp [decodeHeader, ho, headerOnly, hz, BitVec.toNat_inj.1 hn]
  | imageWrite sel off bs =>
    refine decode_header_words rfl fun h hh => ?_
    obtain ⟨ho, hz, rfl, rfl, hn⟩ := (imageHeader_iff (by decide) (of_decide_eq_true he)).1 hh
    have hd := takeData_eq_ok.2 ⟨hn.symm, (rfl : dataWords bs ++ rest = dataWords bs ++ rest)⟩
    simp [decodeHeader, ho, decodeImageWrite, hz, hd]

/-! ## Decoding and then encoding -/

/-- What a decoder of the header `h` and the words `r` answers is spelled `h :: r`. -/
def Canonical (h : Word) (r : List Word) (x : Except DecodeErr (Instr × List Word)) : Prop :=
  ∀ i rest, x = .ok (i, rest) → i.encodable = true ∧ h :: r = encode i ++ rest

namespace Canonical

variable {h : Word} {r : List Word}

theorem ite {c : Prop} [Decidable c] {x y : Except DecodeErr (Instr × List Word)} (hx : c → Canonical h r x)
    (hy : Canonical h r y) : Canonical h r (if c then x else y) := by
  split_ifs with hc
  · exact hx hc
  · exact hy

theorem error (e : DecodeErr) : Canonical h r (.error e) := nofun

theorem alone {rs : List (Nat × Nat)} {i : Instr} {w : Word} (he : encode i = [w]) (hi : i.encodable = true)
    (hw : zeros h rs = true → h = w) : Canonical h r (headerOnly h rs i r) :=
  ite (fun hz j rest hj => by cases hj; rw [he, ← hw hz]; exact ⟨hi, rfl⟩) (error _)

theorem access {mk : BitVec 5 → Descriptor → Instr} {opc : Nat} (ho : opcode h = opc) (hb : opc < 2 ^ 8)
    (he : ∀ m d, encode (mk m d) = header opc (m.toNat * 2 ^ 40) :: descWords d)
    (hi : ∀ m d, (mk m d).encodable = d.encodable) : Canonical h r (decodeAccess mk h r) := by
  refine ite (fun hz i rest hd => ?_) (error _)
  split at hd <;> cases hd
  case h_1 d hr =>
    obtain ⟨hde, rfl⟩ := takeDesc_eq_some.1 hr
    rw [hi, he, ← (accessHeader_iff hb).2 ⟨ho, hz, rfl⟩]
    exact ⟨hde, rfl⟩

section Calls

variable {row : Nat} (ho : opcode h = 0x30) (hz : zeros h [(48, 4), (16, 16)] = true)
  (hrow : (bits h 52 4).toNat = row)
include ho hz hrow

theorem header_call {n : Nat} (hn : (bits h 0 16).toNat = n) : callHeader row (bits h 32 16).toNat n = h :=
  ((callHeader_iff (by omega) (by omega)).2 ⟨ho, hz, hrow, rfl, hn⟩).symm

theorem raw {mk : BitVec 16 → BitVec 16 → Descriptor → Instr}
    (he : ∀ m n t, encode (mk m n t) = callHeader row m.toNat n.toNat :: descWords t)
    (hi : ∀ m n t, (mk m n t).encodable = t.encodable) : Canonical h r (decodeRaw mk h r) := by
  intro i rest hd
  unfold decodeRaw at hd
  split at hd <;> cases hd
  case h_2 t hr =>
    obtain ⟨hte, rfl⟩ := takeDesc_eq_some.1 hr
    rw [hi, he, header_call ho hz hrow rfl]
    exact ⟨hte, rfl⟩

theorem call {mk : BitVec 16 → Descriptor → List Param → Instr}
    (he : ∀ m t pl, encode (mk m t pl) = callHeader row m.toNat pl.length :: (descWords t ++ paramWords pl))
    (hi : ∀ m t pl, (mk m t pl).encodable = (t.encodable && paramsEncodable pl)) : Canonical h r (decodeCall mk h r) := by
  intro i rest hd
  unfold decodeCall at hd
  split at hd
  case h_1 => cases hd
  case h_2 t r1 hr =>
    split at hd <;> cases hd
    case h_2 pl hr1 =>
      obtain ⟨hte, rfl⟩ := takeDesc_eq_some.1 hr
      obtain ⟨hl, hpe, rfl⟩ := takeParams_encodable hr1
      rw [hi, he, header_call ho hz hrow hl.symm, hte, hpe, ← List.append_assoc]
      exact ⟨rfl, rfl⟩

theorem callFb {mk : BitVec 16 → Descriptor → Descriptor → List Param → Instr}
    (he : ∀ m t x pl, encode (mk m t x pl) = callHeader row m.toNat pl.length :: (descWords t ++ descWords x ++ paramWords pl))
    (hi : ∀ m t x pl, (mk m t x pl).encodable = (t.encodable && x.encodable && paramsEncodable pl)) :
    Canonical h r (decodeCallFb mk h r) := by
  intro i rest hd
  unfold decodeCallFb at hd
  split at hd
  case h_1 => cases hd
  case h_2 t r1 hr =>
    split at hd
    case h_1 => cases hd
    case h_2 x r2 hx =>
      split at hd <;> cases hd
      case h_2 pl hr2 =>
        obtain ⟨hte, rfl⟩ := takeDesc_eq_some.1 hr
        obtain ⟨hxe, rfl⟩ := takeDesc_eq_some.1 hx
        obtain ⟨hl, hpe, rfl⟩ := takeParams_encodable hr2
        rw [hi, he, header_call ho hz hrow hl.symm, hte, hxe, hpe, ← List.append_assoc, ← List.append_assoc]
        exact ⟨rfl, rfl⟩

end Calls

theorem callRow (ho : opcode h = 0x30) : Canonical h r (decodeCallRow h r) := by
  unfold decodeCallRow
  exact .ite (fun hz =>
    .ite (fun hr => .call ho hz hr (fun _ _ _ => rfl) fun _ _ _ => rfl) <|
    .ite (fun hr => .call ho hz hr (fun _ _ _ => rfl) fun _ _ _ => rfl) <|
    .ite (fun hr => .callFb ho hz hr (fun _ _ _ _ => rfl) fun _ _ _ _ => rfl) <|
    .ite (fun hr => .callFb ho hz hr (fun _ _ _ _ => rfl) fun _ _ _ _ => rfl) <|
    .ite (fun hr => .call ho hz hr (fun _ _ _ => rfl) fun _ _ _ => rfl) <|
    .ite (fun hr => .call ho hz hr (fun _ _ _ => rfl) fun _ _ _ => rfl) <|
    .ite (fun hr => .raw ho hz hr (fun _ _ _ => rfl) fun _ _ _ => rfl) <|
    .ite (fun hr => .raw ho hz hr (fun _ _ _ => rfl) fun _ _ _ => rfl) <|
    .ite (fun hr => .raw ho hz hr (fun _ _ _ => rfl) fun _ _ _ => rfl) <|
    .ite (fun hr => .raw ho hz hr (fun _ _ _ => rfl) fun _ _ _ => rfl) <|
    .ite (fun hr => .raw ho hz hr (fun _ _ _ => rfl) fun _ _ _ => rfl) <|
    .ite (fun hr => .raw ho hz hr (fun _ _ _ => rfl) fun _ _ _ => rfl) <|
    .error _) (.error _)

theorem imageWrite (ho : opcode h = 0x85) : Canonical h r (decodeImageWrite h r) := by
  refine ite (fun hz i rest hd => ?_) (error _)
  split at hd <;> cases hd
  case h_2 bs hr =>
    obtain ⟨hl, rfl⟩ := takeData_eq_ok.1 hr
    have hn : bs.length < 2 ^ 16 := hl ▸ (bits h 0 16).isLt
    rw [encode, ← (imageHeader_iff (by decide) hn).2 ⟨ho, hz, rfl, rfl, hl.symm⟩]
    exact ⟨decide_eq_true hn, rfl⟩

/-- Each opcode's decoder checks all that the encoder fixes (R153, R154). -/
theorem decodeHeader : Canonical h r (decodeHeader h r) := by
  unfold Sys2Proof.decodeHeader
  exact
    .ite (fun ho => .access ho (by decide) (fun _ _ => rfl) fun _ _ => rfl) <|
    .ite (fun ho => .access ho (by decide) (fun _ _ => rfl) fun _ _ => rfl) <|
    .ite (fun ho => .alone rfl rfl fun hz => (regHeader_iff (by decide)).2 ⟨ho, hz, rfl⟩) <|
    .ite (fun ho => .alone rfl rfl fun hz => (regHeader_iff (by decide)).2 ⟨ho, hz, rfl⟩) <|
    .ite (fun ho => .alone rfl rfl fun hz => (openDbHeader_iff (by decide)).2 ⟨ho, hz, rfl, rfl⟩) <|
    .ite (fun ho => .alone rfl rfl fun hz => (stwHeader_iff (by decide)).2 ⟨ho, hz, rfl, rfl⟩) <|
    .ite (fun ho => .alone rfl rfl fun hz => (ccHeader_iff (by decide)).2 ⟨ho, hz, rfl, rfl, rfl⟩) <|
    .ite (fun ho => .alone rfl rfl fun hz => (tcHeader_iff (by decide)).2 ⟨ho, hz, rfl, rfl, rfl, rfl⟩) <|
    .ite (fun ho => .alone rfl rfl fun hz => (jumpHeader_iff (by decide)).2 ⟨ho, hz, rfl⟩) <|
    .ite (fun ho => .alone rfl rfl fun hz => (jumpHeader_iff (by decide)).2 ⟨ho, hz, rfl⟩) <|
    .ite (fun ho => .alone rfl rfl fun hz => (bareHeader_iff (by decide)).2 ⟨ho, hz⟩) <|
    .ite (fun ho => .alone rfl rfl fun hz => (parenHeader_iff (by decide)).2 ⟨ho, hz, rfl⟩) <|
    .ite (fun ho => .alone rfl rfl fun hz => (bareHeader_iff (by decide)).2 ⟨ho, hz⟩) <|
    .ite (fun ho => .alone rfl rfl fun hz => (mcrHeader_iff (by decide)).2 ⟨ho, hz, rfl⟩) <|
    .ite (fun ho => .alone rfl rfl fun hz => (bareHeader_iff (by decide)).2 ⟨ho, hz⟩) <|
    .ite (fun ho => .alone rfl rfl fun hz => (bareHeader_iff (by decide)).2 ⟨ho, hz⟩) <|
    .ite (fun ho => .callRow ho) <|
    .ite (fun ho => .alone rfl rfl fun hz => (bareHeader_iff (by decide)).2 ⟨ho, hz⟩) <|
    .ite (fun ho => .alone rfl rfl fun hz => (bareHeader_iff (by decide)).2 ⟨ho, hz⟩) <|
    .ite (fun ho => .alone rfl rfl fun hz => (bareHeader_iff (by decide)).2 ⟨ho, hz⟩) <|
    .ite (fun ho => .alone rfl rfl fun hz => (configHeader_iff (by decide)).2 ⟨ho, hz, rfl, rfl⟩) <|
    .ite (fun ho => .alone rfl rfl fun hz => (imageHeader_iff (by decide) (bits h 0 16).isLt).2 ⟨ho, hz, rfl, rfl, rfl⟩) <|
    .ite (fun ho => .imageWrite ho) <|
    .error _

end Canonical

/-- Settles O2: a header with no words is truncated, and every opcode's decoder is canonical. -/
theorem decodeCanonical : Obligations.DecodeCanonical := by
  intro ws i rest hd
  cases ws with
  | nil => cases hd
  | cons h r => exact Canonical.decodeHeader i rest hd

end Sys2Proof

/-! PROOFS. The codec of operand descriptors (30_encoding R160 to R165): the fields of a descriptor word, the decoder of each tag and of each
indirect target held to the encoder, and the encodings that are refused by name (R153, R351). -/

namespace Sys2Proof

/-! ## The codes of the fields -/

theorem encodeWidth_le (wd : Width) : encodeWidth wd ≤ 4 := by
  cases wd <;> decide

theorem decodeWidth_eq_some {c : BitVec 3} {wd : Width} : decodeWidth c = some wd ↔ c.toNat = encodeWidth wd := by
  cases wd <;> revert c <;> decide

theorem decodeView_encodeView (v : StwView) : decodeView (encodeView v) = some v := by
  cases v <;> rfl

theorem decodeRefKind_encodeRefKind (k : RefKind) : decodeRefKind (encodeRefKind k) = some k := by
  rcases k with (_ | _ | _ | _ | _) | _ <;> rfl

theorem encodeRefKind_le (k : RefKind) : encodeRefKind k ≤ 5 := by
  rcases k with (_ | _ | _ | _ | _) | _ <;> decide

theorem encodeView_le (v : StwView) : encodeView v ≤ 7 := by
  cases v <;> decide

/-- What an answer of a decoder satisfies, when there is one. -/
def Yields {α : Type} (x : Option α) (P : α → Prop) : Prop := ∀ a, x = some a → P a

namespace Yields

variable {α β : Type} {P : α → Prop}

theorem none : Yields (Option.none : Option α) P := nofun

theorem some {a : α} (h : P a) : Yields (Option.some a) P := fun _ e => by cases e; exact h

theorem ite {c : Prop} [Decidable c] {x y : Option α} (hx : c → Yields x P) (hy : Yields y P) :
    Yields (if c then x else y) P := by
  split_ifs with hc
  · exact hx hc
  · exact hy

theorem onlyIf {c : Bool} {a : α} (h : c = true → P a) : Yields (onlyIf c a) P := ite (fun hc => some (h hc)) none

theorem map {x : Option β} {Q : β → Prop} {f : β → α} (hx : Yields x Q) (hf : ∀ b, Q b → P (f b)) : Yields (x.map f) P := by
  intro a h
  obtain ⟨b, hb, rfl⟩ := Option.map_eq_some_iff.1 h
  exact hf b (hx b hb)

end Yields

theorem decodeView_yields (sub : Nat) : Yields (decodeView sub) fun v => encodeView v = sub := by
  unfold decodeView
  exact
    .ite (fun h => .some h.symm) <| .ite (fun h => .some h.symm) <| .ite (fun h => .some h.symm) <|
    .ite (fun h => .some h.symm) <| .ite (fun h => .some h.symm) <| .ite (fun h => .some h.symm) <|
    .ite (fun h => .some h.symm) <| .ite (fun h => .some h.symm) .none

theorem decodeRefKind_yields (c : Nat) : Yields (decodeRefKind c) fun k => encodeRefKind k = c := by
  unfold decodeRefKind
  exact
    .ite (fun h => .some h.symm) <| .ite (fun h => .some h.symm) <| .ite (fun h => .some h.symm) <|
    .ite (fun h => .some h.symm) <| .ite (fun h => .some h.symm) <| .ite (fun h => .some h.symm) .none

/-- A one-bit field kept as a Boolean. -/
theorem toNat_beq_one {n : Nat} (h : n ≤ 1) : (n == 1).toNat = n := by
  interval_cases n <;> rfl

/-! ## Descriptor words -/

/-- The fields of a descriptor word whose `PAY` is a bit address (R160, R163). -/
theorem eq_descWord_iff {w : Word} {tag sub num pay : Nat} {wd : Width} (ht : tag < 2 ^ 5) (hs : sub < 2 ^ 4) (hn : num < 2 ^ 16)
    (hp : pay < 2 ^ 19) :
    w = descWord tag wd sub num pay ↔ (bits w 59 5).toNat = tag ∧ decodeWidth (bits w 56 3) = some wd ∧ (bits w 52 4).toNat = sub ∧
      (bits w 36 16).toNat = num ∧ (bits w 32 4 = 0 ∧ bits w 19 13 = 0) ∧ (bits w 0 19).toNat = pay := by
  have := w.isLt; have := encodeWidth_le wd
  rw [← BitVec.toNat_inj, descWord, BitVec.toNat_ofNat]
  simp only [decodeWidth_eq_some, bits_eq_iff, bits_toNat, Nat.pow_zero, Nat.div_one, BitVec.ofNat_eq_ofNat, BitVec.toNat_ofNat, Nat.zero_mod]
  omega

/-- The fields of an immediate's word (R163). -/
theorem eq_immWord_iff {w : Word} {wd : Width} {v : Data} :
    w = encodePrim (.imm wd v) ↔ (bits w 59 5).toNat = 0 ∧ decodeWidth (bits w 56 3) = some wd ∧ bits w 48 8 = 0 ∧ bits w 0 48 = v := by
  have := w.isLt; have := encodeWidth_le wd; have := v.isLt
  rw [← BitVec.toNat_inj, encodePrim, BitVec.toNat_ofNat]
  simp only [decodeWidth_eq_some, bits_eq_iff, bits_toNat, Nat.pow_zero, Nat.div_one, BitVec.ofNat_eq_ofNat, BitVec.toNat_ofNat, Nat.zero_mod]
  omega

theorem isInd_iff {w : Word} : isInd w = true ↔ (bits w 59 5).toNat = 15 := by
  rw [isInd, beq_iff_eq, ← BitVec.toNat_inj]; rfl

theorem isInd_descWord {tag sub num pay : Nat} {wd : Width} (ht : tag < 2 ^ 5) (hs : sub < 2 ^ 4) (hn : num < 2 ^ 16)
    (hp : pay < 2 ^ 19) : isInd (descWord tag wd sub num pay) = true ↔ tag = 15 := by
  obtain ⟨h, -⟩ := (eq_descWord_iff (wd := wd) ht hs hn hp).1 rfl
  rw [isInd_iff, h]

/-! ## One-word operands -/

/-- The decoded operand's fields lie in their ranges and `w` is its word. -/
def Operand.SpelledBy (w : Word) (o : Operand) : Prop := o.wellFormed = true ∧ encodeOperand o = w

/-- An operand whose only field is its address. -/
theorem yields_address {o : Operand} {tag sub : Nat} {wd : Width} {num : BitVec 16} {ba : BitAddr} (hw : o.wellFormed = true)
    (he : encodeOperand o = descWord tag wd 0 0 ba.toNat) :
    Yields (onlyIf (sub == 0 && num == 0) o) (Operand.SpelledBy (descWord tag wd sub num.toNat ba.toNat)) := by
  refine .onlyIf fun hc => ⟨hw, ?_⟩
  obtain ⟨rfl, rfl⟩ : sub = 0 ∧ num = 0 := by simpa using hc
  exact he

theorem decodeQual_yields {tag sub : Nat} {wd : Width} {num : BitVec 16} {ba : BitAddr} :
    Yields (decodeQual sub num) fun q => dbWord tag wd q ba = descWord tag wd sub num.toNat ba.toNat := by
  unfold decodeQual
  refine .ite (fun hs => .onlyIf fun hn => ?_) (.ite (fun hs => .some ?_) .none)
  · rw [hs, beq_iff_eq.1 hn]
    rfl
  · rw [hs]
    rfl

theorem stw_spelledBy {sub : Nat} {wd : Width} {v : StwView} {ba : BitAddr} (hv : encodeView v = sub)
    (hb : ba.toNat ≤ if v = .raw ∧ wd = .w1 then 8 else 0) :
    Operand.SpelledBy (descWord 11 wd sub 0 ba.toNat) (.prim (.stw wd v (Fin.ofNat 9 ba.toNat))) := by
  have h8 : ba.toNat ≤ 8 := hb.trans (by split_ifs <;> omega)
  have hval : (Fin.ofNat 9 ba.toNat).val = ba.toNat := Nat.mod_eq_of_lt (by omega)
  refine ⟨?_, ?_⟩
  · split_ifs at hb with hc
    · simp [Operand.wellFormed, Prim.wellFormed, hc]
    · simp [Operand.wellFormed, Prim.wellFormed, Nat.le_zero.1 hb]
  · rw [encodeOperand, encodePrim, hv, hval]

/-- Every tag's decoder checks all that the encoder fixes (R163). -/
theorem decodeTagged_yields {wd : Width} {tag sub : Nat} {num : BitVec 16} {ba : BitAddr} :
    Yields (decodeTagged wd tag sub num ba) (Operand.SpelledBy (descWord tag wd sub num.toNat ba.toNat)) := by
  unfold decodeTagged
  refine
    .ite (fun ht => ht ▸ yields_address rfl rfl) <| .ite (fun ht => ht ▸ yields_address rfl rfl) <|
    .ite (fun ht => ht ▸ yields_address rfl rfl) <| .ite (fun ht => ht ▸ yields_address rfl rfl) <|
    .ite (fun ht => ht ▸ yields_address rfl rfl) <|
    .ite (fun ht => ht ▸ .map decodeQual_yields fun q hq => ⟨rfl, hq⟩) <|
    .ite (fun ht => ht ▸ .map decodeQual_yields fun q hq => ⟨rfl, hq⟩) <|
    .ite (fun ht => .onlyIf fun hc => ?timer) <| .ite (fun ht => .onlyIf fun hc => ?counter) <|
    .ite (fun ht => .onlyIf fun hc => ?periph) <| .ite (fun ht => ?stw) <|
    .ite (fun ht => .onlyIf fun hc => ?ar) <| .ite (fun ht => ?blk) <|
    .ite (fun ht => .onlyIf fun hc => ?field) .none
  case timer | counter =>
    obtain ⟨hs, rfl⟩ : sub ≤ 1 ∧ ba = 0 := by simpa using hc
    subst ht
    refine ⟨rfl, ?_⟩
    rw [encodeOperand, encodePrim, toNat_beq_one hs]
    rfl
  case periph =>
    obtain ⟨hs, rfl⟩ : sub ≤ 1 ∧ num = 0 := by simpa using hc
    subst ht
    refine ⟨rfl, ?_⟩
    rw [encodeOperand, encodePrim, toNat_beq_one hs]
    rfl
  case stw =>
    subst ht
    split
    · exact .none
    · rename_i v hv
      refine .onlyIf fun hc => ?_
      obtain ⟨rfl, hb⟩ : num = 0 ∧ ba.toNat ≤ if v = .raw ∧ wd = .w1 then 8 else 0 := by simpa using hc
      exact stw_spelledBy (decodeView_yields sub v hv) hb
  case ar =>
    obtain ⟨⟨hs, rfl⟩, rfl⟩ : ((sub = 1 ∨ sub = 2) ∧ num = 0) ∧ ba = 0 := by simpa using hc
    subst ht
    rcases hs with rfl | rfl <;> exact ⟨rfl, rfl⟩
  case blk =>
    subst ht
    split
    · exact .none
    · rename_i k hk
      refine .onlyIf fun hc => ⟨rfl, ?_⟩
      rw [encodeOperand, encodePrim, decodeRefKind_yields sub k hk, beq_iff_eq.1 hc]
      rfl
  case field =>
    rw [ht, beq_iff_eq.1 hc]
    exact ⟨rfl, rfl⟩

/-- A word other than an immediate's is decoded by its tag (R161, R163). -/
theorem decodeOperand_of_eq_descWord {w : Word} {wd : Width} {tag sub : Nat} {num : BitVec 16} {ba : BitAddr}
    (hw : w = descWord tag wd sub num.toNat ba.toNat) (h0 : tag ≠ 0) (ht : tag < 2 ^ 5) (hs : sub < 2 ^ 4) :
    decodeOperand w = decodeTagged wd tag sub num ba := by
  obtain ⟨htag, hwd, hsub, hnum, hz, hpay⟩ := (eq_descWord_iff ht hs num.isLt ba.isLt).1 hw
  simp only [decodeOperand, hwd, htag, h0, ↓reduceIte, hz, hsub, BitVec.toNat_inj.1 hnum, BitVec.toNat_inj.1 hpay, and_self]

theorem decodeOperand_of_eq_immWord {w : Word} {wd : Width} {v : Data} (hw : w = encodePrim (.imm wd v))
    (hv : v.toNat < 2 ^ wd.bits) : decodeOperand w = some (.prim (.imm wd v)) := by
  obtain ⟨htag, hwd, hz, hpay⟩ := eq_immWord_iff.1 hw
  simp only [decodeOperand, hwd, htag, ↓reduceIte, hz, hpay, onlyIf, hv, decide_true, beq_self_eq_true, Bool.and_self]

theorem decodeOperand_of_eq_stwWord {w : Word} {wd : Width} {v : StwView} {b : Fin 9}
    (hw : w = descWord 11 wd (encodeView v) 0 b.val) (h : (Prim.stw wd v b).wellFormed = true) :
    decodeOperand w = some (.prim (.stw wd v b)) := by
  have hb : (BitVec.ofNat 19 b.val).toNat = b.val := Nat.mod_eq_of_lt (by omega)
  have hf : Fin.ofNat 9 b.val = b := Fin.ext (Nat.mod_eq_of_lt b.isLt)
  have hle : b.val ≤ if v = .raw ∧ wd = .w1 then 8 else 0 := by
    simp only [Prim.wellFormed, Bool.or_eq_true, Bool.and_eq_true, decide_eq_true_eq] at h
    split_ifs with hc
    · omega
    · rw [h.resolve_right hc]
      rfl
  have hv := encodeView_le v
  rw [← hb] at hw
  rw [decodeOperand_of_eq_descWord (num := 0) hw (by decide) (by decide) (by omega)]
  simp only [decodeTagged, Nat.reduceEqDiff, ↓reduceIte, decodeView_encodeView, hb, hf, hle, onlyIf, decide_true, beq_self_eq_true,
    Bool.and_self]

/-- The word of an operand decodes to it (R163). -/
theorem decodeOperand_of_spelledBy {w : Word} {o : Operand} (h : o.SpelledBy w) : decodeOperand w = some o := by
  obtain ⟨hwf, he⟩ := h
  cases o with
  | field wd k s =>
    rw [decodeOperand_of_eq_descWord he.symm (by decide) (by decide) (by decide)]
    simp [decodeTagged, onlyIf]
  | prim p =>
    cases p with
    | imm wd v => exact decodeOperand_of_eq_immWord he.symm (of_decide_eq_true hwf)
    | input wd ba | output wd ba | flag wd ba | loc wd ba | parentLoc wd ba =>
      rw [decodeOperand_of_eq_descWord (num := 0) he.symm (by decide) (by decide) (by decide)]
      simp [decodeTagged, onlyIf]
    | db wd q ba | di wd q ba =>
      cases q with
      | none =>
        rw [decodeOperand_of_eq_descWord (num := 0) he.symm (by decide) (by decide) (by decide)]
        simp [decodeTagged, decodeQual, onlyIf]
      | some n =>
        rw [decodeOperand_of_eq_descWord he.symm (by decide) (by decide) (by decide)]
        simp [decodeTagged, decodeQual]
    | timer wd b i | counter wd b i =>
      have hb := b.toNat_lt
      rw [decodeOperand_of_eq_descWord (ba := 0) he.symm (by decide) (by decide) (by omega)]
      cases b <;> simp [decodeTagged, onlyIf]
    | periph wd b ba =>
      have hb := b.toNat_lt
      rw [decodeOperand_of_eq_descWord (num := 0) he.symm (by decide) (by decide) (by omega)]
      cases b <;> simp [decodeTagged, onlyIf]
    | stw wd v b => exact decodeOperand_of_eq_stwWord he.symm hwf
    | ar wd n =>
      cases n
      all_goals
        rw [decodeOperand_of_eq_descWord (num := 0) (ba := 0) he.symm (by decide) (by decide) (by decide)]
        simp [decodeTagged, onlyIf]
    | blk wd k n =>
      have hk := encodeRefKind_le k
      rw [decodeOperand_of_eq_descWord (ba := 0) he.symm (by decide) (by decide) (by omega)]
      simp [decodeTagged, decodeRefKind_encodeRefKind, onlyIf]

theorem decodeOperand_yields (w : Word) : Yields (decodeOperand w) (Operand.SpelledBy w) := by
  unfold decodeOperand
  split
  · exact .none
  · rename_i wd hwd
    refine .ite (fun ht => .onlyIf fun hc => ?_) (.ite (fun hz => ?_) .none)
    · obtain ⟨hz, hv⟩ := Bool.and_eq_true_iff.1 hc
      exact ⟨hv, (eq_immWord_iff.2 ⟨ht, hwd, beq_iff_eq.1 hz, rfl⟩).symm⟩
    · have hw := (eq_descWord_iff (bits w 59 5).isLt (bits w 52 4).isLt (bits w 36 16).isLt (bits w 0 19).isLt).2
        ⟨rfl, hwd, rfl, rfl, hz, rfl⟩
      have hy := decodeTagged_yields (wd := wd) (tag := (bits w 59 5).toNat) (sub := (bits w 52 4).toNat) (num := bits w 36 16)
        (ba := bits w 0 19)
      rwa [← hw] at hy

/-- A word decodes to an operand exactly when it is the word of that operand (R160 to R163, R165). -/
theorem decodeOperand_eq_some {w : Word} {o : Operand} : decodeOperand w = some o ↔ o.SpelledBy w :=
  ⟨decodeOperand_yields w o, decodeOperand_of_spelledBy⟩

/-- No one-word operand has the tag of an indirect one (R161). -/
theorem isInd_encodeOperand (o : Operand) : isInd (encodeOperand o) = false := by
  have plain : ∀ {tag sub num pay wd}, tag < 15 → sub < 2 ^ 4 → num < 2 ^ 16 → pay < 2 ^ 19 →
      isInd (descWord tag wd sub num pay) = false := fun ht hs hn hp =>
    Bool.eq_false_iff.2 (mt (isInd_descWord (by omega) hs hn hp).1 (by omega))
  cases o with
  | field wd k s => exact plain (by decide) (by decide) k.isLt s.isLt
  | prim p =>
    cases p with
    | imm wd v =>
      have ht := (eq_immWord_iff.1 (Eq.refl (encodePrim (.imm wd v)))).1
      exact Bool.eq_false_iff.2 fun h => by rw [encodeOperand, isInd_iff, ht] at h; cases h
    | input wd ba | output wd ba | flag wd ba | loc wd ba | parentLoc wd ba =>
      exact plain (by decide) (by decide) (by decide) ba.isLt
    | db wd q ba | di wd q ba =>
      cases q with
      | none => exact plain (by decide) (by decide) (by decide) ba.isLt
      | some n => exact plain (by decide) (by decide) n.isLt ba.isLt
    | timer wd b i | counter wd b i =>
      have hb := b.toNat_lt
      exact plain (by decide) (by omega) i.isLt (by decide)
    | periph wd b ba =>
      have hb := b.toNat_lt
      exact plain (by decide) (by omega) (by decide) ba.isLt
    | stw wd v b =>
      have hv := encodeView_le v
      exact plain (by decide) (by omega) (by decide) (by omega)
    | ar wd n => cases n <;> exact plain (by decide) (by decide) (by decide) (by decide)
    | blk wd k n =>
      have hk := encodeRefKind_le k
      exact plain (by decide) (by omega) n.isLt (by decide)

/-! ## Indirect operands -/

/-- The displacement that an indirect target allows: 0 for timers, counters and blocks (R164). -/
def IndTarget.admits (disp : BitAddr) : IndTarget → Bool
  | .timer _ | .counter _ | .blk _ => disp == 0
  | .input | .output | .flag | .loc | .parentLoc | .db | .di | .periph _ | .crossing => true

theorem wellFormed_ind {wd : Width} {t : IndTarget} {disp : BitAddr} {o : Operand} :
    (Desc.ind wd t disp o).wellFormed = true ↔ t.admits disp = true ∧ o.wellFormed = true := by
  have h : (Desc.ind wd t disp o).wellFormed = (t.admits disp && o.wellFormed) := by cases t <;> rfl
  rw [h, Bool.and_eq_true]

theorem encodeTarget_lt (t : IndTarget) : (encodeTarget t).1 < 2 ^ 4 ∧ (encodeTarget t).2 < 2 ^ 16 := by
  cases t with
  | timer b | counter b | periph b => cases b <;> decide
  | blk k =>
    have hk := encodeRefKind_le k
    exact ⟨(by decide : 13 < 2 ^ 4), by rw [encodeTarget]; omega⟩
  | _ => decide

/-- Every target's decoder checks all that the encoder fixes (R164). -/
theorem decodeTarget_yields {tgt tsub : Nat} {disp : BitAddr} :
    Yields (decodeTarget tgt tsub disp) fun t => t.admits disp = true ∧ encodeTarget t = (tgt, tsub) := by
  unfold decodeTarget
  refine
    .ite (fun ht => .onlyIf fun hc => ?_) <| .ite (fun ht => .onlyIf fun hc => ?_) <| .ite (fun ht => .onlyIf fun hc => ?_) <|
    .ite (fun ht => .onlyIf fun hc => ?_) <| .ite (fun ht => .onlyIf fun hc => ?_) <| .ite (fun ht => .onlyIf fun hc => ?_) <|
    .ite (fun ht => .onlyIf fun hc => ?_) <| .ite (fun ht => .onlyIf fun hc => ?timer) <|
    .ite (fun ht => .onlyIf fun hc => ?counter) <| .ite (fun ht => .onlyIf fun hc => ?periph) <|
    .ite (fun ht => ?blk) <| .ite (fun ht => .onlyIf fun hc => ?_) .none
  case timer | counter =>
    obtain ⟨hs, rfl⟩ : tsub ≤ 1 ∧ disp = 0 := by simpa using hc
    exact ⟨rfl, by rw [encodeTarget, toNat_beq_one hs, ht]⟩
  case periph => exact ⟨rfl, by rw [encodeTarget, toNat_beq_one (of_decide_eq_true hc), ht]⟩
  case blk =>
    split
    · exact .none
    · rename_i k hk
      exact .onlyIf fun hc => ⟨hc, by rw [encodeTarget, decodeRefKind_yields tsub k hk, ht]⟩
  all_goals exact ⟨rfl, by rw [ht, beq_iff_eq.1 hc]; rfl⟩

theorem decodeTarget_encodeTarget {t : IndTarget} {disp : BitAddr} (h : t.admits disp = true) :
    decodeTarget (encodeTarget t).1 (encodeTarget t).2 disp = some t := by
  cases t with
  | timer b | counter b =>
    have hd : disp = 0 := beq_iff_eq.1 h
    cases b <;> simp [decodeTarget, encodeTarget, onlyIf, hd]
  | periph b => cases b <;> simp [decodeTarget, encodeTarget, onlyIf]
  | blk k =>
    have hd : disp = 0 := beq_iff_eq.1 h
    simp [decodeTarget, encodeTarget, decodeRefKind_encodeRefKind, onlyIf, hd]
  | _ => rfl

/-- Word 0 of an indirect operand decodes exactly to the fields it is written from (R164). -/
theorem decodeIndWord_eq_some {w : Word} {wd : Width} {t : IndTarget} {disp : BitAddr} (hi : isInd w = true) :
    decodeIndWord w = some (wd, t, disp) ↔
      t.admits disp = true ∧ descWord 15 wd (encodeTarget t).1 (encodeTarget t).2 disp.toNat = w := by
  obtain ⟨htgt, htsub⟩ := encodeTarget_lt t
  constructor
  · intro h
    unfold decodeIndWord at h
    split at h
    · cases h
    · rename_i wd' hwd
      split_ifs at h with hz
      obtain ⟨t', ht, he⟩ := Option.map_eq_some_iff.1 h
      cases he
      obtain ⟨ha, he⟩ := decodeTarget_yields t ht
      refine ⟨ha, Eq.symm ?_⟩
      rw [he]
      exact (eq_descWord_iff (by decide) (bits w 52 4).isLt (bits w 36 16).isLt (bits w 0 19).isLt).2
        ⟨isInd_iff.1 hi, hwd, rfl, rfl, hz, rfl⟩
  · rintro ⟨ha, hw⟩
    obtain ⟨-, hwd, hsub, hnum, hz, hpay⟩ := (eq_descWord_iff (by decide) htgt htsub disp.isLt).1 hw.symm
    simp only [decodeIndWord, hwd, hz, and_self, ↓reduceIte, hsub, hnum, BitVec.toNat_inj.1 hpay, decodeTarget_encodeTarget ha,
      Option.map_some]

/-! ## Descriptors -/

theorem encodable_encodeDesc (D : Desc) : (encodeDesc D).encodable = true := by
  cases D with
  | direct o => simp [encodeDesc, Descriptor.encodable, isInd_encodeOperand]
  | ind wd t disp o =>
    obtain ⟨htgt, htsub⟩ := encodeTarget_lt t
    simp [encodeDesc, Descriptor.encodable, isInd_descWord (wd := wd) (by decide : 15 < 2 ^ 5) htgt htsub disp.isLt]

theorem decodeDesc_one {w : Word} (hw : isInd w = false) {D : Desc} :
    decodeDesc ⟨w, none⟩ = .ok D ↔ D.wellFormed = true ∧ encodeDesc D = ⟨w, none⟩ := by
  rw [decodeDesc, if_neg (Bool.eq_false_iff.1 hw)]
  constructor
  · intro h
    split at h <;> cases h
    case h_1 o ho =>
      obtain ⟨hwf, he⟩ := decodeOperand_eq_some.1 ho
      exact ⟨hwf, by rw [encodeDesc, he]⟩
  · rintro ⟨hwf, he⟩
    cases D with
    | direct o => rw [decodeOperand_eq_some.2 ⟨hwf, congrArg Descriptor.w0 he⟩]
    | ind wd t disp o => cases congrArg Descriptor.w1 he

theorem decodeDesc_two {w w1 : Word} (hw : isInd w = true) {D : Desc} :
    decodeDesc ⟨w, some w1⟩ = .ok D ↔ D.wellFormed = true ∧ encodeDesc D = ⟨w, some w1⟩ := by
  rw [decodeDesc, if_pos hw]
  constructor
  · intro h
    split at h
    case h_2 => cases h
    case h_1 wd t disp w1' hi hw1 =>
      cases hw1
      split_ifs at h with hn
      split at h <;> cases h
      case h_1 o ho =>
        obtain ⟨ha, h0⟩ := (decodeIndWord_eq_some hw).1 hi
        obtain ⟨hwf, h1⟩ := decodeOperand_eq_some.1 ho
        exact ⟨wellFormed_ind.2 ⟨ha, hwf⟩, by rw [encodeDesc, h0, h1]⟩
  · rintro ⟨hwf, he⟩
    cases D with
    | direct o => cases congrArg Descriptor.w1 he
    | ind wd t disp o =>
      obtain ⟨ha, hof⟩ := wellFormed_ind.1 hwf
      obtain ⟨h0, h1⟩ := Descriptor.mk.inj he
      have hi := (decodeIndWord_eq_some hw).2 ⟨ha, h0⟩
      have ho := decodeOperand_eq_some.2 ⟨hof, Option.some.inj h1⟩
      have hn : isInd w1 = false := Option.some.inj h1 ▸ isInd_encodeOperand o
      simp only [hi, hn, ho, Bool.false_eq_true, ↓reduceIte]

/-- Settles O3: a descriptor is one word or two, as its tag asks, and each word decodes exactly to what is written in it. -/
theorem descCodec : Obligations.DescCodec := by
  refine ⟨encodable_encodeDesc, fun d D hd => ?_⟩
  obtain ⟨w, _ | w1⟩ := d
  · exact decodeDesc_one (by simpa [Descriptor.encodable] using hd)
  · exact decodeDesc_two (by simpa [Descriptor.encodable] using hd)

/-! ## Encodings refused by name -/

theorem decodeHeader_reservedOpcode {h : Word} {r : List Word}
    (ho : opcode h ∉ [0x01, 0x02, 0x10, 0x11, 0x12, 0x13, 0x14, 0x15, 0x20, 0x21, 0x22, 0x23, 0x24, 0x25, 0x26, 0x27, 0x30,
      0x80, 0x81, 0x82, 0x83, 0x84, 0x85]) : decodeHeader h r = .error .reservedOpcode := by
  simp only [List.mem_cons, List.not_mem_nil, or_false, not_or] at ho
  simp only [decodeHeader, ho, ↓reduceIte]

/-- SHAPE is the row without its lowest bit, SYS (R351). -/
theorem decodeHeader_reservedShape {h : Word} {r : List Word} (ho : opcode h = 0x30) (h1 : bits h 48 4 = 0) (h2 : bits h 16 16 = 0)
    (hs : 6 ≤ (bits h 53 3).toNat) : decodeHeader h r = .error .reservedShape := by
  have hz : zeros h [(48, 4), (16, 16)] = true := by
    rw [zeros_cons, zeros_cons]
    exact ⟨bits_eq_iff.1 h1, bits_eq_iff.1 h2, zeros_nil h⟩
  have hrow : 12 ≤ (bits h 52 4).toNat := by
    rw [bits_toNat] at hs ⊢
    omega
  have hne : ∀ k, k < 12 → (bits h 52 4).toNat ≠ k := by omega
  simp [decodeHeader, ho, decodeCallRow, hz, hne]

theorem decodeTagged_reserved {wd : Width} {tag sub : Nat} {num : BitVec 16} {ba : BitAddr} (h : 15 ≤ tag) :
    decodeTagged wd tag sub num ba = none := by
  have hne : ∀ k, k < 15 → tag ≠ k := by omega
  simp [decodeTagged, hne]

theorem decodeWidth_reserved {c : BitVec 3} (h : 5 ≤ c.toNat) : decodeWidth c = none := by
  refine Option.eq_none_iff_forall_ne_some.2 fun wd hwd => ?_
  have := encodeWidth_le wd
  rw [decodeWidth_eq_some] at hwd
  omega

theorem decodeDesc_unknownTag {d : Descriptor} (h0 : isInd d.w0 = true → decodeIndWord d.w0 = none)
    (h1 : isInd d.w0 = false → decodeOperand d.w0 = none) : decodeDesc d = .error .unknownTag := by
  unfold decodeDesc
  split_ifs with hi
  · rw [h0 hi]
  · rw [h1 (Bool.eq_false_iff.2 hi)]

theorem decodeDesc_reservedTag {d : Descriptor} (h : 16 ≤ (bits d.w0 59 5).toNat) : decodeDesc d = .error .unknownTag := by
  refine decodeDesc_unknownTag (fun hi => ?_) fun _ => ?_
  · rw [isInd_iff] at hi
    omega
  · have h0 : (bits d.w0 59 5).toNat ≠ 0 := by omega
    simp only [decodeOperand, h0, ↓reduceIte, decodeTagged_reserved (by omega : 15 ≤ (bits d.w0 59 5).toNat), ite_self]
    split <;> rfl

theorem decodeDesc_reservedWidth {d : Descriptor} (h : 5 ≤ (bits d.w0 56 3).toNat) : decodeDesc d = .error .unknownTag :=
  decodeDesc_unknownTag (fun _ => by rw [decodeIndWord, decodeWidth_reserved h]) fun _ => by
    rw [decodeOperand, decodeWidth_reserved h]

/-- Settles O4: no branch of a decoder answers a reserved code. -/
theorem reservedEncodings : Obligations.ReservedEncodings := by
  refine ⟨fun h r ho => decodeHeader_reservedOpcode ho, fun h r ho h1 h2 hs => decodeHeader_reservedShape ho h1 h2 hs,
    fun d h => decodeDesc_reservedTag h, fun d h => decodeDesc_reservedWidth h, fun d w1 x hi hx h1 hi1 => ?_⟩
  rw [decodeDesc, if_pos hi, hx, h1]
  exact if_pos hi1

/-! ## Words of the tables -/

/-- Settles O5: each word is decoded field by field. -/
theorem decodeWords : Obligations.DecodeWords := by
  unfold Obligations.DecodeWords
  decide

end Sys2Proof

/-! PROOFS. When a command may come and what one that may not come does (43_dispatch_loop R422, R427); REG_WRITE (41_status_cc R316). -/

namespace Sys2Proof.Machine

open Sys2Proof

/-! ## Which class a command runs in -/

/-- A command of class H runs as a host command (R153). -/
theorem exec_of_host {i : Instr} (h : isHostCommand i = true) : ∃ k, ∀ s, exec i s = hostCmd s k := by
  cases i with
  | startup | runCycle | reset | configSet _ _ | imageRead _ _ _ | imageWrite _ _ _ => exact ⟨_, fun _ => rfl⟩
  | _ => cases h

/-- Every other command runs as a micro-command (R153). -/
theorem exec_of_micro {i : Instr} (h : isHostCommand i = false) : ∃ k, ∀ s, exec i s = microCmd s k := by
  cases i with
  | startup | runCycle | reset | configSet _ _ | imageRead _ _ _ | imageWrite _ _ _ => cases h
  | stwWrite _ _ | ccSet _ _ _ | jumpRel _ | blockEnd | mcrState =>
    simp only [exec, execStwWrite, execCcSet, execJumpRel, execBlockEnd, execMcrState]
    exact ⟨_, fun _ => rfl⟩
  | _ => exact ⟨_, fun _ => rfl⟩

theorem microCmd_idle {s : State} (hp : s.phase = .idle) (k : Frame → CodeBlock → State → Res Data) :
    microCmd s k = .next (s.refuse .illegalCommand) := by
  rw [microCmd, if_pos hp]

theorem microCmd_called {s : State} (hp : s.phase ≠ .idle) (hc : s.step.called = true) (k : Frame → CodeBlock → State → Res Data) :
    microCmd s k = .next (s.faultWith (.exec .commandAfterCall) none) := by
  rw [microCmd, if_neg hp, if_pos hc, State.faultWith]

theorem hostCmd_called {s : State} (hp : s.phase ≠ .idle) (hc : s.step.called = true) (k : State → State) :
    hostCmd s k = .next (s.faultWith (.exec .commandAfterCall) none) := by
  rw [hostCmd, if_neg hp, if_pos hc, State.faultWith]

theorem hostCmd_reentry {s : State} (hp : s.phase ≠ .idle) (hc : s.step.called = false) (k : State → State) :
    hostCmd s k = .next (s.faultWith (.exec .reentry) none) := by
  rw [hostCmd, if_neg hp, if_neg (Bool.eq_false_iff.1 hc), State.faultWith]

theorem exec_called {i : Instr} {s : State} (hp : s.phase ≠ .idle) (hc : s.step.called = true) :
    exec i s = .next (s.faultWith (.exec .commandAfterCall) none) := by
  cases hi : isHostCommand i with
  | true =>
    obtain ⟨k, hk⟩ := exec_of_host hi
    rw [hk, hostCmd_called hp hc]
  | false =>
    obtain ⟨k, hk⟩ := exec_of_micro hi
    rw [hk, microCmd_called hp hc]

/-! ## Steps that run no command -/

theorem step_waits {s : State} (hp : s.phase = .idle) (hc : s.env.commands = []) : step s = .next s := by
  simp only [step, hp, ↓reduceIte, idleStep, hc]

theorem step_refuses {s : State} {ws : List Word} {r : List (List Word)} {e : DecodeErr} (hp : s.phase = .idle)
    (hc : s.env.commands = ws :: r) (hd : decode ws = .error e) :
    step s = .next (({ s with env := { s.env with commands := r } } : State).refuse .illegalCommand) := by
  simp only [step, hp, ↓reduceIte, idleStep, hc, hd]

theorem step_illegalMicro {s : State} {run : BodyRun} {c : BodyCmd} {e : DecodeErr} (hp : s.phase ≠ .idle)
    (hb : s.body = some run) (hn : run.insn.next run.replies = some c) (hd : decode c.words = .error e) :
    step s = .next (illegalMicro c.words { s with din := c.din }) := by
  simp only [step, hp, ↓reduceIte, hb, bodyStep, hn, hd]

/-- Settles O7: the steps that run no command, then the two classes of command against phase and CALLED. -/
theorem commandDiscipline : Obligations.CommandDiscipline := by
  refine ⟨fun s => step_waits, fun s ws r e => step_refuses, fun s run c e => step_illegalMicro, fun i s => exec_called,
    fun i s hi hp hc => ?_, fun i s hi hp => ?_⟩
  · obtain ⟨k, hk⟩ := exec_of_host hi
    rw [hk, hostCmd_reentry hp hc]
  · obtain ⟨k, hk⟩ := exec_of_micro hi
    rw [hk, microCmd_idle hp]

/-! ## REG_WRITE -/

section RegWrite

variable {s : State} {f : Frame} {b : CodeBlock} (hr : s.Running f b)
include hr

/-- A register that can be written takes the data-in value; the answer is 0 (R316). -/
theorem exec_regWrite_ok {r : BitVec 4} {t : State} (h : writeReg r s.din s = .ok () t) :
    exec (.regWrite r) s = .next (t.answer 0) := by
  show execRegWrite r s = _
  unfold execRegWrite
  exact microCmd_ok hr (by rw [h]; rfl)

theorem exec_regWrite_err {r : BitVec 4} {c : Cause} (h : writeReg r s.din s = .err ⟨c, none⟩ s) :
    exec (.regWrite r) s = .next (s.faultWith c none) := by
  show execRegWrite r s = _
  unfold execRegWrite
  exact microCmd_err hr (by rw [h]; rfl)

end RegWrite

theorem writeReg_readOnly {r : BitVec 4} (h7 : 7 ≤ r.toNat) (h11 : r.toNat ≤ 11) (v : Data) (s : State) :
    writeReg r v s = addrErr .readOnly s := by
  have h : r.toNat = 7 ∨ r.toNat = 8 ∨ r.toNat = 9 ∨ r.toNat = 10 ∨ r.toNat = 11 := by omega
  unfold writeReg
  rcases h with h | h | h | h | h <;> simp only [h]

theorem writeReg_reserved {r : BitVec 4} (h : 12 ≤ r.toNat) (v : Data) (s : State) : writeReg r v s = execErr .illegalCommand s := by
  unfold writeReg
  split
  case h_13 => rfl
  all_goals omega

/-- Settles O32: one register for each code that can be written, a raise for every other. -/
theorem regWriteWrites : Obligations.RegWriteWrites := by
  intro s f b hr
  have low32 : s.din.setWidth 32 = s.din.extractLsb' 0 32 := BitVec.setWidth_eq_extractLsb' (by decide)
  have low9 : s.din.setWidth 9 = s.din.extractLsb' 0 9 := BitVec.setWidth_eq_extractLsb' (by decide)
  rw [← low32, ← low9]
  refine ⟨exec_regWrite_ok hr rfl, exec_regWrite_ok hr rfl,
    fun h4 => ⟨exec_regWrite_ok hr ?_, exec_regWrite_ok hr ?_⟩, fun h2 => ⟨exec_regWrite_err hr ?_, exec_regWrite_err hr ?_⟩,
    exec_regWrite_ok hr rfl, exec_regWrite_ok hr rfl, exec_regWrite_ok hr rfl,
    fun r h7 h11 => exec_regWrite_err hr (writeReg_readOnly h7 h11 _ s), fun r h12 => exec_regWrite_err hr (writeReg_reserved h12 _ s)⟩
  · simp [writeReg, State.fourAccus, h4]
  · simp [writeReg, State.fourAccus, h4]
  · simp [writeReg, State.fourAccus, h2, addrErr, raise]
  · simp [writeReg, State.fourAccus, h2, addrErr, raise]

end Sys2Proof.Machine

/-! PROOFS. Who writes the status register, the accumulators and the cells: every command, then every other kind of step (40_dispatcher R245,
41_status_cc R312, 42_calls R392, 44_scheduler R481, R504). -/

namespace Sys2Proof.Machine

open Sys2Proof

/-! ## The registers and the cells -/

/-- The part of the state whose writers are told: the registers and the two cell arrays. -/
def State.held (s : State) : Regs × List Cell × List Cell := (s.regs, s.timers, s.counters)

/-- The four accumulators (R35). -/
def State.accus (s : State) : BitVec 32 × BitVec 32 × BitVec 32 × BitVec 32 :=
  (s.regs.accu1, s.regs.accu2, s.regs.accu3, s.regs.accu4)

/-- The timer and the counter cells (R43). -/
def State.cells (s : State) : List Cell × List Cell := (s.timers, s.counters)

/-- The status register, the accumulators and the cells are as before. -/
structure Unwritten (s t : State) : Prop where
  stw : t.regs.stw = s.regs.stw
  accus : t.accus = s.accus
  cells : t.cells = s.cells

namespace Unwritten

variable {s t u : State}

theorem refl (s : State) : Unwritten s s := ⟨rfl, rfl, rfl⟩

theorem trans (h : Unwritten s t) (k : Unwritten t u) : Unwritten s u :=
  ⟨k.stw.trans h.stw, k.accus.trans h.accus, k.cells.trans h.cells⟩

theorem of_held (h : t.held = s.held) : Unwritten s t :=
  ⟨congrArg (·.1.stw) h, congrArg (fun x => (x.1.accu1, x.1.accu2, x.1.accu3, x.1.accu4)) h, congrArg (·.2) h⟩

end Unwritten

theorem Keeps.accumulators {s t : State} (h : Keeps s t) : t.accus = s.accus :=
  (congrArg State.accus h.rest :)

theorem Keeps.cells {s t : State} (h : Keeps s t) : t.cells = s.cells := (congrArg State.cells h.rest :)

/-- Effects without register writes leave all three alone. -/
theorem Effects.unwritten {w : Bool} {s t : State} (h : Effects w false s t) : Unwritten s t :=
  ⟨by rw [h.regs], h.keeps.accumulators, h.keeps.cells⟩

theorem State.setBlockReg_unwritten (s : State) (di : Bool) (n : BlockNum) : Unwritten s (s.setBlockReg di n) := by
  cases di <;> exact ⟨rfl, rfl, rfl⟩

/-- A CALL writes at most the two data-block registers (R353). -/
theorem CallEnds.unwritten {s : State} {r : Res Data} (h : CallEnds s r) : Unwritten s r.state := by
  cases r with
  | err x u => exact Effects.unwritten h
  | ok v u =>
    obtain ⟨-, w, f, db, di, he, rfl, -⟩ := h
    exact he.unwritten.trans ⟨rfl, rfl, rfl⟩

theorem clockTick_held (s : State) : (clockTick s).held = s.held := by
  obtain ⟨c, m, h⟩ := clockTick_rest s
  rw [h]
  rfl

theorem State.writeClockByte_held (s : State) (v : BitVec 8) : (s.writeClockByte v).held = s.held := by
  rw [State.writeClockByte_eq]
  rfl

/-! ## The two classes of command -/

/-- A micro-command leaves the registers and cells as they are, or as its effect leaves them. -/
theorem microCmd_held {s t : State} {k : Frame → CodeBlock → State → Res Data} (h : microCmd s k = .next t) :
    t.held = s.held ∨ ∃ f b, t.held = (k f b s).state.held := by
  rcases microCmd_next h with ⟨-, rfl⟩ | ⟨-, rfl⟩ | ⟨f, b, -, ⟨v, u, hu, rfl⟩ | ⟨x, u, hu, rfl⟩⟩
  · exact .inl rfl
  · exact .inl rfl
  all_goals exact .inr ⟨f, b, by rw [hu]; rfl⟩

/-- A host command leaves the registers and cells as they are, or as its effect leaves them. -/
theorem hostCmd_held {s t : State} {k : State → State} (h : hostCmd s k = .next t) : t.held = s.held ∨ t = k s := by
  rcases hostCmd_next s k with ⟨-, he⟩ | ⟨-, r, -, he⟩ <;> rw [he] at h <;> cases h
  · exact .inr rfl
  · exact .inl rfl

theorem microCmd_unwritten {s t : State} {k : Frame → CodeBlock → State → Res Data} (h : microCmd s k = .next t)
    (hk : ∀ f b, Unwritten s (k f b s).state) : Unwritten s t := by
  rcases microCmd_held h with h | ⟨f, b, h⟩
  · exact .of_held h
  · exact (hk f b).trans (.of_held h)

theorem microCmd_effects_unwritten {s t : State} {k : Frame → CodeBlock → State → Res Data} (h : microCmd s k = .next t)
    (hk : ∀ f b, Effects true false s (k f b s).state) : Unwritten s t := microCmd_unwritten h fun f b => (hk f b).unwritten

theorem microCmd_call_unwritten {s t : State} {k : Frame → CodeBlock → State → Res Data} (h : microCmd s k = .next t)
    (hk : ∀ f b, CallEnds s (k f b s)) : Unwritten s t := microCmd_unwritten h fun f b => (hk f b).unwritten

/-! ## The commands -/

/-- A command that may write the status register, an accumulator or a cell. -/
def writesHeld : Instr → Bool
  | .store _ _ | .regWrite _ | .stwWrite _ _ | .ccSet _ _ _ | .tcOp _ _ _ _ => true
  | .startup | .runCycle | .reset | .configSet _ _ => true
  | .fetch _ _ | .regRead _ | .openDb _ _ | .jumpRel _ | .jumpLabel _ | .blockEnd => false
  | .parenPush _ | .parenPop | .mcrPush _ | .mcrPop | .mcrState | .imageRead _ _ _ | .imageWrite _ _ _ => false
  | .callFc _ _ _ | .callFcSys _ _ _ | .callFb _ _ _ _ | .callFbSys _ _ _ _ | .callMi _ _ _ | .callMiSys _ _ _ => false
  | .rawFc _ _ _ | .rawFcSys _ _ _ | .rawFb _ _ _ | .rawFbSys _ _ _ | .rawMi _ _ _ | .rawMiSys _ _ _ => false

theorem imageReadCmd_held (sel : Bool) (off len : BitVec 16) (s : State) : (imageReadCmd sel off len s).held = s.held := by
  unfold imageReadCmd
  dsimp only
  split_ifs <;> rfl

theorem imageWriteCmd_unwritten (sel : Bool) (off : BitVec 16) (data : List Byte) (s : State) :
    Unwritten s (imageWriteCmd sel off data s) := by
  unfold imageWriteCmd
  split_ifs with hsel hrange
  · exact .of_held rfl
  · exact .of_held rfl
  · exact (Effects.mirror (w := true) (r := false) s (Nat.not_lt.1 hrange)).unwritten.trans (.of_held rfl)

theorem execJumpRel_unwritten {d : BitVec 32} {s t : State} (h : execJumpRel d s = .next t) : Unwritten s t :=
  microCmd_unwritten h fun _ _ => .of_held rfl

theorem execJumpLabel_unwritten {l : BitVec 32} {s t : State} (h : execJumpLabel l s = .next t) : Unwritten s t :=
  microCmd_unwritten h fun _ _ => .of_held (by split <;> rfl)

theorem execBlockEnd_unwritten {s t : State} (h : execBlockEnd s = .next t) : Unwritten s t :=
  microCmd_unwritten h fun _ _ => .of_held rfl

theorem execParenPush_unwritten {e : BitVec 16} {s t : State} (h : execParenPush e s = .next t) : Unwritten s t :=
  microCmd_unwritten h fun _ _ => .of_held (by split_ifs <;> rfl)

theorem execParenPop_unwritten {s t : State} (h : execParenPop s = .next t) : Unwritten s t :=
  microCmd_unwritten h fun _ _ => .of_held (by split <;> rfl)

theorem execMcrPush_unwritten {v : Bool} {s t : State} (h : execMcrPush v s = .next t) : Unwritten s t :=
  microCmd_unwritten h fun _ _ => .of_held (by split_ifs <;> rfl)

theorem execMcrPop_unwritten {s t : State} (h : execMcrPop s = .next t) : Unwritten s t :=
  microCmd_unwritten h fun _ _ => .of_held (by split <;> rfl)

theorem execMcrState_unwritten {s t : State} (h : execMcrState s = .next t) : Unwritten s t :=
  microCmd_unwritten h fun _ _ => .of_held rfl

/-- Every command but the nine that `writesHeld` lists leaves all three alone. -/
theorem exec_unwritten {i : Instr} {s t : State} (hi : writesHeld i = false) (h : exec i s = .next t) : Unwritten s t := by
  cases i with
  | store _ _ | regWrite _ | stwWrite _ _ | ccSet _ _ _ | tcOp _ _ _ _ | startup | runCycle | reset | configSet _ _ => cases hi
  | fetch m d =>
    change execFetch m d s = _ at h
    exact microCmd_effects_unwritten h fun _ _ => .withOpnd d (.bind (.checkedDesc m d s) fun D u _ => .fetchOp D u)
  | regRead r =>
    change execRegRead r s = _ at h
    exact microCmd_effects_unwritten h fun _ _ => .bind (.readReg r s.topIp s) fun _ u _ => .refl u
  | openDb sel n =>
    change execOpenDb sel n s = _ at h
    refine microCmd_unwritten h fun _ _ => ?_
    split_ifs
    · exact .refl s
    · exact s.setBlockReg_unwritten sel n
  | jumpRel d => exact execJumpRel_unwritten h
  | jumpLabel l => exact execJumpLabel_unwritten h
  | blockEnd => exact execBlockEnd_unwritten h
  | parenPush e => exact execParenPush_unwritten h
  | parenPop => exact execParenPop_unwritten h
  | mcrPush v => exact execMcrPush_unwritten h
  | mcrPop => exact execMcrPop_unwritten h
  | mcrState => exact execMcrState_unwritten h
  | callFc m d pl => exact microCmd_call_unwritten h fun _ _ => callFcOp_ends false m d pl s
  | callFcSys m d pl => exact microCmd_call_unwritten h fun _ _ => callFcOp_ends true m d pl s
  | callFb m d x pl => exact microCmd_call_unwritten h fun _ _ => callFbOp_ends false m d x pl s
  | callFbSys m d x pl => exact microCmd_call_unwritten h fun _ _ => callFbOp_ends true m d x pl s
  | callMi m d pl => exact microCmd_call_unwritten h fun _ _ => callMiOp_ends false m d pl s
  | callMiSys m d pl => exact microCmd_call_unwritten h fun _ _ => callMiOp_ends true m d pl s
  | rawFc m n d => exact microCmd_call_unwritten h fun _ _ => rawFcOp_ends false m n d s
  | rawFcSys m n d => exact microCmd_call_unwritten h fun _ _ => rawFcOp_ends true m n d s
  | rawFb m n d => exact microCmd_call_unwritten h fun _ _ => rawFbOp_ends false m n d s
  | rawFbSys m n d => exact microCmd_call_unwritten h fun _ _ => rawFbOp_ends true m n d s
  | rawMi m n d => exact microCmd_call_unwritten h fun _ _ => rawMiOp_ends false m n d s
  | rawMiSys m n d => exact microCmd_call_unwritten h fun _ _ => rawMiOp_ends true m n d s
  | imageRead sel off len =>
    rcases hostCmd_held h with h | rfl
    · exact .of_held h
    · exact .of_held (imageReadCmd_held sel off len s)
  | imageWrite sel off data =>
    rcases hostCmd_held h with h | rfl
    · exact .of_held h
    · exact imageWriteCmd_unwritten sel off data s

/-! ### The writers -/

/-- A write through the port writes an accumulator for codes 0 to 3 and the status register for code 6 (R316). -/
theorem writeReg_writes (r : BitVec 4) (v : Data) (s : State) :
    (writeReg r v s).state.cells = s.cells ∧ ((writeReg r v s).state.accus = s.accus ∨ r.toNat < 4) ∧
      ((writeReg r v s).state.regs.stw = s.regs.stw ∨ r.toNat = 6) := by
  unfold writeReg
  split
  case h_3 h | h_4 h => split_ifs <;> exact ⟨rfl, .inr (by omega), .inl rfl⟩
  case h_1 h | h_2 h => exact ⟨rfl, .inr (by omega), .inl rfl⟩
  case h_7 h => exact ⟨rfl, .inl rfl, .inr h⟩
  all_goals exact ⟨rfl, .inl rfl, .inl rfl⟩

/-- REG_WRITE writes what its register code names (R316). -/
theorem execRegWrite_writes {r : BitVec 4} {s t : State} (h : execRegWrite r s = .next t) :
    t.cells = s.cells ∧ (t.accus = s.accus ∨ r.toNat < 4) ∧ (t.regs.stw = s.regs.stw ∨ r.toNat = 6) := by
  rcases microCmd_held h with h | ⟨-, -, h⟩
  · have same := Unwritten.of_held h
    exact ⟨same.cells, .inl same.accus, .inl same.stw⟩
  · rw [Res.state_bind_ok] at h
    have after := Unwritten.of_held h
    obtain ⟨hcells, haccus, hstw⟩ := writeReg_writes r s.din s
    exact ⟨after.cells.trans hcells, haccus.imp_left after.accus.trans, hstw.imp_left after.stw.trans⟩

/-- STW_WRITE and CC_SET write the status register alone (R310, R311). -/
theorem setStw_writes {s t : State} {v : State → BitVec 9}
    (h : microCmd s (fun _ _ s => .ok 0 (s.setStw (v s))) = .next t) : t.cells = s.cells ∧ t.accus = s.accus := by
  have hk : ∃ x, t.held = (s.setStw x).held := by
    rcases microCmd_held h with h | ⟨-, -, h⟩
    · exact ⟨s.regs.stw, h⟩
    · exact ⟨v s, h⟩
  obtain ⟨x, hx⟩ := hk
  exact ⟨(Unwritten.of_held hx).cells, (Unwritten.of_held hx).accus⟩

/-- TC_OP writes no register (R331). -/
theorem execTcOp_regs {sel : Bool} {i : BitVec 16} {op : BitVec 8} {a : BitVec 16} {s t : State}
    (h : execTcOp sel i op a s = .next t) : t.regs = s.regs := by
  rcases microCmd_held h with h | ⟨-, -, h⟩
  · exact congrArg (·.1) h
  · refine (congrArg (·.1) h).trans ?_
    dsimp only
    split_ifs
    · rfl
    · exact State.setCell_regs _ _ _ _

theorem startupCmd_cells (s : State) : (startupCmd s).cells = s.cells := by
  unfold startupCmd
  split_ifs
  · rfl
  · rw [startupRun_writes]; rfl
  · rw [startupRun_writes]; rfl
  · rfl

theorem runCycleCmd_cells (s : State) : (runCycleCmd s).cells = s.cells := by
  unfold runCycleCmd
  split_ifs
  · rfl
  · rfl
  · exact congrArg (·.2) (clockTick_held _)

/-- A setting that re-allocates nothing writes no register and no cell (R500, R505). -/
theorem configSetCmd_held {p : BitVec 4} (hp : ¬ p.toNat ≤ 5) (v : Data) (s : State) : (configSetCmd p v s).held = s.held := by
  unfold configSetCmd clockRelocate
  dsimp only
  split_ifs
  · rfl
  · exact State.writeClockByte_held _ _
  · rfl
  · rfl
  · rfl

/-- CONFIG_SET writes a register or a cell only when it re-allocates. -/
theorem execConfigSet_writes {p : BitVec 4} {v : Data} {s t : State} (h : execConfigSet p v s = .next t) :
    Unwritten s t ∨ p.toNat ≤ 5 := by
  by_cases hp : p.toNat ≤ 5
  · exact .inr hp
  · rcases hostCmd_held h with h | rfl
    · exact .inl (.of_held h)
    · exact .inl (.of_held (configSetCmd_held hp v s))

/-- STORE has the effects of a store (R201). -/
theorem execStore_effects (m : BitVec 5) (d : Descriptor) (s : State) :
    Effects true true s ((((checkedDesc m d s).bind fun D s => storeOp D s.din s).withOpnd d).bind fun _ s => Res.ok (0 : Data) s).state :=
  .bind (.withOpnd d (.bind (.checkedDesc m d s) fun D u _ => .storeOp D u.din u)) fun _ u _ => .refl u

theorem execStore_writes {m : BitVec 5} {d : Descriptor} {s t : State} (h : execStore m d s = .next t) :
    t.accus = s.accus ∧ t.cells = s.cells := by
  rcases microCmd_held h with h | ⟨-, -, h⟩
  · exact ⟨(Unwritten.of_held h).accus, (Unwritten.of_held h).cells⟩
  · have kept := (execStore_effects m d s).keeps
    exact ⟨(Unwritten.of_held h).accus.trans kept.accumulators, (Unwritten.of_held h).cells.trans kept.cells⟩

/-! ### Who writes an accumulator, who a cell -/

theorem exec_accus {i : Instr} {s t : State} (h : exec i s = .next t) :
    t.accus = s.accus ∨ (∃ r, i = .regWrite r ∧ r.toNat < 4) ∨ resetsRegisters i := by
  cases i with
  | store m d => exact .inl (execStore_writes h).1
  | regWrite r => exact (execRegWrite_writes h).2.1.imp_right fun hr => .inl ⟨r, rfl, hr⟩
  | stwWrite m v => exact .inl (setStw_writes (v := fun s => stwMasked s.regs.stw m v) h).2
  | ccSet a1 a0 o => exact .inl (setStw_writes (v := fun s => stwCcSet s.regs.stw a1 a0 o) h).2
  | tcOp sel i op a => exact .inl (by rw [State.accus, execTcOp_regs h, ← State.accus])
  | startup => exact .inr (.inr (.inl rfl))
  | runCycle => exact .inr (.inr (.inr (.inl rfl)))
  | reset => exact .inr (.inr (.inr (.inr (.inl rfl))))
  | configSet p v =>
    exact (execConfigSet_writes h).imp Unwritten.accus fun hp => .inr (.inr (.inr (.inr ⟨p, v, rfl, hp⟩)))
  | _ => exact .inl (exec_unwritten rfl h).accus

theorem exec_cells {i : Instr} {s t : State} (h : exec i s = .next t) :
    t.cells = s.cells ∨ (∃ sel idx op arg, i = .tcOp sel idx op arg) ∨ i = .reset ∨ ∃ p v, i = .configSet p v ∧ p.toNat ≤ 5 := by
  cases i with
  | store m d => exact .inl (execStore_writes h).2
  | regWrite r => exact .inl (execRegWrite_writes h).1
  | stwWrite m v => exact .inl (setStw_writes (v := fun s => stwMasked s.regs.stw m v) h).1
  | ccSet a1 a0 o => exact .inl (setStw_writes (v := fun s => stwCcSet s.regs.stw a1 a0 o) h).1
  | tcOp sel i op a => exact .inr (.inl ⟨sel, i, op, a, rfl⟩)
  | startup =>
    rcases hostCmd_held h with h | rfl
    · exact .inl (Unwritten.of_held h).cells
    · exact .inl (startupCmd_cells s)
  | runCycle =>
    rcases hostCmd_held h with h | rfl
    · exact .inl (Unwritten.of_held h).cells
    · exact .inl (runCycleCmd_cells s)
  | reset => exact .inr (.inr (.inl rfl))
  | configSet p v => exact (execConfigSet_writes h).imp Unwritten.cells fun hp => .inr (.inr ⟨p, v, rfl, hp⟩)
  | _ => exact .inl (exec_unwritten rfl h).cells

/-! ## The other steps -/

theorem endTopLevel_held (s : State) : (endTopLevel s).held = s.held := by
  unfold endTopLevel
  split
  · exact (clockTick_held s.readClock)
  · rfl
  · rfl

/-- The pop leaves the registers and cells as its copy-back leaves them (R390). -/
theorem popFrame_held {f : Frame} {b : CodeBlock} {s t : State} (h : popFrame f b s = .next t) :
    t.held = (copyBackIfDue f b (restoreRegs f { s with cs := s.cs.dropLast })).state.held := by
  unfold popFrame at h
  dsimp only at h
  split at h <;> rename_i hr <;> rw [hr] <;> cases h
  · rfl
  · split_ifs
    · exact endTopLevel_held _
    · rfl

theorem restoreRegs_unwritten (f : Frame) (s : State) : Unwritten s (restoreRegs f s) := by
  unfold restoreRegs
  split
  · exact ⟨rfl, rfl, rfl⟩
  · exact .refl s

theorem restoreRegs_cs (f : Frame) (s : State) : (restoreRegs f s).cs = s.cs := by
  unfold restoreRegs
  split <;> rfl

theorem countInsn_held (s : State) : (countInsn s).state.held = s.held := by
  rcases countInsn_state s with he | he <;> rw [he]
  · rfl
  · exact clockTick_held _

theorem advance_held {s : State} {r : Res Unit} (h : advance s = .ok r) : r.state.held = s.held := by
  cases hf : s.cs[s.step.e]? with
  | none => unfold advance at h; rw [hf] at h; cases h
  | some f =>
    rw [advance_frame hf] at h
    split_ifs at h <;> cases h <;> rfl

theorem endInsn_held {s t : State} (h : endInsn s = .next t) : t.held = s.held := by
  unfold endInsn at h
  dsimp only at h
  split at h
  · cases h
  · rename_i r hr
    have hc : (r.bind fun _ s => countInsn s).state.held = s.held := by
      have ha : r.state.held = (s.emit _).held := advance_held hr
      cases r with
      | ok a u => exact (countInsn_held u).trans ha
      | err x u => exact ha
    split at h <;> rename_i hu <;> cases h <;> rw [hu] at hc <;> exact hc

/-- A step runs a command, in the state that differs in the host's queue or in the data-in value only; or it pops the top frame; or it
leaves the registers and cells alone (R30, R421, R422). -/
theorem step_kinds {s t : State} (h : step s = .next t) :
    (∃ i u, s.Runs i ∧ exec i u = .next t ∧ u.held = s.held ∧ u.cs = s.cs) ∨
    (s.phase ≠ .idle ∧ s.body = none ∧ ∃ f b, s.top = some f ∧ s.codeOf f = some b ∧ popFrame f b s = .next t) ∨
    t.held = s.held := by
  unfold step at h
  split at h
  · rename_i hp
    unfold idleStep at h
    split at h
    · cases h; exact .inr (.inr rfl)
    · rename_i ws r hws
      dsimp only at h
      split at h
      · rename_i i rest hd
        exact .inl ⟨i, _, .inl ⟨hp, ws, r, rest, hws, hd⟩, h, rfl, rfl⟩
      · cases h; exact .inr (.inr rfl)
  · rename_i hp
    split at h
    · rename_i hbody
      unfold beginInsn at h
      split at h
      · cases h
      · rename_i f hf
        split at h
        · cases h
        · rename_i b hb
          split at h
          · exact .inr (.inl ⟨hp, hbody, f, b, hf, hb, h⟩)
          · cases h; exact .inr (.inr rfl)
    · rename_i run hbody
      unfold bodyStep at h
      split at h
      · exact .inr (.inr (endInsn_held h))
      · rename_i c hc
        dsimp only at h
        split at h
        · rename_i i rest hd
          exact .inl ⟨i, _, .inr ⟨hp, run, c, rest, hbody, hc, hd⟩, h, rfl, rfl⟩
        · cases h; exact .inr (.inr rfl)

/-- A pop changes no accumulator and no cell: its copy-back has the effects of its stores (R390 to R392). -/
theorem popFrame_keeps {f : Frame} {b : CodeBlock} {s t : State} (h : popFrame f b s = .next t) :
    t.accus = s.accus ∧ t.cells = s.cells := by
  have restored := restoreRegs_unwritten f { s with cs := s.cs.dropLast }
  have kept := (Effects.copyBackIfDue f b (restoreRegs f { s with cs := s.cs.dropLast })).keeps
  have popped := Unwritten.of_held (popFrame_held h)
  exact ⟨(popped.accus.trans kept.accumulators).trans restored.accus, (popped.cells.trans kept.cells).trans restored.cells⟩

/-- Settles O21: no step but a command's writes them, and a command's writes are its own. -/
theorem accuAndCellWriters : Obligations.AccuAndCellWriters := by
  intro s t h
  have writer : ∀ {i u}, exec i u = .next t → u.held = s.held →
      (t.accus = s.accus ∨ (∃ r, i = .regWrite r ∧ r.toNat < 4) ∨ resetsRegisters i) ∧
      (t.cells = s.cells ∨ (∃ sel idx op arg, i = .tcOp sel idx op arg) ∨ i = .reset ∨ ∃ p v, i = .configSet p v ∧ p.toNat ≤ 5) :=
    fun hi hu => ⟨(exec_accus hi).imp_left (·.trans (Unwritten.of_held hu).accus),
      (exec_cells hi).imp_left (·.trans (Unwritten.of_held hu).cells)⟩
  rcases step_kinds h with ⟨i, u, hruns, hi, hu, -⟩ | ⟨-, -, f, b, -, -, hpop⟩ | hheld
  · obtain ⟨haccus, hcells⟩ := writer hi hu
    exact ⟨fun hne => ⟨i, hruns, haccus.resolve_left hne⟩, fun hne => ⟨i, hruns, hcells.resolve_left hne⟩⟩
  · obtain ⟨haccus, hcells⟩ := popFrame_keeps hpop
    exact ⟨absurd haccus, absurd hcells⟩
  · have same := Unwritten.of_held hheld
    exact ⟨absurd same.accus, absurd same.cells⟩

/-! ## The status register -/

/-- Only a STORE to the raw status register changes it (R245). -/
theorem storePrim_stw_view {w : Width} {k : StwView} {i : Fin 9} {v : Data} {s : State}
    (h : (storePrim (.stw w k i) v s).state.regs.stw ≠ s.regs.stw) : k = .raw := by
  by_contra hk
  refine h ?_
  simp only [storePrim, storeStw, if_neg hk]
  split_ifs <;> rfl

/-- Another width makes no operand a status-register operand. -/
theorem Prim.withWidth_eq_stw {p : Prim} {w w' : Width} {k : StwView} {i : Fin 9} (h : Prim.withWidth w p = .stw w' k i) :
    ∃ w'', p = .stw w'' k i := by
  cases p <;> cases h
  exact ⟨_, rfl⟩

/-- A live operand that resolves to a status-register operand is that operand, and has no sub-offset (R270). -/
theorem bindingPrim_stw {p : Prim} {off : Nat} {s u : State} {w : Width} {k : StwView} {i : Fin 9}
    (h : bindingPrim p off s = .ok (.opnd (.stw w k i)) u) : off = 0 ∧ p = .stw w k i := by
  cases p with
  | input w' ba | output w' ba | flag w' ba | periph w' o ba =>
    obtain ⟨a, t, -, h⟩ := Res.bind_ok h
    cases h
  | stw w' k' i' =>
    simp only [bindingPrim] at h
    split_ifs at h with h0
    · cases h
    · cases h
      exact ⟨not_not.1 h0, rfl⟩
  | _ =>
    simp only [bindingPrim] at h
    split_ifs at h <;> cases h

theorem bindingLoc_stw {y : Binding} {off : Nat} {s u : State} {w : Width} {k : StwView} {i : Fin 9}
    (h : bindingLoc y off s = .ok (.opnd (.stw w k i)) u) : off = 0 ∧ y = .loc (.stw w k i) := by
  cases y with
  | const w' v | dbLoc n ba | frameLocal j ba => simp only [bindingLoc] at h; split_ifs at h <;> cases h
  | loc p =>
    obtain ⟨h0, rfl⟩ := bindingPrim_stw h
    exact ⟨h0, rfl⟩

/-- The field of a function that resolves to a status-register operand is bound to it (R262, R270). -/
theorem fcField_stw {g : Frame} {n : BitVec 16} {fd : Field} {off : Nat} {s u : State} {w : Width} {k : StwView} {i : Fin 9}
    (h : fcField g n fd off s = .ok (.opnd (.stw w k i)) u) :
    off = 0 ∧ g.raw = false ∧ g.bind.lookup n = some (.loc (.stw w k i)) := by
  unfold fcField at h
  split_ifs at h with hstat hraw
  · cases h
  · cases h
  · split at h
    · cases h
    · rename_i y hy
      obtain ⟨h0, rfl⟩ := bindingLoc_stw h
      exact ⟨h0, Bool.eq_false_iff.2 hraw, hy⟩

/-- No field of a function block is an operand (R263, R264). -/
theorem fbField_ne_opnd {g : Frame} {fd : Field} {off : Nat} {s u : State} {p : Prim} : fbField g fd off s ≠ .ok (.opnd p) u := by
  intro h
  unfold fbField fbAggregate at h
  dsimp only at h
  split_ifs at h
  · obtain ⟨ptr, t, -, h⟩ := Res.bind_ok h
    split_ifs at h <;> cases h
  · cases h
  · cases h

/-- A field that resolves to a status-register operand is a bound one of an FC-like frame, without sub-offset (R262, R270). -/
theorem resolveField_stw {n : BitVec 16} {sub : BitAddr} {s u : State} {w : Width} {k : StwView} {i : Fin 9}
    (h : resolveField n sub s = .ok (.opnd (.stw w k i)) u) :
    sub = 0 ∧ ∃ g, s.top = some g ∧ g.cls = .fclike ∧ g.raw = false ∧ g.bind.lookup n = some (.loc (.stw w k i)) := by
  unfold resolveField at h
  split at h
  · cases h
  · rename_i g hg
    split at h
    · cases h
    · split_ifs at h
      · cases h
      · cases h
      · split at h
        · rename_i hcls
          obtain ⟨h0, hraw, hbind⟩ := fcField_stw h
          exact ⟨BitVec.eq_of_toNat_eq h0, g, hg, hcls, hraw, hbind⟩
        · exact absurd h fbField_ne_opnd

/-- What a pointer resolves to is made by its target from the pointer and an address (R250 to R252). -/
theorem resolvePointer_made {inner : Operand} {disp : BitAddr} {form : BitVec 32 → Bool} {mk : BitVec 32 → BitAddr → Prim} {s u : State}
    {q : Prim} (h : resolvePointer inner disp form mk s = .ok q u) : ∃ p ba, q = mk p ba := by
  unfold resolvePointer at h
  split_ifs at h
  · cases h
  · obtain ⟨v, t, -, h⟩ := Res.bind_ok h
    dsimp only at h
    split_ifs at h
    · obtain ⟨ba, t', -, h⟩ := Res.bind_ok h
      cases h
      exact ⟨_, ba, rfl⟩
    · cases h

/-- What a number resolves to is made by its target from the number (R250). -/
theorem resolveNumber_made {inner : Operand} {mk : BitVec 16 → Prim} {s u : State} {q : Prim}
    (h : resolveNumber inner mk s = .ok q u) : ∃ n, q = mk n := by
  unfold resolveNumber at h
  split_ifs at h
  · cases h
  · obtain ⟨v, t, -, h⟩ := Res.bind_ok h
    cases h
    exact ⟨_, rfl⟩

theorem crossingPrim_ne_stw {dir : AccessDir} {p : BitVec 32} {w w' : Width} {ba : BitAddr} {k : StwView} {i : Fin 9} :
    crossingPrim dir p w ba ≠ .stw w' k i := by
  unfold crossingPrim
  dsimp only
  split_ifs <;> nofun

/-- No indirect operand is the status register (R164). -/
theorem resolveInd_ne_stw {dir : AccessDir} {w w' : Width} {tgt : IndTarget} {disp : BitAddr} {inner : Operand} {s u : State}
    {k : StwView} {i : Fin 9} : resolveInd dir w tgt disp inner s ≠ .ok (.stw w' k i) u := by
  intro h
  cases tgt with
  | timer b | counter b | blk b =>
    simp only [resolveInd] at h
    obtain ⟨n, hq⟩ := resolveNumber_made h
    cases hq
  | crossing =>
    simp only [resolveInd] at h
    obtain ⟨p, ba, hq⟩ := resolvePointer_made h
    exact crossingPrim_ne_stw hq.symm
  | _ =>
    simp only [resolveInd] at h
    obtain ⟨p, ba, hq⟩ := resolvePointer_made h
    cases hq

/-- A STORE that changes the status register ends at the handler of its raw view (R245). -/
theorem storeOperand_writes_stw {o : Operand} {v : Data} {s : State} (h : (storeOperand o v s).state.regs.stw ≠ s.regs.stw) :
    ∃ w i, s.finalPrim o = some (.stw w .raw i) := by
  by_contra hno
  have final : ∃ w k i, s.finalPrim o = some (.stw w k i) := by
    by_contra hne
    exact h (storeOperand_stw (fun w k i hf => hne ⟨w, k, i, hf⟩) v)
  obtain ⟨w, k, i, hf⟩ := final
  rcases storeOperand_cases o v s with ⟨p, hp, -, hs⟩ | ⟨x, ba, w', y, -, hs⟩ | hs <;> rw [hs] at h
  · cases hf.symm.trans hp
    cases storePrim_stw_view h
    exact hno ⟨w, i, hf⟩
  · exact h (Effects.memWrite (rr := false) x ba w' y s).unwritten.stw
  · exact h rfl

/-- A STORE to a descriptor that changes the status register is to a status-register operand (R245, R270, R312). -/
theorem storeOp_writes_stw {d : Descriptor} {D : Desc} {v : Data} {s : State} (hd : decodeDesc d = .ok D)
    (h : (storeOp D v s).state.regs.stw ≠ s.regs.stw) : s.StwOperand d := by
  cases D with
  | direct o =>
    obtain ⟨w, i, hf⟩ := storeOperand_writes_stw h
    cases o with
    | prim p =>
      cases hf
      exact .inl ⟨w, i, hd⟩
    | field w' n sub =>
      simp only [State.finalPrim] at hf
      split at hf
      case h_1 p u hres =>
        obtain ⟨w'', rfl⟩ := Prim.withWidth_eq_stw (Option.some.inj hf)
        obtain ⟨rfl, g, hg, hcls, hraw, hbind⟩ := resolveField_stw hres
        exact .inr ⟨w', n, g, w'', i, hd, hg, hcls, hraw, hbind⟩
      all_goals cases hf
  | ind w tgt disp inner =>
    refine absurd ?_ h
    have resolved := Effects.resolveInd (wr := false) (rr := false) .store w tgt disp inner s
    cases hres : resolveInd .store w tgt disp inner s with
    | err x u =>
      rw [hres] at resolved
      rw [storeOp_ind_err hres]
      exact resolved.unwritten.stw
    | ok q u =>
      rw [hres] at resolved
      have hq : ∀ w k i, u.finalPrim (.prim q) ≠ some (.stw w k i) := fun w k i he => by
        cases he
        exact resolveInd_ne_stw hres
      rw [storeOp_ind hres]
      exact (storeOperand_stw hq v).trans resolved.unwritten.stw

/-- What accesses keep decides which descriptors name the status register. -/
theorem State.StwOperand.of_keeps {s t : State} {d : Descriptor} (k : Keeps s t) (h : t.StwOperand d) : s.StwOperand d := by
  rcases h with h | ⟨w, n, g, w', i, hd, hg, hcls, hraw, hbind⟩
  · exact .inl h
  · refine .inr ?_
    have htop := k.getElem? (s.cs.length - 1)
    rw [State.top, k.depth] at hg
    rcases htop with ⟨-, hn⟩ | ⟨f, l, hf, hl, -⟩
    · rw [hn] at hg; cases hg
    · rw [hl] at hg
      cases hg
      exact ⟨w, n, f, w', i, hd, hf, hcls, hraw, hbind⟩

/-- A parameter that is not copied back is passed over (R392). -/
theorem copyBack_skip {b : CodeBlock} {f : Frame} {k : BitVec 16} {d : Descriptor} {r : List (BitVec 16 × Descriptor)} {s : State}
    (h : ∀ fd, b.field k = some fd → ¬ Field.copiedBack fd) : copyBack b f ((k, d) :: r) s = copyBack b f r s := by
  rw [copyBack]
  cases hk : b.field k with
  | none => rfl
  | some fd =>
    have hc := h fd hk
    unfold Field.copiedBack at hc
    simp only [hc, if_false, Res.bind]

/-- A parameter that is copied back is read from its data block and stored to its actual (R392). -/
theorem copyBack_copied {b : CodeBlock} {f : Frame} {k : BitVec 16} {d : Descriptor} {r : List (BitVec 16 × Descriptor)} {fd : Field}
    (s : State) (hk : b.field k = some fd) (hc : Field.copiedBack fd) :
    copyBack b f ((k, d) :: r) s =
      (memRead (.db f.instDB) (f.instBase + fd.off.toNat) fd.width s).bind fun v s =>
        (decodeArg d s).bind fun D s => (storeOp D v s).bind fun _ s => copyBack b f r s := by
  unfold Field.copiedBack at hc
  simp only [copyBack, hk, hc, and_self, if_true]
  cases memRead (.db f.instDB) (f.instBase + fd.off.toNat) fd.width s with
  | err x u => rfl
  | ok v u =>
    simp only [Res.bind]
    cases decodeArg d u <;> rfl

theorem memRead_ok_state {x : Area} {ba : Nat} {w : Width} {v : Data} {s u : State} (h : memRead x ba w s = .ok v u) : u = s := by
  have hs := memRead_state x ba w s
  rwa [h] at hs

theorem decodeArg_cases (d : Descriptor) (s : State) :
    (∃ D, decodeDesc d = .ok D ∧ decodeArg d s = .ok D s) ∨
      ∃ e, decodeDesc d = .error e ∧ decodeArg d s = addrErr (descReason e) s := by
  unfold decodeArg
  cases hd : decodeDesc d with
  | ok D => exact .inl ⟨D, rfl, rfl⟩
  | error e => exact .inr ⟨e, rfl, rfl⟩

/-- A copy-back that changes the status register copies a parameter back to a status-register operand (R392). -/
theorem copyBack_writes_stw {b : CodeBlock} {f : Frame} : ∀ (ps : List (BitVec 16 × Descriptor)) {s : State},
    (copyBack b f ps s).state.regs.stw ≠ s.regs.stw →
      ∃ k d fd, (k, d) ∈ ps ∧ b.field k = some fd ∧ Field.copiedBack fd ∧ s.StwOperand d := by
  intro ps
  induction ps with
  | nil => intro s h; exact absurd rfl h
  | cons p r ih =>
    obtain ⟨k, d⟩ := p
    intro s h
    have rest : ∀ {u}, Keeps s u → (copyBack b f r u).state.regs.stw ≠ u.regs.stw →
        ∃ k' d' fd, (k', d') ∈ (k, d) :: r ∧ b.field k' = some fd ∧ Field.copiedBack fd ∧ s.StwOperand d' := fun hu hne => by
      obtain ⟨k', d', fd, hmem, hfd, hcopied, hop⟩ := ih hne
      exact ⟨k', d', fd, List.mem_cons_of_mem _ hmem, hfd, hcopied, hop.of_keeps hu⟩
    by_cases hskip : ∀ fd, b.field k = some fd → ¬ Field.copiedBack fd
    · rw [copyBack_skip hskip] at h
      exact rest (Keeps.refl s) h
    · push Not at hskip
      obtain ⟨fd, hk, hcopied⟩ := hskip
      rw [copyBack_copied s hk hcopied] at h
      cases hread : memRead (.db f.instDB) (f.instBase + fd.off.toNat) fd.width s with
      | err x u =>
        have hu := memRead_state (.db f.instDB) (f.instBase + fd.off.toNat) fd.width s
        rw [hread] at h hu
        exact absurd (congrArg (·.regs.stw) hu) h
      | ok v u =>
        obtain rfl := memRead_ok_state hread
        rw [hread, Res.bind] at h
        rcases decodeArg_cases d u with ⟨D, hd, harg⟩ | ⟨e, -, harg⟩ <;> rw [harg] at h
        · rw [Res.bind] at h
          by_cases hstore : (storeOp D v u).state.regs.stw = u.regs.stw
          · have kept := (Effects.storeOp D v u).keeps
            cases hres : storeOp D v u <;> rw [hres] at h hstore kept
            · exact rest kept (by rwa [Res.bind, ← hstore] at h)
            · exact absurd hstore h
          · exact ⟨k, d, fd, List.mem_cons_self, hk, hcopied, storeOp_writes_stw hd hstore⟩
        · exact absurd rfl h

/-- A STORE command that changes the status register is to a status-register operand (R245, R312). -/
theorem execStore_writes_stw {m : BitVec 5} {d : Descriptor} {s t : State} (h : execStore m d s = .next t)
    (hne : t.regs.stw ≠ s.regs.stw) : s.StwOperand d := by
  rcases microCmd_held h with h | ⟨-, -, h⟩
  · exact absurd (Unwritten.of_held h).stw hne
  · rw [Res.state_bind_ok, Res.withOpnd_state] at h
    rw [(Unwritten.of_held h).stw] at hne
    cases hc : checkedDesc m d s with
    | err x u =>
      have checked := Effects.checkedDesc (wr := false) (rr := false) m d s
      rw [hc] at hne checked
      exact absurd checked.unwritten.stw hne
    | ok D u =>
      obtain ⟨hd, rfl⟩ := checkedDesc_inv hc
      rw [hc] at hne
      exact storeOp_writes_stw hd hne

theorem exec_stw {i : Instr} {s t : State} (h : exec i s = .next t) (hne : t.regs.stw ≠ s.regs.stw) :
    (∃ m v, i = .stwWrite m v) ∨ (∃ a1 a0 o, i = .ccSet a1 a0 o) ∨ (∃ m d, i = .store m d ∧ s.StwOperand d) ∨ i = .regWrite 6 ∨
      resetsRegisters i := by
  cases i with
  | store m d => exact .inr (.inr (.inl ⟨m, d, rfl, execStore_writes_stw h hne⟩))
  | regWrite r =>
    have h6 : r = 6 := BitVec.eq_of_toNat_eq ((execRegWrite_writes h).2.2.resolve_left hne)
    exact .inr (.inr (.inr (.inl (h6 ▸ rfl))))
  | stwWrite m v => exact .inl ⟨m, v, rfl⟩
  | ccSet a1 a0 o => exact .inr (.inl ⟨a1, a0, o, rfl⟩)
  | tcOp sel i op a => exact absurd (congrArg Regs.stw (execTcOp_regs h)) hne
  | startup => exact .inr (.inr (.inr (.inr (.inl rfl))))
  | runCycle => exact .inr (.inr (.inr (.inr (.inr (.inl rfl)))))
  | reset => exact .inr (.inr (.inr (.inr (.inr (.inr (.inl rfl))))))
  | configSet p v =>
    have hp := (execConfigSet_writes h).resolve_left fun same => hne same.stw
    exact .inr (.inr (.inr (.inr (.inr (.inr (.inr ⟨p, v, rfl, hp⟩))))))
  | _ => exact absurd (exec_unwritten rfl h).stw hne

/-- A pop that changes the status register copies back to a status-register operand of the caller (R390 to R392). -/
theorem popFrame_writes_stw {f : Frame} {b : CodeBlock} {s t : State} (h : popFrame f b s = .next t) (hne : t.regs.stw ≠ s.regs.stw) :
    f.cls = .fblike ∧ f.raw = false ∧ ∃ k d fd, (k, d) ∈ f.params ∧ b.field k = some fd ∧ Field.copiedBack fd ∧
      ({ s with cs := s.cs.dropLast } : State).StwOperand d := by
  have restored := restoreRegs_unwritten f { s with cs := s.cs.dropLast }
  have hcs := restoreRegs_cs f { s with cs := s.cs.dropLast }
  rw [(Unwritten.of_held (popFrame_held h)).stw, copyBackIfDue] at hne
  split_ifs at hne with hdue
  · obtain ⟨hcls, hraw⟩ := Bool.and_eq_true_iff.1 hdue
    obtain ⟨k, d, fd, hmem, hfd, hcopied, hop⟩ := copyBack_writes_stw f.params fun he => hne (he.trans restored.stw)
    refine ⟨eq_of_beq hcls, by simpa using hraw, k, d, fd, hmem, hfd, hcopied, ?_⟩
    rwa [State.StwOperand, State.top, hcs] at hop
  · exact absurd restored.stw hne

/-- Settles O20: the commands' own writes, and the stores of a copy-back. -/
theorem stwWriters : Obligations.StwWriters := by
  intro s t h hne
  rcases step_kinds h with ⟨i, u, hruns, hi, hu, hcs⟩ | ⟨hp, hbody, f, b, hf, hb, hpop⟩ | hheld
  · have hwrites := exec_stw hi (by rwa [(Unwritten.of_held hu).stw])
    have hop : ∀ d, u.StwOperand d → s.StwOperand d := fun d h => by rwa [State.StwOperand, State.top, hcs] at h
    exact .inl ⟨i, hruns, hwrites.imp_right (.imp_right (.imp_left fun ⟨m, d, hm, hd⟩ => ⟨m, d, hm, hop d hd⟩))⟩
  · obtain ⟨hcls, hraw, hcopy⟩ := popFrame_writes_stw hpop hne
    exact .inr ⟨hp, hbody, f, b, hf, hb, hcls, hraw, hcopy⟩
  · exact absurd (Unwritten.of_held hheld).stw hne

end Sys2Proof.Machine

/-! PROOFS. FETCH and STORE of the operands that are no buffer, of peripherals and of named interface fields (40_dispatcher R200 to R204,
R235 to R247, R260 to R270). -/

namespace Sys2Proof.Machine

open Sys2Proof

/-! ## Direct operands -/

section Direct

variable {s : State} {f : Frame} {b : CodeBlock} {m : BitVec 5} {d : Descriptor} {p : Prim}

/-- FETCH and STORE of a direct operand are those of its handlers. -/
theorem direct_accesses (hr : s.Running f b) (hd : decodeDesc d = .ok (.direct (.prim p))) (hw : widthAllowed m (Prim.width p) = true) :
    s.FetchesAs s m d p ∧ s.StoresAs s m d p :=
  ⟨fetchesAs_of hr hd hw (fetchOp_prim p s), storesAs_of hr hd hw (storeOp_prim p s.din s)⟩

/-- A width outside a non-empty allowed set is not admitted (R155). -/
theorem widthAllowed_eq_false {w : Width} (hm : m ≠ 0) (h : m.getLsbD (encodeWidth w) = false) : widthAllowed m w = false := by
  rw [widthAllowed, beq_eq_false_iff_ne.2 hm, amaskBit, h, Bool.or_self]

end Direct

/-- Settles O42: the check comes before any handler. -/
theorem widthNotAllowed : Obligations.WidthNotAllowed := by
  intro s f b m d D hr hd hm hbit
  have hchecked := checkedDesc_mismatch (s := s) hd (widthAllowed_eq_false hm hbit)
  refine ⟨?_, ?_⟩
  · change execFetch m d s = _
    unfold execFetch
    exact microCmd_err hr (x := ⟨.addr .widthMismatch, some d⟩) (by rw [hchecked]; rfl)
  · change execStore m d s = _
    unfold execStore
    exact microCmd_err hr (x := ⟨.addr .widthMismatch, some d⟩) (by rw [hchecked]; rfl)

/-- Settles O28: the table gives each view, and each case of A1 and A0 one of the four. -/
theorem statusViews : Obligations.StatusViews := by
  refine ⟨fun s f b m d v hr hd hw hv => ?_, fun stw => ?_⟩
  · have reads : s.Reads (.stw .w1 v 0) _ := .inr (.inr (.inl ⟨v, 0, hv, rfl, rfl⟩))
    exact (direct_accesses hr hd hw).1.1 _ s (.inl ⟨reads, rfl⟩)
  · simp only [ccView]
    cases stw.getLsbD stwA0 <;> cases stw.getLsbD stwA1 <;> decide

/-- Settles O41: the handlers' own check of the width, in both directions. -/
theorem handlerWidths : Obligations.HandlerWidths := by
  intro s f b m d p hr hd hw h
  have raises : s.PlaceRaises p .widthMismatch := .inr (.inr (.inr ⟨rfl, h⟩))
  obtain ⟨hfetch, hstore⟩ := direct_accesses hr hd hw
  exact ⟨hfetch.2 _ s (.inl ⟨rfl, .inl raises⟩), hstore.2 _ s (.inl ⟨rfl, .inl raises⟩)⟩

/-- An immediate operand that decodes fits its width (R163). -/
theorem imm_fits {d : Descriptor} {w : Width} {v : Data} (hd : decodeDesc d = .ok (.direct (.prim (.imm w v)))) : v.toNat < 2 ^ w.bits := by
  unfold decodeDesc at hd
  split at hd
  · split at hd
    · split_ifs at hd
      split at hd <;> cases hd
    · cases hd
  · split at hd <;> cases hd
    rename_i ho
    exact of_decide_eq_true (decodeOperand_eq_some.1 ho).1

/-- A value that fits its width is its own truncation (R9). -/
theorem truncTo_eq_self {w : Width} {v : Data} (h : v.toNat < 2 ^ w.bits) : truncTo w v = v := by
  rw [truncTo, Nat.mod_eq_of_lt h, BitVec.ofNat_toNat, BitVec.setWidth_eq]

/-- Settles O39: one value for each form of operand, and the cell that is not there. -/
theorem fetchValues : Obligations.FetchValues := by
  intro s f b m d p hr hd hw
  have hfetch := (direct_accesses hr hd hw).1
  have value : ∀ {v}, s.Reads p v → exec (.fetch m d) s = .next (s.answer v) := fun h => hfetch.1 _ s (.inl ⟨h, rfl⟩)
  refine ⟨fun w v hp => ?_, fun i hp => value (.inr (.inl ⟨i, hp, rfl⟩)), fun i hp => value (.inr (.inr (.inr (.inl ⟨i, hp, rfl⟩)))),
    fun hp => value (.inr (.inr (.inr (.inr (.inl ⟨hp, rfl⟩))))), fun hp => value (.inr (.inr (.inr (.inr (.inr (.inl ⟨hp, rfl⟩)))))),
    fun k n hp => value (.inr (.inr (.inr (.inr (.inr (.inr (.inl ⟨k, n, hp, rfl⟩))))))), fun i c hc => ?_, fun i o w hwo hp => ?_⟩
  · subst hp
    rw [exec_fetch hr hd hw, fetchOp_prim, fetchPrim, truncTo_eq_self (imm_fits hd)]
  · have cell : ∀ {w o v}, (p = .timer w o i ∨ p = .counter w o i) →
        ((w = .w1 ∧ o = false ∧ v = (Config.tcmState c).setWidth 48) ∨ (w = .w16 ∧ o = false ∧ v = (Config.tcmValue c).setWidth 48) ∨
          (w = .w16 ∧ o = true ∧ v = (Config.tcmBcd c).setWidth 48)) → exec (.fetch m d) s = .next (s.answer v) := by
      intro w o v hp hv
      refine value (.inr (.inr (.inr (.inr (.inr (.inr (.inr ⟨w, o, i, c, ?_, hv⟩)))))))
      rcases hc with ⟨hi, hc, w', o', hk⟩ | ⟨hi, hc, w', o', hk⟩ <;> rcases hp with hp | hp
      · exact .inl ⟨hp, hi, hc⟩
      · cases hk.symm.trans hp
      · cases hk.symm.trans hp
      · exact .inr ⟨hp, hi, hc⟩
    exact ⟨fun hp => cell hp (.inl ⟨rfl, rfl, rfl⟩), fun hp => cell hp (.inr (.inl ⟨rfl, rfl, rfl⟩)),
      fun hp => cell hp (.inr (.inr ⟨rfl, rfl, rfl⟩))⟩
  · exact hfetch.2 _ s (.inl ⟨rfl, .inr (.inl ⟨rfl, w, o, i, hwo, hp⟩)⟩)

/-- The bits of the status register after one has been set. -/
theorem stwSetBit_getLsbD (stw : BitVec 9) (i : Fin 9) (v : Bool) {j : Nat} (hj : j < 9) :
    (stwSetBit stw i.val v).getLsbD j = if j = i.val then v else stw.getLsbD j := by
  fin_cases i <;> interval_cases j <;> cases v <;> simp [stwSetBit]

/-- Settles O40: the registers that a STORE writes, and the operands that one direction refuses. -/
theorem storeOthers : Obligations.StoreOthers := by
  intro s f b m d p hr hd hw
  obtain ⟨hfetch, hstore⟩ := direct_accesses hr hd hw
  refine ⟨fun i hp => ?_, fun i hp => hstore.1 _ (.inr (.inr (.inl ⟨i, hp, rfl⟩))),
    fun hp => hstore.1 _ (.inr (.inr (.inr (.inl ⟨hp, rfl⟩)))), fun hp => hstore.1 _ (.inr (.inr (.inr (.inr (.inl ⟨hp, rfl⟩))))),
    fun hp => ?_,
    fun w ba hwidth hp => hfetch.2 _ s (.inl ⟨rfl, .inr (.inr (.inl ⟨rfl, w, ba, hwidth, hp⟩))⟩)⟩
  · have bits := fun j (hj : j < 9) => stwSetBit_getLsbD s.regs.stw i (s.din.getLsbD 0) hj
    exact ⟨_, hstore.1 _ (.inr (.inl ⟨i, _, hp, bits, rfl⟩)), bits⟩
  · rcases hp with ⟨w, v, rfl⟩ | hp
    · rw [exec_store hr hd hw]
      rfl
    · refine hstore.2 _ s (.inl ⟨rfl, .inr (.inl ⟨rfl, ?_⟩)⟩)
      rcases hp with hbit | hword | hblk | hview | hperiph
      · exact .inr (.inl hbit)
      · exact .inl hword
      · exact .inr (.inr (.inl hblk))
      · exact .inr (.inr (.inr (.inl hview)))
      · exact .inr (.inr (.inr (.inr hperiph)))

/-! ## Peripherals -/

/-- Settles O43: the callback's answer in each direction. -/
theorem peripheralAccess : Obligations.PeripheralAccess := by
  intro s f b m d w out ba hr hd hw hwidth
  obtain ⟨hfetch, hstore⟩ := direct_accesses hr hd hw
  refine ⟨fun ha => ⟨?_, ?_⟩, ?_, ?_⟩
  · rintro rfl
    exact hfetch.2 _ s (.inl ⟨rfl, .inr (.inr (.inr ⟨rfl, w, ba, hwidth, rfl, ha⟩))⟩)
  · rintro rfl
    exact hstore.2 _ s (.inl ⟨rfl, .inr (.inr ⟨rfl, w, ba, hwidth, rfl, ha⟩)⟩)
  · rintro rfl ha u rfl
    refine ⟨fun bs hans hlen => ?_, fun hans => hfetch.2 _ _ (.inr ⟨rfl, w, ba, hwidth, rfl, ha, hans, rfl⟩)⟩
    have answered := hfetch.1 _ _ (.inr ⟨w, ba, bs, hwidth, rfl, ha, hans, hlen, rfl, rfl⟩)
    exact ⟨fun hfit => by rwa [if_pos hfit] at answered, fun hfit => by rwa [if_neg (Nat.not_le.2 hfit)] at answered⟩
  · rintro rfl ha bs t u rfl rfl rfl
    exact ⟨fun hans => hstore.1 _ (.inr (.inr (.inr (.inr (.inr ⟨w, ba, hwidth, rfl, ha, hans, rfl⟩))))),
      fun hans => hstore.2 _ _ (.inr ⟨rfl, w, ba, hwidth, rfl, ha, hans, rfl⟩)⟩

/-! ## Named interface fields -/

section Fields

variable {s : State} {g : Frame} {cb : CodeBlock} {k : BitVec 16} {sub : BitAddr} {fd : Field} {x : Area} {a : Nat}
  (ht : s.top = some g) (hc : s.codeOf g = some cb) (hf : cb.field k = some fd)
include ht hc hf

/-- A bound I, Q, M or P operand is moved by the sub-offset, inside the address space (R270). -/
theorem resolveField_movable {p : Prim} {ba : BitAddr} (hb : g.BoundTo k fd (.loc p)) (hm : Prim.movable p = some ba) :
    resolveField k sub s =
      if ba.toNat + sub.toNat < 2 ^ 19 then .ok (.opnd (Prim.moved (BitVec.ofNat 19 (ba.toNat + sub.toNat)) p)) s
      else addrErr .badPointer s := by
  rw [resolveField_bound ht hc hf hb]
  cases p with
  | input w ba' | output w ba' | flag w ba' | periph w o ba' =>
    cases hm
    simp only [bindingLoc, bindingPrim, shiftAddr]
    split_ifs <;> rfl
  | _ => cases hm

/-- A bound T, C, STW, AR or BLK operand stands for itself, and takes no sub-offset (R270). -/
theorem resolveField_unmovable {p : Prim} (hb : g.BoundTo k fd (.loc p)) (hp : Prim.unmovable p = true) :
    resolveField k sub s = if sub.toNat ≠ 0 then addrErr .badPointer s else .ok (.opnd p) s := by
  rw [resolveField_bound ht hc hf hb]
  cases p with
  | timer _ _ _ | counter _ _ _ | stw _ _ _ | ar _ _ | blk _ _ _ => rfl
  | _ => cases hp

/-- A field that reaches a region is the region's operand at the moved address (R262, R270). -/
theorem resolveField_region (h : s.FieldReaches g k fd sub.toNat x a) (hdb : ∀ n, x ≠ .db n) (hloc : ∀ j, x ≠ .loc j) :
    ∃ p ba, resolveField k sub s = .ok (.opnd p) s ∧ ba.toNat = a ∧ ∀ w, s.Reaches (Prim.withWidth w p) x w ba := by
  have moved : ∀ {ba : BitAddr}, ba.toNat + sub.toNat < 2 ^ 19 →
      (BitVec.ofNat 19 (ba.toNat + sub.toNat)).toNat = ba.toNat + sub.toNat := fun hlt => by
    rw [BitVec.toNat_ofNat, Nat.mod_eq_of_lt hlt]
  have bound : ∀ {p ba}, g.BoundTo k fd (.loc p) → Prim.movable p = some ba → ba.toNat + sub.toNat < 2 ^ 19 →
      resolveField k sub s = .ok (.opnd (Prim.moved (BitVec.ofNat 19 (ba.toNat + sub.toNat)) p)) s :=
    fun hb hm hlt => (resolveField_movable ht hc hf hb hm).trans (if_pos hlt)
  rcases h with ⟨-, rfl, -⟩ | ⟨htemp, hob, hcls, hstat, hraw, h⟩ | ⟨-, -, -, -, ⟨-, rfl, -⟩ | ⟨-, -, -, ptr, -, -, -, rfl, -⟩⟩
  · exact absurd rfl (hloc _)
  · rcases h with ⟨n, ba, -, -, rfl, -⟩ | ⟨j, ba, -, -, rfl, -⟩ | ⟨w, ba, hb, hlt, rfl, rfl⟩ | ⟨w, ba, hb, hlt, rfl, rfl⟩ |
      ⟨w, ba, hb, hlt, rfl, rfl⟩
    · exact absurd rfl (hdb n)
    · exact absurd rfl (hloc j)
    · exact ⟨_, _, bound ⟨htemp, hstat, hob, hcls, hraw, hb⟩ rfl hlt, moved hlt, fun w => .inl ⟨rfl, rfl⟩⟩
    · exact ⟨_, _, bound ⟨htemp, hstat, hob, hcls, hraw, hb⟩ rfl hlt, moved hlt,
        fun w => .inr (.inl ⟨rfl, rfl⟩)⟩
    · exact ⟨_, _, bound ⟨htemp, hstat, hob, hcls, hraw, hb⟩ rfl hlt, moved hlt,
        fun w => .inr (.inr (.inl ⟨rfl, rfl⟩))⟩
  · exact absurd rfl (hdb _)
  · exact absurd rfl (hdb _)

/-- A field that reaches a buffer is the memory primitive at that place, with the field's width (R260, R270). -/
theorem field_memory (h : s.FieldReaches g k fd sub.toNat x a) (w : Width) :
    fetchOp (.direct (.field w k sub)) s = memRead x a w s ∧
      ∀ v, storeOp (.direct (.field w k sub)) v s = memWrite x a w (truncTo w v) s := by
  obtain ⟨hdb, hloc⟩ := resolveField_place ht hc hf h
  by_cases hx : (∃ n, x = .db n) ∨ ∃ j, x = .loc j
  · rcases hx with ⟨n, rfl⟩ | ⟨j, rfl⟩
    · exact ⟨fetchOp_field (hdb n rfl), fun v => storeOp_field (hdb n rfl)⟩
    · exact ⟨fetchOp_field (hloc j rfl), fun v => storeOp_field (hloc j rfl)⟩
  · rw [not_or] at hx
    obtain ⟨p, ba, hres, rfl, hreach⟩ :=
      resolveField_region ht hc hf h (fun n hn => hx.1 ⟨n, hn⟩) fun j hj => hx.2 ⟨j, hj⟩
    obtain ⟨-, hfetch, hstore⟩ := prim_reaches (hreach w)
    exact ⟨(fetchOp_field hres).trans hfetch, fun v => (storeOp_field hres).trans (hstore v)⟩

/-- A field of a function block lies in the block of the DI register; an aggregate is reached through its pointer (R263, R264). -/
theorem resolveField_instance (htemp : fd.dir ≠ .temp) (hob : g.kind ≠ .ob) (hcls : g.cls = .fblike) :
    resolveField k sub s = fbField g fd sub.toNat s := by
  rw [resolveField_of ht hc hf, if_neg htemp, if_neg hob, hcls]

end Fields

/-- Settles O44: the field's access is the memory primitive at the place it reaches. -/
theorem fieldBuffers : Obligations.FieldBuffers := by
  intro s f g b cb m d w k sub fd x a hr hd hw ht hc hf h
  obtain ⟨hfetch, hstore⟩ := field_memory ht hc hf h w
  exact access_buffer hr hd hw hfetch (hstore s.din)

/-- An aggregate of a function block whose pointer can be read (R264). -/
theorem fbField_pointer {s : State} {g : Frame} {fd : Field} {off : Nat} {ptr : Data} (hdi : s.prog.hasDb s.regs.diReg = true)
    (hagg : fd.agg = true) (hstat : fd.dir ≠ .stat)
    (hrange : rangeCheck (s.areaSize (.db s.regs.diReg)) (g.instBase + fd.off.toNat) .w48 = none)
    (hptr : ptr = s.readVal (.db s.regs.diReg) (g.instBase + fd.off.toNat) .w48) :
    fbField g fd off s =
      if s.prog.hasDb (ptr.extractLsb' 32 16) then
        if (ptr.extractLsb' 0 19).toNat + off ≥ 2 ^ 19 then addrErr .badPointer s
        else .ok (.dbAt (ptr.extractLsb' 32 16) ((ptr.extractLsb' 0 19).toNat + off)) s
      else addrErr .missingDb s := by
  subst hptr
  rw [fbField, if_pos hdi, if_pos ⟨hagg, hstat⟩, fbAggregate, memRead_ok hrange]
  rfl

/-- An aggregate of a function block whose pointer cannot be read (R264). -/
theorem fbField_unreadable {s : State} {g : Frame} {fd : Field} {off : Nat} {r : AddrReason} (hdi : s.prog.hasDb s.regs.diReg = true)
    (hagg : fd.agg = true) (hstat : fd.dir ≠ .stat)
    (hrange : rangeCheck (s.areaSize (.db s.regs.diReg)) (g.instBase + fd.off.toNat) .w48 = some r) :
    fbField g fd off s = addrErr r s := by
  rw [fbField, if_pos hdi, if_pos ⟨hagg, hstat⟩, fbAggregate, memRead_err hrange]
  rfl

/-- Block 0 is no data block (R31). -/
theorem Prog.hasDb_zero (p : Prog) : p.hasDb 0 = false := by
  rw [Prog.hasDb, Prog.dataBlock, if_pos rfl]
  rfl

/-- A field whose interface entry is missing, or that its kind of frame does not have, resolves to nothing (R260, R262, R266). -/
theorem resolveField_absent {s : State} {g : Frame} {cb : CodeBlock} {k : BitVec 16} {sub : BitAddr} (ht : s.top = some g)
    (hc : s.codeOf g = some cb)
    (h : cb.field k = none ∨ ∃ fd, cb.field k = some fd ∧ fd.dir ≠ .temp ∧ (g.kind = .ob ∨ (g.cls = .fclike ∧ fd.dir = .stat))) :
    resolveField k sub s = addrErr .noField s := by
  rcases h with hf | ⟨fd, hf, htemp, hob | ⟨hcls, hstat⟩⟩
  · simp [resolveField, ht, hc, hf]
  · rw [resolveField_of ht hc hf, if_neg htemp, if_pos hob]
  · rw [resolveField_of ht hc hf, if_neg htemp, hcls]
    simp only [fcField, hstat, if_true, ite_self]

/-- A parameter of a function that no call has bound (R262). -/
theorem resolveField_unbound {s : State} {g : Frame} {cb : CodeBlock} {k : BitVec 16} {sub : BitAddr} {fd : Field} (ht : s.top = some g)
    (hc : s.codeOf g = some cb) (hf : cb.field k = some fd) (htemp : fd.dir ≠ .temp) (hstat : fd.dir ≠ .stat) (hob : g.kind ≠ .ob)
    (hcls : g.cls = .fclike) (h : g.raw = true ∨ g.bind.lookup k = none) : resolveField k sub s = addrErr .noBinding s := by
  rw [resolveField_of ht hc hf, if_neg htemp, if_neg hob, hcls]
  simp only [fcField, if_neg hstat]
  split_ifs with hraw
  · rfl
  · rw [h.resolve_left hraw]

/-- Settles O45: what the field resolves to, binding by binding, and what the resolution raises. -/
theorem fieldOthers : Obligations.FieldOthers := by
  intro s f g b cb m d w k sub hr hd hw ht hc
  have raises : ∀ {r}, resolveField k sub s = addrErr r s → s.BothRaise s m d r := fun h =>
    bothRaise_of hr hd hw (fetchOp_field_err h) (storeOp_field_err h)
  have accesses : ∀ {p}, resolveField k sub s = .ok (.opnd p) s →
      s.FetchesAs s m d (Prim.withWidth w p) ∧ s.StoresAs s m d (Prim.withWidth w p) := fun h =>
    ⟨fetchesAs_of hr hd hw (fetchOp_field h), storesAs_of hr hd hw (storeOp_field h)⟩
  have nonzero : sub ≠ 0 → sub.toNat ≠ 0 := fun h0 he => h0 (BitVec.eq_of_toNat_eq he)
  refine ⟨fun fd cw v hf htemp hstat hob hcls hraw hbind => ?_, fun h => raises (resolveField_absent ht hc h),
    fun fd hf htemp hstat hob hcls h => raises (resolveField_unbound ht hc hf htemp hstat hob hcls h),
    fun fd hf htemp hob hcls hdi => raises ?_, fun fd p hf hb => ⟨fun q hq => ?_, fun h => raises ?_⟩,
    fun fd hf => ⟨fun n ba hb hn => raises ?_, fun j ba hb hj => raises ?_⟩,
    fun fd ptr hf htemp hstat hagg hob hcls hdi hptr => ?_⟩
  · have hres := resolveField_bound (sub := sub) ht hc hf ⟨htemp, hstat, hob, hcls, hraw, hbind⟩
    rw [bindingLoc] at hres
    refine ⟨fun h0 => ?_, fun h0 => raises (hres.trans (if_pos (nonzero h0)))⟩
    have hconst := hres.trans (if_neg (by rw [h0]; decide))
    refine ⟨?_, ?_⟩
    · rw [exec_fetch hr hd hw, fetchOp_field hconst]
      rfl
    · rw [exec_store hr hd hw, storeOp_field hconst]
      rfl
  · rw [resolveField_instance ht hc hf htemp hob hcls, fbField, if_neg (Bool.eq_false_iff.1 hdi)]
  · rcases hq with ⟨w', o, ba, rfl, hlt, rfl⟩ | ⟨hp, h0, rfl⟩
    · exact accesses ((resolveField_movable ht hc hf hb rfl).trans (if_pos hlt))
    · exact accesses ((resolveField_unmovable ht hc hf hb hp).trans (if_neg (not_not.2 h0)))
  · rcases h with ⟨ba, hm, hge⟩ | ⟨hp, h0⟩
    · exact (resolveField_movable ht hc hf hb hm).trans (if_neg (Nat.not_lt.2 hge))
    · exact (resolveField_unmovable ht hc hf hb hp).trans (if_pos (nonzero h0))
  · rw [resolveField_bound ht hc hf hb, bindingLoc, if_neg (Bool.eq_false_iff.1 hn)]
  · rw [resolveField_bound ht hc hf hb, bindingLoc]
    exact if_pos hj
  · have hres := resolveField_instance (sub := sub) ht hc hf htemp hob hcls
    refine ⟨fun r hrange => raises (hres.trans (fbField_unreadable hdi hagg hstat hrange)),
      fun hrange => ⟨fun hm => raises ?_, fun hm hge => raises ?_⟩⟩
    · have habsent : s.prog.hasDb (ptr.extractLsb' 32 16) = false := hm.elim (fun h0 => by rw [h0]; exact s.prog.hasDb_zero) id
      rw [hres, fbField_pointer hdi hagg hstat hrange hptr, if_neg (Bool.eq_false_iff.1 habsent)]
    · rw [hres, fbField_pointer hdi hagg hstat hrange hptr, if_pos hm, if_pos hge]

end Sys2Proof.Machine

/-! PROOFS. The two places where a call moves values: its parameters (42_calls R356, R363 to R366, R370 to R372) and the copy-back at the pop
of a function block (R390 to R392). -/

namespace Sys2Proof.Machine

open Sys2Proof

/-! ## The pop of a function block -/

theorem State.setByte_emit (s : State) (e : Event) (x : Area) (c : Nat) (v : Byte) : (s.emit e).setByte x c v = (s.setByte x c v).emit e := by
  cases x <;> rfl

theorem State.byteAt_emit (s : State) (e : Event) (x : Area) (c : Nat) : (s.emit e).byteAt x c = s.byteAt x c := by
  cases x <;> rfl

theorem State.writeBytes_emit (e : Event) (x : Area) (bs : List Byte) :
    ∀ (s : State) (c : Nat), (s.emit e).writeBytes x c bs = (s.writeBytes x c bs).emit e := by
  induction bs with
  | nil => intro s c; rfl
  | cons v r ih => intro s c; rw [State.writeBytes, State.setByte_emit, ih, State.writeBytes]

/-- An access writes the same after an event as before it. -/
theorem State.writeVal_emit (s : State) (e : Event) (x : Area) (a : Nat) (w : Width) (v : Data) :
    (s.emit e).writeVal x a w v = (s.writeVal x a w v).emit e := by
  unfold State.writeVal
  split_ifs
  · rw [State.byteAt_emit, State.setByte_emit]
  · exact State.writeBytes_emit e x _ s _

/-- A descriptor that is not well-formed ends the copy-back where it stands (R165, R392). -/
theorem copyBack_illFormed {b : CodeBlock} {f : Frame} {k : BitVec 16} {d : Descriptor} {r : List (BitVec 16 × Descriptor)} {fd : Field}
    {s : State} {e : DescErr} (hk : b.field k = some fd) (hc : Field.copiedBack fd)
    (hrange : rangeCheck (s.areaSize (.db f.instDB)) (f.instBase + fd.off.toNat) fd.width = none) (hd : decodeDesc d = .error e) :
    copyBack b f ((k, d) :: r) s = addrErr (descReason e) s := by
  rw [copyBack_copied s hk hc, memRead_ok hrange]
  simp only [Res.bind, decodeArg, hd]
  rfl

/-- A value that can be read is stored to its decoded actual, and the copy-back goes on (R392). -/
theorem copyBack_store {b : CodeBlock} {f : Frame} {k : BitVec 16} {d : Descriptor} {fd : Field} {s : State} {D : Desc}
    (r : List (BitVec 16 × Descriptor)) (hk : b.field k = some fd) (hc : Field.copiedBack fd)
    (hrange : rangeCheck (s.areaSize (.db f.instDB)) (f.instBase + fd.off.toNat) fd.width = none) (hd : decodeDesc d = .ok D) :
    copyBack b f ((k, d) :: r) s =
      (storeOp D (s.readVal (.db f.instDB) (f.instBase + fd.off.toNat) fd.width) s).bind fun _ s => copyBack b f r s := by
  rw [copyBack_copied s hk hc, memRead_ok hrange]
  simp only [Res.bind, decodeArg, hd]

section Pop

variable {s : State} {f : Frame} {b : CodeBlock} {db di : BlockNum} (hp : s.phase ≠ .idle) (hbody : s.body = none) (htop : s.top = some f)
  (hcode : s.codeOf f = some b) (hip : b.len ≤ f.ip) (hcls : f.cls = .fblike) (hraw : f.raw = false) (hsaved : f.saved = some (db, di))
include hp hbody htop hcode hip hcls hraw hsaved

/-- A step past the end of a function block is its pop, whose copy-back runs after the registers are restored (R390 to R392). -/
theorem step_pop :
    step s =
      match copyBack b f f.params (s.returned db di) with
      | .err x u => .next (u.takeFault ⟨x.cause, none⟩ (some ⟨f.kind, f.num, f.ip⟩))
      | .ok _ u => .next (if u.cs = [] then endTopLevel (u.emit (.blockExit f.kind f.num)) else u.emit (.blockExit f.kind f.num)) := by
  have hend : b.insns[f.ip]? = none := List.getElem?_eq_none hip
  have hrestored : restoreRegs f { s with cs := s.cs.dropLast } = s.returned db di := by
    unfold restoreRegs
    rw [hcls, hsaved]
    rfl
  have hdue : copyBackIfDue f b (s.returned db di) = copyBack b f f.params (s.returned db di) := by
    rw [copyBackIfDue, copyBackDue, hcls, hraw]
    rfl
  have hstep : step s = popFrame f b s := by
    simp only [step, if_neg hp, hbody, beginInsn, htop, hcode, hend]
  rw [hstep]
  simp only [popFrame, hrestored, hdue]
  cases copyBack b f f.params (s.returned db di) <;> rfl

theorem step_pop_err {x : Raise} {t : State} (h : copyBack b f f.params (s.returned db di) = .err x t) :
    step s = .next (t.takeFault ⟨x.cause, none⟩ (some ⟨f.kind, f.num, f.ip⟩)) := by
  rw [step_pop hp hbody htop hcode hip hcls hraw hsaved, h]

/-- A pop that leaves a frame leaves what the copy-back leaves, and the event (R390). -/
theorem step_pop_ok {t : State} (hcs : s.cs.dropLast ≠ []) (h : copyBack b f f.params (s.returned db di) = .ok () t) :
    step s = .next (t.emit (.blockExit f.kind f.num)) := by
  have kept := (Effects.copyBack b f f.params (s.returned db di)).keeps
  rw [h] at kept
  have hne : t.cs ≠ [] := List.ne_nil_of_length_pos (by
    rw [← Res.state_ok () t, kept.depth]
    exact List.length_pos_of_ne_nil hcs)
  rw [step_pop hp hbody htop hcode hip hcls hraw hsaved, h]
  simp only [if_neg hne]

end Pop

/-- Settles O11: the list in order, its first raise, and one parameter for each form of actual. -/
theorem copyBackAtPop : Obligations.CopyBack := by
  intro s f b db di hp hbody htop hcode hip hcs hcls hraw hsaved
  have popErr : ∀ {x t}, copyBack b f f.params (s.returned db di) = .err x t → _ :=
    step_pop_err hp hbody htop hcode hip hcls hraw hsaved
  have popOk : ∀ {t}, copyBack b f f.params (s.returned db di) = .ok () t → _ :=
    step_pop_ok hp hbody htop hcode hip hcls hraw hsaved hcs
  refine ⟨fun t h => popOk (copyBack_ok h), fun pre post k d fd u hps hpre hk hcopied => ?_, ?_⟩
  · have fails : ∀ {x t}, copyBack b f ((k, d) :: post) u = .err x t → _ := fun h =>
      popErr ((by rw [hps]; exact copyBack_append _ hpre : copyBack b f f.params (s.returned db di) = _).trans h)
    refine ⟨fun r hrange => fails (x := ⟨.addr r, none⟩) ?_, fun hrange => ⟨fun e hd => fails (copyBack_illFormed hk hcopied hrange hd),
      fun D x t hd hs => fails ?_⟩⟩
    · rw [copyBack_copied u hk hcopied, memRead_err hrange]
      rfl
    · rw [copyBack_store post hk hcopied hrange hd, hs]
      rfl
  · rintro k d fd c v hps hk rfl rfl
    refine ⟨fun hcopied => ?_, fun hcopied hrange => ?_⟩
    · have hskip : copyBack b f f.params (s.returned db di) = .ok () (s.returned db di) := by
        rw [hps, copyBack_skip fun fd' hk' => Option.some.inj (hk.symm.trans hk') ▸ hcopied]
        rfl
      exact popOk hskip
    · generalize hv : s.readVal (.db f.instDB) (f.instBase + fd.off.toNat) fd.width = v
      have stored : ∀ {D}, decodeDesc d = .ok D → copyBack b f f.params (s.returned db di) =
          (storeOp D v (s.returned db di)).bind fun _ u => .ok () u := fun hd => by
        rw [hps, copyBack_store (s := s.returned db di) [] hk hcopied hrange hd, ← hv]
        rfl
      have taken : ∀ {D t}, decodeDesc d = .ok D → storeOp D v (s.returned db di) = .ok () t →
          step s = .next (t.emit (.blockExit f.kind f.num)) := fun hd hs => popOk (by rw [stored hd, hs]; rfl)
      have raised : ∀ {D r t}, decodeDesc d = .ok D → storeOp D v (s.returned db di) = addrErr r t →
          step s = .next (t.takeFault ⟨.addr r, none⟩ (some ⟨f.kind, f.num, f.ip⟩)) := fun hd hs =>
        popErr (x := ⟨.addr _, none⟩) (by rw [stored hd, hs]; rfl)
      refine ⟨fun w y hd => raised hd rfl, fun p hd => ⟨fun t ht => taken hd (storePrim_takes ht), fun r t ht => raised hd (storePrim_raises ht)⟩,
        fun w k' sub g gb gd x a hd hg hgb hgd hreach => ?_, fun w tgt disp inner y u q hd hw hf hlt hq => ?_⟩
      · have hstore := (field_memory hg hgb hgd hreach w).2 v
        refine ⟨fun hx => ?_, fun r hx => raised hd (hstore.trans (memWrite_err hx))⟩
        have hstep := taken hd (hstore.trans (memWrite_ok hx))
        rwa [← State.writeVal_emit] at hstep
      · have hstore := storeOp_ind (v := v) (resolveInd_selects hw hf hlt rfl hq)
        exact ⟨fun t ht => taken hd (hstore.trans (storePrim_takes ht)), fun r t ht => raised hd (hstore.trans (storePrim_raises ht))⟩

/-! ## One parameter of a call -/

theorem Res.withOpnd_err {α : Type} {d : Descriptor} {r : Res α} {x : Raise} {t : State} (h : r = .err x t) :
    r.withOpnd d = .err ⟨x.cause, some d⟩ t := by
  rw [h]
  rfl

section Parameter

variable {cb : CodeBlock} {p : Param} {fd : Field} (hf : cb.field (Param.index p) = some fd)
include hf

/-- A list of one accepted parameter (R356). -/
theorem paramsOk_one (hb : bits p.word 16 48 = 0) (hdir : fd.dir = .input ∨ fd.dir = .output ∨ fd.dir = .inout) : ParamsOk cb [p] := by
  refine ⟨fun q hq => ?_, List.nodup_singleton _⟩
  rw [List.mem_singleton.1 hq]
  exact ⟨hb, fd, hf, hdir⟩

theorem bindParams_one (s : State) :
    bindParams cb [p] s = ((bindActual p.d fd s).withOpnd p.d).bind fun y u => .ok [(Param.index p, y)] u := by
  simp only [bindParams, hf]
  cases (bindActual p.d fd s).withOpnd p.d <;> rfl

theorem copyIn_one (inst : BlockNum) (base : Nat) (s : State) :
    copyIn cb inst base [p] s = (copyInOne inst base fd p.d s).withOpnd p.d := by
  simp only [copyIn, hf]
  cases (copyInOne inst base fd p.d s).withOpnd p.d <;> rfl

end Parameter

section CopyIn

variable {inst : BlockNum} {base : Nat} {fd : Field} {d : Descriptor} {s : State}

/-- An OUT parameter is recorded and not copied (R363). -/
theorem copyInOne_output (hagg : fd.agg = false) (hdir : fd.dir = .output) : copyInOne inst base fd d s = .ok () s := by
  simp only [copyInOne, hagg, hdir, Bool.false_eq_true, reduceCtorEq, or_self, if_false]

/-- An aggregate stores its block pointer (R364). -/
theorem copyInOne_aggregate (hagg : fd.agg = true) : copyInOne inst base fd d s = copyInAggregate inst (base + fd.off.toNat) d s := by
  rw [copyInOne, if_pos hagg]

/-- An IN or INOUT value is fetched with the field's width and written into the function block's data (R363). -/
theorem copyInOne_value (hagg : fd.agg = false) (hdir : fd.dir = .input ∨ fd.dir = .inout) :
    copyInOne inst base fd d s = (decodeArg d s).bind fun D s =>
      if Desc.width D ≠ fd.width then callErr .badParam s
      else (fetchOp D s).bind fun v s => memWrite (.db inst) (base + fd.off.toNat) fd.width v s := by
  rw [copyInOne, if_neg (Bool.eq_false_iff.1 hagg), if_pos hdir]

theorem copyInOne_fetched {D : Desc} (hagg : fd.agg = false) (hdir : fd.dir = .input ∨ fd.dir = .inout) (hd : decodeDesc d = .ok D)
    (hw : Desc.width D = fd.width) :
    copyInOne inst base fd d s = (fetchOp D s).bind fun v s => memWrite (.db inst) (base + fd.off.toNat) fd.width v s := by
  rw [copyInOne_value hagg hdir, decodeArg, hd]
  exact if_neg (not_not.2 hw)

/-- A descriptor that is not well-formed, of a parameter that is looked at (R165, R363, R364). -/
theorem copyInOne_illFormed {e : DescErr} (hdir : fd.agg = true ∨ fd.dir = .input ∨ fd.dir = .inout) (hd : decodeDesc d = .error e) :
    copyInOne inst base fd d s = addrErr (descReason e) s := by
  by_cases hagg : fd.agg = true
  · rw [copyInOne_aggregate hagg, copyInAggregate, decodeArg, hd]
    rfl
  · rw [copyInOne_value (Bool.eq_false_iff.2 hagg) (hdir.resolve_left hagg), decodeArg, hd]
    rfl

end CopyIn

section OneParameter

variable {s : State} {f : Frame} {b cb : CodeBlock} {t d : Descriptor} {k : Word} {fd : Field} {w : Width} {n : BlockNum} {K : BlockKind}
  {i : Instr} (hr : s.Running f b) (hb : bits k 16 48 = 0) (hf : cb.field (bits k 0 16) = some fd)
  (hdir : fd.dir = .input ∨ fd.dir = .output ∨ fd.dir = .inout) (hi : DirectRow i K t [⟨k, d⟩])
  (ht : decodeDesc t = .ok (.direct (.prim (.blk w (.code K) n)))) (hc : s.prog.code K n = some cb)
include hr hb hf hdir hi ht hc

/-- The call of a function with one parameter raises what the binding raises (R370). -/
theorem fcRow_raises (hK : K = .fc ∨ K = .sfc) {x : Raise} {u : State} (h : bindActual d fd s = .err x u) :
    ∃ o, exec i s = .next (u.faultWith x.cause o) := by
  refine ⟨some d, ?_⟩
  rw [exec_fcRow hr hK hi ht hc (paramsOk_one hf hb hdir), bindParams_one hf, Res.withOpnd_err h]
  rfl

/-- The call of a function with one parameter pushes a frame that records the binding (R365, R370). -/
theorem fcRow_binds (hK : K = .fc ∨ K = .sfc) {y : Binding} {u : State} (h : bindActual d fd s = .ok y u) :
    ∃ locals : List Byte, locals.length = cb.tempSize ∧
      exec i s = .next ((u.entered ⟨K, n, 0, locals, [], [(bits k 0 16, y)], [], false, .fclike, 0, 0, none⟩
        u.regs.dbReg u.regs.diReg).answer 0) := by
  refine ⟨_, u.length_newFrame K n cb.tempSize, ?_⟩
  rw [exec_fcRow hr hK hi ht hc (paramsOk_one hf hb hdir), bindParams_one hf, h]
  rcases hK with rfl | rfl <;> rfl

variable {inst : BlockNum} {base : Nat} {u : State} (hin : s.InstanceOf i cb t [⟨k, d⟩] inst base u)
include hin

/-- The call of a function block with one parameter raises what the copy-in raises (R363, R364). -/
theorem fbRow_raises {x : Raise} {v : State} (h : copyInOne inst base fd d u = .err x v) :
    ∃ o, exec i s = .next (v.faultWith x.cause o) :=
  (exec_fbRow hr hi ht hc (paramsOk_one hf hb hdir) hin).1 ⟨x.cause, some d⟩ v
    ((copyIn_one hf inst base u).trans (Res.withOpnd_err h))

/-- The call of a function block with one parameter enters the block after the copy-in (R371, R372). -/
theorem fbRow_enters {v : State} (h : copyInOne inst base fd d u = .ok () v) :
    ∃ r, exec i s = .next r ∧ v.EnteredFb i K n cb [⟨k, d⟩] inst base r :=
  (exec_fbRow hr hi ht hc (paramsOk_one hf hb hdir) hin).2 v ((copyIn_one hf inst base u).trans (by rw [h]; rfl))

/-- A copy-in that comes down to one write enters the block after the write, or raises what the range check raises. -/
theorem fbRow_writes {v : State} {y : Data} {w' : Width}
    (h : copyInOne inst base fd d u = memWrite (.db inst) (base + fd.off.toNat) w' y v) :
    (rangeCheck (v.areaSize (.db inst)) (base + fd.off.toNat) w' = none →
      ∃ r, exec i s = .next r ∧ (v.writeVal (.db inst) (base + fd.off.toNat) w' y).EnteredFb i K n cb [⟨k, d⟩] inst base r) ∧
    ∀ a, rangeCheck (v.areaSize (.db inst)) (base + fd.off.toNat) w' = some a → ∃ o, exec i s = .next (v.faultWith (.addr a) o) :=
  ⟨fun hx => fbRow_enters hr hb hf hdir hi ht hc hin (h.trans (memWrite_ok hx)),
    fun _ hx => fbRow_raises hr hb hf hdir hi ht hc hin (h.trans (memWrite_err hx))⟩

end OneParameter

/-- Settles O49: the binding of a function's parameter, then the copy-in of a function block's, by what the parameter is. -/
theorem callParameters : Obligations.CallParameters := by
  intro s f b cb t d k fd w n K i hr hb hf hdir hi ht hc
  refine ⟨fun hK => ⟨fun e hd => fcRow_raises hr hb hf hdir hi ht hc hK (x := ⟨.addr (descReason e), none⟩) ?_,
    fun D hd => ⟨fun y u h => fcRow_binds hr hb hf hdir hi ht hc hK (bindActual_binds hd h), fun c u h => ?_⟩⟩, fun inst base u hin => ?_⟩
  · rw [bindActual, decodeArg, hd]
    rfl
  · obtain ⟨o, ho⟩ := bindActual_raises hd h
    exact fcRow_raises hr hb hf hdir hi ht hc hK ho
  · have raises : ∀ {x v}, copyInOne inst base fd d u = .err x v → ∃ o, exec i s = .next (v.faultWith x.cause o) :=
      fbRow_raises hr hb hf hdir hi ht hc hin
    have valueDir : fd.dir ≠ .output → fd.dir = .input ∨ fd.dir = .inout := fun hne =>
      hdir.imp_right fun h => h.resolve_left hne
    refine ⟨fun hagg hout => fbRow_enters hr hb hf hdir hi ht hc hin (copyInOne_output hagg hout),
      fun h e hd => raises (copyInOne_illFormed (h.imp_right valueDir) hd), fun D hd => ⟨fun hagg hne hw => ?_, fun hagg => ?_⟩⟩
    · have hcopy := copyInOne_fetched (inst := inst) (base := base) (s := u) hagg (valueDir hne) hd hw
      refine ⟨fun x v h => raises (hcopy.trans (by rw [h]; rfl)), fun y v h => ?_⟩
      exact fbRow_writes hr hb hf hdir hi ht hc hin (hcopy.trans (by rw [h]; rfl))
    · have hcopy := copyInOne_aggregate (inst := inst) (base := base) (d := d) (s := u) hagg
      refine ⟨fun x v h => raises (hcopy.trans ?_), fun q v hq => ⟨fun hl => ?_, fun m ba v' hm => ?_⟩⟩
      · simp only [copyInAggregate, decodeArg, hd, Res.bind, h]
      · exact raises (hcopy.trans (copyInAggregate_lacks hd hq hl))
      · rw [← blockPointer_eq]
        exact fbRow_writes hr hb hf hdir hi ht hc hin (hcopy.trans (copyInAggregate_names hd hq hm))

end Sys2Proof.Machine

/-! PROOFS. The flag writers STW_WRITE and CC_SET, OPEN_DB and TC_OP (41_status_cc R310, R311, R320, R330, R331). -/

namespace Sys2Proof.Machine

open Sys2Proof

/-! ## The bits the flag writers give -/

/-- Bit by bit, STW_WRITE takes the value under the mask and the old bit outside it (R310). -/
theorem stwMasked_getLsbD (stw mask val : BitVec 9) {i : Nat} (hi : i < 9) :
    (stwMasked stw mask val).getLsbD i = if mask.getLsbD i then val.getLsbD i else stw.getLsbD i := by
  simp only [stwMasked, BitVec.getLsbD_or, BitVec.getLsbD_and, BitVec.getLsbD_not, hi, decide_true, Bool.true_and]
  cases mask.getLsbD i <;> simp

/-- The four bits CC_SET writes, OS last; every other bit stays (R311). -/
theorem stwCcSet_getLsbD (stw : BitVec 9) (a1 a0 ovf : Bool) {i : Nat} (hi : i < 9) :
    (stwCcSet stw a1 a0 ovf).getLsbD i =
      if i = stwOS then stw.getLsbD stwOS || ovf else if i = stwOV then ovf else if i = stwA0 then a0
      else if i = stwA1 then a1 else stw.getLsbD i := by
  rw [stwCcSet, stwSetBit_getLsbD _ ⟨stwOS, by decide⟩ _ hi, stwSetBit_getLsbD _ ⟨stwOV, by decide⟩ _ hi,
    stwSetBit_getLsbD _ ⟨stwA0, by decide⟩ _ hi, stwSetBit_getLsbD _ ⟨stwA1, by decide⟩ _ hi]

/-! ## The commands while the core runs -/

section Running

variable {s : State} {f : Frame} {b : CodeBlock} (hr : s.Running f b)
include hr

theorem exec_stwWrite (mask val : BitVec 9) :
    exec (.stwWrite mask val) s = .next ((s.setStw (stwMasked s.regs.stw mask val)).answer 0) := by
  change execStwWrite mask val s = _
  unfold execStwWrite
  exact microCmd_ok hr rfl

theorem exec_ccSet (a1 a0 ovf : Bool) :
    exec (.ccSet a1 a0 ovf) s = .next ((s.setStw (stwCcSet s.regs.stw a1 a0 ovf)).answer 0) := by
  change execCcSet a1 a0 ovf s = _
  unfold execCcSet
  exact microCmd_ok hr rfl

/-- Block 0 and every present block can be opened (R320). -/
theorem exec_openDb_present {n : BlockNum} (sel : Bool) (hn : n = 0 ∨ s.prog.hasDb n = true) :
    exec (.openDb sel n) s = .next ((s.setBlockReg sel n).answer 0) := by
  have hpresent : ¬ (n ≠ 0 ∧ s.prog.hasDb n = false) := fun ⟨h0, habsent⟩ =>
    hn.elim h0 fun h => Bool.false_ne_true (habsent.symm.trans h)
  change execOpenDb sel n s = _
  unfold execOpenDb
  exact microCmd_ok hr (if_neg hpresent)

theorem exec_openDb_absent {n : BlockNum} (sel : Bool) (h0 : n ≠ 0) (habsent : s.prog.hasDb n = false) :
    exec (.openDb sel n) s = .next (s.faultWith (.addr .missingDb) none) := by
  change execOpenDb sel n s = _
  unfold execOpenDb
  exact microCmd_err hr (if_pos ⟨h0, habsent⟩)

/-- A cell below the configured count takes the model's step at the last clock reading (R331). -/
theorem exec_tcOp_present {sel : Bool} {idx : BitVec 16} (op : BitVec 8) (arg : BitVec 16)
    (hi : idx.toNat < s.cellCount (cellKindOf sel)) :
    exec (.tcOp sel idx op arg) s =
      let r := Config.tcmStep (cellKindOf sel) op (s.cell (cellKindOf sel) idx.toNat) s.time.now arg
      .next ((s.setCell (cellKindOf sel) idx.toNat r.1).answer (r.2.setWidth 48)) := by
  change execTcOp sel idx op arg s = _
  unfold execTcOp
  exact microCmd_ok hr (if_neg (Nat.not_le.2 hi))

theorem exec_tcOp_absent {sel : Bool} {idx : BitVec 16} (op : BitVec 8) (arg : BitVec 16)
    (hi : s.cellCount (cellKindOf sel) ≤ idx.toNat) :
    exec (.tcOp sel idx op arg) s = .next (s.faultWith (.addr .missingTc) none) := by
  change execTcOp sel idx op arg s = _
  unfold execTcOp
  exact microCmd_err hr (if_pos hi)

end Running

/-- OPEN_DB is the word of its opcode, `SEL` and `NUM` (R320): the decoder reads back what the encoder writes. -/
theorem decode_openDb (sel : Bool) (n : BlockNum) :
    decode [BitVec.ofNat 64 (0x12 * 2 ^ 56 + sel.toNat * 2 ^ 48 + n.toNat * 2 ^ 32)] = .ok (.openDb sel n, []) := by
  rw [Nat.add_assoc]
  exact decodeEncode (.openDb sel n) [] rfl

/-! ## The statements -/

/-- Settles O29, by the equation of STW_WRITE and its bits. -/
theorem stwWriteMasked : Obligations.StwWriteMasked := fun s _ _ mask val hr =>
  ⟨stwMasked s.regs.stw mask val, exec_stwWrite hr mask val, fun _ hi => stwMasked_getLsbD s.regs.stw mask val hi⟩

/-- Settles O30, by the equation of CC_SET and its bits; FC, RLO, STA, OR and BR are none of the four it writes. -/
theorem ccSetSticky : Obligations.CcSetSticky := by
  intro s f b a1 a0 ovf hr
  have bit {i : Nat} (hi : i < 9) := stwCcSet_getLsbD s.regs.stw a1 a0 ovf hi
  refine ⟨stwCcSet s.regs.stw a1 a0 ovf, exec_ccSet hr a1 a0 ovf, bit (by decide), bit (by decide), bit (by decide), bit (by decide),
    fun i hi => ?_⟩
  have hkept : i < 9 ∧ i ≠ stwOS ∧ i ≠ stwOV ∧ i ≠ stwA0 ∧ i ≠ stwA1 := by
    revert i
    decide
  obtain ⟨h9, hos, hov, ha0, ha1⟩ := hkept
  rw [bit h9, if_neg hos, if_neg hov, if_neg ha0, if_neg ha1]

/-- Settles O33: the two registers, the absent block, and the word. -/
theorem openDbWritesRegister : Obligations.OpenDbWritesRegister := fun _ _ _ n hr =>
  ⟨fun hn => ⟨exec_openDb_present hr false hn, exec_openDb_present hr true hn⟩,
    fun h0 habsent sel => exec_openDb_absent hr sel h0 habsent, fun sel => decode_openDb sel n⟩

/-- Settles O34: timers and counters, below the count and from it on. -/
theorem tcOpStepsCell : Obligations.TcOpStepsCell := fun _ _ _ _ op arg hr =>
  ⟨exec_tcOp_present (sel := false) hr op arg, exec_tcOp_present (sel := true) hr op arg,
    exec_tcOp_absent (sel := false) hr op arg, exec_tcOp_absent (sel := true) hr op arg⟩

end Sys2Proof.Machine

/-! PROOFS. The pop of a frame that copies nothing back, and the end of a top-level call (42_calls R390 to R394, 44_scheduler R484, R486). -/

namespace Sys2Proof.Machine

open Sys2Proof

/-! ## The pop of a frame -/

/-- A step past the end of the top frame's block is its pop (R390, R425). -/
theorem step_pastEnd {s : State} {f : Frame} {b : CodeBlock} (hp : s.phase ≠ .idle) (hbody : s.body = none) (htop : s.top = some f)
    (hcode : s.codeOf f = some b) (hip : b.len ≤ f.ip) : step s = popFrame f b s := by
  have hend : b.insns[f.ip]? = none := List.getElem?_eq_none hip
  simp only [step, if_neg hp, hbody, beginInsn, htop, hcode, hend]

/-- Nothing is copied back for a function, for a raw call, and for a call without parameters (R390, R394). -/
theorem copyBackIfDue_nothing {f : Frame} (h : f.cls = .fclike ∨ f.raw = true ∨ f.params = []) (b : CodeBlock) (s : State) :
    copyBackIfDue f b s = .ok () s := by
  unfold copyBackIfDue copyBackDue
  rcases h with hcls | hraw | hparams
  · rw [hcls]
    rfl
  · rw [hraw, Bool.not_true, Bool.and_false]
    rfl
  · rw [hparams]
    exact ite_self _

theorem restoreRegs_fclike {f : Frame} (h : f.cls = .fclike) (s : State) : restoreRegs f s = s := by
  rw [restoreRegs, h]

theorem restoreRegs_fblike {f : Frame} {db di : BlockNum} (h : f.cls = .fblike) (hs : f.saved = some (db, di)) (s : State) :
    restoreRegs f s = s.setDbDi db di := by
  rw [restoreRegs, h, hs]

/-- The pop of a frame that copies nothing back, its registers as `restoreRegs` leaves them (R390, R391). -/
theorem popFrame_nothing {s : State} {f : Frame} (b : CodeBlock) {db di : BlockNum} (h : f.cls = .fclike ∨ f.raw = true ∨ f.params = [])
    (hregs : restoreRegs f { s with cs := s.cs.dropLast } = s.returned db di) :
    popFrame f b s = .next (if s.cs.dropLast = [] then endTopLevel (s.popped f db di) else s.popped f db di) := by
  simp only [popFrame, hregs, copyBackIfDue_nothing h]
  rfl

/-- Settles O10, by the class of the frame. -/
theorem popRestores : Obligations.PopRestores := by
  intro s f b hp hbody htop hcode hip hcs
  have hstep := step_pastEnd hp hbody htop hcode hip
  refine ⟨fun hcls => ?_, fun db di hcls hsaved hnothing => ?_⟩
  · rw [hstep, popFrame_nothing b (.inl hcls) (restoreRegs_fclike hcls _), if_neg hcs]
  · rw [hstep, popFrame_nothing b (.inr hnothing) (restoreRegs_fblike hcls hsaved _), if_neg hcs]

/-! ## The end of a top-level call -/

theorem minOpt_eq (o : Option Nat) (t : Nat) : minOpt o t = min (o.getD t) t := by
  cases o with
  | none => exact (min_self t).symm
  | some m => rfl

theorem maxOpt_eq (o : Option Nat) (t : Nat) : maxOpt o t = max (o.getD t) t := by
  cases o with
  | none => exact (max_self t).symm
  | some m => rfl

section Statistics

variable (t k now : Nat) (x : Stats)

/-- Whether the window closes or not, the statistics keep the counts and take the cycle's time into the minimum and the maximum (R486). -/
theorem statistics_always :
    (statistics t k now x).cycleCount = x.cycleCount ∧ (statistics t k now x).insnCount = x.insnCount ∧
      (statistics t k now x).cycMin = some (min (x.cycMin.getD t) t) ∧ (statistics t k now x).cycMax = some (max (x.cycMax.getD t) t) := by
  rw [← minOpt_eq, ← maxOpt_eq, statistics, closeWindow]
  split_ifs <;> exact ⟨rfl, rfl, rfl, rfl⟩

/-- A window shorter than one second stays open (R486). -/
theorem statistics_open (h : now - x.winStart < Config.statsWindowNs) : statistics t k now x = countCycle t k x :=
  if_neg (Nat.not_le.2 h)

/-- A window of one second closes into the averages (R486). -/
theorem statistics_close (h : Config.statsWindowNs ≤ now - x.winStart) :
    statistics t k now x = { countCycle t k x with
      cycAvg := some ((x.winTime + t) / (x.winCycles + 1))
      ipcAvg := some ((x.winInsns + k) / (x.winCycles + 1))
      ipsAvg := if 0 < x.winTime + t then some ((x.winInsns + k) * 1000000000 / (x.winTime + t)) else x.ipsAvg
      winStart := now
      winCycles := 0
      winInsns := 0
      winTime := 0 } :=
  if_pos h

end Statistics

/-- The statistics of the cycle of `s` that ends at reading `n` (R484, R486). -/
def State.cycleStats (s : State) (n : Nat) : Stats :=
  statistics (n - s.time.cycleStart) (s.stats.insnCount - s.stats.cycInsn0).toNat n s.stats

/-- The end of a cycle at reading `n`: beside the clock memory and the clock byte, which the tick gives, it writes the reading, the
statistics, the event, mode, phase and reply (R484). -/
theorem endTopLevel_cycle {s : State} {n : Nat} {r : List Nat} (hp : s.phase = .cycle) (hclock : s.env.clock = n :: r)
    (hlast : s.env.lastReading ≤ n) :
    ∃ (c : ClockMem) (m : Memory), s.ClockTicked { s with clock := c, mem := m } n ∧
      endTopLevel s = { s with
        clock := c
        mem := m
        time := { s.time with now := n }
        env := { s.env with clock := r, lastReading := n, readings := s.env.readings + 1 }
        stats := { s.cycleStats n with cycleCount := s.stats.cycleCount + 1 }
        trace := s.trace ++ [.cycleExit (s.stats.cycleCount + 1)]
        mode := .cycling
        phase := .idle
        reply := some (.ok []) } := by
  have hread := State.readClock_eq hclock hlast
  have hticked := clockTick_ticked (s := s.readClock) (n := n) (by rw [hread])
  obtain ⟨c, m, htick⟩ := clockTick_rest s.readClock
  rw [htick, hread] at hticked
  refine ⟨c, m, hticked.congr rfl rfl rfl rfl rfl rfl rfl, ?_⟩
  have hcount : (s.cycleStats n).cycleCount = s.stats.cycleCount := (statistics_always _ _ _ _).1
  unfold endTopLevel
  rw [hp, ← hcount]
  dsimp only
  rw [htick, hread]
  rfl

/-- Settles O12: the pop of the last frame, then the end of the startup block or of the cycle. -/
theorem endOfTopLevel : Obligations.EndOfTopLevel := by
  intro s f b hbody hcs hcode hip hcls
  have htop : s.top = some f := by rw [State.top, hcs]; rfl
  have hstep (hp : s.phase ≠ .idle) : step s = .next (endTopLevel (s.popped f s.regs.dbReg s.regs.diReg)) := by
    rw [step_pastEnd hp hbody htop hcode hip, popFrame_nothing b (.inl hcls) (restoreRegs_fclike hcls _), hcs]
    rfl
  refine ⟨fun hp => ?_, fun n r hp hclock hlast => ?_⟩
  · rw [hstep (by rw [hp]; decide)]
    simp only [endTopLevel, State.popped, hp, hcs]
    rfl
  · obtain ⟨c, m, hticked, hend⟩ := endTopLevel_cycle (s := s.popped f s.regs.dbReg s.regs.diReg) hp hclock hlast
    obtain ⟨-, hinsns, hmin, hmax⟩ := statistics_always (n - s.time.cycleStart) (s.stats.insnCount - s.stats.cycInsn0).toNat n s.stats
    refine ⟨_, (hstep (by rw [hp]; decide)).trans (congrArg _ hend), by rw [State.popped, hcs]; rfl, rfl, rfl, rfl, rfl, rfl,
      hticked.congr rfl rfl rfl rfl rfl rfl rfl, rfl, rfl, rfl, List.append_assoc _ _ _, rfl, hinsns, hmin, hmax,
      fun hopen => ?_, fun hclose => ?_⟩
    · dsimp only [State.cycleStats, State.popped]
      rw [statistics_open _ _ _ _ hopen]
      exact ⟨rfl, rfl, rfl, rfl, rfl, rfl, rfl⟩
    · dsimp only [State.cycleStats, State.popped]
      rw [statistics_close _ _ _ _ hclose]
      exact ⟨rfl, rfl, rfl, rfl, rfl, rfl, rfl⟩

end Sys2Proof.Machine

/-! PROOFS. The twelve CALL rows that are accepted: each pushes its frame (42_calls R353 to R356, R360, R361, R370 to R381). -/

namespace Sys2Proof.Machine

open Sys2Proof

/-! ## A CALL row and its operation -/

/-- The command `i` is the micro-command of the operation `op`. -/
def Performs (i : Instr) (op : State → Res Data) : Prop := ∀ s, exec i s = microCmd s fun _ _ s => op s

section Rows

variable (sys : Bool) (m np : BitVec 16) (t x : Descriptor) (pl : List Param)

theorem performs_callFc : Performs (if sys then .callFcSys m t pl else .callFc m t pl) (callFcOp sys m t pl) := by
  cases sys <;> exact fun _ => rfl

theorem performs_callFb : Performs (if sys then .callFbSys m t x pl else .callFb m t x pl) (callFbOp sys m t x pl) := by
  cases sys <;> exact fun _ => rfl

theorem performs_callMi : Performs (if sys then .callMiSys m t pl else .callMi m t pl) (callMiOp sys m t pl) := by
  cases sys <;> exact fun _ => rfl

theorem performs_rawFc : Performs (if sys then .rawFcSys m np t else .rawFc m np t) (rawFcOp sys m np t) := by
  cases sys <;> exact fun _ => rfl

theorem performs_rawFb : Performs (if sys then .rawFbSys m np t else .rawFb m np t) (rawFbOp sys m np t) := by
  cases sys <;> exact fun _ => rfl

theorem performs_rawMi : Performs (if sys then .rawMiSys m np t else .rawMi m np t) (rawMiOp sys m np t) := by
  cases sys <;> exact fun _ => rfl

end Rows

section Performs

variable {i : Instr} {op : State → Res Data} (h : Performs i op) {s : State} {f : Frame} {b : CodeBlock} (hr : s.Running f b)
include h hr

/-- A row whose operation ends by pushing `g` enters it (R353, R380). -/
theorem Performs.enters {g : Frame} {u : State} {db di : BlockNum} (ho : op s = finishCall g (u.setDbDi db di)) :
    exec i s = .next ((u.entered g db di).answer 0) :=
  (h s).trans (microCmd_ok hr ho)

/-- A row whose operation raises faults with that cause; the record names some operand or none (R546). -/
theorem Performs.faults {c : Cause} {o : Option Descriptor} {u : State} (ho : op s = .err ⟨c, o⟩ u) :
    ∃ o, exec i s = .next (u.faultWith c o) :=
  ⟨o, (h s).trans (microCmd_err hr ho)⟩

end Performs

/-! ## The direct rows -/

/-- CALL_FC after its checks and its bindings (R370). -/
theorem callFcOp_bound {s u : State} {cb : CodeBlock} {sys : Bool} {t : Descriptor} {pl : List Param} {w : Width} {n : BlockNum}
    {bs : List (BitVec 16 × Binding)} (ht : decodeDesc t = .ok (.direct (.prim (.blk w (.code (targetKind .fc sys)) n))))
    (hc : s.prog.code (targetKind .fc sys) n = some cb) (hp : ParamsOk cb pl) (hb : bindParams cb pl s = .ok bs u) :
    callFcOp sys 0 t pl s =
      finishCall { u.newFrame (targetKind .fc sys) n cb.tempSize with bind := bs } (u.setDbDi u.regs.dbReg u.regs.diReg) := by
  rw [callFcOp, directCall_accepted (.inl rfl) ht hc hp, hb]
  rfl

/-- CALL_FB after its checks, its data-block operand and its copy-in (R371). -/
theorem callFbOp_copied {s u v : State} {cb : CodeBlock} {sys : Bool} {t x : Descriptor} {pl : List Param} {w : Width} {n m : BlockNum}
    (ht : decodeDesc t = .ok (.direct (.prim (.blk w (.code (targetKind .fb sys)) n))))
    (hc : s.prog.code (targetKind .fb sys) n = some cb) (hp : ParamsOk cb pl) (hx : callInstance x s = .ok m u)
    (hv : copyIn cb m 0 pl u = .ok () v) :
    callFbOp sys 0 t x pl s =
      finishCall
        { v.newFrame (targetKind .fb sys) n cb.tempSize with
          params := paramTuple pl, instDB := m, instBase := 0, saved := some (v.regs.dbReg, v.regs.diReg) }
        (v.setDbDi v.regs.diReg m) := by
  rw [callFbOp, directCall_accepted (.inl rfl) ht hc hp, hx, Res.bind, hv]
  rfl

/-- CALL_MI after its checks, of its DI block too, and its copy-in (R372). -/
theorem callMiOp_copied {s v : State} {cb : CodeBlock} {sys : Bool} {mioff : BitVec 16} {t : Descriptor} {pl : List Param} {w : Width}
    {n m : BlockNum} {base : Nat} (ht : decodeDesc t = .ok (.direct (.prim (.blk w (.code (targetKind .mi sys)) n))))
    (hc : s.prog.code (targetKind .mi sys) n = some cb) (hp : ParamsOk cb pl) (hi : miInstance cb mioff s = .ok (m, base) s)
    (hv : copyIn cb m base pl s = .ok () v) :
    callMiOp sys mioff t pl s =
      finishCall
        { v.newFrame (targetKind .mi sys) n cb.tempSize with
          params := paramTuple pl, instDB := m, instBase := base, saved := some (v.regs.dbReg, v.regs.diReg) }
        (v.setDbDi v.regs.diReg v.regs.diReg) := by
  rw [callMiOp, directCall_accepted (.inr rfl) ht hc hp, hi, Res.bind, hv]
  rfl

/-- No field but TEMP ends past the DI block (R377). -/
theorem not_pastInstance {b : CodeBlock} {base size : Nat}
    (h : ∀ kf ∈ b.iface, kf.2.dir ≠ .temp → base + kf.2.off.toNat + (if kf.2.agg then 48 else kf.2.width.bits) ≤ 8 * size) :
    ¬ PastInstance b base size :=
  fun ⟨kf, hmem, hdir, hlt⟩ => Nat.not_le.2 hlt (h kf hmem hdir)

/-- Settles O48: the parameters are bound, then the frame is pushed. -/
theorem callFcPushesFrame : Obligations.CallFcPushesFrame := by
  intro s u f b cb t pl w n bs sys hr ht hc hp hb
  refine ⟨_, u.length_newFrame (targetKind .fc sys) n cb.tempSize, ?_⟩
  rw [(performs_callFc sys 0 t pl).enters hr (callFcOp_bound ht hc hp hb)]
  cases sys <;> rfl

/-- Settles O50: the data-block operand is resolved, the parameters are copied in, then the frame is pushed. -/
theorem callFbPushesFrame : Obligations.CallFbPushesFrame := by
  intro s u v f b cb t x pl X w wx n m sys hr ht hc hp hX hres hdb hv
  refine ⟨_, v.length_newFrame (targetKind .fb sys) n cb.tempSize, ?_⟩
  rw [(performs_callFb sys 0 t x pl).enters hr (callFbOp_copied ht hc hp (callInstance_accepted hX hres hdb) hv)]
  cases sys <;> rfl

/-- Settles O51: the current DI block is long enough where that is checked, the parameters are copied in, then the frame is pushed. -/
theorem callMiPushesFrame : Obligations.CallMiPushesFrame := by
  rintro s v f b cb t pl w n mioff base sys hr ht hc hp hdb rfl hval hv
  have hinst : miInstance cb mioff s = .ok (s.regs.diReg, miBase s mioff) s :=
    miInstance_accepted hdb fun hset => not_pastInstance (hval hset)
  refine ⟨_, v.length_newFrame (targetKind .mi sys) n cb.tempSize, ?_⟩
  rw [(performs_callMi sys mioff t pl).enters hr (callMiOp_copied ht hc hp hinst hv)]
  cases sys <;> rfl

/-! ## The raw rows -/

theorem namesOtherKind_false {k : BlockKind} {D : Desc} (h : ∀ w k' n, D = .direct (.prim (.blk w k' n)) → k' = .code k) :
    namesOtherKind k D = false := by
  unfold namesOtherKind
  split
  · rw [h _ _ _ rfl]
    exact bne_self_eq_false _
  · rfl

/-- The target of a raw row whose kind is not another: its width, then its number (R355). -/
theorem rawTarget_decoded {s : State} {k : BlockKind} {t : Descriptor} {D : Desc} (hD : decodeDesc t = .ok D)
    (hk : ∀ w k' n, D = .direct (.prim (.blk w k' n)) → k' = .code k) :
    rawTarget k t s =
      if Desc.width D ≠ .w16 then addrErr .widthMismatch s else (fetchOp D s).bind fun v u => .ok (v.extractLsb' 0 16) u := by
  have hnum (v : Data) : v.setWidth 16 = v.extractLsb' 0 16 := BitVec.setWidth_eq_extractLsb' (by decide)
  simp only [rawTarget, decodeArg, hD, Res.bind, namesOtherKind_false hk, hnum, Bool.false_eq_true, if_false]

theorem fetchOp_keeps {D : Desc} {s u : State} {v : Data} (h : fetchOp D s = .ok v u) : Keeps s u := by
  have hkeeps := (Effects.fetchOp (wr := false) (rr := false) D s).keeps
  rwa [h] at hkeeps

/-- A raw row whose header and target are accepted runs its shape-specific part in the state the fetch left (R353, R355). -/
theorem rawCall_accepted {s u : State} {cb : CodeBlock} {sh : ShapeKind} {sys : Bool} {m : BitVec 16} {t : Descriptor} {D : Desc} {v : Data}
    (hm : m = 0 ∨ sh = .mi) (hD : decodeDesc t = .ok D)
    (hk : ∀ w k n, D = .direct (.prim (.blk w k n)) → k = .code (targetKind sh sys)) (hw : Desc.width D = .w16)
    (hf : fetchOp D s = .ok v u) (hc : s.prog.code (targetKind sh sys) (v.extractLsb' 0 16) = some cb)
    (k : BlockNum → CodeBlock → State → Res Data) : rawCall sh sys m 0 t k s = k (v.extractLsb' 0 16) cb u := by
  rw [← (fetchOp_keeps hf).prog] at hc
  simp only [rawCall, callHeaderCheck_ok hm, callTarget, rawTarget_decoded hD hk, hw, hf, Res.bind, lookupBlock, hc, Res.withOpnd,
    ne_eq, not_true_eq_false, if_true, if_false]

/-- Settles O52: the number is fetched and looked up, then each row pushes its frame. -/
theorem rawCalls : Obligations.RawCalls := by
  intro s u f b cb t D v sys hr hD hw hf
  refine ⟨fun hk hc => ⟨_, u.length_newFrame (targetKind .fc sys) (v.extractLsb' 0 16) cb.tempSize, ?_⟩,
    fun hk hc => ⟨⟨_, u.length_newFrame (targetKind .fb sys) (v.extractLsb' 0 16) cb.tempSize, ?_⟩, fun mioff base hdb hbase hval => ?_⟩⟩
  · have hop := rawCall_accepted (sh := .fc) (.inl rfl) hD hk hw hf hc
    rw [(performs_rawFc sys 0 0 t).enters (u := u) (db := u.regs.dbReg) (di := u.regs.diReg) hr (hop _)]
    cases sys <;> rfl
  · have hop := rawCall_accepted (sh := .fb) (.inl rfl) hD hk hw hf hc
    rw [(performs_rawFb sys 0 0 t).enters (u := u) (db := u.regs.dbReg) (di := u.regs.diReg) hr (hop _)]
    cases sys <;> rfl
  · subst hbase
    have hop := rawCall_accepted (sh := .mi) (m := mioff) (.inr rfl) hD hk hw hf hc
    have hinst : miInstance cb mioff u = .ok (u.regs.diReg, miBase u mioff) u :=
      miInstance_accepted hdb fun hset => not_pastInstance (hval hset)
    refine ⟨_, u.length_newFrame (targetKind .mi sys) (v.extractLsb' 0 16) cb.tempSize, ?_⟩
    rw [(performs_rawMi sys mioff 0 t).enters (u := u) (db := u.regs.diReg) (di := u.regs.diReg) hr
      ((hop _).trans (by rw [hinst]; rfl))]
    cases sys <;> rfl

end Sys2Proof.Machine


/-! PROOFS. The CALL rows that fault: what each raises, and that a CALL which faults has pushed nothing (42_calls R353 to R356, R360 to R364,
R372, R375, R377, R402). -/

namespace Sys2Proof.Machine

open Sys2Proof

/-! ## The header -/

theorem directCall_offset {sh : ShapeKind} {m : BitVec 16} (hm : m ≠ 0) (hsh : sh ≠ .mi) (sys : Bool) (t : Descriptor) (pl : List Param)
    (k : BlockNum → CodeBlock → State → Res Data) (s : State) : directCall sh sys m t pl k s = execErr .illegalCommand s := by
  rw [directCall, callHeaderCheck_offset hm hsh]
  rfl

theorem rawCall_offset {sh : ShapeKind} {m : BitVec 16} (hm : m ≠ 0) (hsh : sh ≠ .mi) (sys : Bool) (t : Descriptor)
    (k : BlockNum → CodeBlock → State → Res Data) (s : State) : rawCall sh sys m 0 t k s = execErr .illegalCommand s := by
  rw [rawCall, callHeaderCheck_offset hm hsh]
  rfl

theorem rawCall_params {np : BitVec 16} (hnp : np ≠ 0) (sh : ShapeKind) (sys : Bool) (m : BitVec 16) (t : Descriptor)
    (k : BlockNum → CodeBlock → State → Res Data) (s : State) : rawCall sh sys m np t k s = callErr .badParam s := by
  rw [rawCall, callHeaderCheck_params hnp]
  rfl

/-- `MIOFF` on a row that has none (R353). -/
theorem noOffsetRow_faults {s : State} {f : Frame} {b : CodeBlock} {i : Instr} {m : BitVec 16} (hr : s.Running f b) (hi : NoOffsetRow i m)
    (hm : m ≠ 0) : ∃ o, exec i s = .next (s.faultWith (.exec .illegalCommand) o) := by
  rcases hi with ⟨t, pl, rfl | rfl⟩ | ⟨t, x, pl, rfl | rfl⟩ | ⟨t, rfl | rfl | rfl | rfl⟩
  · exact (performs_callFc false m t pl).faults hr (directCall_offset (sh := .fc) hm (by decide) _ _ _ _ s)
  · exact (performs_callFc true m t pl).faults hr (directCall_offset (sh := .fc) hm (by decide) _ _ _ _ s)
  · exact (performs_callFb false m t x pl).faults hr (directCall_offset (sh := .fb) hm (by decide) _ _ _ _ s)
  · exact (performs_callFb true m t x pl).faults hr (directCall_offset (sh := .fb) hm (by decide) _ _ _ _ s)
  · exact (performs_rawFc false m 0 t).faults hr (rawCall_offset (sh := .fc) hm (by decide) _ _ _ s)
  · exact (performs_rawFc true m 0 t).faults hr (rawCall_offset (sh := .fc) hm (by decide) _ _ _ s)
  · exact (performs_rawFb false m 0 t).faults hr (rawCall_offset (sh := .fb) hm (by decide) _ _ _ s)
  · exact (performs_rawFb true m 0 t).faults hr (rawCall_offset (sh := .fb) hm (by decide) _ _ _ s)

/-- Parameters on a raw shape (R353). -/
theorem rawParams_fault {s : State} {f : Frame} {b : CodeBlock} {i : Instr} {m np : BitVec 16} {t : Descriptor} (hr : s.Running f b)
    (hnp : np ≠ 0)
    (hi : i = .rawFc m np t ∨ i = .rawFcSys m np t ∨ i = .rawFb m np t ∨ i = .rawFbSys m np t ∨ i = .rawMi m np t ∨ i = .rawMiSys m np t) :
    ∃ o, exec i s = .next (s.faultWith (.call .badParam) o) := by
  rcases hi with rfl | rfl | rfl | rfl | rfl | rfl
  · exact (performs_rawFc false m np t).faults hr (rawCall_params hnp _ _ _ _ _ s)
  · exact (performs_rawFc true m np t).faults hr (rawCall_params hnp _ _ _ _ _ s)
  · exact (performs_rawFb false m np t).faults hr (rawCall_params hnp _ _ _ _ _ s)
  · exact (performs_rawFb true m np t).faults hr (rawCall_params hnp _ _ _ _ _ s)
  · exact (performs_rawMi false m np t).faults hr (rawCall_params hnp _ _ _ _ _ s)
  · exact (performs_rawMi true m np t).faults hr (rawCall_params hnp _ _ _ _ _ s)

/-! ## The rows of a target kind -/

/-- A direct row is a direct call whose header is accepted (R351, R353). -/
theorem directRow_performs {i : Instr} {k : BlockKind} {t : Descriptor} {pl : List Param} (hi : DirectRow i k t pl) :
    ∃ sh sys m op, (m = 0 ∨ sh = .mi) ∧ k = targetKind sh sys ∧ Performs i (directCall sh sys m t pl op) := by
  rcases hi with ⟨rfl, rfl⟩ | ⟨rfl, rfl⟩ | ⟨rfl, ⟨x, rfl⟩ | ⟨m, rfl⟩⟩ | ⟨rfl, ⟨x, rfl⟩ | ⟨m, rfl⟩⟩
  · exact ⟨.fc, false, 0, _, .inl rfl, rfl, performs_callFc false 0 t pl⟩
  · exact ⟨.fc, true, 0, _, .inl rfl, rfl, performs_callFc true 0 t pl⟩
  · exact ⟨.fb, false, 0, _, .inl rfl, rfl, performs_callFb false 0 t x pl⟩
  · exact ⟨.mi, false, m, _, .inr rfl, rfl, performs_callMi false m t pl⟩
  · exact ⟨.fb, true, 0, _, .inl rfl, rfl, performs_callFb true 0 t x pl⟩
  · exact ⟨.mi, true, m, _, .inr rfl, rfl, performs_callMi true m t pl⟩

/-- A raw row is a raw call whose header is accepted (R351, R353). -/
theorem rawRow_performs {i : Instr} {k : BlockKind} {t : Descriptor} (hi : RawRow i k t) :
    ∃ sh sys m op, (m = 0 ∨ sh = .mi) ∧ k = targetKind sh sys ∧ Performs i (rawCall sh sys m 0 t op) := by
  rcases hi with ⟨rfl, rfl⟩ | ⟨rfl, rfl⟩ | ⟨rfl, rfl | ⟨m, rfl⟩⟩ | ⟨rfl, rfl | ⟨m, rfl⟩⟩
  · exact ⟨.fc, false, 0, _, .inl rfl, rfl, performs_rawFc false 0 0 t⟩
  · exact ⟨.fc, true, 0, _, .inl rfl, rfl, performs_rawFc true 0 0 t⟩
  · exact ⟨.fb, false, 0, _, .inl rfl, rfl, performs_rawFb false 0 0 t⟩
  · exact ⟨.mi, false, m, _, .inr rfl, rfl, performs_rawMi false m 0 t⟩
  · exact ⟨.fb, true, 0, _, .inl rfl, rfl, performs_rawFb true 0 0 t⟩
  · exact ⟨.mi, true, m, _, .inr rfl, rfl, performs_rawMi true m 0 t⟩

theorem directRow_fc {i : Instr} {k : BlockKind} {m : BitVec 16} {t : Descriptor} {pl : List Param} (hi : DirectRow i k t pl)
    (h : i = .callFc m t pl ∨ i = .callFcSys m t pl) : k = .fc ∨ k = .sfc := by
  rcases h with rfl | rfl <;> simp only [DirectRow, reduceCtorEq, exists_false, or_self, and_false, or_false, false_or] at hi
  · exact .inl hi.1
  · exact .inr hi.1

theorem directRow_fb {i : Instr} {k : BlockKind} {t x : Descriptor} {pl : List Param} (hi : DirectRow i k t pl)
    (h : i = .callFb 0 t x pl ∨ i = .callFbSys 0 t x pl) : ∃ sys, k = targetKind .fb sys ∧ Performs i (callFbOp sys 0 t x pl) := by
  rcases h with rfl | rfl <;> simp only [DirectRow, reduceCtorEq, exists_false, or_self, and_false, or_false, false_or] at hi
  · exact ⟨false, hi.1, performs_callFb false 0 t x pl⟩
  · exact ⟨true, hi.1, performs_callFb true 0 t x pl⟩

theorem directRow_mi {i : Instr} {k : BlockKind} {m : BitVec 16} {t : Descriptor} {pl : List Param} (hi : DirectRow i k t pl)
    (h : i = .callMi m t pl ∨ i = .callMiSys m t pl) : ∃ sys, k = targetKind .mi sys ∧ Performs i (callMiOp sys m t pl) := by
  rcases h with rfl | rfl <;> simp only [DirectRow, reduceCtorEq, exists_false, or_self, and_false, or_false, false_or] at hi
  · exact ⟨false, hi.1, performs_callMi false m t pl⟩
  · exact ⟨true, hi.1, performs_callMi true m t pl⟩

theorem rawRow_mi {i : Instr} {k : BlockKind} {m : BitVec 16} {t : Descriptor} (hi : RawRow i k t)
    (h : i = .rawMi m 0 t ∨ i = .rawMiSys m 0 t) : ∃ sys, k = targetKind .mi sys ∧ Performs i (rawMiOp sys m 0 t) := by
  rcases h with rfl | rfl <;> simp only [RawRow, reduceCtorEq, exists_false, and_false, or_false, false_or] at hi
  · exact ⟨false, hi.1, performs_rawMi false m 0 t⟩
  · exact ⟨true, hi.1, performs_rawMi true m 0 t⟩

/-! ## The target -/

section Target

variable {s u : State} {f : Frame} {b : CodeBlock} {i : Instr} {k : BlockKind} {t : Descriptor} {pl : List Param} {c : Cause}
  (hr : s.Running f b)
include hr

theorem directRow_targetFaults (hi : DirectRow i k t pl) (h : callTarget k false t s = .err ⟨c, some t⟩ u) :
    ∃ o, exec i s = .next (u.faultWith c o) := by
  obtain ⟨sh, sys, m, op, hm, rfl, hperf⟩ := directRow_performs hi
  refine hperf.faults hr (o := some t) ?_
  rw [directCall, callHeaderCheck_ok hm, Res.bind, h]
  rfl

theorem rawRow_targetFaults (hi : RawRow i k t) (h : callTarget k true t s = .err ⟨c, some t⟩ u) :
    ∃ o, exec i s = .next (u.faultWith c o) := by
  obtain ⟨sh, sys, m, op, hm, rfl, hperf⟩ := rawRow_performs hi
  refine hperf.faults hr (o := some t) ?_
  rw [rawCall, callHeaderCheck_ok hm, Res.bind, h]
  rfl

theorem row_targetFaults (hi : DirectRow i k t pl ∨ RawRow i k t) (h : ∀ raw, callTarget k raw t s = .err ⟨c, some t⟩ u) :
    ∃ o, exec i s = .next (u.faultWith c o) :=
  hi.elim (fun hi => directRow_targetFaults hr hi (h false)) fun hi => rawRow_targetFaults hr hi (h true)

end Target

section TargetRaises

variable {s : State} {k : BlockKind} {t : Descriptor}

theorem callTarget_illFormed {e : DescErr} (he : decodeDesc t = .error e) (raw : Bool) :
    callTarget k raw t s = .err ⟨.addr (descReason e), some t⟩ s := by
  cases raw <;> simp only [callTarget, directTarget, rawTarget, decodeArg, he] <;> rfl

/-- A block reference of another kind, before any fetch (R354, R355). -/
theorem callTarget_otherKind {w : Width} {k' : RefKind} {n : BlockNum} (ht : decodeDesc t = .ok (.direct (.prim (.blk w k' n))))
    (hk : k' ≠ .code k) (raw : Bool) : callTarget k raw t s = .err ⟨.call .wrongKind, some t⟩ s := by
  cases raw
  · simp only [callTarget, directTarget, decodeArg, ht, Res.bind, if_neg hk, Bool.false_eq_true, if_false]
    rfl
  · have hother : namesOtherKind k (.direct (.prim (.blk w k' n))) = true := bne_iff_ne.2 hk
    simp only [callTarget, rawTarget, decodeArg, ht, Res.bind, hother, if_true]
    rfl

/-- A target of a direct row that is no block reference (R354). -/
theorem callTarget_noReference {D : Desc} (hD : decodeDesc t = .ok D) (h : ∀ w k' n, D ≠ .direct (.prim (.blk w k' n))) :
    callTarget k false t s = .err ⟨.call .wrongKind, some t⟩ s := by
  have htarget : directTarget k t s = callErr .wrongKind s := by
    simp only [directTarget, decodeArg, hD, Res.bind]
  simp only [callTarget, htarget, Bool.false_eq_true, if_false]
  rfl

/-- A block reference of the row's kind that names no block (R360). -/
theorem callTarget_noBlock {w : Width} {n : BlockNum} (ht : decodeDesc t = .ok (.direct (.prim (.blk w (.code k) n))))
    (hc : s.prog.code k n = none) : callTarget k false t s = .err ⟨.call .noBlock, some t⟩ s := by
  simp only [callTarget, directTarget, decodeArg, ht, Res.bind, lookupBlock, hc, Bool.false_eq_true, if_false, if_true]
  rfl

section Raw

variable {D : Desc} (hD : decodeDesc t = .ok D) (hk : ∀ w k' n, D = .direct (.prim (.blk w k' n)) → k' = .code k)
include hD hk

/-- A raw target that is not 16 bits wide (R355). -/
theorem callTarget_rawWidth (hw : Desc.width D ≠ .w16) : callTarget k true t s = .err ⟨.addr .widthMismatch, some t⟩ s := by
  simp only [callTarget, rawTarget_decoded hD hk, if_pos hw, if_true]
  rfl

/-- A raw target that cannot be fetched (R355). -/
theorem callTarget_rawFetch {x : Raise} {u : State} (hw : Desc.width D = .w16) (hf : fetchOp D s = .err x u) :
    callTarget k true t s = .err ⟨x.cause, some t⟩ u := by
  simp only [callTarget, rawTarget_decoded hD hk, hw, hf, ne_eq, not_true_eq_false, if_true, if_false]
  rfl

/-- A raw target whose number names no block (R360). -/
theorem callTarget_rawNoBlock {v : Data} {u : State} (hw : Desc.width D = .w16) (hf : fetchOp D s = .ok v u)
    (hc : s.prog.code k (v.extractLsb' 0 16) = none) : callTarget k true t s = .err ⟨.call .noBlock, some t⟩ u := by
  rw [← (fetchOp_keeps hf).prog] at hc
  simp only [callTarget, rawTarget_decoded hD hk, hw, hf, Res.bind, lookupBlock, hc, ne_eq, not_true_eq_false, if_true, if_false]
  rfl

end Raw

end TargetRaises

/-! ## The parameter list of a direct row -/

section ListRaises

variable {s : State} {cb : CodeBlock} {pre : List Param} (hpre : ParamsOk cb pre) (p : Param) (post : List Param)
include hpre

/-- A parameter that is no IN, OUT or INOUT field, or that comes twice (R356). -/
theorem checkParams_badParam
    (h : (∀ fd, cb.field (Param.index p) = some fd → fd.dir = .stat ∨ fd.dir = .temp) ∨ Param.index p ∈ pre.map Param.index) :
    checkParams cb (pre ++ p :: post) [] s = .err ⟨.call .badParam, some p.d⟩ s := by
  rw [checkParams_append pre _ [] hpre.1 hpre.2 fun _ _ => List.not_mem_nil, List.append_nil]
  cases hf : cb.field (Param.index p) with
  | none =>
    simp only [checkParams, hf]
    rfl
  | some fd =>
    by_cases hdir : fd.dir = .stat ∨ fd.dir = .temp
    · simp only [checkParams, hf, if_pos hdir]
      rfl
    · have hseen : Param.index p ∈ (pre.map Param.index).reverse :=
        List.mem_reverse.2 (h.resolve_left fun hall => hdir (hall fd hf))
      simp only [checkParams, hf, if_neg hdir, if_pos hseen]
      rfl

/-- A set reserved bit of a parameter word, after the field and the repetition have passed (R356). -/
theorem checkParams_reserved {fd : Field} (hf : cb.field (Param.index p) = some fd) (hstat : fd.dir ≠ .stat) (htemp : fd.dir ≠ .temp)
    (hnew : Param.index p ∉ pre.map Param.index) (hbits : bits p.word 16 48 ≠ 0) :
    checkParams cb (pre ++ p :: post) [] s = .err ⟨.exec .illegalCommand, some p.d⟩ s := by
  have hseen : Param.index p ∉ (pre.map Param.index).reverse := fun hmem => hnew (List.mem_reverse.1 hmem)
  rw [checkParams_append pre _ [] hpre.1 hpre.2 fun _ _ => List.not_mem_nil, List.append_nil]
  simp only [checkParams, hf, hstat, htemp, or_self, if_neg hseen, if_pos hbits, if_false]
  rfl

end ListRaises

section Direct

variable {s u : State} {f : Frame} {b cb : CodeBlock} {i : Instr} {k : BlockKind} {t : Descriptor} {pl : List Param} {w : Width}
  {n : BlockNum} {c : Cause} {o : Option Descriptor} (hr : s.Running f b) (hi : DirectRow i k t pl)
  (ht : decodeDesc t = .ok (.direct (.prim (.blk w (.code k) n)))) (hc : s.prog.code k n = some cb)
include hr hi ht hc

/-- A direct row whose target is a block raises what the check of its list raises (R356). -/
theorem directRow_listFaults (h : checkParams cb pl [] s = .err ⟨c, o⟩ u) : ∃ o, exec i s = .next (u.faultWith c o) := by
  obtain ⟨sh, sys, m, op, hm, rfl, hperf⟩ := directRow_performs hi
  refine hperf.faults hr (o := o) ?_
  have htarget : callTarget (targetKind sh sys) false t s = .ok (n, cb) s := by
    simp only [callTarget, directTarget, decodeArg, ht, Res.bind, lookupBlock, hc, Res.withOpnd, Bool.false_eq_true, if_true, if_false]
  simp only [directCall, callHeaderCheck_ok hm, Res.bind, htarget, h]

variable (hp : ParamsOk cb pl)
include hp

/-- A row of a function raises what its bindings raise (R370). -/
theorem fcRow_bindFaults (hk : k = .fc ∨ k = .sfc) (h : bindParams cb pl s = .err ⟨c, o⟩ u) : ∃ o, exec i s = .next (u.faultWith c o) := by
  refine ⟨o, ?_⟩
  rw [exec_fcRow hr hk hi ht hc hp, h]
  rfl

/-- CALL_FB raises what its data-block operand raises (R361). -/
theorem fbRow_instanceFaults {x : Descriptor} (hix : i = .callFb 0 t x pl ∨ i = .callFbSys 0 t x pl)
    (h : callInstance x s = .err ⟨c, o⟩ u) : ∃ o, exec i s = .next (u.faultWith c o) := by
  obtain ⟨sys, rfl, hperf⟩ := directRow_fb hi hix
  refine hperf.faults hr (o := o) ?_
  rw [callFbOp, directCall_accepted (.inl rfl) ht hc hp, h]
  rfl

/-- CALL_MI raises what the current DI block raises (R372, R377). -/
theorem miRow_instanceFaults {m : BitVec 16} (him : i = .callMi m t pl ∨ i = .callMiSys m t pl)
    (h : miInstance cb m s = .err ⟨c, o⟩ u) : ∃ o, exec i s = .next (u.faultWith c o) := by
  obtain ⟨sys, rfl, hperf⟩ := directRow_mi hi him
  refine hperf.faults hr (o := o) ?_
  rw [callMiOp, directCall_accepted (.inr rfl) ht hc hp, h]
  rfl

end Direct

/-! ## The data block of a function block -/

/-- An operand that is no data block where CALL_FB needs one (R361). -/
theorem callInstance_notDb {s u : State} {x : Descriptor} {X : Desc} {o' : Operand} (hX : decodeDesc x = .ok X)
    (hres : resolveDesc .fetch X s = .ok o' u) (h : ∀ w n, o' ≠ .prim (.blk w .db n)) :
    callInstance x s = .err ⟨.call .notDb, some x⟩ u := by
  simp only [callInstance, decodeArg, hX, Res.bind, hres]
  rfl

/-- A data-block operand of CALL_FB that names no block (R361). -/
theorem callInstance_noBlock {s u : State} {x : Descriptor} {X : Desc} {w : Width} {n : BlockNum} (hX : decodeDesc x = .ok X)
    (hres : resolveDesc .fetch X s = .ok (.prim (.blk w .db n)) u) (hdb : s.prog.hasDb n = false) :
    callInstance x s = .err ⟨.call .noBlock, some x⟩ u := by
  have hprog : u.prog = s.prog := by
    have hkeeps := (Effects.resolveDesc (wr := false) (rr := false) .fetch X s).keeps
    rw [hres] at hkeeps
    exact hkeeps.prog
  simp only [callInstance, decodeArg, hX, Res.bind, hres, hprog, hdb, Bool.false_eq_true, if_false]
  rfl

/-- CALL_MI and RAW_MI without a current DI block (R372). -/
theorem miInstance_absent {s : State} (cb : CodeBlock) (m : BitVec 16) (h : s.prog.hasDb s.regs.diReg = false) :
    miInstance cb m s = .err ⟨.call .noInstance, none⟩ s := by
  rw [miInstance, h]
  rfl

/-- CALL_MI and RAW_MI with a DI block that is too short, where that is checked (R377). -/
theorem miInstance_tooShort {s : State} {cb : CodeBlock} {m : BitVec 16} (h : s.prog.hasDb s.regs.diReg = true)
    (hval : s.cfg.miValidate = true) (hpast : PastInstance cb (miBase s m) (s.areaSize (.db s.regs.diReg))) :
    miInstance cb m s = .err ⟨.call .miRange, none⟩ s := by
  obtain ⟨kf, hmem, hdir, hlt⟩ := hpast
  have hrange : miInRange cb (miBase s m) (s.areaSize (.db s.regs.diReg)) = false := by
    refine List.all_eq_false.2 ⟨kf, hmem, ?_⟩
    rw [Bool.or_eq_true, beq_iff_eq, decide_eq_true_eq, not_or, Nat.not_le]
    exact ⟨hdir, hlt⟩
  rw [miInstance, if_pos h, if_pos ⟨hval, hrange⟩]
  rfl

/-- RAW_MI raises what the current DI block raises, after the fetch of its target (R375, R377). -/
theorem rawMiRow_instanceFaults {s u u' : State} {f : Frame} {b cb : CodeBlock} {i : Instr} {k : BlockKind} {m : BitVec 16} {t : Descriptor}
    {D : Desc} {v : Data} {c : Cause} {o : Option Descriptor} (hr : s.Running f b) (hi : RawRow i k t) (hD : decodeDesc t = .ok D)
    (hk : ∀ w k' n, D = .direct (.prim (.blk w k' n)) → k' = .code k) (hw : Desc.width D = .w16) (hf : fetchOp D s = .ok v u)
    (hc : s.prog.code k (v.extractLsb' 0 16) = some cb) (him : i = .rawMi m 0 t ∨ i = .rawMiSys m 0 t)
    (h : miInstance cb m u = .err ⟨c, o⟩ u') : ∃ o, exec i s = .next (u'.faultWith c o) := by
  obtain ⟨sys, rfl, hperf⟩ := rawRow_mi hi him
  refine hperf.faults hr (o := o) ?_
  rw [rawMiOp, rawCall_accepted (sh := .mi) (.inr rfl) hD hk hw hf hc, h]
  rfl

/-! ## The copy-in -/

/-- The copy-in stops at the first pair that raises, after the effects of those before it (R363). -/
theorem copyIn_raises {cb : CodeBlock} {inst : BlockNum} {base : Nat} {pre : List Param} {p : Param} {u v v' : State} {fd : Field} {x : Raise}
    (hpre : copyIn cb inst base pre u = .ok () v) (hf : cb.field (Param.index p) = some fd) (post : List Param)
    (h : copyInOne inst base fd p.d v = .err x v') : copyIn cb inst base (pre ++ p :: post) u = .err ⟨x.cause, some p.d⟩ v' := by
  rw [copyIn_append pre _ u v hpre]
  simp only [copyIn, hf, h]
  rfl

/-- An actual of another width than its field (R363). -/
theorem copyInOne_badWidth {inst : BlockNum} {base : Nat} {fd : Field} {d : Descriptor} {D : Desc} {s : State} (hagg : fd.agg = false)
    (hdir : fd.dir = .input ∨ fd.dir = .inout) (hd : decodeDesc d = .ok D) (hw : Desc.width D ≠ fd.width) :
    copyInOne inst base fd d s = callErr .badParam s := by
  rw [copyInOne_value hagg hdir, decodeArg, hd]
  exact if_pos hw

/-- An aggregate whose actual is no data-block operand (R364). -/
theorem copyInOne_noBlock {inst : BlockNum} {base : Nat} {fd : Field} {d : Descriptor} {D : Desc} {s u : State} {o' : Operand}
    (hagg : fd.agg = true) (hd : decodeDesc d = .ok D) (hres : resolveDesc .fetch D s = .ok o' u)
    (h : ∀ w q ba, o' ≠ .prim (.db w q ba) ∧ o' ≠ .prim (.di w q ba)) : copyInOne inst base fd d s = callErr .badParam u := by
  rw [copyInOne_aggregate hagg, copyInAggregate]
  simp only [decodeArg, hd, Res.bind, hres]
  split
  · exact absurd rfl (h _ _ _).1
  · exact absurd rfl (h _ _ _).2
  · rfl

/-! ## A CALL that faults has pushed nothing -/

/-- The call stack, the per-step registers and the phase are as before. -/
structure Stays (s t : State) : Prop where
  cs : t.cs = s.cs
  step : t.step = s.step
  phase : t.phase = s.phase

theorem Stays.refl (s : State) : Stays s s := ⟨rfl, rfl, rfl⟩

theorem Stays.trans {s t u : State} (h : Stays s t) (k : Stays t u) : Stays s u :=
  ⟨k.cs.trans h.cs, k.step.trans h.step, k.phase.trans h.phase⟩

/-- A fetch writes no frame (R205). -/
theorem Effects.stays {s t : State} (h : Effects false false s t) : Stays s t :=
  ⟨congrArg (·.cs) h.fetch.1, congrArg (·.step) h.fetch.1, congrArg (·.phase) h.fetch.1⟩

theorem Stays.bind {α β : Type} {s : State} {r : Res α} {k : α → State → Res β} (h : Stays s r.state)
    (hk : ∀ a t, Stays t (k a t).state) : Stays s (r.bind k).state := by
  cases r with
  | ok a t => exact h.trans (hk a t)
  | err x t => exact h

theorem Stays.withOpnd {α : Type} {s : State} {r : Res α} (d : Descriptor) (h : Stays s r.state) : Stays s (r.withOpnd d).state := by
  rw [Res.withOpnd_state]
  exact h

theorem Stays.writeBytes_db (n : BlockNum) (bs : List Byte) : ∀ (s : State) (c : Nat), Stays s (s.writeBytes (.db n) c bs) := by
  induction bs with
  | nil => exact fun s _ => .refl s
  | cons v r ih =>
    intro s c
    have hbyte : Stays s (s.setByte (.db n) c v) := ⟨rfl, rfl, rfl⟩
    exact hbyte.trans (ih _ (c + 1))

/-- A write to a data block writes no frame (R102, R103). -/
theorem Stays.memWrite_db (n : BlockNum) (ba : Nat) (w : Width) (v : Data) (s : State) : Stays s (memWrite (.db n) ba w v s).state := by
  cases hx : rangeCheck (s.areaSize (.db n)) ba w with
  | some r =>
    rw [memWrite_err hx]
    exact .refl s
  | none =>
    rw [memWrite_ok hx, Res.state_ok, State.writeVal_eq]
    exact .writeBytes_db n _ s _

theorem Stays.copyInOne (inst : BlockNum) (base : Nat) (fd : Field) (d : Descriptor) (s : State) :
    Stays s (copyInOne inst base fd d s).state := by
  unfold Machine.copyInOne copyInAggregate
  split_ifs
  · refine .bind (Effects.decodeArg d s).stays fun D u => .bind (Effects.resolveDesc _ D u).stays fun o v => ?_
    split
    · exact .bind (Effects.liveBlock _ _ v).stays fun n t => .memWrite_db _ _ _ _ t
    · exact .bind (Effects.liveBlock _ _ v).stays fun n t => .memWrite_db _ _ _ _ t
    · exact .refl v
  · refine .bind (Effects.decodeArg d s).stays fun D u => ?_
    split_ifs
    · exact .refl u
    · exact .bind (Effects.fetchOp D u).stays fun v t => .memWrite_db _ _ _ _ t
  · exact .refl s

theorem Stays.copyIn (b : CodeBlock) (inst : BlockNum) (base : Nat) (pl : List Param) : ∀ s, Stays s (copyIn b inst base pl s).state := by
  induction pl with
  | nil => exact fun s => .refl s
  | cons p r ih =>
    refine fun s => .bind (.withOpnd _ ?_) fun _ u => ih u
    split
    · exact .refl s
    · exact .copyInOne _ _ _ _ s

/-- What a CALL that raises, and one that completes, leave of the run: a raise nothing changed, a completion the phase. -/
def PushesLast (s : State) : Res Data → Prop
  | .err _ t => Stays s t
  | .ok _ t => t.phase = s.phase

theorem PushesLast.bind {α : Type} {s : State} {r : Res α} {k : α → State → Res Data} (h : Stays s r.state)
    (hk : ∀ a t, PushesLast t (k a t)) : PushesLast s (r.bind k) := by
  cases r with
  | err x t => exact h
  | ok a t =>
    have hlast := hk a t
    rw [Res.bind]
    cases hka : k a t with
    | err x u => rw [hka] at hlast; exact h.trans hlast
    | ok v u => rw [hka] at hlast; exact hlast.trans h.phase

theorem directCall_pushesLast {sh : ShapeKind} {sys : Bool} {m : BitVec 16} {t : Descriptor} {pl : List Param}
    {k : BlockNum → CodeBlock → State → Res Data} (hk : ∀ n b u, PushesLast u (k n b u)) (s : State) :
    PushesLast s (directCall sh sys m t pl k s) :=
  .bind (Effects.callHeaderCheck _ _ _ _ s).stays fun _ u => .bind (Effects.callTarget _ _ _ u).stays fun nb v =>
    .bind (Effects.checkParams _ _ _ v).stays fun _ w => hk nb.1 nb.2 w

theorem rawCall_pushesLast {sh : ShapeKind} {sys : Bool} {m np : BitVec 16} {t : Descriptor}
    {k : BlockNum → CodeBlock → State → Res Data} (hk : ∀ n b u, PushesLast u (k n b u)) (s : State) :
    PushesLast s (rawCall sh sys m np t k s) :=
  .bind (Effects.callHeaderCheck _ _ _ _ s).stays fun _ u => .bind (Effects.callTarget _ _ _ u).stays fun nb v => hk nb.1 nb.2 v

section Shapes

variable (sys : Bool) (m np : BitVec 16) (t x : Descriptor) (pl : List Param) (s : State)

theorem callFcOp_pushesLast : PushesLast s (callFcOp sys m t pl s) := by
  refine directCall_pushesLast (fun n b u => ?_) s
  exact .bind (Effects.bindParams b pl u).stays fun _ _ => rfl

theorem callFbOp_pushesLast : PushesLast s (callFbOp sys m t x pl s) := by
  refine directCall_pushesLast (fun n b u => ?_) s
  exact .bind (Effects.callInstance x u).stays fun inst v => .bind (.copyIn b inst 0 pl v) fun _ _ => rfl

theorem callMiOp_pushesLast : PushesLast s (callMiOp sys m t pl s) := by
  refine directCall_pushesLast (fun n b u => ?_) s
  exact .bind (Effects.miInstance b m u).stays fun mb v => .bind (.copyIn b mb.1 mb.2 pl v) fun _ _ => rfl

theorem rawFcOp_pushesLast : PushesLast s (rawFcOp sys m np t s) := by
  refine rawCall_pushesLast (fun n b u => ?_) s
  rfl

theorem rawFbOp_pushesLast : PushesLast s (rawFbOp sys m np t s) := by
  refine rawCall_pushesLast (fun n b u => ?_) s
  rfl

theorem rawMiOp_pushesLast : PushesLast s (rawMiOp sys m np t s) := by
  refine rawCall_pushesLast (fun n b u => ?_) s
  exact .bind (Effects.miInstance b m u).stays fun _ _ => rfl

end Shapes

/-- Each of the twelve rows pushes last (R351, R353). -/
theorem isCall_performs {i : Instr} (hi : isCall i) : ∃ op, Performs i op ∧ ∀ s, PushesLast s (op s) := by
  rcases hi with ⟨m, t, pl, rfl | rfl | rfl | rfl⟩ | ⟨m, t, x, pl, rfl | rfl⟩ | ⟨m, n, t, rfl | rfl | rfl | rfl | rfl | rfl⟩
  · exact ⟨_, performs_callFc false m t pl, callFcOp_pushesLast _ _ _ _⟩
  · exact ⟨_, performs_callFc true m t pl, callFcOp_pushesLast _ _ _ _⟩
  · exact ⟨_, performs_callMi false m t pl, callMiOp_pushesLast _ _ _ _⟩
  · exact ⟨_, performs_callMi true m t pl, callMiOp_pushesLast _ _ _ _⟩
  · exact ⟨_, performs_callFb false m t x pl, callFbOp_pushesLast _ _ _ _ _⟩
  · exact ⟨_, performs_callFb true m t x pl, callFbOp_pushesLast _ _ _ _ _⟩
  · exact ⟨_, performs_rawFc false m n t, rawFcOp_pushesLast _ _ _ _⟩
  · exact ⟨_, performs_rawFc true m n t, rawFcOp_pushesLast _ _ _ _⟩
  · exact ⟨_, performs_rawFb false m n t, rawFbOp_pushesLast _ _ _ _⟩
  · exact ⟨_, performs_rawFb true m n t, rawFbOp_pushesLast _ _ _ _⟩
  · exact ⟨_, performs_rawMi false m n t, rawMiOp_pushesLast _ _ _ _⟩
  · exact ⟨_, performs_rawMi true m n t, rawMiOp_pushesLast _ _ _ _⟩

/-- A CALL after which the core no longer runs has raised, so its frame was not pushed (R353, R402). -/
theorem faultedCall_stays {s t : State} {f : Frame} {b : CodeBlock} {i : Instr} (hr : s.Running f b) (hi : isCall i)
    (he : exec i s = .next t) (hidle : t.phase = .idle) : t.cs = s.cs ∧ t.step = s.step := by
  obtain ⟨op, hperf, hlast⟩ := isCall_performs hi
  have hop := hlast s
  rw [hperf s, microCmd_running hr] at he
  cases h : op s with
  | ok v u =>
    rw [h] at he hop
    cases he
    exact absurd (hop.symm.trans hidle) hr.active
  | err x u =>
    rw [h] at he hop
    cases he
    exact ⟨hop.cs, hop.step⟩

/-- Settles O53: header, target, parameter list, data block, bindings and copy-in in the order of R353, the raw target, and the stack. -/
theorem callFaults : Obligations.CallFaults := by
  refine ⟨fun s f b i m hr hi hm => noOffsetRow_faults hr hi hm, fun s f b t m np i hr hnp hi => rawParams_fault hr hnp hi,
    fun s f b t pl k i hr hi => ⟨fun e he => row_targetFaults hr hi (callTarget_illFormed he),
      fun w k' n ht hk => row_targetFaults hr hi (callTarget_otherKind ht hk)⟩,
    fun s f b t pl k i hr hi => ⟨fun D hD hno => directRow_targetFaults hr hi (callTarget_noReference hD hno), fun w n ht => ?_⟩,
    fun s f b t k i D hr hi hD hk => ⟨fun hw => rawRow_targetFaults hr hi (callTarget_rawWidth hD hk hw), fun hw => ?_⟩,
    fun s t f b i hr hi he hidle => faultedCall_stays hr hi he hidle⟩
  · refine ⟨fun hc => directRow_targetFaults hr hi (callTarget_noBlock ht hc), fun cb hc => ⟨?_, fun hp => ⟨?_, ?_, ?_, ?_⟩⟩⟩
    · rintro pre p post rfl hpre
      exact ⟨fun h => directRow_listFaults hr hi ht hc (checkParams_badParam hpre p post h),
        fun fd hf hstat htemp hnew hbits => directRow_listFaults hr hi ht hc (checkParams_reserved hpre p post hf hstat htemp hnew hbits)⟩
    · intro x X o' u hix hX hres
      refine ⟨fun hno => fbRow_instanceFaults hr hi ht hc hp hix (callInstance_notDb hX hres hno), ?_⟩
      rintro wx n' rfl hdb
      exact fbRow_instanceFaults hr hi ht hc hp hix (callInstance_noBlock hX hres hdb)
    · intro m him
      exact ⟨fun hdb => miRow_instanceFaults hr hi ht hc hp him (miInstance_absent cb m hdb),
        fun hdb hval hpast => miRow_instanceFaults hr hi ht hc hp him (miInstance_tooShort hdb hval hpast)⟩
    · exact fun m him x u h => fcRow_bindFaults hr hi ht hc hp (directRow_fc hi him) h
    · intro inst base u hin
      have copyFaults := (exec_fbRow hr hi ht hc hp hin).1
      refine ⟨copyFaults, ?_⟩
      rintro pre p post v fd D rfl hpre hf hD
      exact ⟨fun hagg hdir hw => copyFaults _ _ (copyIn_raises hpre hf post (copyInOne_badWidth hagg hdir hD hw)),
        fun hagg o' v' hres hno => copyFaults _ _ (copyIn_raises hpre hf post (copyInOne_noBlock hagg hD hres hno))⟩
  · refine ⟨fun x u hf => rawRow_targetFaults hr hi (callTarget_rawFetch hD hk hw hf), fun v u hf =>
      ⟨fun hc => rawRow_targetFaults hr hi (callTarget_rawNoBlock hD hk hw hf hc), fun cb m hc him => ?_⟩⟩
    rw [← (fetchOp_keeps hf).prog, ← (fetchOp_keeps hf).cfg]
    exact ⟨fun hdb => rawMiRow_instanceFaults hr hi hD hk hw hf hc him (miInstance_absent cb m hdb),
      fun hdb hval hpast => rawMiRow_instanceFaults hr hi hD hk hw hf hc him (miInstance_tooShort hdb hval hpast)⟩

end Sys2Proof.Machine


/-! PROOFS. A call of an empty function block and its return (42_calls R371, R390, R391, R400, R401, 43_dispatch_loop R424). -/

namespace Sys2Proof.Machine

open Sys2Proof

/-- The state after frame `f`, which executes, has advanced (R424). -/
def State.advanced (s : State) (f : Frame) : State :=
  { s with cs := s.cs.set s.step.e { f with ip := ((f.ip : Int) + s.step.rj).toNat } }

/-- The state after an instruction of frame `f` has ended: the event, the advance and the count (R421, R423, R424). -/
def State.insnEnded (s : State) (f : Frame) : State :=
  ((s.emit (.postInsn s.step.loc.kind s.step.loc.num s.step.loc.ip)).advanced f).counted

/-- An advance that does not lead below 0 moves the pointer of the executing frame (R424). -/
theorem advance_forward {s : State} {f : Frame} (hf : s.cs[s.step.e]? = some f) (hip : 0 ≤ (f.ip : Int) + s.step.rj) :
    advance s = .ok (.ok () (s.advanced f)) := by
  rw [advance_frame hf, if_neg (Int.not_lt.2 hip), State.modifyExec, State.modifyExec_eq_set _ hf]
  rfl

/-- Between two refresh points an instruction is only counted (R421, R426). -/
theorem countInsn_noRefresh {s : State} (h : (s.stats.insnCount + 1).toNat % Config.batch ≠ 0) : countInsn s = .ok () s.counted :=
  if_neg h

/-- The end of an instruction that neither leaves its block below 0 nor completes a batch (R421 to R424). -/
theorem step_insnEnd {s : State} {run : BodyRun} {f : Frame} (hp : s.phase ≠ .idle) (hbody : s.body = some run)
    (hdone : run.insn.next run.replies = none) (hf : s.cs[s.step.e]? = some f) (hip : 0 ≤ (f.ip : Int) + s.step.rj)
    (hcount : (s.stats.insnCount + 1).toNat % Config.batch ≠ 0) : step s = .next (s.insnEnded f) := by
  have hstep : step s = endInsn s := by simp only [step, if_neg hp, hbody, bodyStep, hdone]
  have hadvance := advance_forward (s := s.emit (.postInsn s.step.loc.kind s.step.loc.num s.step.loc.ip)) hf hip
  simp only [hstep, endInsn, hadvance, Res.bind, countInsn_noRefresh (s := (s.emit _).advanced f) hcount]
  rfl

theorem State.top_eq {s : State} {l : List Frame} {g : Frame} (h : s.cs = l ++ [g]) : s.top = some g := by
  rw [State.top, ← List.getLast?_eq_getElem?, h, List.getLast?_concat]

/-- The frame that a call of FB `n` without parameters pushes for data block `m`, the caller's registers saved (R371, R381). -/
def fbFrame (n m : BlockNum) (locals : List Byte) (db di : BlockNum) : Frame :=
  ⟨.fb, n, 0, locals, [], [], [], false, .fblike, m, 0, some (db, di)⟩

section AfterCall

variable {s : State} {f : Frame} {run : BodyRun} (hf : s.cs[s.step.e]? = some f) (g : Frame) (db di : BlockNum)
include hf

/-- The calling instruction ends below the frame it has pushed: its own pointer advances (R424). -/
theorem entered_insnEnded_cs :
    (((s.entered g db di).answer 0).insnEnded f).cs =
      s.cs.set s.step.e { f with ip := ((f.ip : Int) + s.step.rj).toNat } ++ [g] :=
  List.set_append_left _ _ (List.getElem?_eq_some_iff.1 hf).1

theorem step_entered (hp : s.phase ≠ .idle) (hbody : s.body = some run) (hdone : run.insn.next (run.replies ++ [0]) = none)
    (hip : 0 ≤ (f.ip : Int) + s.step.rj) (hcount : (s.stats.insnCount + 1).toNat % Config.batch ≠ 0) :
    step ((s.entered g db di).answer 0) = .next (((s.entered g db di).answer 0).insnEnded f) := by
  have hanswered : ((s.entered g db di).answer 0).body = some { run with replies := run.replies ++ [0] } := by
    rw [State.answer_body]
    exact congrArg (Option.map _) hbody
  have hframe : (s.cs ++ [g])[s.step.e]? = some f := by rw [List.getElem?_append_left (List.getElem?_eq_some_iff.1 hf).1, hf]
  exact step_insnEnd hp hanswered hdone hframe hip hcount

end AfterCall

/-- A call of a function block without parameters (R371). -/
theorem exec_callFb_bare {s : State} {f : Frame} {b cb : CodeBlock} {t x : Descriptor} {w wx : Width} {n m : BlockNum} (hr : s.Running f b)
    (ht : decodeDesc t = .ok (.direct (.prim (.blk w (.code .fb) n)))) (hc : s.prog.code .fb n = some cb)
    (hx : decodeDesc x = .ok (.direct (.prim (.blk wx .db m)))) (hdb : s.prog.hasDb m = true) :
    ∃ locals, exec (.callFb 0 t x []) s =
      .next ((s.entered (fbFrame n m locals s.regs.dbReg s.regs.diReg) s.regs.diReg m).answer 0) := by
  have hnoParams : ParamsOk cb [] := ⟨nofun, List.nodup_nil⟩
  obtain ⟨locals, -, hcall⟩ := callFbPushesFrame s s s f b cb t x [] _ w wx n m false hr ht hc hnoParams hx rfl hdb rfl
  exact ⟨locals, hcall⟩

/-- Settles O54: the call, the end of the calling instruction, and the pop of the empty block. -/
theorem callReturn : Obligations.CallReturn := by
  intro s f b cb run t x w wx n m hr hdepth hbody hdone hcount hip ht hc hempty hx hdb
  obtain ⟨locals, hcall⟩ := exec_callFb_bare hr ht hc hx hdb
  have hend := step_entered hr.frame (fbFrame n m locals s.regs.dbReg s.regs.diReg) s.regs.diReg m hr.active hbody hdone hip hcount
  have hcs := entered_insnEnded_cs hr.frame (fbFrame n m locals s.regs.dbReg s.regs.diReg) s.regs.diReg m
  have hcaller : s.cs.set s.step.e { f with ip := ((f.ip : Int) + s.step.rj).toNat } ≠ [] := by
    rw [Ne, List.set_eq_nil_iff]
    exact fun hnil => by rw [hnil] at hdepth; cases hdepth
  have hpast : cb.len ≤ 0 := by rw [CodeBlock.len, hempty, List.length_nil]
  have hpop := (popRestores (((s.entered _ _ _).answer 0).insnEnded f) _ cb hr.active rfl (State.top_eq hcs) hc hpast
    (by rw [hcs, List.dropLast_concat]; exact hcaller)).2 s.regs.dbReg s.regs.diReg rfl rfl (.inr rfl)
  refine ⟨_, _, _, hcall, rfl, rfl, List.length_append, hend, hpop, ?_, ?_, ?_, ?_⟩
  · rw [State.popped, hcs]
    exact List.dropLast_concat
  · rfl
  · rfl
  · exact List.append_assoc _ _ _

end Sys2Proof.Machine

/-! PROOFS. The end of an instruction and the refresh that follows a batch, the jumps, the parenthesis stack and the MCR stack
(43_dispatch_loop R421 to R447, 44_scheduler R510, R512). -/

namespace Sys2Proof.Machine

open Sys2Proof

/-! ## The start and the end of an instruction -/

/-- A step between instructions fetches the next one of the top frame's block (R421). -/
theorem step_begins {s : State} {f : Frame} {b : CodeBlock} {i : Insn} (hp : s.phase ≠ .idle) (hbody : s.body = none)
    (htop : s.top = some f) (hcode : s.codeOf f = some b) (hi : b.insns[f.ip]? = some i) :
    step s = .next { s with step := ⟨1, s.cs.length - 1, false, ⟨f.kind, f.num, f.ip⟩⟩, body := some ⟨i, []⟩ } := by
  simp only [step, if_neg hp, hbody, beginInsn, htop, hcode, hi, State.depth]

/-- A step of a body that answers DONE ends the instruction (R422). -/
theorem step_done {s : State} {run : BodyRun} (hp : s.phase ≠ .idle) (hbody : s.body = some run)
    (hdone : run.insn.next run.replies = none) : step s = endInsn s := by
  simp only [step, if_neg hp, hbody, bodyStep, hdone]

/-- The event that an instruction ends with (R421, R566). -/
def State.postInsn (s : State) : State := s.emit (.postInsn s.step.loc.kind s.step.loc.num s.step.loc.ip)

/-- An advance below 0 raises after the event (R424). -/
theorem endInsn_negative {s : State} {f : Frame} (hf : s.cs[s.step.e]? = some f) (hip : (f.ip : Int) + s.step.rj < 0) :
    endInsn s = .next (s.postInsn.faultWith (.exec .negativeIp) none) := by
  have hadvance : advance s.postInsn = .ok (execErr .negativeIp s.postInsn) := (advance_frame (s := s.postInsn) hf).trans (if_pos hip)
  rw [State.postInsn] at hadvance
  simp only [endInsn, hadvance]
  rfl

/-- The two watchdogs at a reading: the run-time check first, both strict (R510, R512). -/
def State.watched (s : State) : State :=
  if s.cfg.runLimit > 0 ∧ s.time.now - s.time.runStart > s.cfg.runLimit then s.faultWith .maintenance none
  else if s.time.now - s.time.cycleStart > s.cfg.cycleLimit then s.faultWith .cycleTime none
  else s

/-- The end of an instruction that moves its pointer: the count, and after a full batch the reading, the tick and the watchdogs (R421,
R424, R426). -/
theorem endInsn_forward {s : State} {f : Frame} (hf : s.cs[s.step.e]? = some f) (hip : 0 ≤ (f.ip : Int) + s.step.rj) :
    endInsn s = .next
      (if (s.stats.insnCount + 1).toNat % 64 = 0 then (clockTick (s.insnEnded f).readClock).watched else s.insnEnded f) := by
  have hadvance : advance s.postInsn = .ok (.ok () (s.postInsn.advanced f)) := advance_forward (s := s.postInsn) hf hip
  rw [State.postInsn] at hadvance
  simp only [endInsn, hadvance, Res.bind]
  split_ifs with hbatch
  · have hcount : countInsn (s.postInsn.advanced f) = refresh (s.insnEnded f) := if_pos hbatch
    rw [State.postInsn] at hcount
    rw [hcount]
    unfold refresh State.watched
    dsimp only
    split_ifs <;> rfl
  · have hcount : countInsn (s.postInsn.advanced f) = .ok () (s.insnEnded f) := countInsn_noRefresh hbatch
    rw [State.postInsn] at hcount
    rw [hcount]

/-- Settles O8: the fetch, the advance below 0, and the counted end. -/
theorem insnBeginEnd : Obligations.InsnBeginEnd := by
  refine ⟨fun s f b i hp hbody htop hcode hi => step_begins hp hbody htop hcode hi, fun s run f hp hbody hdone hf => ⟨fun hip => ?_,
    fun hip hcount => step_insnEnd hp hbody hdone hf hip hcount⟩⟩
  rw [step_done hp hbody hdone, endInsn_negative hf hip]
  rfl

/-! ## The refresh -/

/-- A new pointer leaves the local data of every frame alone. -/
theorem State.byteAt_loc_advanced {s t : State} {f : Frame} (hf : s.cs[s.step.e]? = some f) (ht : t.cs = (s.advanced f).cs) (j c : Nat) :
    t.byteAt (.loc j) c = s.byteAt (.loc j) c := by
  have hlt := (List.getElem?_eq_some_iff.1 hf).1
  simp only [State.byteAt, ht, State.advanced, List.getElem?_set]
  by_cases hj : s.step.e = j
  · rw [if_pos hj, ← hj, if_pos hlt, hf]
  · rw [if_neg hj]

/-- Between instructions the watchdogs write mode, phase, record and reply, and those only when one faults (R512, R545). -/
theorem State.watched_outcome {s : State} (hbody : s.body = none) :
    ∃ (m : Mode) (p : Phase) (e : ErrRec) (r : Option HostReply),
      s.watched = { s with mode := m, phase := p, err := e, reply := r } ∧
      (if s.cfg.runLimit > 0 ∧ s.time.now - s.time.runStart > s.cfg.runLimit then
        m = .maint ∧ p = .idle ∧ e = ⟨4, some 1, some s.step.loc, none⟩ ∧ r = some (.failed e)
      else if s.time.now - s.time.cycleStart > s.cfg.cycleLimit then
        m = .timefault ∧ p = .idle ∧ e = ⟨3, some 1, some s.step.loc, none⟩ ∧ r = some (.failed e)
      else m = s.mode ∧ p = s.phase ∧ e = s.err ∧ r = s.reply) := by
  unfold State.watched
  split_ifs
  · exact ⟨_, _, _, _, by rw [State.faultWith, State.takeFault, hbody]; rfl, rfl, rfl, rfl, rfl⟩
  · exact ⟨_, _, _, _, by rw [State.faultWith, State.takeFault, hbody]; rfl, rfl, rfl, rfl, rfl⟩
  · exact ⟨_, _, _, _, rfl, rfl, rfl, rfl, rfl⟩

/-- The reading `n` and the tick it brings write the clock memory, its byte and `NOW` (R510, R521). -/
theorem clockTick_readClock {s : State} {n : Nat} {r : List Nat} (hclock : s.env.clock = n :: r) (hlast : s.env.lastReading ≤ n) :
    s.ClockTicked (clockTick s.readClock) n ∧ ∃ (c : ClockMem) (m : Memory), clockTick s.readClock = { s with
      clock := c
      mem := m
      time := { s.time with now := n }
      env := { s.env with clock := r, lastReading := n, readings := s.env.readings + 1 } } := by
  have hread := State.readClock_eq hclock hlast
  have hticked := clockTick_ticked (s := s.readClock) (n := n) (by rw [hread])
  obtain ⟨c, m, htick⟩ := clockTick_rest s.readClock
  refine ⟨hticked.congr (by rw [hread]) (by rw [hread]) (by rw [hread]) (by rw [hread]) rfl rfl rfl, c, m, ?_⟩
  rw [htick, hread]

/-- Settles O9: the counted end of the instruction, the reading with its tick, and the two watchdogs. -/
theorem watchdogRefresh : Obligations.WatchdogRefresh := by
  intro s run f n r hp hbody hdone hf hip hbatch hclock hlast
  obtain ⟨hticked, c, m, hread⟩ := clockTick_readClock (s := s.insnEnded f) hclock hlast
  have hend : step s = .next (clockTick (s.insnEnded f).readClock).watched := by
    rw [step_done hp hbody hdone, endInsn_forward hf hip, if_pos hbatch]
  rw [hread] at hend hticked
  obtain ⟨mode, phase, e, reply, hwatched, houtcome⟩ := State.watched_outcome (s := { s.insnEnded f with
    clock := c, mem := m, time := { s.time with now := n }
    env := { s.env with clock := r, lastReading := n, readings := s.env.readings + 1 } }) rfl
  exact ⟨_, hend.trans (congrArg _ hwatched), rfl, rfl, rfl, rfl, rfl, rfl, rfl, hticked.congr rfl rfl rfl rfl rfl rfl rfl,
    State.byteAt_loc_advanced hf rfl, rfl, rfl, rfl, houtcome⟩

/-! ## Jumps -/

section Jumps

variable {s : State} {f : Frame} {b : CodeBlock} (hr : s.Running f b)
include hr

theorem exec_jumpRel (imm : BitVec 32) : exec (.jumpRel imm) s = .next ((s.setRj imm.toInt).answer 0) := by
  change execJumpRel imm s = _
  unfold execJumpRel
  exact microCmd_ok hr rfl

theorem exec_jumpLabel {l : BitVec 32} {i : Nat} (hl : b.labels.lookup l = some i) :
    exec (.jumpLabel l) s = .next ((s.setRj ((i : Int) - f.ip)).answer 0) := by
  change execJumpLabel l s = _
  unfold execJumpLabel
  exact microCmd_ok hr (by rw [hl])

theorem exec_jumpLabel_absent {l : BitVec 32} (hl : b.labels.lookup l = none) :
    exec (.jumpLabel l) s = .next (s.faultWith (.exec .unknownLabel) none) := by
  change execJumpLabel l s = _
  unfold execJumpLabel
  exact microCmd_err hr (x := ⟨.exec .unknownLabel, none⟩) (by rw [hl]; rfl)

theorem exec_blockEnd : exec .blockEnd s = .next ((s.setRj ((b.insns.length : Int) - f.ip)).answer 0) := by
  change execBlockEnd s = _
  unfold execBlockEnd
  exact microCmd_ok hr rfl

/-- When a body ends on a jump, the pointer of the executing frame is at the jump's target (R424). -/
theorem step_jumped {run : BodyRun} {d : Int} {target : Nat} (hbody : s.body = some run) (hdone : run.insn.next (run.replies ++ [0]) = none)
    (hcount : (s.stats.insnCount + 1).toNat % Config.batch ≠ 0) (ht : (f.ip : Int) + d = target) :
    ∃ u : State, step ((s.setRj d).answer 0) = .next u ∧ u.cs = s.cs.set s.step.e { f with ip := target } := by
  have hanswered : ((s.setRj d).answer 0).body = some { run with replies := run.replies ++ [0] } := by
    rw [State.answer_body]
    exact congrArg (Option.map _) hbody
  have hforward : 0 ≤ (f.ip : Int) + d := by omega
  refine ⟨_, step_insnEnd hr.active hanswered hdone hr.frame hforward hcount, ?_⟩
  have hip : ((f.ip : Int) + d).toNat = target := by omega
  rw [← hip]
  rfl

end Jumps

/-- Settles O35: the distance that each jump sets, and the end of an instruction after it. -/
theorem jumpsSetTheAdvance : Obligations.JumpsSetTheAdvance := by
  intro s f b hr
  refine ⟨fun imm => exec_jumpRel hr imm, fun l i hl => exec_jumpLabel hr hl, fun l hl => exec_jumpLabel_absent hr hl, exec_blockEnd hr,
    fun run i target hbody hdone hcount hi => ?_⟩
  have jumped : ∀ {d : Int}, exec i s = .next ((s.setRj d).answer 0) → (f.ip : Int) + d = target →
      ∃ t u : State, exec i s = .next t ∧ step t = .next u ∧ u.cs = s.cs.set s.step.e { f with ip := target } := fun hexec ht => by
    obtain ⟨u, hstep, hcs⟩ := step_jumped hr hbody hdone hcount ht
    exact ⟨_, u, hexec, hstep, hcs⟩
  rcases hi with ⟨imm, rfl, ht⟩ | ⟨l, rfl, hl⟩ | ⟨rfl, rfl⟩
  · exact jumped (exec_jumpRel hr imm) ht.symm
  · exact jumped (exec_jumpLabel hr hl) (by omega)
  · exact jumped (exec_blockEnd hr) (by omega)

/-! ## The parenthesis stack and the MCR stack -/

section Stacks

variable {s : State} {f : Frame} {b : CodeBlock} (hr : s.Running f b)
include hr

/-- A change of the executing frame, which a micro-command knows, replaces it on the stack. -/
theorem State.Running.modifyExec (g : Frame → Frame) : s.modifyExec g = { s with cs := s.cs.set s.step.e (g f) } := by
  rw [State.modifyExec, State.modifyExec_eq_set g hr.frame]

theorem exec_parenPush {e : BitVec 16} (hlen : f.paren.length < 7) :
    exec (.parenPush e) s = .next (({ s with cs := s.cs.set s.step.e { f with paren := f.paren ++ [e] } } : State).answer 0) := by
  change execParenPush e s = _
  unfold execParenPush
  exact microCmd_ok hr ((if_neg (Nat.not_le.2 hlen)).trans (congrArg _ (hr.modifyExec _)))

theorem exec_parenPush_full {e : BitVec 16} (hlen : 7 ≤ f.paren.length) :
    exec (.parenPush e) s = .next (s.faultWith (.call .parenOvf) none) := by
  change execParenPush e s = _
  unfold execParenPush
  exact microCmd_err hr (if_pos hlen)

theorem exec_parenPop {p : List (BitVec 16)} {e : BitVec 16} (hp : f.paren = p ++ [e]) :
    exec .parenPop s = .next (({ s with cs := s.cs.set s.step.e { f with paren := p } } : State).answer (e.setWidth 48)) := by
  change execParenPop s = _
  unfold execParenPop
  exact microCmd_ok hr (by simp only [hp, List.getLast?_concat, hr.modifyExec, List.dropLast_concat])

theorem exec_parenPop_empty (hp : f.paren = []) : exec .parenPop s = .next (s.faultWith (.call .parenUnf) none) := by
  change execParenPop s = _
  unfold execParenPop
  exact microCmd_err hr (x := ⟨.call .parenUnf, none⟩) (by rw [hp]; rfl)

theorem exec_mcrPush {x : Bool} (hlen : s.mcr.length < 8) :
    exec (.mcrPush x) s = .next (({ s with mcr := s.mcr ++ [x] } : State).answer 0) := by
  change execMcrPush x s = _
  unfold execMcrPush
  exact microCmd_ok hr (if_neg (Nat.not_le.2 hlen))

theorem exec_mcrPush_full {x : Bool} (hlen : 8 ≤ s.mcr.length) : exec (.mcrPush x) s = .next (s.faultWith (.call .mcrOvf) none) := by
  change execMcrPush x s = _
  unfold execMcrPush
  exact microCmd_err hr (if_pos hlen)

theorem exec_mcrPop {p : List Bool} {x : Bool} (hm : s.mcr = p ++ [x]) :
    exec .mcrPop s = .next (({ s with mcr := p } : State).answer (BitVec.ofNat 48 x.toNat)) := by
  change execMcrPop s = _
  unfold execMcrPop
  exact microCmd_ok hr (by simp only [hm, List.getLast?_concat, List.dropLast_concat])

theorem exec_mcrPop_empty (hm : s.mcr = []) : exec .mcrPop s = .next (s.faultWith (.call .mcrUnf) none) := by
  change execMcrPop s = _
  unfold execMcrPop
  exact microCmd_err hr (x := ⟨.call .mcrUnf, none⟩) (by simp only [hm]; rfl)

/-- MCR_STATE reads the last entry, and 1 when there is none (R447). -/
theorem exec_mcrState : exec .mcrState s = .next (s.answer (BitVec.ofNat 48 (s.mcr.getLast?.getD true).toNat)) := by
  change execMcrState s = _
  unfold execMcrState
  exact microCmd_ok hr rfl

end Stacks

/-- Settles O36: each command below its limit and at it. -/
theorem parenAndMcrStacks : Obligations.ParenAndMcrStacks := by
  intro s f b hr
  refine ⟨fun e hlen => exec_parenPush hr hlen, fun e hlen => exec_parenPush_full hr hlen, fun p e hp => exec_parenPop hr hp,
    fun hp => exec_parenPop_empty hr hp, fun x hlen => exec_mcrPush hr hlen, fun x hlen => exec_mcrPush_full hr hlen,
    fun p x hm => ⟨exec_mcrPop hr hm, ?_⟩, fun hm => ⟨exec_mcrPop_empty hr hm, ?_⟩⟩
  · rw [exec_mcrState hr, hm, List.getLast?_concat, Option.getD_some]
  · rw [exec_mcrState hr, hm]
    rfl

end Sys2Proof.Machine

/-! PROOFS. The step taken apart: every legal state has one, who reads the clock, and what a step that ends the run with an error leaves
(43_dispatch_loop R420 to R426, 44_scheduler R510, 60_exceptions R545, R546). -/

namespace Sys2Proof.Machine

open Sys2Proof

/-! ## Every legal state has a next state -/

/-- The top frame of a legal running state is one of a block of the program (R45, R420). -/
theorem State.Inv.topBlock {s : State} (h : s.Inv) (hp : s.phase ≠ .idle) : ∃ f b, s.top = some f ∧ s.codeOf f = some b := by
  have hlt : s.cs.length - 1 < s.cs.length := Nat.sub_lt (List.length_pos_iff.2 (h.frame hp)) Nat.one_pos
  obtain ⟨b, hb, -⟩ := (h.frames _ (List.getElem_mem hlt)).block
  exact ⟨_, b, List.getElem?_eq_getElem hlt, hb⟩

/-- The executing frame of a legal state inside an instruction is one of a block of the program (R422). -/
theorem State.Inv.execFrame {s : State} (h : s.Inv) (hbody : s.body.isSome = true) : ∃ f b, s.execFrame = .ok (f, b) := by
  have hlt : s.step.e < s.cs.length := by
    rw [(h.body hbody).2]
    omega
  obtain ⟨b, hb, -⟩ := (h.frames _ (List.getElem_mem hlt)).block
  exact ⟨_, b, State.execFrame_ok.2 ⟨List.getElem?_eq_getElem hlt, hb⟩⟩

/-- A micro-command stops only where there is no executing frame. -/
theorem microCmd_progress {s : State} (h : s.phase = .idle ∨ ∃ f b, s.execFrame = .ok (f, b))
    (k : Frame → CodeBlock → State → Res Data) : ∃ t, microCmd s k = .next t := by
  by_cases hp : s.phase = .idle
  · exact ⟨_, microCmd_idle hp k⟩
  · cases hc : s.step.called with
    | true => exact ⟨_, microCmd_called hp hc k⟩
    | false =>
      obtain ⟨f, b, hf⟩ := h.resolve_left hp
      obtain ⟨hframe, hblock⟩ := State.execFrame_ok.1 hf
      have hr : s.Running f b := ⟨hp, hc, hframe, hblock⟩
      cases hk : k f b s with
      | ok v t => exact ⟨_, microCmd_ok hr hk⟩
      | err x t => exact ⟨_, microCmd_err hr hk⟩

theorem exec_progress {s : State} (h : s.phase = .idle ∨ ∃ f b, s.execFrame = .ok (f, b)) (i : Instr) : ∃ t, exec i s = .next t := by
  cases hi : isHostCommand i with
  | true =>
    obtain ⟨k, hk⟩ := exec_of_host hi
    rw [hk]
    rcases hostCmd_next s k with ⟨-, he⟩ | ⟨-, r, -, he⟩ <;> exact ⟨_, he⟩
  | false =>
    obtain ⟨k, hk⟩ := exec_of_micro hi
    rw [hk]
    exact microCmd_progress h k

theorem idleStep_progress {s : State} (hp : s.phase = .idle) : ∃ t, step s = .next t := by
  cases hc : s.env.commands with
  | nil => exact ⟨s, step_waits hp hc⟩
  | cons ws r =>
    cases hd : decode ws with
    | error e => exact ⟨_, step_refuses hp hc hd⟩
    | ok x =>
      rw [step_idle (i := x.1) (rest := x.2) hp hc hd]
      exact exec_progress (s := { s with env := { s.env with commands := r } }) (.inl hp) x.1

theorem popFrame_progress (f : Frame) (b : CodeBlock) (s : State) : ∃ t, popFrame f b s = .next t := by
  unfold popFrame
  dsimp only
  split <;> exact ⟨_, rfl⟩

/-- Between two instructions a legal state begins the next one or pops its top frame (R421). -/
theorem begin_progress {s : State} (h : s.Inv) (hp : s.phase ≠ .idle) (hbody : s.body = none) : ∃ t, step s = .next t := by
  obtain ⟨f, b, htop, hcode⟩ := h.topBlock hp
  cases hi : b.insns[f.ip]? with
  | some i => exact ⟨_, step_begins hp hbody htop hcode hi⟩
  | none =>
    rw [step_pastEnd hp hbody htop hcode (List.getElem?_eq_none_iff.1 hi)]
    exact popFrame_progress f b s

theorem endInsn_progress {s : State} {f : Frame} (hf : s.cs[s.step.e]? = some f) : ∃ t, endInsn s = .next t := by
  rcases lt_or_ge ((f.ip : Int) + s.step.rj) 0 with hip | hip
  · exact ⟨_, endInsn_negative hf hip⟩
  · exact ⟨_, endInsn_forward hf hip⟩

/-- Inside an instruction a legal state runs the next micro-command or ends the instruction (R422). -/
theorem body_progress {s : State} {run : BodyRun} (h : s.Inv) (hp : s.phase ≠ .idle) (hbody : s.body = some run) :
    ∃ t, step s = .next t := by
  obtain ⟨f, b, hexec⟩ := h.execFrame (by rw [hbody]; rfl)
  cases hn : run.insn.next run.replies with
  | none =>
    rw [step_done hp hbody hn]
    exact endInsn_progress (State.execFrame_ok.1 hexec).1
  | some c =>
    cases hd : decode c.words with
    | error e => exact ⟨_, step_illegalMicro hp hbody hn hd⟩
    | ok x =>
      rw [step_body (i := x.1) (rest := x.2) hp hbody hn hd]
      exact exec_progress (s := { s with din := c.din }) (.inr ⟨f, b, hexec⟩) x.1

/-- Settles O15: idle, between two instructions, and inside one. -/
theorem progress : Obligations.Progress := by
  intro s h
  by_cases hp : s.phase = .idle
  · exact idleStep_progress hp
  · cases hbody : s.body with
    | none => exact begin_progress h hp hbody
    | some run => exact body_progress h hp hbody

/-! ## The kinds of step -/

/-- `s` with another data-in value and other host commands to come: what a step that runs a command changes before it. -/
def State.given (s : State) (d : Data) (l : List (List Word)) : State := { s with din := d, env := { s.env with commands := l } }

/-- What a step from `s` to `t` can be (R30, R421, R422, R425). -/
inductive StepKind (s t : State) : Prop where
  | waits (hp : s.phase = .idle) (ht : t = s)
  | refuses (hp : s.phase = .idle) (l : List (List Word)) (ht : t = (s.given s.din l).refuse .illegalCommand)
  | command (i : Instr) (d : Data) (l : List (List Word)) (hr : s.Runs i) (h : exec i (s.given d l) = .next t)
  | begins (hp : s.phase ≠ .idle) (hbody : s.body = none) (x : StepRegs) (run : BodyRun) (ht : t = { s with step := x, body := some run })
  | pops (hp : s.phase ≠ .idle) (hbody : s.body = none) (f : Frame) (b : CodeBlock) (htop : s.top = some f) (h : popFrame f b s = .next t)
  | illegal (hp : s.phase ≠ .idle) (run : BodyRun) (hbody : s.body = some run) (d : Data) (ws : List Word)
      (ht : t = illegalMicro ws (s.given d s.env.commands))
  | ends (hp : s.phase ≠ .idle) (run : BodyRun) (hbody : s.body = some run) (hdone : run.insn.next run.replies = none)
      (h : endInsn s = .next t)

theorem beginInsn_kind {s t : State} (hp : s.phase ≠ .idle) (hbody : s.body = none) (h : beginInsn s = .next t) : StepKind s t := by
  unfold beginInsn at h
  split at h
  · cases h
  · rename_i f htop
    split at h
    · cases h
    · rename_i b hcode
      split at h
      · exact .pops hp hbody f b htop h
      · cases h
        exact .begins hp hbody _ _ rfl

theorem step_kind {s t : State} (h : step s = .next t) : StepKind s t := by
  by_cases hp : s.phase = .idle
  · cases hc : s.env.commands with
    | nil =>
      rw [step_waits hp hc] at h
      cases h
      exact .waits hp rfl
    | cons ws r =>
      cases hd : decode ws with
      | error e =>
        rw [step_refuses hp hc hd] at h
        cases h
        exact .refuses hp r rfl
      | ok x =>
        rw [step_idle (i := x.1) (rest := x.2) hp hc hd] at h
        exact .command x.1 s.din r (.inl ⟨hp, ws, r, x.2, hc, hd⟩) h
  · cases hbody : s.body with
    | none =>
      have hstep : step s = beginInsn s := by simp only [step, if_neg hp, hbody]
      exact beginInsn_kind hp hbody (hstep.symm.trans h)
    | some run =>
      cases hn : run.insn.next run.replies with
      | none => exact .ends hp run hbody hn ((step_done hp hbody hn).symm.trans h)
      | some c =>
        cases hd : decode c.words with
        | error e =>
          rw [step_illegalMicro hp hbody hn hd] at h
          cases h
          exact .illegal hp run hbody c.din c.words rfl
        | ok x =>
          rw [step_body (i := x.1) (rest := x.2) hp hbody hn hd] at h
          exact .command x.1 c.din s.env.commands (.inr ⟨hp, run, c, x.2, hbody, hn, hd⟩) h

/-- The end of an instruction: a fault below 0, the counted end between two batches, or the refresh (R421, R424, R426). -/
theorem endInsn_next {s t : State} (h : endInsn s = .next t) :
    t = s.postInsn.faultWith (.exec .negativeIp) none ∨ ∃ f, t = s.insnEnded f ∨
      ((s.stats.insnCount + 1).toNat % 64 = 0 ∧ t = (clockTick (s.insnEnded f).readClock).watched) := by
  cases hf : s.cs[s.step.e]? with
  | none =>
    simp only [endInsn, advance, State.emit_cs, State.emit_step, hf, reduceCtorEq] at h
  | some f =>
    rcases lt_or_ge ((f.ip : Int) + s.step.rj) 0 with hip | hip
    · rw [endInsn_negative hf hip] at h
      cases h
      exact .inl rfl
    · rw [endInsn_forward hf hip] at h
      cases h
      split_ifs with hbatch
      · exact .inr ⟨f, .inr ⟨hbatch, rfl⟩⟩
      · exact .inr ⟨f, .inl rfl⟩

/-- Restoring the data-block registers changes only what an access may change (R391). -/
theorem restoreRegs_rest (f : Frame) (s : State) : (restoreRegs f s).rest = s.rest := by
  unfold restoreRegs
  split <;> rfl

/-- The pop of a frame: the copy-back raises, or the exit event follows and, with no frame left, the end of the top-level call (R390, R484).
`u` is the state after the copy-back, raised or not. -/
theorem popFrame_next {f : Frame} {b : CodeBlock} {s t : State} (h : popFrame f b s = .next t) :
    ∃ u : State, u.rest = ({ s with cs := s.cs.dropLast } : State).rest ∧
      ((∃ c, t = u.takeFault ⟨c, none⟩ (some ⟨f.kind, f.num, f.ip⟩)) ∨
        (u.cs ≠ [] ∧ t = u.emit (.blockExit f.kind f.num)) ∨
        (u.cs = [] ∧ t = endTopLevel (u.emit (.blockExit f.kind f.num)))) := by
  have hrest := (Effects.copyBackIfDue f b (restoreRegs f { s with cs := s.cs.dropLast })).keeps.rest.trans (restoreRegs_rest f _)
  unfold popFrame at h
  dsimp only at h
  generalize copyBackIfDue f b (restoreRegs f { s with cs := s.cs.dropLast }) = r at h hrest
  cases r with
  | err x u =>
    cases h
    exact ⟨u, hrest, .inl ⟨x.cause, rfl⟩⟩
  | ok v u =>
    cases h
    refine ⟨u, hrest, .inr ?_⟩
    split_ifs with hcs
    · exact .inr ⟨hcs, rfl⟩
    · exact .inl ⟨hcs, rfl⟩

/-- How many frames a state has, seen through what an access may not change. -/
theorem State.length_cs_of_rest {s t : State} (h : t.rest = s.rest) : t.cs.length = s.cs.length := by
  have hlen := congrArg (fun u : State => u.cs.length) h
  simpa only [State.rest, List.length_map] using hlen

/-! ## What a micro-command leaves -/

/-- The part of the state that no micro-command writes: the phase, the clocks and counts, the built flag, the past events and the place of
the instruction. -/
def State.fixture (s : State) : Phase × TimeRegs × Stats × Bool × List Event × Loc :=
  (s.phase, s.time, s.stats, s.built, s.trace, s.step.loc)

theorem State.fixture_eq {s t : State} :
    t.fixture = s.fixture ↔ t.phase = s.phase ∧ t.time = s.time ∧ t.stats = s.stats ∧ t.built = s.built ∧ t.trace = s.trace ∧
      t.step.loc = s.step.loc := by
  simp only [State.fixture, Prod.mk.injEq]

/-- The three lists, MCR entries and cells, that a micro-command writes only when it completes. -/
def State.lists (s : State) : List Bool × List Cell × List Cell := (s.mcr, s.timers, s.counters)

theorem State.lists_eq {s t : State} : t.lists = s.lists ↔ t.mcr = s.mcr ∧ t.timers = s.timers ∧ t.counters = s.counters := by
  simp only [State.lists, Prod.mk.injEq]

/-- The effect of a micro-command leaves the fixture, and a raise leaves the lists too. -/
structure Contained (s : State) (r : Res Data) : Prop where
  fixture : r.state.fixture = s.fixture
  lists : ∀ x u, r = .err x u → u.lists = s.lists

namespace Contained

variable {s : State} {r : Res Data}

/-- An effect that leaves both, whether it answers or raises. -/
theorem of_state (h : r.state.fixture = s.fixture) (hlists : r.state.lists = s.lists) : Contained s r :=
  ⟨h, fun x u hr => by rw [hr] at hlists; exact hlists⟩

theorem ok {v : Data} {u : State} (h : u.fixture = s.fixture) : Contained s (.ok v u) := ⟨h, fun _ _ hr => by cases hr⟩

theorem raised (c : Cause) : Contained s (raise c s) := ⟨rfl, fun x u hr => by cases hr; rfl⟩

theorem of_keeps (h : Keeps s r.state) : Contained s r :=
  of_state (State.fixture_eq.2 ⟨h.phase, h.time, h.stats, h.built, h.trace, by rw [h.step]⟩)
    (State.lists_eq.2 ⟨h.mcr, h.timers, h.counters⟩)

theorem of_effects {w q : Bool} (h : Effects w q s r.state) : Contained s r := of_keeps h.keeps

theorem of_call (h : CallEnds s r) : Contained s r := by
  cases r with
  | err x u => exact of_effects (w := true) (q := false) h
  | ok v u =>
    obtain ⟨-, w, f, db, di, he, rfl, -⟩ := h
    have k := he.keeps
    exact ok (State.fixture_eq.2 ⟨k.phase, k.time, k.stats, k.built, k.trace, by show w.step.loc = _; rw [k.step]⟩)

end Contained

theorem writeReg_contained (r : BitVec 4) (v : Data) (s : State) :
    (writeReg r v s).state.fixture = s.fixture ∧ (writeReg r v s).state.lists = s.lists := by
  unfold writeReg
  split
  case h_3 | h_4 => split_ifs <;> exact ⟨rfl, rfl⟩
  all_goals exact ⟨rfl, rfl⟩

/-- Every micro-command is contained. -/
theorem exec_contained {i : Instr} (hi : isHostCommand i = false) :
    ∃ k, (∀ s, exec i s = microCmd s k) ∧ ∀ f b s, Contained s (k f b s) := by
  cases i with
  | startup | runCycle | reset | configSet _ _ | imageRead _ _ _ | imageWrite _ _ _ => cases hi
  | fetch m d =>
    exact ⟨_, fun _ => rfl, fun _ _ s => .of_effects (w := true) (q := true)
      (.withOpnd d (.bind (.checkedDesc m d s) fun D u _ => .fetchOp D u))⟩
  | store m d => exact ⟨_, fun _ => rfl, fun _ _ s => .of_effects (execStore_effects m d s)⟩
  | regRead r =>
    exact ⟨_, fun _ => rfl, fun _ _ s => .of_effects (w := true) (q := true) (.bind (.readReg r s.topIp s) fun _ u _ => .refl u)⟩
  | regWrite r =>
    refine ⟨_, fun _ => rfl, fun _ _ s => .of_state ?_ ?_⟩ <;> rw [Res.state_bind_ok]
    · exact (writeReg_contained r s.din s).1
    · exact (writeReg_contained r s.din s).2
  | openDb sel n =>
    refine ⟨_, fun _ => rfl, fun _ _ s => ?_⟩
    split_ifs
    · exact .raised _
    · cases sel <;> exact .ok rfl
  | stwWrite m v => exact ⟨fun _ _ s => .ok 0 (s.setStw (stwMasked s.regs.stw m v)), fun _ => rfl, fun _ _ s => .ok rfl⟩
  | ccSet a1 a0 o => exact ⟨fun _ _ s => .ok 0 (s.setStw (stwCcSet s.regs.stw a1 a0 o)), fun _ => rfl, fun _ _ s => .ok rfl⟩
  | tcOp sel i op a =>
    refine ⟨_, fun _ => rfl, fun _ _ s => ?_⟩
    dsimp only
    split_ifs
    · exact .raised _
    · cases sel <;> exact .ok rfl
  | jumpRel d => exact ⟨fun _ _ s => .ok 0 (s.setRj d.toInt), fun _ => rfl, fun _ _ s => .ok rfl⟩
  | jumpLabel l =>
    refine ⟨_, fun _ => rfl, fun f b s => ?_⟩
    split
    · exact .raised _
    · exact .ok rfl
  | blockEnd => exact ⟨fun f b s => .ok 0 (s.setRj ((b.len : Int) - f.ip)), fun _ => rfl, fun _ _ s => .ok rfl⟩
  | parenPush e =>
    refine ⟨_, fun _ => rfl, fun f b s => ?_⟩
    split_ifs
    · exact .raised _
    · exact .ok rfl
  | parenPop =>
    refine ⟨_, fun _ => rfl, fun f b s => ?_⟩
    split
    · exact .raised _
    · exact .ok rfl
  | mcrPush v =>
    refine ⟨_, fun _ => rfl, fun f b s => ?_⟩
    split_ifs
    · exact .raised _
    · exact .ok rfl
  | mcrPop =>
    refine ⟨_, fun _ => rfl, fun f b s => ?_⟩
    split
    · exact .raised _
    · exact .ok rfl
  | mcrState => exact ⟨fun _ _ s => .ok (BitVec.ofNat 48 (s.mcr.getLast?.getD true).toNat) s, fun _ => rfl, fun _ _ s => .ok rfl⟩
  | callFc m t pl => exact ⟨_, fun _ => rfl, fun _ _ s => .of_call (callFcOp_ends false m t pl s)⟩
  | callFcSys m t pl => exact ⟨_, fun _ => rfl, fun _ _ s => .of_call (callFcOp_ends true m t pl s)⟩
  | callFb m t x pl => exact ⟨_, fun _ => rfl, fun _ _ s => .of_call (callFbOp_ends false m t x pl s)⟩
  | callFbSys m t x pl => exact ⟨_, fun _ => rfl, fun _ _ s => .of_call (callFbOp_ends true m t x pl s)⟩
  | callMi m t pl => exact ⟨_, fun _ => rfl, fun _ _ s => .of_call (callMiOp_ends false m t pl s)⟩
  | callMiSys m t pl => exact ⟨_, fun _ => rfl, fun _ _ s => .of_call (callMiOp_ends true m t pl s)⟩
  | rawFc m n t => exact ⟨_, fun _ => rfl, fun _ _ s => .of_call (rawFcOp_ends false m n t s)⟩
  | rawFcSys m n t => exact ⟨_, fun _ => rfl, fun _ _ s => .of_call (rawFcOp_ends true m n t s)⟩
  | rawFb m n t => exact ⟨_, fun _ => rfl, fun _ _ s => .of_call (rawFbOp_ends false m n t s)⟩
  | rawFbSys m n t => exact ⟨_, fun _ => rfl, fun _ _ s => .of_call (rawFbOp_ends true m n t s)⟩
  | rawMi m n t => exact ⟨_, fun _ => rfl, fun _ _ s => .of_call (rawMiOp_ends false m n t s)⟩
  | rawMiSys m n t => exact ⟨_, fun _ => rfl, fun _ _ s => .of_call (rawMiOp_ends true m n t s)⟩

/-! ## Who reads the clock -/

theorem clockRelocate_time (s : State) : (clockRelocate s).time = s.time := by
  unfold clockRelocate
  split_ifs
  · rw [State.writeClockByte_eq]
  · rfl

/-- No setting reads the clock, not even one that re-allocates (R500 to R505). -/
theorem configSetCmd_time (p : BitVec 4) (v : Data) (s : State) : (configSetCmd p v s).time = s.time := by
  unfold configSetCmd
  dsimp only
  split_ifs
  · rfl
  · rw [realloc_mem]
    rfl
  · exact clockRelocate_time _
  · rfl
  · rfl

theorem imageReadCmd_time (sel : Bool) (off len : BitVec 16) (s : State) : (imageReadCmd sel off len s).time = s.time := by
  unfold imageReadCmd
  dsimp only
  split_ifs <;> rfl

theorem imageWriteCmd_time (sel : Bool) (off : BitVec 16) (data : List Byte) (s : State) :
    (imageWriteCmd sel off data s).time = s.time := by
  unfold imageWriteCmd
  split_ifs with hsel hrange
  · rfl
  · rfl
  · exact (Keeps.writeBytes data s off.toNat (Nat.not_lt.1 hrange)).time

theorem hostCmd_time {s t : State} {k : State → State} (hk : (k s).time = s.time) (h : hostCmd s k = .next t) : t.time = s.time := by
  rcases hostCmd_next s k with ⟨-, he⟩ | ⟨-, r, -, he⟩ <;> rw [he] at h <;> cases h
  · exact hk
  · rfl

theorem microCmd_time {s t : State} {k : Frame → CodeBlock → State → Res Data} (hk : ∀ f b s, Contained s (k f b s))
    (h : microCmd s k = .next t) : t.time = s.time := by
  rcases microCmd_next h with ⟨-, rfl⟩ | ⟨-, rfl⟩ | ⟨f, b, -, hu⟩
  · rfl
  · rfl
  · obtain ⟨-, htime, -⟩ := State.fixture_eq.1 (hk f b s).fixture
    rcases hu with ⟨v, u, hu, rfl⟩ | ⟨x, u, hu, rfl⟩ <;> rw [hu] at htime <;> exact htime

/-- STARTUP, RUN_CYCLE and RESET are the only commands that write a time register (R470, R480, R490). -/
theorem exec_time {i : Instr} {s t : State} (h : exec i s = .next t) :
    t.time = s.time ∨ i = .startup ∨ i = .runCycle ∨ i = .reset := by
  cases hi : isHostCommand i with
  | false =>
    obtain ⟨k, hexec, hk⟩ := exec_contained hi
    exact .inl (microCmd_time hk ((hexec s).symm.trans h))
  | true =>
    cases i with
    | startup => exact .inr (.inl rfl)
    | runCycle => exact .inr (.inr (.inl rfl))
    | reset => exact .inr (.inr (.inr rfl))
    | configSet p v => exact .inl (hostCmd_time (configSetCmd_time p v s) h)
    | imageRead sel off len => exact .inl (hostCmd_time (imageReadCmd_time sel off len s) h)
    | imageWrite sel off data => exact .inl (hostCmd_time (imageWriteCmd_time sel off data s) h)
    | _ => cases hi

theorem endTopLevel_time {s : State} (hp : s.phase ≠ .cycle) : (endTopLevel s).time = s.time := by
  unfold endTopLevel
  split
  · exact absurd ‹_› hp
  · rfl
  · rfl

/-- A pop reads the clock when it takes the last frame of a cycle (R484). -/
theorem popFrame_time {f : Frame} {b : CodeBlock} {s t : State} (htop : s.top = some f) (h : popFrame f b s = .next t) :
    t.time = s.time ∨ (s.phase = .cycle ∧ s.cs.length = 1) := by
  obtain ⟨u, hrest, hcases⟩ := popFrame_next h
  have htime : u.time = s.time := (congrArg State.time hrest :)
  have hphase : u.phase = s.phase := (congrArg State.phase hrest :)
  have hlen := State.length_cs_of_rest hrest
  rcases hcases with ⟨c, rfl⟩ | ⟨-, rfl⟩ | ⟨hempty, rfl⟩
  · exact .inl htime
  · exact .inl htime
  · by_cases hp : s.phase = .cycle
    · have hlt := (List.getElem?_eq_some_iff.1 htop).1
      rw [hempty, List.length_dropLast, List.length_nil] at hlen
      exact .inr ⟨hp, by omega⟩
    · exact .inl ((endTopLevel_time (s := u.emit _) (by rw [State.emit_phase, hphase]; exact hp)).trans htime)

/-- The end of an instruction reads the clock when it completes a batch (R426). -/
theorem endInsn_time {s t : State} (h : endInsn s = .next t) : t.time = s.time ∨ (s.stats.insnCount + 1).toNat % 64 = 0 := by
  rcases endInsn_next h with rfl | ⟨f, rfl | ⟨hbatch, -⟩⟩
  · exact .inl rfl
  · exact .inl rfl
  · exact .inr hbatch

/-- Settles O22: the three commands, the refresh, and the last pop of a cycle. -/
theorem timeWriters : Obligations.TimeWriters := by
  intro s t h hne
  have hchanged : t.time ≠ s.time := fun he => hne (congrArg TimeRegs.now he)
  cases step_kind h with
  | waits _ ht => exact absurd (congrArg State.time ht) hchanged
  | refuses _ l ht => exact absurd (congrArg State.time ht) hchanged
  | command i d l hr h => exact .inl ⟨i, hr, (exec_time h).resolve_left hchanged⟩
  | begins _ _ x run ht => exact absurd (congrArg State.time ht) hchanged
  | pops hp hbody f b htop h =>
    obtain ⟨hcycle, hlast⟩ := (popFrame_time htop h).resolve_left hchanged
    exact .inr (.inr ⟨hcycle, hbody, hlast⟩)
  | illegal _ run _ d ws ht => exact absurd (congrArg State.time ht) hchanged
  | ends hp run hbody hdone h => exact .inr (.inl ⟨hp, (endInsn_time h).resolve_left hchanged, run, hbody, hdone⟩)

/-! ## The fault that ends a run -/

/-- `t` is `s` after a fault located at `l`: of what `s` holds beside the fault's own fields, at most the instruction count has gone up, and
that only for a watchdog, and at most the event of the instruction has been emitted (R426, R545). -/
def FaultedAt (s : State) (l : Loc) (t : State) : Prop :=
  ∃ (u : State) (x : Raise), t = u.takeFault x (some l) ∧ u.built = s.built ∧ u.lists = s.lists ∧
    u.stats = { s.stats with insnCount := u.stats.insnCount } ∧
    (u.stats.insnCount = s.stats.insnCount ∨
      (u.stats.insnCount = s.stats.insnCount + 1 ∧ (x.cause = .cycleTime ∨ x.cause = .maintenance))) ∧
    (u.trace = s.trace ∨ u.trace = s.postInsn.trace)

theorem FaultedAt.of_fixture {s u : State} (hfix : u.fixture = s.fixture) (hlists : u.lists = s.lists) (x : Raise) (l : Loc) :
    FaultedAt s l (u.takeFault x (some l)) := by
  obtain ⟨-, -, hstats, hbuilt, htrace, -⟩ := State.fixture_eq.1 hfix
  exact ⟨u, x, rfl, hbuilt, hlists, by rw [hstats], .inl (by rw [hstats]), .inl htrace⟩

/-- A micro-command that ends the run has faulted at `LOC`. -/
theorem microCmd_faultedAt {s t : State} {k : Frame → CodeBlock → State → Res Data} (hk : ∀ f b s, Contained s (k f b s))
    (hp : s.phase ≠ .idle) (ht : t.phase = .idle) (h : microCmd s k = .next t) : FaultedAt s s.step.loc t := by
  rcases microCmd_next h with ⟨hidle, -⟩ | ⟨-, rfl⟩ | ⟨f, b, -, ⟨v, u, hu, rfl⟩ | ⟨x, u, hu, rfl⟩⟩
  · exact absurd hidle hp
  · exact .of_fixture rfl rfl _ _
  · have hfix := (hk f b s).fixture
    rw [hu] at hfix
    exact absurd ((State.fixture_eq.1 hfix).1.symm.trans ht) hp
  · have hfix := (hk f b s).fixture
    rw [hu] at hfix
    obtain ⟨-, -, -, -, -, hloc⟩ := State.fixture_eq.1 hfix
    rw [show u.step.loc = s.step.loc from hloc]
    exact .of_fixture hfix ((hk f b s).lists x u hu) x _

/-- A command of a body that ends the run has faulted at `LOC` (R422, R545). -/
theorem exec_faultedAt {i : Instr} {s t : State} (hp : s.phase ≠ .idle) (ht : t.phase = .idle) (h : exec i s = .next t) :
    FaultedAt s s.step.loc t := by
  cases hi : isHostCommand i with
  | false =>
    obtain ⟨k, hexec, hk⟩ := exec_contained hi
    exact microCmd_faultedAt hk hp ht ((hexec s).symm.trans h)
  | true =>
    obtain ⟨k, hexec⟩ := exec_of_host hi
    rw [hexec] at h
    rcases hostCmd_next s k with ⟨hidle, -⟩ | ⟨-, r, -, he⟩
    · exact absurd hidle hp
    · rw [he] at h
      cases h
      exact .of_fixture rfl rfl _ _

/-- The watchdogs let the run go on or fault. -/
theorem State.watched_cases (s : State) :
    s.watched = s ∨ ∃ c, (c = .cycleTime ∨ c = .maintenance) ∧ s.watched = s.faultWith c none := by
  unfold State.watched
  split_ifs
  · exact .inr ⟨_, .inr rfl, rfl⟩
  · exact .inr ⟨_, .inl rfl, rfl⟩
  · exact .inl rfl

/-- An end of instruction that ends the run has faulted at `LOC`: below 0 before the count, or by a watchdog after it (R424, R426). -/
theorem endInsn_faultedAt {s t : State} (hp : s.phase ≠ .idle) (ht : t.phase = .idle) (h : endInsn s = .next t) :
    FaultedAt s s.step.loc t := by
  rcases endInsn_next h with rfl | ⟨f, rfl | ⟨-, rfl⟩⟩
  · exact ⟨s.postInsn, _, rfl, rfl, rfl, rfl, .inl rfl, .inr rfl⟩
  · exact absurd ht hp
  · obtain ⟨c, m, htick⟩ := clockTick_rest (s.insnEnded f).readClock
    rw [htick] at ht ⊢
    rcases State.watched_cases { (s.insnEnded f).readClock with clock := c, mem := m } with hgoes | ⟨cause, hcause, hfaults⟩
    · rw [hgoes] at ht
      exact absurd ht hp
    · rw [hfaults]
      exact ⟨_, ⟨cause, none⟩, rfl, rfl, rfl, rfl, .inr ⟨rfl, hcause⟩, .inr rfl⟩

theorem endTopLevel_err (s : State) : (endTopLevel s).err = s.err := by
  unfold endTopLevel
  split
  · obtain ⟨c, m, htick⟩ := clockTick_rest s.readClock
    dsimp only
    rw [htick]
    rfl
  · rfl
  · rfl

/-- A pop that ends the run with an error has faulted in its copy-back, at the popped frame (R392, R546). -/
theorem popFrame_faultedAt {f : Frame} {b : CodeBlock} {s t : State} (hp : s.phase ≠ .idle) (herr : s.err.kind = 0) (ht : t.phase = .idle)
    (hk : t.err.kind ≠ 0) (h : popFrame f b s = .next t) : FaultedAt s ⟨f.kind, f.num, f.ip⟩ t := by
  obtain ⟨u, hrest, hcases⟩ := popFrame_next h
  have hfix : u.fixture = s.fixture := (congrArg State.fixture hrest :)
  have hlists : u.lists = s.lists := (congrArg State.lists hrest :)
  have hnone : u.err.kind = 0 := (congrArg (fun v : State => v.err.kind) hrest).trans herr
  rcases hcases with ⟨c, rfl⟩ | ⟨-, rfl⟩ | ⟨-, rfl⟩
  · exact .of_fixture hfix hlists _ _
  · exact absurd ((State.fixture_eq.1 hfix).1.symm.trans ht) hp
  · rw [endTopLevel_err] at hk
    exact absurd hnone hk

/-- A step that ends the run with an error has faulted: inside an instruction at `LOC`, else at the popped frame (R545, R546). -/
theorem step_faultedAt {s t : State} (h : s.Inv) (hp : s.phase ≠ .idle) (hs : step s = .next t) (ht : t.phase = .idle)
    (hk : t.err.kind ≠ 0) :
    (s.body.isSome = true ∧ FaultedAt s s.step.loc t) ∨
      (s.body = none ∧ ∃ f, s.top = some f ∧ FaultedAt s ⟨f.kind, f.num, f.ip⟩ t) := by
  cases step_kind hs with
  | waits hidle _ => exact absurd hidle hp
  | refuses hidle _ _ => exact absurd hidle hp
  | command i d l hr hexec =>
    rcases hr with ⟨hidle, -⟩ | ⟨-, run, c, rest, hbody, -⟩
    · exact absurd hidle hp
    · exact .inl ⟨by rw [hbody]; rfl, exec_faultedAt (s := s.given d l) hp ht hexec⟩
  | begins _ _ x run he =>
    rw [he] at ht
    exact absurd ht hp
  | pops _ hbody f b htop hpop => exact .inr ⟨hbody, f, htop, popFrame_faultedAt hp (h.err_of_running hp) ht hk hpop⟩
  | illegal _ run hbody d ws he =>
    rw [he]
    exact .inl ⟨by rw [hbody]; rfl, .of_fixture (u := s.given d s.env.commands) rfl rfl _ _⟩
  | ends _ run hbody _ hend => exact .inl ⟨by rw [hbody]; rfl, endInsn_faultedAt hp ht hend⟩

/-- The mode that each kind of error sets (R541, R545). -/
theorem Cause.kind_mode (c : Cause) :
    ((c.kind = 1 ∨ c.kind = 2 ∨ c.kind = 7) ∧ c.modeAfter = .faulted) ∨ (c.kind = 3 ∧ c.modeAfter = .timefault) ∨
      (c.kind = 4 ∧ c.modeAfter = .maint) := by
  cases c with
  | addr r => exact .inl ⟨.inl rfl, rfl⟩
  | call r => exact .inl ⟨.inr (.inl rfl), rfl⟩
  | exec r => exact .inl ⟨.inr (.inr rfl), rfl⟩
  | cycleTime => exact .inr (.inl ⟨rfl, rfl⟩)
  | maintenance => exact .inr (.inr ⟨rfl, rfl⟩)

/-- Settles O23: whichever piece of the step raised, `FaultedAt` says what it left, and where it is located. -/
theorem faultReport : Obligations.FaultReport := by
  intro s t h hp hs ht hk
  have hfault : ∃ l, FaultedAt s l t ∧ (s.body.isSome = true → l = s.step.loc) ∧
      ∀ f, s.body = none → s.top = some f → l = ⟨f.kind, f.num, f.ip⟩ := by
    rcases step_faultedAt h hp hs ht hk with ⟨hbody, hat⟩ | ⟨hbody, f, htop, hat⟩
    · exact ⟨_, hat, fun _ => rfl, fun f hnone _ => by rw [hnone] at hbody; cases hbody⟩
    · refine ⟨_, hat, fun hsome => ?_, fun g _ hg => ?_⟩
      · rw [hbody] at hsome
        cases hsome
      · rw [htop] at hg
        cases hg
        rfl
  obtain ⟨l, ⟨u, x, rfl, hbuilt, hlists, hstats, hcount, htrace⟩, hinside, hbetween⟩ := hfault
  obtain ⟨hmcr, htimers, hcounters⟩ := State.lists_eq.1 hlists
  refine ⟨rfl, rfl, hbuilt, x.cause.kind_mode, fun hsome => congrArg some (hinside hsome),
    fun f hnone htop => congrArg some (hbetween f hnone htop), hstats, hcount.imp_right (And.imp_right ?_),
    hmcr, htimers, hcounters, htrace⟩
  rintro (hcause | hcause)
  · exact .inl (congrArg Cause.kind hcause)
  · exact .inr (congrArg Cause.kind hcause)

end Sys2Proof.Machine

/-! PROOFS. The scheduler along a step: the order of the statistics and the transitions of the mode (44_scheduler R484, R486, 60_exceptions
R536, R545, R549). -/

namespace Sys2Proof.Machine

open Sys2Proof

/-! ## What the host commands write -/

theorem imageReadCmd_writes (sel : Bool) (off len : BitVec 16) (s : State) :
    ∃ r, imageReadCmd sel off len s = { s with reply := r } := by
  unfold imageReadCmd
  dsimp only
  split_ifs <;> exact ⟨_, rfl⟩

/-- Bytes written to the input region change the memory alone. -/
theorem State.writeInputs_eq (s : State) (b : Nat) (bs : List Byte) :
    s.writeBytes .inputs b bs = { s with mem := (s.writeBytes .inputs b bs).mem } := by
  induction bs generalizing s b with
  | nil => rfl
  | cons v r ih => rw [State.writeBytes, ih]; rfl

theorem imageWriteCmd_writes (sel : Bool) (off : BitVec 16) (data : List Byte) (s : State) :
    ∃ m r, imageWriteCmd sel off data s = { s with mem := m, reply := r } := by
  unfold imageWriteCmd
  split_ifs
  · exact ⟨s.mem, _, rfl⟩
  · exact ⟨s.mem, _, rfl⟩
  · rw [State.writeInputs_eq]; exact ⟨_, _, rfl⟩

theorem clockRelocate_writes (s : State) : ∃ m, clockRelocate s = { s with mem := m } := by
  unfold clockRelocate
  split_ifs
  · exact ⟨_, State.writeClockByte_eq _ _⟩
  · exact ⟨s.mem, rfl⟩

/-- A setting is stored or refused, or it re-allocates (R500, R502, R504). -/
theorem configSetCmd_writes (p : BitVec 4) (v : Data) (s : State) :
    (∃ c m r, configSetCmd p v s = { s with cfg := c, mem := m, reply := r }) ∨
      ∃ c m r, configSetCmd p v s = { s.reallocated c with mem := m, reply := r } := by
  unfold configSetCmd
  dsimp only
  split_ifs
  · exact .inl ⟨s.cfg, s.mem, _, rfl⟩
  · rw [realloc_mem]; exact .inr ⟨_, _, _, rfl⟩
  · obtain ⟨m, hm⟩ := clockRelocate_writes { s with cfg := configSet s.cfg p v }
    rw [hm]; exact .inl ⟨_, m, _, rfl⟩
  · exact .inl ⟨_, s.mem, _, rfl⟩
  · exact .inl ⟨s.cfg, s.mem, _, rfl⟩

/-- RUN_CYCLE leaves the mode, and of the statistics it writes the count its cycle starts from (R480). -/
theorem runCycleCmd_keeps (s : State) :
    (runCycleCmd s).mode = s.mode ∧ ∃ k, (runCycleCmd s).stats = { s.stats with cycInsn0 := k } := by
  unfold runCycleCmd
  split_ifs
  · exact ⟨rfl, s.stats.cycInsn0, rfl⟩
  · exact ⟨rfl, s.stats.cycInsn0, rfl⟩
  · obtain ⟨c, m, htick⟩ := clockTick_rest (({ s with err := ErrRec.none, cs := [], mcr := [] } : State).resetRegisters).readClock
    dsimp only
    rw [htick]
    exact ⟨rfl, _, rfl⟩

/-! ## The order of the statistics -/

namespace Stats.Ordered

variable {x : Stats}

/-- No cycle has been counted (R54, R504). -/
theorem zero (n : Nat) : ({ Stats.zero with winStart := n } : Stats).Ordered :=
  ⟨rfl, fun _ h => (by cases h), fun _ _ h => (by cases h), fun _ => ⟨rfl, rfl⟩⟩

/-- The counts of instructions and cycles are not among the ordered fields. -/
theorem withCounts (h : x.Ordered) (i c k : BitVec 64) :
    ({ x with insnCount := i, cycleCount := c, cycInsn0 := k } : Stats).Ordered :=
  { h with }

/-- An empty window has no sum to bound (R471). -/
theorem openWindow (h : x.Ordered) (n : Nat) : ({ x with winStart := n, winCycles := 0, winInsns := 0, winTime := 0 } : Stats).Ordered where
  both := h.both
  avg := h.avg
  range := fun lo hi hlo hhi => ⟨(h.range lo hi hlo hhi).1, by simp, by simp⟩
  fresh := fun _ => ⟨rfl, rfl⟩

/-- The extremes are taken together: there are none, or there are both. -/
theorem extremes (h : x.Ordered) :
    (x.cycMin = none ∧ x.cycMax = none) ∨ ∃ lo hi, x.cycMin = some lo ∧ x.cycMax = some hi := by
  have hboth := h.both
  cases hmin : x.cycMin with
  | none =>
    rw [hmin] at hboth
    exact .inl ⟨rfl, Option.isNone_iff_eq_none.1 (by rw [← Option.not_isSome, ← hboth]; rfl)⟩
  | some lo =>
    rw [hmin] at hboth
    obtain ⟨hi, hmax⟩ := Option.isSome_iff_exists.1 hboth.symm
    exact .inr ⟨lo, hi, rfl, hmax⟩

/-- One more cycle of `t` nanoseconds: widening the extremes to hold `t` keeps every bound, and the sum gains one term within them
(R486). -/
theorem countCycle (h : x.Ordered) (t k : Nat) : (countCycle t k x).Ordered where
  both := rfl
  avg := fun a ha => by
    obtain ⟨lo, hi, hlo, hhi, hle, hge⟩ := h.avg a ha
    refine ⟨min lo t, max hi t, ?_, ?_, le_trans (min_le_left lo t) hle, le_trans hge (le_max_left hi t)⟩
    · simp only [Machine.countCycle, hlo, minOpt]
    · simp only [Machine.countCycle, hhi, maxOpt]
  range := fun lo' hi' hlo' hhi' => by
    cases hlo'
    cases hhi'
    show _ ∧ (x.winCycles + 1) * _ ≤ x.winTime + t ∧ x.winTime + t ≤ (x.winCycles + 1) * _
    rcases h.extremes with ⟨hmin, hmax⟩ | ⟨lo, hi, hmin, hmax⟩ <;> rw [hmin, hmax]
    · obtain ⟨hcycles, htime⟩ := h.fresh hmin
      simp only [minOpt, maxOpt, hcycles, htime]
      omega
    · obtain ⟨hle, hlow, hhigh⟩ := h.range lo hi hmin hmax
      have hlow' := le_trans (Nat.mul_le_mul_left x.winCycles (min_le_left lo t)) hlow
      have hhigh' := le_trans hhigh (Nat.mul_le_mul_left x.winCycles (le_max_left hi t))
      simp only [minOpt, maxOpt, Nat.add_mul, Nat.one_mul]
      exact ⟨le_trans (min_le_right lo t) (le_max_right hi t), Nat.add_le_add hlow' (min_le_right lo t),
        Nat.add_le_add hhigh' (le_max_right hi t)⟩
  fresh := fun hnone => by cases hnone

/-- A window that holds a cycle closes with an average between the extremes: its sum lies between its count times each (R486). -/
theorem closeWindow (h : x.Ordered) (hsome : x.cycMin.isSome = true) (hpos : 0 < x.winCycles) (now : Nat) :
    (closeWindow now x).Ordered := by
  unfold Machine.closeWindow
  split
  · refine ⟨h.both, fun a ha => ?_, (h.openWindow now).range, fun _ => ⟨rfl, rfl⟩⟩
    obtain rfl : x.winTime / x.winCycles = a := Option.some.inj ha
    rcases h.extremes with ⟨hmin, -⟩ | ⟨lo, hi, hmin, hmax⟩
    · rw [hmin] at hsome
      cases hsome
    · obtain ⟨-, hlow, hhigh⟩ := h.range lo hi hmin hmax
      exact ⟨lo, hi, hmin, hmax, (Nat.le_div_iff_mul_le hpos).2 (by rwa [Nat.mul_comm]), Nat.div_le_of_le_mul hhigh⟩
  · exact h

theorem statistics (h : x.Ordered) (t k now : Nat) : (statistics t k now x).Ordered :=
  (h.countCycle t k).closeWindow rfl (Nat.succ_pos _) now

end Stats.Ordered

/-! ## The statistics along a step -/

theorem microCmd_stats {s t : State} {k : Frame → CodeBlock → State → Res Data} (hk : ∀ f b s, Contained s (k f b s))
    (h : microCmd s k = .next t) : t.stats = s.stats := by
  rcases microCmd_next h with ⟨-, rfl⟩ | ⟨-, rfl⟩ | ⟨f, b, -, hu⟩
  · rfl
  · rfl
  · obtain ⟨-, -, hstats, -⟩ := State.fixture_eq.1 (hk f b s).fixture
    rcases hu with ⟨v, u, hu, rfl⟩ | ⟨x, u, hu, rfl⟩ <;> rw [hu] at hstats <;> exact hstats

section Ordered

variable {s t : State} (h : s.stats.Ordered)
include h

theorem hostCmd_ordered {k : State → State} (hk : (k s).stats.Ordered) (hs : hostCmd s k = .next t) : t.stats.Ordered := by
  rcases hostCmd_next s k with ⟨-, he⟩ | ⟨-, r, -, he⟩ <;> rw [he] at hs <;> cases hs
  · exact hk
  · exact h

/-- STARTUP opens a new window (R471). -/
theorem startupCmd_ordered : (startupCmd s).stats.Ordered := by
  have run : ∀ u : State, u.stats.Ordered → (startupRun u).stats.Ordered := fun u hu => by
    rw [startupRun_writes]
    exact (hu.openWindow _).withCounts _ _ _
  unfold startupCmd
  split_ifs
  · exact h
  · exact run s h
  · exact run _ h
  · exact h

theorem exec_ordered {i : Instr} (hs : exec i s = .next t) : t.stats.Ordered := by
  cases hi : isHostCommand i with
  | false =>
    obtain ⟨k, hexec, hk⟩ := exec_contained hi
    rw [microCmd_stats hk ((hexec s).symm.trans hs)]
    exact h
  | true =>
    cases i with
    | startup => exact hostCmd_ordered h (startupCmd_ordered h) hs
    | runCycle =>
      refine hostCmd_ordered h ?_ hs
      obtain ⟨-, k, hstats⟩ := runCycleCmd_keeps s
      rw [hstats]
      exact h.withCounts _ _ _
    | reset => exact hostCmd_ordered h (.zero 0) hs
    | configSet p v =>
      refine hostCmd_ordered h ?_ hs
      rcases configSetCmd_writes p v s with ⟨c, m, r, he⟩ | ⟨c, m, r, he⟩ <;> rw [he]
      · exact h
      · exact .zero _
    | imageRead sel off len =>
      refine hostCmd_ordered h ?_ hs
      obtain ⟨r, he⟩ := imageReadCmd_writes sel off len s
      rw [he]
      exact h
    | imageWrite sel off data =>
      refine hostCmd_ordered h ?_ hs
      obtain ⟨m, r, he⟩ := imageWriteCmd_writes sel off data s
      rw [he]
      exact h
    | _ => cases hi

/-- The end of a cycle counts it (R484, R486). -/
theorem endTopLevel_ordered : (endTopLevel s).stats.Ordered := by
  unfold endTopLevel
  split
  · obtain ⟨c, m, htick⟩ := clockTick_rest s.readClock
    dsimp only
    rw [htick]
    exact (h.statistics _ _ _).withCounts _ _ _
  · exact h
  · exact h

theorem popFrame_ordered {f : Frame} {b : CodeBlock} (hs : popFrame f b s = .next t) : t.stats.Ordered := by
  obtain ⟨u, hrest, hcases⟩ := popFrame_next hs
  have hstats : u.stats = s.stats := (congrArg State.stats hrest :)
  have hu : u.stats.Ordered := hstats ▸ h
  rcases hcases with ⟨c, rfl⟩ | ⟨-, rfl⟩ | ⟨-, rfl⟩
  · exact hu
  · exact hu
  · exact endTopLevel_ordered (s := u.emit _) hu

/-- The end of an instruction counts it, and a refresh leaves the statistics (R421, R510). -/
theorem endInsn_ordered (hs : endInsn s = .next t) : t.stats.Ordered := by
  have counted (f : Frame) : (s.insnEnded f).stats.Ordered := h.withCounts _ _ _
  rcases endInsn_next hs with rfl | ⟨f, rfl | ⟨-, rfl⟩⟩
  · exact h
  · exact counted f
  · obtain ⟨c, m, htick⟩ := clockTick_rest (s.insnEnded f).readClock
    rw [htick]
    rcases State.watched_cases { (s.insnEnded f).readClock with clock := c, mem := m } with he | ⟨cause, -, he⟩ <;> rw [he] <;>
      exact counted f

end Ordered

/-- Settles O17: a new window, a counted cycle and a closed window keep the order, and no other kind of step writes an ordered field. -/
theorem statsOrdered : Obligations.StatsOrdered := by
  refine ⟨.zero 0, fun s t h hs => ?_⟩
  cases step_kind hs with
  | waits _ ht => rw [ht]; exact h
  | refuses _ l ht => rw [ht]; exact h
  | command i d l _ hexec => exact exec_ordered (s := s.given d l) h hexec
  | begins _ _ x run ht => rw [ht]; exact h
  | pops _ _ f b _ hpop => exact popFrame_ordered h hpop
  | illegal _ run _ d ws ht => rw [ht]; exact h
  | ends _ run _ _ hend => exact endInsn_ordered h hend

/-! ## The mode along a step -/

theorem CallEnds.control {s : State} {r : Res Data} (h : CallEnds s r) : r.state.control = s.control := by
  cases r with
  | err x u => exact (Effects.keeps (w := true) (r := false) h).control
  | ok v u =>
    obtain ⟨-, w, f, db, di, he, rfl, -⟩ := h
    exact he.keeps.control

theorem writeReg_control (r : BitVec 4) (v : Data) (s : State) : (writeReg r v s).state.control = s.control := by
  unfold writeReg
  split
  case h_3 | h_4 => split_ifs <;> rfl
  all_goals rfl

/-- The effect of a micro-command writes neither the mode nor any other field of the control half. -/
theorem exec_control {i : Instr} (hi : isHostCommand i = false) :
    ∃ k, (∀ s, exec i s = microCmd s k) ∧ ∀ f b s, (k f b s).state.control = s.control := by
  have of_effects {s t : State} (h : Effects true true s t) : t.control = s.control := h.keeps.control
  cases i with
  | startup | runCycle | reset | configSet _ _ | imageRead _ _ _ | imageWrite _ _ _ => cases hi
  | fetch m d =>
    exact ⟨_, fun _ => rfl, fun _ _ s => of_effects (.withOpnd d (.bind (.checkedDesc m d s) fun D u _ => .fetchOp D u))⟩
  | store m d => exact ⟨_, fun _ => rfl, fun _ _ s => of_effects (execStore_effects m d s)⟩
  | regRead r => exact ⟨_, fun _ => rfl, fun _ _ s => of_effects (.bind (.readReg r s.topIp s) fun _ u _ => .refl u)⟩
  | regWrite r =>
    refine ⟨_, fun _ => rfl, fun _ _ s => ?_⟩
    rw [Res.state_bind_ok]
    exact writeReg_control r s.din s
  | openDb sel n => exact ⟨_, fun _ => rfl, fun _ _ s => by split_ifs <;> cases sel <;> rfl⟩
  | stwWrite m v => exact ⟨fun _ _ s => .ok 0 (s.setStw (stwMasked s.regs.stw m v)), fun _ => rfl, fun _ _ _ => rfl⟩
  | ccSet a1 a0 o => exact ⟨fun _ _ s => .ok 0 (s.setStw (stwCcSet s.regs.stw a1 a0 o)), fun _ => rfl, fun _ _ _ => rfl⟩
  | tcOp sel i op a => exact ⟨_, fun _ => rfl, fun _ _ s => by dsimp only; split_ifs <;> cases sel <;> rfl⟩
  | jumpRel d => exact ⟨fun _ _ s => .ok 0 (s.setRj d.toInt), fun _ => rfl, fun _ _ _ => rfl⟩
  | jumpLabel l => exact ⟨_, fun _ => rfl, fun _ _ _ => by split <;> rfl⟩
  | blockEnd => exact ⟨fun f b s => .ok 0 (s.setRj ((b.len : Int) - f.ip)), fun _ => rfl, fun _ _ _ => rfl⟩
  | parenPush e => exact ⟨_, fun _ => rfl, fun _ _ _ => by split_ifs <;> rfl⟩
  | parenPop => exact ⟨_, fun _ => rfl, fun _ _ _ => by split <;> rfl⟩
  | mcrPush v => exact ⟨_, fun _ => rfl, fun _ _ _ => by split_ifs <;> rfl⟩
  | mcrPop => exact ⟨_, fun _ => rfl, fun _ _ _ => by split <;> rfl⟩
  | mcrState => exact ⟨fun _ _ s => .ok (BitVec.ofNat 48 (s.mcr.getLast?.getD true).toNat) s, fun _ => rfl, fun _ _ _ => rfl⟩
  | callFc m t pl => exact ⟨_, fun _ => rfl, fun _ _ s => (callFcOp_ends false m t pl s).control⟩
  | callFcSys m t pl => exact ⟨_, fun _ => rfl, fun _ _ s => (callFcOp_ends true m t pl s).control⟩
  | callFb m t x pl => exact ⟨_, fun _ => rfl, fun _ _ s => (callFbOp_ends false m t x pl s).control⟩
  | callFbSys m t x pl => exact ⟨_, fun _ => rfl, fun _ _ s => (callFbOp_ends true m t x pl s).control⟩
  | callMi m t pl => exact ⟨_, fun _ => rfl, fun _ _ s => (callMiOp_ends false m t pl s).control⟩
  | callMiSys m t pl => exact ⟨_, fun _ => rfl, fun _ _ s => (callMiOp_ends true m t pl s).control⟩
  | rawFc m n t => exact ⟨_, fun _ => rfl, fun _ _ s => (rawFcOp_ends false m n t s).control⟩
  | rawFcSys m n t => exact ⟨_, fun _ => rfl, fun _ _ s => (rawFcOp_ends true m n t s).control⟩
  | rawFb m n t => exact ⟨_, fun _ => rfl, fun _ _ s => (rawFbOp_ends false m n t s).control⟩
  | rawFbSys m n t => exact ⟨_, fun _ => rfl, fun _ _ s => (rawFbOp_ends true m n t s).control⟩
  | rawMi m n t => exact ⟨_, fun _ => rfl, fun _ _ s => (rawMiOp_ends false m n t s).control⟩
  | rawMiSys m n t => exact ⟨_, fun _ => rfl, fun _ _ s => (rawMiOp_ends true m n t s).control⟩

/-- A step that leaves the mode, or one out of a mode that admits a run: never to UNINIT, and to CYCLING only from a mode that admits a
cycle (R470, R480, R484, R545). -/
def AllowedMove (m m' : Mode) : Prop :=
  m' = m ∨ (m ≠ .faulted ∧ m ≠ .maint ∧ m' ≠ .uninit ∧ (m' = .cycling → m ≠ .uninit))

theorem AllowedMove.modeStep {m m' : Mode} (h : AllowedMove m m') : modeStep m m' = true := by
  rcases h with rfl | ⟨hfaulted, hmaint, huninit, hcycling⟩
  · simp [Machine.modeStep]
  · cases m' with
    | uninit => exact absurd rfl huninit
    | cycling => have := hcycling rfl; cases m <;> first | rfl | contradiction
    | _ => cases m <;> first | rfl | contradiction

/-- A fault of a running core (R545): no kind of error leads to UNINIT or CYCLING. -/
theorem AllowedMove.fault {m : Mode} (h : m ≠ .faulted ∧ m ≠ .maint) (s : State) (x : Raise) (l : Option Loc) :
    AllowedMove m (s.takeFault x l).mode := by
  have hnew : x.cause.modeAfter ≠ .uninit ∧ x.cause.modeAfter ≠ .cycling := by cases x.cause <;> exact ⟨nofun, nofun⟩
  exact .inr ⟨h.1, h.2, hnew.1, fun hc => absurd hc hnew.2⟩

/-- STARTUP is allowed outside FAULTED and MAINT, and leads to STARTED when it is done at once (R470). -/
theorem startupCmd_mode (s : State) : AllowedMove s.mode (startupCmd s).mode := by
  have run : ∀ u : State, (startupRun u).mode = .started ∨ (startupRun u).mode = u.mode := fun u => by
    rw [startupRun_eq]
    split
    · exact .inl rfl
    · exact .inr (by show u.startupReady.mode = u.mode; rw [State.startupReady_eq])
  have allowed : ∀ u : State, u.mode = s.mode → ¬ (s.mode = .faulted ∨ s.mode = .maint) →
      AllowedMove s.mode (startupRun u).mode := fun u hu hmode => by
      obtain ⟨hfaulted, hmaint⟩ := not_or.1 hmode
      rcases run u with hm | hm <;> rw [hm]
      · exact .inr ⟨hfaulted, hmaint, nofun, nofun⟩
      · exact .inl hu
  unfold startupCmd
  split_ifs with hmode
  · exact .inl rfl
  · exact allowed s rfl hmode
  · exact allowed _ rfl hmode
  · exact .inl rfl

section ModeMoves

variable {s t : State} (hrun : s.phase ≠ .idle → s.mode ≠ .faulted ∧ s.mode ≠ .maint)
include hrun

theorem hostCmd_mode {k : State → State} (hs : hostCmd s k = .next t) (hk : AllowedMove s.mode (k s).mode) :
    AllowedMove s.mode t.mode := by
  rcases hostCmd_next s k with ⟨-, he⟩ | ⟨hp, r, -, he⟩ <;> rw [he] at hs <;> cases hs
  · exact hk
  · exact .fault (hrun hp) _ _ _

theorem microCmd_mode {k : Frame → CodeBlock → State → Res Data} (hk : ∀ f b s, (k f b s).state.control = s.control)
    (hs : microCmd s k = .next t) : AllowedMove s.mode t.mode := by
  rcases microCmd_next hs with ⟨-, rfl⟩ | ⟨hp, rfl⟩ | ⟨f, b, hr, hu⟩
  · exact .inl rfl
  · exact .fault (hrun hp) _ _ _
  · obtain ⟨-, hmode, -⟩ := State.control_eq.1 (hk f b s)
    rcases hu with ⟨v, u, hu, rfl⟩ | ⟨x, u, hu, rfl⟩
    · rw [hu] at hmode
      exact .inl hmode
    · exact .fault (hrun hr.active) _ _ _

/-- RESET is the one command that may leave the mode along another way (R490). -/
theorem exec_mode {i : Instr} (hs : exec i s = .next t) :
    AllowedMove s.mode t.mode ∨ (s.phase = .idle ∧ i = .reset ∧ t.mode = .uninit) := by
  cases hi : isHostCommand i with
  | false =>
    obtain ⟨k, hexec, hk⟩ := exec_control hi
    exact .inl (microCmd_mode hrun hk ((hexec s).symm.trans hs))
  | true =>
    cases i with
    | startup => exact .inl (hostCmd_mode hrun hs (startupCmd_mode s))
    | runCycle => exact .inl (hostCmd_mode hrun hs (.inl (runCycleCmd_keeps s).1))
    | reset =>
      rcases hostCmd_next s resetCmd with ⟨hp, he⟩ | ⟨hp, r, -, he⟩ <;> cases he.symm.trans hs
      · exact .inr ⟨hp, rfl, rfl⟩
      · exact .inl (.fault (hrun hp) _ _ _)
    | configSet p v =>
      refine .inl (hostCmd_mode hrun hs (.inl ?_))
      rcases configSetCmd_writes p v s with ⟨c, m, r, he⟩ | ⟨c, m, r, he⟩
      · rw [he]
      · rw [he]; rfl
    | imageRead sel off len =>
      obtain ⟨r, he⟩ := imageReadCmd_writes sel off len s
      exact .inl (hostCmd_mode hrun hs (.inl (by rw [he])))
    | imageWrite sel off data =>
      obtain ⟨m, r, he⟩ := imageWriteCmd_writes sel off data s
      exact .inl (hostCmd_mode hrun hs (.inl (by rw [he])))
    | _ => cases hi

end ModeMoves

/-- The end of a top-level call: STARTED, or CYCLING, which only a cycle reaches (R484). -/
theorem endTopLevel_mode {s : State} (hrun : s.mode ≠ .faulted ∧ s.mode ≠ .maint) (hcycle : s.phase = .cycle → s.mode ≠ .uninit) :
    AllowedMove s.mode (endTopLevel s).mode := by
  unfold endTopLevel
  split
  · rename_i hp
    exact .inr ⟨hrun.1, hrun.2, nofun, fun _ => hcycle hp⟩
  · exact .inr ⟨hrun.1, hrun.2, nofun, nofun⟩
  · exact .inl rfl

theorem popFrame_mode {s t : State} {f : Frame} {b : CodeBlock} (h : s.Inv) (hp : s.phase ≠ .idle) (hs : popFrame f b s = .next t) :
    AllowedMove s.mode t.mode := by
  obtain ⟨u, hrest, hcases⟩ := popFrame_next hs
  have hmode : u.mode = s.mode := (congrArg State.mode hrest :)
  have hphase : u.phase = s.phase := (congrArg State.phase hrest :)
  rcases hcases with ⟨c, rfl⟩ | ⟨-, rfl⟩ | ⟨-, rfl⟩
  · exact .fault (h.runMode hp) _ _ _
  · exact .inl hmode
  · have hend := endTopLevel_mode (s := u.emit (.blockExit f.kind f.num)) (by rw [State.emit_mode, hmode]; exact h.runMode hp)
      (by rw [State.emit_mode, State.emit_phase, hmode, hphase]; exact h.cycleMode)
    rwa [State.emit_mode, hmode] at hend

theorem endInsn_mode {s t : State} (hrun : s.mode ≠ .faulted ∧ s.mode ≠ .maint) (hs : endInsn s = .next t) :
    AllowedMove s.mode t.mode := by
  rcases endInsn_next hs with rfl | ⟨f, rfl | ⟨-, rfl⟩⟩
  · exact .fault hrun _ _ _
  · exact .inl rfl
  · obtain ⟨c, m, htick⟩ := clockTick_rest (s.insnEnded f).readClock
    rw [htick]
    rcases State.watched_cases { (s.insnEnded f).readClock with clock := c, mem := m } with he | ⟨cause, -, he⟩ <;> rw [he]
    · exact .inl rfl
    · exact .fault hrun _ _ _

/-- Every step from a legal state is an allowed move of the mode, or the RESET of an idle core (R536, R549). -/
theorem step_mode {s t : State} (h : s.Inv) (hs : step s = .next t) :
    AllowedMove s.mode t.mode ∨ (s.phase = .idle ∧ s.Runs .reset ∧ t.mode = .uninit) := by
  cases step_kind hs with
  | waits _ ht => rw [ht]; exact .inl (.inl rfl)
  | refuses _ l ht => rw [ht]; exact .inl (.inl rfl)
  | command i d l hr hexec =>
    refine (exec_mode (s := s.given d l) h.runMode hexec).imp_right ?_
    rintro ⟨hp, rfl, hm⟩
    exact ⟨hp, hr, hm⟩
  | begins _ _ x run ht => rw [ht]; exact .inl (.inl rfl)
  | pops hp _ f b _ hpop => exact .inl (popFrame_mode h hp hpop)
  | illegal hp run _ d ws ht => rw [ht]; exact .inl (.fault (h.runMode hp) _ _ _)
  | ends hp run _ _ hend => exact .inl (endInsn_mode (h.runMode hp) hend)

/-- Settles O18: an allowed move is in the table, and so is the way of RESET to UNINIT from any mode. -/
theorem modeMachine : Obligations.ModeMachine := by
  intro s t h hs
  rcases step_mode h hs with hmove | ⟨-, -, hm⟩
  · exact hmove.modeStep
  · rw [hm]
    cases s.mode <;> rfl

/-- Settles O19: no allowed move leaves FAULTED or MAINT. -/
theorem onlyResetRecovers : Obligations.OnlyResetRecovers := by
  intro s t h hmode hs hne
  refine (step_mode h hs).resolve_left ?_
  rintro (hsame | ⟨hfaulted, hmaint, -⟩)
  · exact hne hsame
  · exact hmode.elim hfaulted hmaint

end Sys2Proof.Machine

/-! PROOFS. The clock byte in closed form, and RUN_CYCLE (44_scheduler R480 to R482, R510, R521, R522). -/

namespace Sys2Proof.Machine

open Sys2Proof

/-! ## The clock byte -/

/-- Setting the bits of a list that satisfy a condition, one after the other. -/
theorem getLsbD_foldl_setBits (p : Nat → Prop) [DecidablePred p] {i : Nat} (hi : i < 8) (l : List Nat) (m : BitVec 8) :
    (l.foldl (fun (m : BitVec 8) n => if p n then m ||| BitVec.ofNat 8 (2 ^ n) else m) m).getLsbD i =
      (m.getLsbD i || decide (i ∈ l ∧ p i)) := by
  induction l generalizing m with
  | nil => simp
  | cons n r ih =>
    have hbit : (BitVec.ofNat 8 (2 ^ n)).getLsbD i = decide (n = i) := by
      rw [BitVec.getLsbD_ofNat, Nat.testBit_two_pow, decide_eq_true hi, Bool.true_and]
    have hset : (if p n then m ||| BitVec.ofNat 8 (2 ^ n) else m).getLsbD i = (m.getLsbD i || decide (n = i ∧ p n)) := by
      split_ifs with hp
      · rw [BitVec.getLsbD_or, hbit]
        simp only [hp, and_true]
      · simp only [hp, and_false, decide_false, Bool.or_false]
    rw [List.foldl_cons, ih, hset, Bool.or_assoc, ← Bool.decide_or]
    refine congrArg (m.getLsbD i || ·) (decide_eq_decide.2 ?_)
    rw [List.mem_cons, or_and_right, eq_comm (a := i)]
    exact or_congr_left (and_congr_right fun hn => by rw [hn])

/-- Bit `n` toggles when its period divides the tick counter (R521). -/
theorem toggleMask_getLsbD (c : Nat) {n : Nat} (hn : n < 8) :
    (toggleMask c).getLsbD n = decide (c % Config.clockPeriods.getD n 1 = 0) := by
  refine (getLsbD_foldl_setBits (fun n => c % Config.clockPeriods.getD n 1 = 0) hn (List.range 8) 0).trans ?_
  simp [hn]

/-- The tick counter runs modulo 80, of which every period is a divisor (R521). -/
theorem clockPeriods_dvd {n : Nat} (hn : n < 8) : Config.clockPeriods.getD n 1 ∣ 80 := by
  revert n
  decide

theorem tickOnce_clk (c : ClockMem) : (tickOnce c).clk = c.clk ^^^ toggleMask (tickOnce c).count.val := rfl

/-- The parity of a quotient changes exactly where the divisor divides the next number. -/
theorem succ_div_parity (k p : Nat) :
    decide ((k + 1) / p % 2 = 1) = (decide (k / p % 2 = 1) ^^ decide ((k + 1) % p = 0)) := by
  rw [Nat.succ_div]
  by_cases hdvd : p ∣ k + 1
  · have hmod := Nat.mod_eq_zero_of_dvd hdvd
    rcases Nat.mod_two_eq_zero_or_one (k / p) with h | h <;> simp [hdvd, hmod, h, Nat.add_mod]
  · have hmod : (k + 1) % p ≠ 0 := fun h => hdvd (Nat.dvd_of_mod_eq_zero h)
    simp [hdvd, hmod]

/-- Settles O27, by induction on the ticks: a tick toggles bit `n` exactly where the quotient by its period goes up. -/
theorem clockBits : Obligations.ClockBits := by
  intro k next n hn
  show (tickMany k ⟨0, 0, next, true⟩).clk.getLsbD n = decide (k / Config.clockPeriods.getD n 1 % 2 = 1)
  induction k with
  | zero => simp [tickMany]
  | succ k ih =>
    have hcount : (tickMany (k + 1) ⟨0, 0, next, true⟩).count.val = (k + 1) % 80 := by
      rw [tickMany_count]
      simp
    rw [tickMany_succ] at hcount ⊢
    rw [tickOnce_clk, BitVec.getLsbD_xor, ih, hcount, toggleMask_getLsbD _ hn, Nat.mod_mod_of_dvd _ (clockPeriods_dvd hn),
      ← succ_div_parity]

/-! ## RUN_CYCLE -/

theorem hostCmd_idle {s : State} (hp : s.phase = .idle) (k : State → State) : hostCmd s k = .next (k s) := if_pos hp

/-- The state RUN_CYCLE reads the clock in: no error, both stacks and the registers empty (R480, R481). -/
def State.cycleReady (s : State) : State := ({ s with err := ErrRec.none, cs := [], mcr := [] } : State).resetRegisters

theorem exec_runCycle {s : State} (hp : s.phase = .idle) (hmode : s.mode = .started ∨ s.mode = .cycling ∨ s.mode = .timefault) :
    exec .runCycle s = .next (beginTopLevel Config.mainOb .cycle (clockTick s.cycleReady.readClock)) := by
  have huninit : s.mode ≠ .uninit := by rcases hmode with h | h | h <;> rw [h] <;> decide
  have hfault : ¬ (s.mode = .faulted ∨ s.mode = .maint) := by rcases hmode with h | h | h <;> rw [h] <;> decide
  refine (hostCmd_idle hp runCycleCmd).trans ?_
  rw [runCycleCmd, if_neg huninit, if_neg hfault]
  rfl

/-- RUN_CYCLE at reading `n`: beside the clock memory and the clock byte, which the tick gives, it writes what the rules list (R480,
R481). -/
theorem runCycle_writes {s : State} {cb : CodeBlock} {n : Nat} {r : List Nat} (hp : s.phase = .idle)
    (hmode : s.mode = .started ∨ s.mode = .cycling ∨ s.mode = .timefault) (hcb : s.prog.code .ob Config.mainOb = some cb)
    (hclock : s.env.clock = n :: r) (hlast : s.env.lastReading ≤ n) :
    ∃ (c : ClockMem) (m : Memory) (locals : List Byte), locals.length = cb.tempSize ∧
      s.ClockTicked { s with clock := c, mem := m } n ∧
      exec .runCycle s = .next { s with
        err := ErrRec.none
        regs := Regs.zero
        mcr := []
        cs := [⟨.ob, Config.mainOb, 0, locals, [], [], [], false, .fclike, 0, 0, none⟩]
        clock := c
        mem := m
        time := { s.time with now := n, cycleStart := n }
        stats := { s.stats with cycInsn0 := s.stats.insnCount }
        env := { s.env with
          clock := r, lastReading := n, readings := s.env.readings + 1, framesBuilt := s.env.framesBuilt + 1 }
        phase := .cycle
        body := none
        reply := none } := by
  obtain ⟨hticked, c, m, hread⟩ := clockTick_readClock (s := s.cycleReady) hclock hlast
  rw [hread] at hticked
  refine ⟨c, m, _, State.length_newFrame s .ob Config.mainOb cb.tempSize, hticked.congr rfl rfl rfl rfl rfl rfl rfl, ?_⟩
  rw [exec_runCycle hp hmode, hread]
  refine (congrArg Host.Outcome.next (beginTopLevel_eq (b := cb) ?_ .cycle)).trans ?_
  · exact hcb
  · rfl

/-- Settles O56: what RUN_CYCLE writes, and the bytes that its tick leaves. -/
theorem runCycleEffect : Obligations.RunCycleEffect := by
  intro s cb n r hp hmode hcb hwf hclock hlast
  obtain ⟨c, m, locals, hlocals, hticked, hexec⟩ := runCycle_writes hp hmode hcb hclock hlast
  have hbyte := hticked.2 hwf
  refine ⟨_, hexec, rfl, rfl, rfl, rfl, rfl, rfl, rfl, rfl, rfl, rfl, rfl, rfl, rfl, ⟨locals, hlocals, rfl⟩, fun k a _ ha => ?_,
    fun a ha => ⟨?_, ?_, ?_⟩, hticked.congr rfl rfl rfl rfl rfl rfl rfl⟩
  · exact (hbyte (.db k) a rfl ha).trans (if_neg nofun)
  · exact (hbyte .inputs a rfl ha).trans (if_neg nofun)
  · exact (hbyte .outputs a rfl ha).trans (if_neg nofun)
  · refine (hbyte .flags a rfl ha).trans ?_
    simp only [true_and, and_assoc]

end Sys2Proof.Machine

/-! PROOFS. RESET and CONFIG_SET: what re-allocation leaves, and which settings are valid (44_scheduler R490, R500 to R505,
70_reset_and_hazards R580). -/

namespace Sys2Proof.Machine

open Sys2Proof

/-! ## Re-allocation -/

/-- Writing its reset byte below every listed address changes nothing. -/
theorem Memory.write_reset {d : Nat → Byte} {m : Memory} {a : Nat} (h : ∀ e ∈ m, a < e.1) : m.write d a (d a) = m := by
  cases m with
  | nil => simp [Memory.write]
  | cons c r => simp [Memory.write, h c List.mem_cons_self]

/-- The clock byte 0 is already there after re-allocation, so re-allocation is the same whether the clock memory runs or not (R504). -/
theorem realloc_exact (s : State) (c : Cfg) : realloc { s with cfg := c } = s.reallocated c := by
  rw [realloc_eq, ite_eq_right_iff]
  intro _
  unfold State.writeClockByte
  split
  · rfl
  · rename_i o _
    have hlow : Area.flags.addr o.toNat < dbBase := by
      have := o.isLt
      simp only [Area.addr, dbBase]
      omega
    have hwrite : s.mem.clearRegions.write (resetByte s.prog) (Area.flags.addr o.toNat) 0 = s.mem.clearRegions := by
      have hzero : resetByte s.prog (Area.flags.addr o.toNat) = 0 := if_pos hlow
      conv_lhs => rw [← hzero]
      exact Memory.write_reset fun e he => lt_of_lt_of_le hlow (of_decide_eq_true (List.mem_filter.1 he).2)
    show { s.reallocated c with mem := s.mem.clearRegions.write (resetByte s.prog) (Area.flags.addr o.toNat) 0 } = s.reallocated c
    rw [hwrite]
    rfl

theorem keptOffset_eq_some {c : Cfg} {o : BitVec 16} : keptOffset c = some o ↔ c.clockOffset = some o ∧ o.toNat < c.flagSize := by
  unfold keptOffset
  cases hc : c.clockOffset with
  | none => simp
  | some a =>
    simp only [Option.some.injEq]
    split_ifs with hge
    · simp only [false_iff, not_and]
      rintro rfl
      exact Nat.not_lt.2 hge
    · rw [Option.some.injEq, iff_self_and]
      rintro rfl
      exact Nat.lt_of_not_le hge

/-- An offset that fits is kept (R504). -/
theorem keptOffset_fits {c : Cfg} (h : ∀ o, c.clockOffset = some o → o.toNat < c.flagSize) : keptOffset c = c.clockOffset := by
  ext o
  exact keptOffset_eq_some.trans ⟨And.left, fun ho => ⟨ho, h o ho⟩⟩

/-- The regions cleared and the data blocks reset: nothing is listed. -/
theorem Memory.resetDbs_clearRegions (m : Memory) : m.clearRegions.resetDbs = [] := by
  rw [Memory.resetDbs, List.filter_eq_nil_iff]
  intro e he hlow
  have hhigh := of_decide_eq_true (List.mem_filter.1 he).2
  exact absurd (of_decide_eq_true hlow) (Nat.not_lt.2 hhigh)

section Bytes

variable {s : State} (c : Cfg) (hwf : s.mem.wf (resetByte s.prog) = true)
include hwf

/-- A byte of a cleared region reads 0 (R41, R504). -/
theorem State.byteAt_reallocated_region {y : Area} (hy : y.inMemory = true) {a : Nat} (hlow : y.addr a < dbBase) :
    (s.reallocated c).byteAt y a = 0 := by
  have hread := (Memory.clearRegions_spec hwf).2 (y.addr a)
  rw [if_neg (Nat.not_le.2 hlow)] at hread
  exact (State.byteAt_mem _ a hy).trans (hread.trans (if_pos hlow))

theorem State.byteAt_reallocated_db (k : BlockNum) (a : Nat) : (s.reallocated c).byteAt (.db k) a = s.byteAt (.db k) a := by
  have hread := (Memory.clearRegions_spec hwf).2 ((Area.db k).addr a)
  rwa [if_pos (by simp only [Area.addr, dbBase]; omega)] at hread

end Bytes

/-- Settles O57: re-allocation, then the data blocks and everything else back at their power-on values. -/
theorem resetToPowerOn : Obligations.ResetToPowerOn := by
  intro s hp hfits
  have halloc : realloc s = s.reallocated s.cfg := realloc_exact s s.cfg
  refine (hostCmd_idle hp resetCmd).trans ?_
  rw [resetCmd, halloc]
  simp only [State.reallocated, keptOffset_fits hfits, Memory.resetDbs_clearRegions]
  rfl

/-! ## Valid settings -/

theorem configValid_accus {c : Cfg} {v : Data} : configValid c 0 v = true ↔ v = 2 ∨ v = 4 := by
  simp [configValid, ← BitVec.toNat_inj]

theorem configValid_size {c : Cfg} {p : BitVec 4} {v : Data} (hlow : 1 ≤ p.toNat) (hhigh : p.toNat ≤ 5) :
    configValid c p v = true ↔ v.toNat ≤ 65536 := by
  have hparam : p.toNat = 1 ∨ p.toNat = 2 ∨ p.toNat = 3 ∨ p.toNat = 4 ∨ p.toNat = 5 := by omega
  rcases hparam with h | h | h | h | h <;> simp only [configValid, h, decide_eq_true_eq]

theorem configValid_cycleLimit {c : Cfg} {v : Data} : configValid c 6 v = true ↔ 1 ≤ v.toNat := decide_eq_true_iff

theorem configValid_extInsns {c : Cfg} {v : Data} : configValid c 9 v = true ↔ v.toNat ≤ 1 := by
  show (v.toNat == 0 || v.toNat == 1) = true ↔ _
  rw [Bool.or_eq_true, beq_iff_eq, beq_iff_eq]
  omega

/-- Bit 47 of a value says that it is at least `2^47`. -/
theorem getLsbD_47 (v : Data) : v.getLsbD 47 = decide (2 ^ 47 ≤ v.toNat) := by
  rw [← BitVec.msb_eq_decide v]
  rfl

/-- A clock offset is none, coded by bit 47 alone, or lies in the flag region (R501). -/
theorem configValid_clockOffset {c : Cfg} {v : Data} :
    configValid c 8 v = true ↔ v.toNat = 2 ^ 47 ∨ v.toNat < c.flagSize := by
  have hv := v.isLt
  have hflags := c.flagSize.isLt
  show (if v.getLsbD 47 then v.extractLsb' 0 47 == 0#47
    else v.extractLsb' 16 32 == 0#32 && decide ((v.extractLsb' 0 16).toNat < c.flagSize)) = true ↔ _
  rw [getLsbD_47]
  split_ifs with hnone <;> rw [decide_eq_true_iff] at hnone
  · rw [beq_iff_eq, ← BitVec.toNat_inj, BitVec.extractLsb'_toNat, BitVec.toNat_ofNat, Nat.shiftRight_zero]
    omega
  · rw [Bool.and_eq_true, beq_iff_eq, ← BitVec.toNat_inj, decide_eq_true_iff, BitVec.extractLsb'_toNat, BitVec.extractLsb'_toNat,
      BitVec.toNat_ofNat, Nat.shiftRight_zero, Nat.shiftRight_eq_div_pow]
    omega

/-! ## CONFIG_SET -/

theorem exec_configSet {s : State} (hp : s.phase = .idle) (p : BitVec 4) (v : Data) :
    exec (.configSet p v) s = .next (configSetCmd p v s) :=
  hostCmd_idle hp _

/-- A valid size, count or accumulator count re-allocates at the new configuration (R502, R504). -/
theorem configSetCmd_size {s : State} {p : BitVec 4} {v : Data} (hp : p.toNat ≤ 5) (hv : configValid s.cfg p v = true) :
    configSetCmd p v s = (s.reallocated (configSet s.cfg p v)).complete [] := by
  rw [configSetCmd, if_neg (by omega), if_pos hv]
  dsimp only
  rw [if_pos hp, realloc_exact]

/-- A valid limit or extension flag is only stored (R502). -/
theorem configSetCmd_stored {s : State} {p : BitVec 4} {v : Data} (hp : p = 6 ∨ p = 7 ∨ p = 9) (hv : configValid s.cfg p v = true) :
    configSetCmd p v s = { s with cfg := configSet s.cfg p v, reply := some (.ok []) } := by
  rw [configSetCmd, if_pos hv]
  rcases hp with rfl | rfl | rfl <;> rfl

/-- A valid clock offset is stored, and the clock byte placed when the clock memory runs (R502, R505). -/
theorem configSetCmd_clockOffset {s : State} {v : Data} (hv : configValid s.cfg 8 v = true) :
    configSetCmd 8 v s = (clockRelocate { s with cfg := configSet s.cfg 8 v }).complete [] := by
  rw [configSetCmd, if_pos hv]
  rfl

/-- The settings that re-allocate are valid, and set what they say (R501, R502). -/
theorem SizeSetting.accepted {c c' : Cfg} {p : BitVec 4} {v : Data} (h : SizeSetting c p v c') :
    p.toNat ≤ 5 ∧ configValid c p v = true ∧ configSet c p v = c' := by
  rcases h with ⟨rfl, rfl, rfl⟩ | ⟨rfl, rfl, rfl⟩ | ⟨n, hn, hset⟩
  · exact ⟨by decide, configValid_accus.2 (.inl rfl), rfl⟩
  · exact ⟨by decide, configValid_accus.2 (.inr rfl), rfl⟩
  · have hle : v.toNat ≤ 65536 := by omega
    have hfin : Fin.ofNat 65537 v.toNat = n := by rw [hn]; exact Fin.ofNat_val_eq_self n
    rcases hset with ⟨rfl, rfl⟩ | ⟨rfl, rfl⟩ | ⟨rfl, rfl⟩ | ⟨rfl, rfl⟩ | ⟨rfl, rfl⟩ <;>
      exact ⟨by decide, (configValid_size (by decide) (by decide)).2 hle, by rw [← hfin]; rfl⟩

/-- No clock byte (R501, R505). -/
theorem exec_configSet_noClockByte {s : State} {v : Data} (hp : s.phase = .idle) (hv : v.toNat = 2 ^ 47) :
    exec (.configSet 8 v) s = .next { s with cfg := { s.cfg with clockOffset := none }, reply := some (.ok []) } := by
  have hset : configSet s.cfg 8 v = { s.cfg with clockOffset := none } := by
    show { s.cfg with clockOffset := if v.getLsbD 47 then none else some (v.extractLsb' 0 16) } = _
    rw [getLsbD_47, if_pos (decide_eq_true hv.ge)]
  rw [exec_configSet hp, configSetCmd_clockOffset (configValid_clockOffset.2 (.inl hv)), hset, clockRelocate]
  split_ifs <;> rfl

/-- A clock byte inside the flag region (R501, R505). -/
theorem exec_configSet_clockByte {s : State} {v : Data} {o : BitVec 16} (hp : s.phase = .idle) (hv : v.toNat = o.toNat)
    (ho : o.toNat < s.cfg.flagSize) :
    exec (.configSet 8 v) s = .next ((clockRelocate { s with cfg := { s.cfg with clockOffset := some o } }).complete []) := by
  have hlt := o.isLt
  have hset : configSet s.cfg 8 v = { s.cfg with clockOffset := some o } := by
    show { s.cfg with clockOffset := if v.getLsbD 47 then none else some (v.extractLsb' 0 16) } = _
    have hoff : v.extractLsb' 0 16 = o := by
      rw [← BitVec.toNat_inj, BitVec.extractLsb'_toNat, Nat.shiftRight_zero, hv, Nat.mod_eq_of_lt hlt]
    rw [getLsbD_47, if_neg (by rw [decide_eq_true_iff]; omega), hoff]
  rw [exec_configSet hp, configSetCmd_clockOffset (configValid_clockOffset.2 (.inr (by rwa [hv]))), hset]

/-- Settles O58: the settings that re-allocate, those only stored, and the clock offset. -/
theorem configSetEffect : Obligations.ConfigSetEffect := by
  intro s v hp hwf
  refine ⟨fun p c hsize => ?_, fun hv => ?_, ?_, fun hv => ?_, exec_configSet_noClockByte hp,
    fun o hv ho => ⟨fun hoff => ?_, fun hon => ⟨s.mem.write (resetByte s.prog) (Area.flags.addr o.toNat) s.clock.clk, ?_, ?_⟩⟩⟩
  · obtain ⟨hparam, hvalid, hset⟩ := hsize.accepted
    have hzero {y : Area} {a : Nat} := State.byteAt_reallocated_region c hwf (y := y) (a := a)
    refine ⟨_, exec_configSet hp p v, ?_⟩
    rw [configSetCmd_size hparam hvalid, hset]
    refine ⟨rfl, rfl, fun o => keptOffset_eq_some, rfl, rfl, rfl, rfl, rfl, rfl, rfl, rfl, rfl, rfl, rfl, rfl,
      fun a ha => ⟨hzero (y := .inputs) rfl ?_, hzero (y := .outputs) rfl ?_, hzero (y := .flags) rfl ?_⟩,
      fun k a _ _ => State.byteAt_reallocated_db c hwf k a⟩ <;>
    (simp only [Area.addr, dbBase]; omega)
  · rw [exec_configSet hp, configSetCmd_stored (.inl rfl) (configValid_cycleLimit.2 hv)]
    rfl
  · rw [exec_configSet hp, configSetCmd_stored (.inr (.inl rfl)) rfl]
    rfl
  · rw [exec_configSet hp, configSetCmd_stored (.inr (.inr rfl)) (configValid_extInsns.2 hv)]
    rfl
  · rw [exec_configSet_clockByte hp hv ho, clockRelocate, if_neg (by rw [hoff]; decide)]
    rfl
  · rw [exec_configSet_clockByte hp hv ho, clockRelocate, if_pos hon]
    rfl
  · exact Memory.read_write _ _ hwf

end Sys2Proof.Machine

/-! PROOFS. Image accesses and refused host commands (44_scheduler R470, R480, R500, R501, R530, R531, 60_exceptions R547, R550). -/

namespace Sys2Proof.Machine

open Sys2Proof

/-! ## Image accesses -/

/-- Every memory byte after bytes have been written to the input region, whose window begins at address 0 (R531). -/
theorem State.read_writeInputs (bs : List Byte) : ∀ (s : State) (b : Nat), s.mem.wf (resetByte s.prog) = true → ∀ a,
    (s.writeBytes .inputs b bs).mem.read (resetByte s.prog) a =
      if b ≤ a ∧ a < b + bs.length then bs.getD (a - b) 0 else s.mem.read (resetByte s.prog) a := by
  induction bs with
  | nil => intro s b _ a; rw [if_neg (by simp only [List.length_nil]; omega)]; rfl
  | cons v r ih =>
    intro s b hwf a
    have htail := ih (s.setByte .inputs b v) (b + 1) (s.setByte_wf .inputs b v hwf) a
    have hhead : (s.setByte .inputs b v).mem.read (resetByte s.prog) a = if a = b then v else s.mem.read (resetByte s.prog) a :=
      Memory.read_write b v hwf a
    rw [State.setByte_prog, hhead] at htail
    rw [State.writeBytes, htail, List.length_cons]
    rcases lt_trichotomy a b with hlt | rfl | hgt
    · rw [if_neg (by omega), if_neg (by omega), if_neg (by omega)]
    · rw [if_neg (by omega), if_pos rfl, if_pos (by omega), Nat.sub_self, List.getD_cons_zero]
    · rw [show a - b = a - (b + 1) + 1 by omega, List.getD_cons_succ, if_neg (c := a = b) (by omega)]
      exact if_congr (by omega) rfl rfl

section Images

variable {s : State} (hp : s.phase = .idle)
include hp

/-- IMAGE_READ in range answers the bytes of its region (R530). -/
theorem exec_imageRead {sel : Bool} {off len : BitVec 16} (h : off.toNat + len.toNat ≤ s.areaSize (if sel then .outputs else .inputs)) :
    exec (.imageRead sel off len) s =
      .next { s with reply := some (.ok (s.readBytes (if sel then .outputs else .inputs) off.toNat len.toNat)) } :=
  (hostCmd_idle hp _).trans (congrArg _ (if_neg (Nat.not_lt.2 h)))

theorem exec_imageRead_range {sel : Bool} {off len : BitVec 16}
    (h : s.areaSize (if sel then .outputs else .inputs) < off.toNat + len.toNat) :
    exec (.imageRead sel off len) s = .next { s with reply := some (.refused .imageRange) } :=
  (hostCmd_idle hp _).trans (congrArg _ (if_pos h))

/-- IMAGE_WRITE in range writes the input region (R531). -/
theorem exec_imageWrite {off : BitVec 16} {data : List Byte} (h : off.toNat + data.length ≤ s.cfg.inputSize) :
    exec (.imageWrite false off data) s = .next ((s.writeBytes .inputs off.toNat data).complete []) :=
  (hostCmd_idle hp _).trans (congrArg _ (if_neg (Nat.not_lt.2 h)))

theorem exec_imageWrite_range {off : BitVec 16} {data : List Byte} (h : (s.cfg.inputSize : Nat) < off.toNat + data.length) :
    exec (.imageWrite false off data) s = .next { s with reply := some (.refused .imageRange) } :=
  (hostCmd_idle hp _).trans (congrArg _ (if_pos h))

end Images

/-- Settles O59: the two reads, and the bytes of a write. -/
theorem imageAccess : Obligations.ImageAccess := by
  refine fun s off len data hp => ⟨fun h => exec_imageRead hp h, fun h => exec_imageRead hp h, fun h hwf =>
    ⟨(s.writeBytes .inputs off.toNat data).mem, ?_, State.read_writeInputs data s off.toNat hwf⟩⟩
  rw [exec_imageWrite hp h, State.writeInputs_eq]
  rfl

/-! ## Refusals -/

section Refusals

variable {s : State} (hp : s.phase = .idle)
include hp

theorem exec_startup_needsReset (h : s.mode = .faulted ∨ s.mode = .maint) :
    exec .startup s = .next { s with reply := some (.refused .needsReset) } :=
  (hostCmd_idle hp _).trans (congrArg _ (if_pos h))

theorem exec_runCycle_notStarted (h : s.mode = .uninit) : exec .runCycle s = .next { s with reply := some (.refused .notStarted) } :=
  (hostCmd_idle hp _).trans (congrArg _ (if_pos h))

theorem exec_runCycle_needsReset (h : s.mode = .faulted ∨ s.mode = .maint) :
    exec .runCycle s = .next { s with reply := some (.refused .needsReset) } := by
  have huninit : s.mode ≠ .uninit := by rcases h with h | h <;> rw [h] <;> decide
  refine (hostCmd_idle hp runCycleCmd).trans ?_
  rw [runCycleCmd, if_neg huninit, if_pos h]
  rfl

/-- A build without OB 1 (R550). -/
theorem exec_startup_noMain (hfaulted : s.mode ≠ .faulted) (hmaint : s.mode ≠ .maint) (hbuilt : s.built = false)
    (hmain : s.prog.code .ob Config.mainOb = none) : exec .startup s = .next (s.takeBuildError .noMain) := by
  refine (hostCmd_idle hp startupCmd).trans ?_
  rw [startupCmd, if_neg (not_or.2 ⟨hfaulted, hmaint⟩), hbuilt, hmain]
  rfl

theorem exec_configSet_reserved {p : BitVec 4} (v : Data) (h : 10 ≤ p.toNat) :
    exec (.configSet p v) s = .next { s with reply := some (.refused .illegalCommand) } :=
  (exec_configSet hp p v).trans (congrArg _ (if_pos h))

theorem exec_configSet_invalid {p : BitVec 4} {v : Data} (hlow : p.toNat < 10) (h : ¬ configValid s.cfg p v = true) :
    exec (.configSet p v) s = .next { s with reply := some (.refused .badConfig) } := by
  rw [exec_configSet hp, configSetCmd, if_neg (Nat.not_le.2 hlow), if_neg h]
  rfl

end Refusals

/-- Settles O60: each command against the test that refuses it. -/
theorem hostRefusals : Obligations.HostRefusals := by
  intro s hp
  refine ⟨fun h => ⟨exec_startup_needsReset hp h, exec_runCycle_needsReset hp h⟩, exec_runCycle_notStarted hp,
    exec_startup_noMain hp, fun p v h => exec_configSet_reserved hp v h, fun p v h => ?_,
    fun off len h => exec_imageRead_range hp h, fun off len h => exec_imageRead_range hp h,
    fun off data => hostCmd_idle hp _, fun off data h => exec_imageWrite_range hp h⟩
  rcases h with ⟨rfl, htwo, hfour⟩ | ⟨hlow, hhigh, hsize⟩ | ⟨rfl, rfl⟩ | ⟨rfl, hflag⟩ | ⟨rfl, hnone, hoff⟩
  · exact exec_configSet_invalid hp (by decide) fun hv => (configValid_accus.1 hv).elim htwo hfour
  · exact exec_configSet_invalid hp (by omega) fun hv => absurd ((configValid_size hlow hhigh).1 hv) (Nat.not_le.2 hsize)
  · exact exec_configSet_invalid hp (by decide) fun hv => absurd (configValid_cycleLimit.1 hv) (by decide)
  · exact exec_configSet_invalid hp (by decide) fun hv => absurd (configValid_extInsns.1 hv) (Nat.not_le.2 hflag)
  · exact exec_configSet_invalid hp (by decide) fun hv => (configValid_clockOffset.1 hv).elim hnone (Nat.not_lt.2 hoff)

end Sys2Proof.Machine

/-! PROOFS. The power-on state: what its memory and its cells read as, and that it is legal (70_reset_and_hazards R580, R587). -/

namespace Sys2Proof.Machine

open Sys2Proof

section PowerOn

variable (c : Cfg) (p : Prog)

theorem State.powerOn_cleanEntry : (State.powerOn c p).CleanEntry := rfl

/-- Nothing is listed in memory at power-on, so a byte of a region or a data block reads as its reset byte (R41, R42). -/
theorem State.byteAt_powerOn {y : Area} (hy : y.inMemory = true) (b : Nat) :
    (State.powerOn c p).byteAt y b = resetByte p (y.addr b) :=
  State.byteAt_mem _ b hy

theorem State.byteAt_powerOn_region {y : Area} (hy : y.inMemory = true) {b : Nat} (hlow : y.addr b < dbBase) :
    (State.powerOn c p).byteAt y b = 0 :=
  (State.byteAt_powerOn c p hy b).trans (if_pos hlow)

theorem State.byteAt_powerOn_db {n : BlockNum} {d : DataBlock} {b : Nat} (hd : p.dataBlock n = some d) (hb : b < 65536) :
    (State.powerOn c p).byteAt (.db n) b = d.init.getD b 0 :=
  (State.byteAt_powerOn c p rfl b).trans (resetByte_db hd hb)

/-- Every cell holds the cell model's reset value, and so does an index past the configured count (R43). -/
theorem State.cell_powerOn (k : CellKind) (i : Nat) : (State.powerOn c p).cell k i = Config.tcmReset := by
  cases k
  case timer => exact List.getElem?_getD_replicate_default_eq Config.tcmReset c.timerCount i
  case counter => exact List.getElem?_getD_replicate_default_eq Config.tcmReset c.counterCount i

/-- Power-on is legal under any configuration whose clock byte, cycle limit and lead are in range (R7). -/
theorem State.powerOn_inv {c : Cfg} (hclock : ∀ o, c.clockOffset = some o → o.toNat < c.flagSize) (hlimit : 0 < c.cycleLimit)
    (hlead : c.msWrapLead ≤ 2 ^ c.msClockBits) : (State.powerOn c p).Inv where
  memWf := rfl
  memMapped := fun _ he => absurd he List.not_mem_nil
  timers := List.length_replicate
  counters := List.length_replicate
  mcr := Nat.zero_le _
  frames := fun _ hf => absurd hf List.not_mem_nil
  dbReg := .inl rfl
  diReg := .inl rfl
  accus := fun _ => ⟨rfl, rfl⟩
  clockByte := hclock
  cycleLimit := hlimit
  lead := hlead
  now := le_refl _
  cycleStart := le_refl _
  runStart := le_refl _
  winStart := le_refl _
  msBase := le_refl _
  frame := fun hp => absurd rfl hp
  runMode := fun hp => absurd rfl hp
  runBuilt := fun hp => absurd rfl hp
  cycleMode := nofun
  modeBuilt := fun hm => absurd rfl hm
  builtMain := nofun
  errKind := rfl
  body := nofun

end PowerOn

theorem State.reset_inv : State.reset.Inv :=
  State.powerOn_inv Prog.empty nofun (by decide : 0 < 1000000000000) (by decide : 1000 ≤ 2 ^ 31)

/-- Settles O13: the fields by definition, the bytes and the cells by what power-on reads as. -/
theorem resetState : Obligations.ResetState := by
  refine ⟨fun c p => ?_, State.powerOn_cleanEntry Config.cfg0 Prog.empty, State.reset_inv⟩
  have hregions : ∀ b, b < 65536 → (State.powerOn c p).byteAt .inputs b = 0 ∧ (State.powerOn c p).byteAt .outputs b = 0 ∧
      (State.powerOn c p).byteAt .flags b = 0 := by
    intro b hb
    refine ⟨State.byteAt_powerOn_region c p rfl ?_, State.byteAt_powerOn_region c p rfl ?_, State.byteAt_powerOn_region c p rfl ?_⟩ <;>
      · simp only [Area.addr, dbBase]
        omega
  exact ⟨State.powerOn_cleanEntry c p, rfl, rfl, rfl, rfl, rfl, rfl, rfl, rfl, rfl, rfl, rfl, rfl, rfl, rfl, rfl, hregions,
    fun _ _ _ => State.byteAt_powerOn_db c p, fun i => ⟨State.cell_powerOn c p .timer i, State.cell_powerOn c p .counter i⟩,
    List.length_replicate, List.length_replicate⟩

end Sys2Proof.Machine
